-- ==== Sys2Proof/Word.lean ====
section
/-! DEFINITION. The word types of the RIO-PE (00_scope.md R9): unsigned integers of 8, 16, 32 and 64 bits, and the
64-bit NUM of the times and statistics (00_scope.md R8). Nothing here computes; bit 0 is the least significant bit. -/

namespace Sys2Proof

/-- u8 (00_scope.md R9). -/
abbrev Byte := BitVec 8
/-- u16: a sequence number; its arithmetic wraps modulo 65536 (00_scope.md R9). -/
abbrev U16 := BitVec 16
/-- u32 (00_scope.md R9). -/
abbrev U32 := BitVec 32
/-- u64: a counter, which wraps modulo 2^64 (10_state.md R31). -/
abbrev U64 := BitVec 64
/-- A NUM as the 64-bit word a register holds (10_state.md R22, R26; 20_memory.md R62); its format is an argument of the
model (00_scope.md R8, Config.lean). -/
abbrev NumWord := BitVec 64

end Sys2Proof
end

