-- ==== Sys2Proof/Config.lean ====
section
/-! DEFINITION. The identity of the model (00_scope.md R2); what is fixed when the block is built (00_scope.md R7 and R8), as
plain data that State carries as an argument of the model (log 3); and the FREE VALUES: constants with no body, of which
nothing can be proved, for the values the spec leaves open (log 1, log 2, log 7, log 10). -/

namespace Sys2Proof

/-- The identity a model carries (00_scope.md R2): the edition of the source document and the spec it is written from. -/
structure Identity where
  /-- The source document (spec/00_scope.md names its file). -/
  source : String
  edition : String
  spec : String
  deriving DecidableEq, Repr

/-- The pair (RIOJS edition v7, this spec) of 00_scope.md R2. The block has no other ISA string, part number or version. -/
def identity : Identity := ⟨"RIOJS", "v7", "RIO-PE, spec/00_scope.md to spec/98_reader.md"⟩

/-- NUM, the number format of times, statistics and smoothing factors: an argument of the model (00_scope.md R8). -/
inductive NumFormat where
  /-- The default: IEEE 754 binary64 with round-to-nearest-even (log 1). -/
  | binary64
  /-- Any other format of 64-bit words, by a number that selects it; nothing is known of it but what 00_scope.md R11 and
  44_smoother.md R180 say of every format (log 1). -/
  | other (id : Nat)
  deriving DecidableEq, Repr

/-- The implementation maxima of 00_scope.md R7 and the open parameters NUM, SNAP_EPS and RESET_CLEARS_STATS of R8. -/
structure Params where
  /-- MAX_SB_ENTRIES: slots per SequenceBuffer instance. -/
  maxSbEntries : Nat
  /-- MAX_ACKS: ack-list entries. -/
  maxAcks : Nat
  /-- IBUF_BYTES: input byte-buffer size. -/
  ibufBytes : Nat
  /-- OBUF_BYTES: output byte-buffer size. -/
  obufBytes : Nat
  /-- REASM_BYTES: data bytes per reassembly slot. -/
  reasmBytes : Nat
  /-- MAX_NEST: depth of the command stack. -/
  maxNest : Nat
  /-- NUM: the number format. -/
  num : NumFormat
  /-- SNAP_EPS: the smoothing snap threshold. -/
  snapEps : NumWord
  /-- RESET_CLEARS_STATS: whether EP_RESET also zeroes counters, statistics and TIME. -/
  resetClearsStats : Bool
  deriving DecidableEq, Repr

/-- EBUF_BYTES, derived: `max(IBUF_BYTES, OBUF_BYTES) + 14` (00_scope.md R7). -/
def Params.ebufBytes (p : Params) : Nat := max p.ibufBytes p.obufBytes + 14

/-- The constraint column of 00_scope.md R7. -/
abbrev Params.wf (p : Params) : Prop :=
  1 ≤ p.maxSbEntries ∧ p.maxSbEntries ≤ 65536 ∧ 1 ≤ p.maxAcks ∧ p.maxAcks ≤ 16384 ∧
  1 ≤ p.ibufBytes ∧ p.ibufBytes ≤ 1048562 ∧ 9 ≤ p.obufBytes ∧ p.obufBytes ≤ 1048562 ∧
  9 ≤ p.reasmBytes ∧ 2 ≤ p.maxNest ∧ p.maxNest ≤ 255

/-- The reference parameters of 95_test_vectors.md §0, which State.reset carries. DESIGN CHOICE (log 3): the spec makes
each an argument; every statement about all states holds for every value. -/
def Params.reference : Params where
  maxSbEntries := 1024
  maxAcks := 1024
  ibufBytes := 16400
  obufBytes := 16400
  reasmBytes := 16400
  maxNest := 4
  num := .binary64
  snapEps := 0x3EE4F8B588E368F1#64
  resetClearsStats := false

/-- The NUM operations (00_scope.md R11). -/
inductive NumOp where
  | add
  | sub
  | mul
  | div
  deriving DecidableEq, Repr

/-- The NUM comparisons the rules make (00_scope.md R11): of two values, and of a magnitude `absN` with a value. -/
inductive NumCompare where
  | lt
  | eq
  | absLt
  | ltAbs
  deriving DecidableEq, Repr

/-- FREE VALUE (log 2): the sign of a NaN result of binary64, by operation and operands. -/
opaque Config.nanSign : NumOp → NumWord → NumWord → Bool
/-- FREE VALUE (log 2): the low 51 bits of a NaN result of binary64, by operation and operands. -/
opaque Config.nanPayload : NumOp → NumWord → NumWord → BitVec 51
/-- FREE VALUE (log 1): how format `id` codes the integers below 2^53, distinct ones by distinct words. -/
opaque Config.numCode : (id : Nat) → Equiv.Perm NumWord
/-- FREE VALUE (log 1): the exact value of a word of format `id` that codes no such integer; none for a word that is no
finite number. -/
opaque Config.numValue : (id : Nat) → NumWord → Option ℚ
/-- FREE VALUE (log 1): the one rounding of format `id`, of a value that is no integer below 2^53. -/
opaque Config.numRound : (id : Nat) → ℚ → NumWord
/-- FREE VALUE (log 1): which of the words of format `id` that are no finite numbers are NaNs. -/
opaque Config.numNan : (id : Nat) → NumWord → Bool
/-- FREE VALUE (log 2): what format `id` gives where an operand is no finite number or a divisor is zero. -/
opaque Config.numSpecial : (id : Nat) → NumOp → NumWord → NumWord → NumWord
/-- FREE VALUE (log 2): what format `id` answers of a comparison with a word that is no finite number and no NaN. -/
opaque Config.numCompare : (id : Nat) → NumCompare → NumWord → NumWord → Bool
/-- FREE VALUE (log 7): what EBUF byte `p` holds after the event numbered `k` has ended. -/
opaque Config.ebufResidue : (k p : Nat) → Byte
/-- FREE VALUE (log 10): the size stored, at draw `k`, when the accounted size does not fit 32 bits. -/
opaque Config.oversize : (k : Nat) → U32

end Sys2Proof
end

