-- ==== Sys2Proof/Syntax.lean ====
section
/-! DEFINITION. The command set: one constructor per row of spec/opcode_table.json (30_encoding.md R87). A constructor
carries the fields of the command word only; the operand registers are read when the command is issued (R85). -/

namespace Sys2Proof

/-- The SequenceBuffer instance a command selects with BUF (30_encoding.md R80, R83). BUF = 3 selects none and never
decodes. -/
inductive BufSel where
  | sent
  | recv
  | frag
  deriving DecidableEq, Repr

/-- One command. The u16 argument is IMM (30_encoding.md R82). -/
inductive Instr where
  | seqGt (a : U16)
  | seqLt (a : U16)
  | seqInc (n : U16)
  | sbInsert (buf : BufSel) (seq : U16)
  | sbFind (buf : BufSel) (seq : U16)
  | sbRemove (buf : BufSel) (seq : U16)
  | sbTestInsert (buf : BufSel) (seq : U16)
  | sbGenack (buf : BufSel)
  | sbReset (buf : BufSel)
  | hdrEnc (seq : U16)
  | hdrDec
  | fhdrEnc (seq : U16)
  | fhdrDec
  | fragRx
  | statSmooth
  | rttFold
  | statUpdate
  | epCreate
  | epSend
  | epReceive
  | epUpdate
  | epReset
  | epAckClear
  deriving DecidableEq, Repr

end Sys2Proof
end

