-- ==== Sys2Proof/WellFormed.lean ====
section
/-! DEFINITION. Which terms of Instr are commands. The types already exclude every malformed field but one: BUF = FRAG is
not legal for SB_INSERT (30_encoding.md R83). -/

namespace Sys2Proof

/-- A term is well formed unless it is SB_INSERT with BUF = FRAG (30_encoding.md R83, 41_seqbuffer.md R124). -/
def Instr.wellFormed : Instr → Bool
  | .sbInsert .frag _ => false
  | .sbInsert .sent _ | .sbInsert .recv _ => true
  | .seqGt _ | .seqLt _ | .seqInc _ => true
  | .sbFind _ _ | .sbRemove _ _ | .sbTestInsert _ _ | .sbGenack _ | .sbReset _ => true
  | .hdrEnc _ | .hdrDec | .fhdrEnc _ | .fhdrDec => true
  | .fragRx | .statSmooth | .rttFold | .statUpdate => true
  | .epCreate | .epSend | .epReceive | .epUpdate | .epReset | .epAckClear => true

end Sys2Proof
end

