-- ==== Sys2Proof/Decode.lean ====
section
/-! DEFINITION. The command word (30_encoding.md R80 to R89): a decoder that is total on every 32-bit word and rejects by
name, the encoder from the same map (R87), and the opcode table's rows as the table gives them (mask and match). -/

namespace Sys2Proof

/-- Why a word is ILLEGAL (30_encoding.md R88). Every one gives the same result code; the name says which clause holds,
the first of R88's list that does. -/
inductive IllegalWord where
  /-- OPC is not listed in R87. -/
  | reservedOpcode
  /-- RSV is not zero (R84). -/
  | reservedBits
  /-- BUF is not legal for OPC (R83). -/
  | illegalBuf
  /-- IMM is not zero for a command without an IMM operand (R82). -/
  | nonzeroImm
  deriving DecidableEq, Repr

/-- The commands as their OPC names them, before the other fields are read. -/
inductive Opcode where
  | seqGt | seqLt | seqInc
  | sbInsert | sbFind | sbRemove | sbTestInsert | sbGenack | sbReset
  | hdrEnc | hdrDec | fhdrEnc | fhdrDec
  | fragRx
  | statSmooth | rttFold | statUpdate
  | epCreate | epSend | epReceive | epUpdate | epReset | epAckClear
  deriving DecidableEq, Repr

/-- The opcode map: OPC to command (30_encoding.md R87). -/
def opcodeMap : List (Byte × Opcode) :=
  [ (0x01#8, .seqGt), (0x02#8, .seqLt), (0x03#8, .seqInc),
    (0x10#8, .sbInsert), (0x11#8, .sbFind), (0x12#8, .sbRemove), (0x13#8, .sbTestInsert),
    (0x14#8, .sbGenack), (0x15#8, .sbReset),
    (0x20#8, .hdrEnc), (0x21#8, .hdrDec), (0x22#8, .fhdrEnc), (0x23#8, .fhdrDec),
    (0x30#8, .fragRx),
    (0x40#8, .statSmooth), (0x41#8, .rttFold), (0x42#8, .statUpdate),
    (0x50#8, .epCreate), (0x51#8, .epSend), (0x52#8, .epReceive), (0x53#8, .epUpdate),
    (0x54#8, .epReset), (0x55#8, .epAckClear) ]

/-- The command OPC selects, none for a reserved value (30_encoding.md R87, R89). -/
def opcodeOf (opc : Byte) : Option Opcode := opcodeMap.lookup opc

/-- BUF as a selection; 3 is reserved (30_encoding.md R83). -/
def bufOf (buf : BitVec 2) : Option BufSel :=
  if buf = 0#2 then some .sent
  else if buf = 1#2 then some .recv
  else if buf = 2#2 then some .frag
  else none

/-- BUF of a command outside 0x10 to 0x15 must be 0 (30_encoding.md R83). -/
def requireNoBuf (buf : BitVec 2) (i : Instr) : Except IllegalWord Instr :=
  if buf = 0#2 then .ok i else .error .illegalBuf

/-- A command without BUF and without an IMM operand (30_encoding.md R82, R83). -/
def requireBare (buf : BitVec 2) (imm : U16) (i : Instr) : Except IllegalWord Instr :=
  if buf = 0#2 then (if imm = 0#16 then .ok i else .error .nonzeroImm) else .error .illegalBuf

/-- A command on the instance BUF selects (30_encoding.md R83). -/
def requireBuf (buf : BitVec 2) (f : BufSel → Except IllegalWord Instr) : Except IllegalWord Instr :=
  match bufOf buf with
  | some b => f b
  | none => .error .illegalBuf

/-- The fields BUF and IMM read under OPC's row of R87. -/
def decodeFields (op : Opcode) (buf : BitVec 2) (imm : U16) : Except IllegalWord Instr :=
  match op with
  | .seqGt => requireNoBuf buf (.seqGt imm)
  | .seqLt => requireNoBuf buf (.seqLt imm)
  | .seqInc => requireNoBuf buf (.seqInc imm)
  | .sbInsert => requireBuf buf fun b => if b = .frag then .error .illegalBuf else .ok (.sbInsert b imm)
  | .sbFind => requireBuf buf fun b => .ok (.sbFind b imm)
  | .sbRemove => requireBuf buf fun b => .ok (.sbRemove b imm)
  | .sbTestInsert => requireBuf buf fun b => .ok (.sbTestInsert b imm)
  | .sbGenack => requireBuf buf fun b => if imm = 0#16 then .ok (.sbGenack b) else .error .nonzeroImm
  | .sbReset => requireBuf buf fun b => if imm = 0#16 then .ok (.sbReset b) else .error .nonzeroImm
  | .hdrEnc => requireNoBuf buf (.hdrEnc imm)
  | .hdrDec => requireBare buf imm .hdrDec
  | .fhdrEnc => requireNoBuf buf (.fhdrEnc imm)
  | .fhdrDec => requireBare buf imm .fhdrDec
  | .fragRx => requireBare buf imm .fragRx
  | .statSmooth => requireBare buf imm .statSmooth
  | .rttFold => requireBare buf imm .rttFold
  | .statUpdate => requireBare buf imm .statUpdate
  | .epCreate => requireBare buf imm .epCreate
  | .epSend => requireBare buf imm .epSend
  | .epReceive => requireBare buf imm .epReceive
  | .epUpdate => requireBare buf imm .epUpdate
  | .epReset => requireBare buf imm .epReset
  | .epAckClear => requireBare buf imm .epAckClear

/-- The decoder (30_encoding.md R80, R88): OPC is bits 7:0, BUF 9:8, RSV 15:10, IMM 31:16. -/
def decode (w : U32) : Except IllegalWord Instr :=
  match opcodeOf (w.extractLsb' 0 8) with
  | none => .error .reservedOpcode
  | some op =>
    if w.extractLsb' 10 6 = 0#6 then decodeFields op (w.extractLsb' 8 2) (w.extractLsb' 16 16)
    else .error .reservedBits

/-- BUF of an instance (30_encoding.md R80). -/
def BufSel.bits : BufSel → BitVec 2
  | .sent => 0#2
  | .recv => 1#2
  | .frag => 2#2

/-- The word of the given IMM, BUF and OPC, RSV zero (30_encoding.md R80). -/
def commandWord (imm : U16) (buf : BitVec 2) (opc : Byte) : U32 := imm ++ (0#6 ++ (buf ++ opc))

/-- The encoder (30_encoding.md R80, R87). -/
def encode : Instr → U32
  | .seqGt a => commandWord a 0#2 0x01#8
  | .seqLt a => commandWord a 0#2 0x02#8
  | .seqInc n => commandWord n 0#2 0x03#8
  | .sbInsert b q => commandWord q b.bits 0x10#8
  | .sbFind b q => commandWord q b.bits 0x11#8
  | .sbRemove b q => commandWord q b.bits 0x12#8
  | .sbTestInsert b q => commandWord q b.bits 0x13#8
  | .sbGenack b => commandWord 0#16 b.bits 0x14#8
  | .sbReset b => commandWord 0#16 b.bits 0x15#8
  | .hdrEnc q => commandWord q 0#2 0x20#8
  | .hdrDec => commandWord 0#16 0#2 0x21#8
  | .fhdrEnc q => commandWord q 0#2 0x22#8
  | .fhdrDec => commandWord 0#16 0#2 0x23#8
  | .fragRx => commandWord 0#16 0#2 0x30#8
  | .statSmooth => commandWord 0#16 0#2 0x40#8
  | .rttFold => commandWord 0#16 0#2 0x41#8
  | .statUpdate => commandWord 0#16 0#2 0x42#8
  | .epCreate => commandWord 0#16 0#2 0x50#8
  | .epSend => commandWord 0#16 0#2 0x51#8
  | .epReceive => commandWord 0#16 0#2 0x52#8
  | .epUpdate => commandWord 0#16 0#2 0x53#8
  | .epReset => commandWord 0#16 0#2 0x54#8
  | .epAckClear => commandWord 0#16 0#2 0x55#8

/-- A row of spec/opcode_table.json: a word belongs to the row when `word &&& mask = pattern`. -/
structure OpcodeRow where
  mask : U32
  pattern : U32
  deriving DecidableEq, Repr

/-- The table's row of each command (spec/opcode_table.json, "mask" and "match"). -/
def opcodeRow : Instr → OpcodeRow
  | .seqGt _ => ⟨0x0000FFFF#32, 0x00000001#32⟩
  | .seqLt _ => ⟨0x0000FFFF#32, 0x00000002#32⟩
  | .seqInc _ => ⟨0x0000FFFF#32, 0x00000003#32⟩
  | .sbInsert _ _ => ⟨0x0000FCFF#32, 0x00000010#32⟩
  | .sbFind _ _ => ⟨0x0000FCFF#32, 0x00000011#32⟩
  | .sbRemove _ _ => ⟨0x0000FCFF#32, 0x00000012#32⟩
  | .sbTestInsert _ _ => ⟨0x0000FCFF#32, 0x00000013#32⟩
  | .sbGenack _ => ⟨0xFFFFFCFF#32, 0x00000014#32⟩
  | .sbReset _ => ⟨0xFFFFFCFF#32, 0x00000015#32⟩
  | .hdrEnc _ => ⟨0x0000FFFF#32, 0x00000020#32⟩
  | .hdrDec => ⟨0xFFFFFFFF#32, 0x00000021#32⟩
  | .fhdrEnc _ => ⟨0x0000FFFF#32, 0x00000022#32⟩
  | .fhdrDec => ⟨0xFFFFFFFF#32, 0x00000023#32⟩
  | .fragRx => ⟨0xFFFFFFFF#32, 0x00000030#32⟩
  | .statSmooth => ⟨0xFFFFFFFF#32, 0x00000040#32⟩
  | .rttFold => ⟨0xFFFFFFFF#32, 0x00000041#32⟩
  | .statUpdate => ⟨0xFFFFFFFF#32, 0x00000042#32⟩
  | .epCreate => ⟨0xFFFFFFFF#32, 0x00000050#32⟩
  | .epSend => ⟨0xFFFFFFFF#32, 0x00000051#32⟩
  | .epReceive => ⟨0xFFFFFFFF#32, 0x00000052#32⟩
  | .epUpdate => ⟨0xFFFFFFFF#32, 0x00000053#32⟩
  | .epReset => ⟨0xFFFFFFFF#32, 0x00000054#32⟩
  | .epAckClear => ⟨0xFFFFFFFF#32, 0x00000055#32⟩

/-- The command word of the low `nbits` bits of `w`, every bit above them zero (a command word is one 32-bit word). -/
def fetchWord (nbits w : Nat) : U32 := BitVec.ofNat 32 (w % 2 ^ nbits)

/-- The instruction the decoder reads from a table word. -/
def decodeTableWord (nbits w : Nat) : Option Instr := (decode (fetchWord nbits w)).toOption

end Sys2Proof
end

