-- ==== Sys2Proof/Machine/State.lean ====
section
/-! DEFINITION. The machine's state as plain data: every piece of architectural state of 10_state.md and 20_memory.md, the
model's parameters (00_scope.md R7, R8) and the model's own fields (log 4, log 6, log 18); the reasons a step can stop;
and the state after power-on reset (70_reset_and_hazards.md R245). -/

namespace Sys2Proof.Machine

/-- The result codes of 60_exceptions.md R220. -/
inductive ResultCode where
  | ok | illegal | notConfigured | configInvalid | alreadyConfigured | badLength | badOperand
  | stale | notFound | decodeShort | decodeMarker | tooLargeToSend | tooLargeToReceive | appRejected
  | fragBadCount | fragBadId | fragBadHeader | fragSeqMismatch | fragTooBig | fragBadSize | fragStale
  | fragCountMismatch | fragDuplicate | fragStored | fragComplete
  deriving DecidableEq, Repr

/-- The kinds of host event: TX (60_exceptions.md R228) and DELIVER (R229). -/
inductive EventKind where
  | tx
  | deliver
  deriving DecidableEq, Repr

/-- A pending host event: what `emit` was given (60_exceptions.md R228, R229). -/
structure Event where
  kind : EventKind
  seq : U16
  bytes : List Byte
  deriving DecidableEq, Repr

/-- The position of a suspended command within its own rule, with its latched operands (10_state.md R21, R39). -/
inductive Phase where
  /-- EP_SEND of a regular packet waits for the end of its one TX event (45_endpoint.md R195). -/
  | sendRegular (seq : U16)
  /-- EP_SEND of a fragmented packet waits for the end of the TX event of fragment `next - 1` of `total`
  (45_endpoint.md R196); `payload` is latched. -/
  | sendFragments (seq : U16) (payload : List Byte) (next total : Nat)
  /-- EP_RECEIVE waits for the answer to DELIVER (45_endpoint.md R201) with the decoded header and the packet length;
  `rebuilt` is the sequence of the completed reassembly when the packet is a rebuilt one (45_endpoint.md R204). -/
  | deliver (seq ack : U16) (ackBits : U32) (length : Nat) (rebuilt : Option U16)
  deriving DecidableEq, Repr

/-- An entry of the command stack (10_state.md R21): a suspended command and its pending event. -/
structure Frame where
  phase : Phase
  event : Event
  deriving DecidableEq, Repr

/-- The configuration registers (10_state.md R26, 00_scope.md R6). -/
structure CfgRegs where
  maxPacketSize : U32
  fragmentAbove : U32
  maxFragments : U32
  fragmentSize : U32
  ackBufferSize : U32
  sentBufferSize : U32
  receivedBufferSize : U32
  reassemblyBufferSize : U32
  packetHeaderSize : U32
  context : U32
  index : U32
  rttFactor : NumWord
  lossFactor : NumWord
  bandwidthFactor : NumWord
  deriving DecidableEq, Repr

/-- The smoothed statistics (10_state.md R30). -/
structure Stats where
  rtt : NumWord
  loss : NumWord
  sentKbps : NumWord
  recvKbps : NumWord
  ackedKbps : NumWord
  deriving DecidableEq, Repr

/-- The ten counters, in the order of their ids (10_state.md R31). -/
structure Counters where
  packetsSent : U64
  packetsReceived : U64
  packetsAcked : U64
  packetsStale : U64
  packetsInvalid : U64
  packetsTooLargeToSend : U64
  packetsTooLargeToReceive : U64
  fragmentsSent : U64
  fragmentsReceived : U64
  fragmentsInvalid : U64
  deriving DecidableEq, Repr

/-- The ten counters by name (10_state.md R31). -/
inductive CounterId where
  | packetsSent | packetsReceived | packetsAcked | packetsStale | packetsInvalid
  | packetsTooLargeToSend | packetsTooLargeToReceive | fragmentsSent | fragmentsReceived | fragmentsInvalid
  deriving DecidableEq, Repr

/-- A SequenceBuffer instance without its payloads (10_state.md R33): capacity, newest field, and the tags as a sparse
table in which an unlisted slot is EMPTY. -/
structure SeqBuf where
  n : U32
  s : U16
  tags : List (Nat × Option U16)
  deriving DecidableEq, Repr

/-- SentPacketRecord (10_state.md R34). -/
structure SentRecord where
  time : NumWord
  acked : Bool
  size : U32
  deriving DecidableEq, Repr

/-- ReceivedPacketRecord (10_state.md R35). -/
structure RecvRecord where
  time : NumWord
  size : U32
  deriving DecidableEq, Repr

/-- ReassemblyEntry (10_state.md R36); its `data` is REASM[k], held in State's `reasm`. -/
structure FragEntry where
  sequence : U16
  numTotal : U16
  numReceived : U16
  received : BitVec 256
  headerBytes : Byte
  packetBytes : U32
  deriving DecidableEq, Repr

/-- A byte space: the (offset, byte) pairs that are not zero, offsets rising. An unlisted byte reads 0, the value
70_reset_and_hazards.md R245 gives every byte space. -/
abbrev Memory := List Host.Cell

/-- The event registers of 20_memory.md R66; `none` is EVT_KIND 0. -/
structure EventRegs where
  kind : Option EventKind
  seq : U16
  len : U32
  context : U32
  index : U32
  deriving DecidableEq, Repr

/-- One access of the host to its register space (20_memory.md R63): a width in bytes, an address, and for a write the
value on the low bits. -/
inductive HostAccess where
  | read (width : Nat) (addr : U32)
  | write (width : Nat) (addr : U32) (value : U32)
  deriving DecidableEq, Repr

/-- The whole state. The last three fields are the model's own. -/
structure State where
  /-- The parameters of 00_scope.md R7 and R8; no step changes them (log 3). -/
  params : Params
  arg0 : U32
  arg1 : U32
  arg2 : U32
  numin : NumWord
  res0 : U32
  res1 : U32
  res2 : U32
  res3 : U32
  resn : NumWord
  code : ResultCode
  configured : Bool
  inCallback : Bool
  /-- The command stack, innermost entry first; STATUS.DEPTH is its length. -/
  stack : List Frame
  cfg : CfgRegs
  sequence : U16
  time : NumWord
  stats : Stats
  counters : Counters
  /-- ACKS, sparse: an unlisted entry is 0. -/
  acks : List (Nat × U16)
  ackCount : U32
  sent : SeqBuf
  recv : SeqBuf
  frag : SeqBuf
  /-- Slot payloads of SENT, sparse: an unlisted slot holds `SentRecord.zero`. -/
  sentRecords : List (Nat × SentRecord)
  recvRecords : List (Nat × RecvRecord)
  fragEntries : List (Nat × FragEntry)
  /-- REASM[k], sparse: an unlisted space is all zero. -/
  reasm : List (Nat × Memory)
  ibuf : Memory
  obuf : Memory
  ebuf : Memory
  evt : EventRegs
  /-- The host accesses not yet performed, oldest first (log 4). -/
  host : List HostAccess
  /-- What the last host read returned (log 6). -/
  readData : U32
  /-- Numbers the draws of free values (log 18). -/
  freeCount : Nat
  deriving DecidableEq, Repr

/-- The host-interface faults of 60_exceptions.md R226. Each stops the machine before the access is performed, which is
safe: the spec says the access changes no state. -/
inductive Fault where
  /-- CMD written while a command runs: DEPTH > 0 and IN_CALLBACK = 0. Raised by a CMD write; safe. -/
  | commandWhileRunning
  /-- CMD written at a callback point with DEPTH ≥ MAX_NEST. Raised by a CMD write; safe. -/
  | nestingTooDeep
  /-- EVT_DONE written with no pending event. Raised by an EVT_DONE write; safe. -/
  | noPendingEvent
  /-- An access of a width the region does not take (20_memory.md R63). Raised by any access; safe. -/
  | badWidth
  /-- A misaligned 32-bit access (20_memory.md R63). Raised by any access; safe. -/
  | misaligned
  /-- An access to an unmapped address (20_memory.md R62, R63). Raised by any access; safe. -/
  | unmapped
  /-- A write to a read-only register, OBUF or EBUF (20_memory.md R63). Raised by a write; safe. -/
  | readOnly
  /-- A read of CMD or EVT_DONE (20_memory.md R63). Raised by a read; safe. -/
  | writeOnly
  /-- An access other than a CMD or EVT_DONE write while the block is inside an atomic step (20_memory.md R64). No run
  reaches it; safe. -/
  | insideStep
  deriving DecidableEq, Repr

/-- Why the model has no meaning for an instruction. -/
inductive Refusal where
  /-- Raised by exec's arm of an instruction that has no meaning yet; no arm raises it. Safe: the run stops. -/
  | notModelled (mnemonic : String)
  deriving DecidableEq, Repr

/-- Power-on value of the configuration registers: every one zero (10_state.md R26). -/
def CfgRegs.zero : CfgRegs := ⟨0, 0, 0, 0, 0, 0, 0, 0, 0, 0, 0, 0, 0, 0⟩

/-- Every statistic +0 (10_state.md R30). -/
def Stats.zero : Stats := ⟨0, 0, 0, 0, 0⟩

/-- Every counter 0 (10_state.md R31). -/
def Counters.zero : Counters := ⟨0, 0, 0, 0, 0, 0, 0, 0, 0, 0⟩

/-- N = 0, S = 0, every tag EMPTY (10_state.md R33). -/
def SeqBuf.zero : SeqBuf := ⟨0, 0, []⟩

/-- Power-on value of a SENT payload (10_state.md R34). -/
def SentRecord.zero : SentRecord := ⟨0, false, 0⟩

/-- Power-on value of a RECV payload (10_state.md R35). -/
def RecvRecord.zero : RecvRecord := ⟨0, 0⟩

/-- Power-on value of a FRAG payload (10_state.md R36). -/
def FragEntry.zero : FragEntry := ⟨0, 0, 0, 0, 0, 0⟩

/-- Power-on value of the event registers (70_reset_and_hazards.md R245). -/
def EventRegs.zero : EventRegs := ⟨none, 0, 0, 0, 0⟩

/-- The machine right after power-on reset (70_reset_and_hazards.md R245, 10_state.md R41). The parameters are the
reference values (log 3) and the host has queued nothing (log 4). -/
def State.reset : State where
  params := Params.reference
  arg0 := 0
  arg1 := 0
  arg2 := 0
  numin := 0
  res0 := 0
  res1 := 0
  res2 := 0
  res3 := 0
  resn := 0
  code := .ok
  configured := false
  inCallback := false
  stack := []
  cfg := CfgRegs.zero
  sequence := 0
  time := 0
  stats := Stats.zero
  counters := Counters.zero
  acks := []
  ackCount := 0
  sent := SeqBuf.zero
  recv := SeqBuf.zero
  frag := SeqBuf.zero
  sentRecords := []
  recvRecords := []
  fragEntries := []
  reasm := []
  ibuf := []
  obuf := []
  ebuf := []
  evt := EventRegs.zero
  host := []
  readData := 0
  freeCount := 0

end Sys2Proof.Machine
end

