-- ==== Sys2Proof/Machine/Flags.lean ====
section
/-! DEFINITION. The STATUS register and its fields as the host reads them (10_state.md R24), with the values of the result
codes (60_exceptions.md R220). STATUS holds every flag of the block; the `acked` flags are in the SENT records. -/

namespace Sys2Proof.Machine

/-- The value of a result code (60_exceptions.md R220). -/
def ResultCode.toByte : ResultCode → Byte
  | .ok => 0x00#8
  | .illegal => 0x01#8
  | .notConfigured => 0x02#8
  | .configInvalid => 0x03#8
  | .alreadyConfigured => 0x04#8
  | .badLength => 0x05#8
  | .badOperand => 0x06#8
  | .stale => 0x08#8
  | .notFound => 0x09#8
  | .decodeShort => 0x0A#8
  | .decodeMarker => 0x0B#8
  | .tooLargeToSend => 0x0C#8
  | .tooLargeToReceive => 0x0D#8
  | .appRejected => 0x0E#8
  | .fragBadCount => 0x10#8
  | .fragBadId => 0x11#8
  | .fragBadHeader => 0x12#8
  | .fragSeqMismatch => 0x13#8
  | .fragTooBig => 0x14#8
  | .fragBadSize => 0x15#8
  | .fragStale => 0x16#8
  | .fragCountMismatch => 0x17#8
  | .fragDuplicate => 0x18#8
  | .fragStored => 0x19#8
  | .fragComplete => 0x1A#8

/-- A result code in a 32-bit result register (45_endpoint.md R204, RES3). -/
def ResultCode.toWord (c : ResultCode) : U32 := c.toByte.setWidth 32

/-- STATUS.DEPTH as a number: the entries on the command stack (10_state.md R24). -/
def State.depth (s : State) : Nat := s.stack.length

/-- STATUS (10_state.md R24): DEPTH [23:16], IN_CALLBACK [9], CONFIGURED [8], CODE [7:0], reserved bits 0. -/
def State.statusWord (s : State) : U32 :=
  0#8 ++ (BitVec.ofNat 8 s.depth ++ (0#6 ++ (BitVec.ofBool s.inCallback ++ (BitVec.ofBool s.configured ++ s.code.toByte))))

/-- EVT_KIND: 0 none, 1 TX, 2 DELIVER (20_memory.md R62). -/
def eventKindWord : Option EventKind → U32
  | none => 0#32
  | some .tx => 1#32
  | some .deliver => 2#32

/-- The block is inside an atomic step: a command is on the stack and waits at no callback point (20_memory.md R64). No run
reaches such a state between two steps (log 19). -/
def State.insideStep (s : State) : Bool := !s.stack.isEmpty && !s.inCallback

end Sys2Proof.Machine
end

