-- ==== Sys2Proof/Machine/Table.lean ====
section
/-! DEFINITION. Sparse tables: what a byte space, the ack list, the slot tags and the slot payloads have in common. A table
lists (index, value) pairs; an unlisted index holds the default `d`. The canonical form (`Table.wf`) has indices strictly
rising and lists no default, so equal contents are equal data. -/

namespace Sys2Proof.Machine

/-- The value at index `a`. -/
def Table.get {α : Type} (d : α) : List (Nat × α) → Nat → α
  | [], _ => d
  | c :: t, a => if c.1 = a then c.2 else Table.get d t a

/-- List `v` at index `a`, before the first larger index. -/
def Table.insert {α : Type} (a : Nat) (v : α) : List (Nat × α) → List (Nat × α)
  | [] => [(a, v)]
  | c :: t => if a < c.1 then (a, v) :: c :: t else c :: Table.insert a v t

/-- The table without an entry at index `a`. -/
def Table.erase {α : Type} (t : List (Nat × α)) (a : Nat) : List (Nat × α) := t.filter (fun c => c.1 ≠ a)

/-- The table with value `v` at index `a`; writing the default removes the entry. -/
def Table.set {α : Type} [DecidableEq α] (d : α) (t : List (Nat × α)) (a : Nat) (v : α) : List (Nat × α) :=
  if v = d then Table.erase t a else Table.insert a v (Table.erase t a)

/-- The table with the default at every index below `n`. -/
def Table.clearBelow {α : Type} (t : List (Nat × α)) (n : Nat) : List (Nat × α) := t.filter (fun c => n ≤ c.1)

/-- The canonical form. -/
abbrev Table.wf {α : Type} [DecidableEq α] (d : α) (t : List (Nat × α)) : Prop :=
  t.Pairwise (fun x y => x.1 < y.1) ∧ ∀ c ∈ t, c.2 ≠ d

/-- Every listed index is below `n`. -/
abbrev Table.below {α : Type} (t : List (Nat × α)) (n : Nat) : Prop := ∀ c ∈ t, c.1 < n

end Sys2Proof.Machine
end

