-- ==== Sys2Proof/Machine/Ops.lean ====
section
/-! DEFINITION. The named operations over byte spaces, buffers, counters and host events that every unit shares. The block
has no exceptions; what stands in their place is the host event: `State.emit` suspends a command at a callback point
(60_exceptions.md R228, R229), `State.endEvent` is the EVT_DONE write's part of the return, and `State.restoreEnclosing`
shows the enclosing event again when a nested command completes (R230). -/

namespace Sys2Proof.Machine

/-- One byte of a byte space; an unlisted byte is 0. -/
def readByte (m : Memory) (a : Nat) : Byte := Table.get 0#8 m a

/-- A byte space with one byte written. -/
def writeByte (m : Memory) (a : Nat) (b : Byte) : Memory := Table.set 0#8 m a b

/-- The canonical form of a byte space: offsets strictly rising, no listed zero. -/
abbrev Memory.wf (m : Memory) : Prop := Table.wf 0#8 m

/-- `MemRead`: the `n` bytes from offset `a` (00_scope.md R10). -/
def readBytes (m : Memory) (a n : Nat) : List Byte := (List.range n).map (fun i => readByte m (a + i))

/-- `MemWrite`: the bytes from offset `a` on (00_scope.md R10). -/
def writeBytes (m : Memory) (a : Nat) : List Byte → Memory
  | [] => m
  | b :: bs => writeBytes (writeByte m a b) (a + 1) bs

/-- A little-endian u32 of a byte space (20_memory.md R61, R72). -/
def readWord (m : Memory) (a : Nat) : U32 :=
  readByte m (a + 3) ++ (readByte m (a + 2) ++ (readByte m (a + 1) ++ readByte m a))

/-- The four bytes of a u32, lowest first (20_memory.md R61). -/
def wordBytes (w : U32) : List Byte :=
  [w.extractLsb' 0 8, w.extractLsb' 8 8, w.extractLsb' 16 8, w.extractLsb' 24 8]

/-- A command ends with a result code (00_scope.md R10 `raise`, 60_exceptions.md R220). -/
def State.finish (s : State) (c : ResultCode) : State := { s with code := c }

/-- The counter named. -/
def Counters.get (c : Counters) : CounterId → U64
  | .packetsSent => c.packetsSent
  | .packetsReceived => c.packetsReceived
  | .packetsAcked => c.packetsAcked
  | .packetsStale => c.packetsStale
  | .packetsInvalid => c.packetsInvalid
  | .packetsTooLargeToSend => c.packetsTooLargeToSend
  | .packetsTooLargeToReceive => c.packetsTooLargeToReceive
  | .fragmentsSent => c.fragmentsSent
  | .fragmentsReceived => c.fragmentsReceived
  | .fragmentsInvalid => c.fragmentsInvalid

/-- The counters with the one named incremented modulo 2^64 (10_state.md R31). -/
def Counters.bump (c : Counters) : CounterId → Counters
  | .packetsSent => { c with packetsSent := c.packetsSent + 1 }
  | .packetsReceived => { c with packetsReceived := c.packetsReceived + 1 }
  | .packetsAcked => { c with packetsAcked := c.packetsAcked + 1 }
  | .packetsStale => { c with packetsStale := c.packetsStale + 1 }
  | .packetsInvalid => { c with packetsInvalid := c.packetsInvalid + 1 }
  | .packetsTooLargeToSend => { c with packetsTooLargeToSend := c.packetsTooLargeToSend + 1 }
  | .packetsTooLargeToReceive => { c with packetsTooLargeToReceive := c.packetsTooLargeToReceive + 1 }
  | .fragmentsSent => { c with fragmentsSent := c.fragmentsSent + 1 }
  | .fragmentsReceived => { c with fragmentsReceived := c.fragmentsReceived + 1 }
  | .fragmentsInvalid => { c with fragmentsInvalid := c.fragmentsInvalid + 1 }

/-- Increment one counter (10_state.md R31). -/
def State.count (s : State) (id : CounterId) : State := { s with counters := s.counters.bump id }

/-- The SequenceBuffer a selection names (10_state.md R33). -/
def State.buffer (s : State) : BufSel → SeqBuf
  | .sent => s.sent
  | .recv => s.recv
  | .frag => s.frag

/-- Replace the SequenceBuffer a selection names. -/
def State.setBuffer (s : State) (b : BufSel) (v : SeqBuf) : State :=
  match b with
  | .sent => { s with sent := v }
  | .recv => { s with recv := v }
  | .frag => { s with frag := v }

/-- The SENT payload of slot `k` (10_state.md R34). -/
def State.sentRecord (s : State) (k : Nat) : SentRecord := Table.get SentRecord.zero s.sentRecords k

/-- The RECV payload of slot `k` (10_state.md R35). -/
def State.recvRecord (s : State) (k : Nat) : RecvRecord := Table.get RecvRecord.zero s.recvRecords k

/-- The FRAG payload of slot `k` (10_state.md R36). -/
def State.fragEntry (s : State) (k : Nat) : FragEntry := Table.get FragEntry.zero s.fragEntries k

/-- REASM[k] (10_state.md R37). -/
def State.reasmSpace (s : State) (k : Nat) : Memory := Table.get ([] : Memory) s.reasm k

/-- Write the SENT payload of slot `k`. -/
def State.setSentRecord (s : State) (k : Nat) (r : SentRecord) : State :=
  { s with sentRecords := Table.set SentRecord.zero s.sentRecords k r }

/-- Write the RECV payload of slot `k`. -/
def State.setRecvRecord (s : State) (k : Nat) (r : RecvRecord) : State :=
  { s with recvRecords := Table.set RecvRecord.zero s.recvRecords k r }

/-- Write the FRAG payload of slot `k`, REASM[k] included. -/
def State.setFragEntry (s : State) (k : Nat) (e : FragEntry) (data : Memory) : State :=
  { s with fragEntries := Table.set FragEntry.zero s.fragEntries k e, reasm := Table.set ([] : Memory) s.reasm k data }

/-- The entry ACKS[i] (10_state.md R32). -/
def State.ackEntry (s : State) (i : Nat) : U16 := Table.get 0#16 s.acks i

/-- `MemWrite(OBUF, 0, ...)`: bytes past the output keep their values (42_header_codec.md R141). -/
def State.writeObuf (s : State) (out : List Byte) : State := { s with obuf := writeBytes s.obuf 0 out }

/-- Show a pending event: the event registers, its byte string in EBUF, IN_CALLBACK = 1 (20_memory.md R66). -/
def State.showEvent (s : State) (e : Event) : State :=
  { s with
    evt := ⟨some e.kind, e.seq, BitVec.ofNat 32 e.bytes.length, s.cfg.context, s.cfg.index⟩
    ebuf := writeBytes s.ebuf 0 e.bytes
    inCallback := true }

/-- `emit`: suspend the command in position `p` at the event `e` (60_exceptions.md R228, R229; 10_state.md R21). -/
def State.emit (s : State) (e : Event) (p : Phase) : State := { s.showEvent e with stack := ⟨p, e⟩ :: s.stack }

/-- The EVT_DONE write ends the innermost event `f.event` (20_memory.md R66): IN_CALLBACK = 0, EVT_KIND = 0, the command
taken off the stack to be continued. The event's bytes in EBUF hold only until now (60_exceptions.md R228): they become
free values (log 7); the other event registers keep their values (log 8). -/
def State.endEvent (s : State) (f : Frame) (rest : List Frame) : State :=
  { s with
    stack := rest
    inCallback := false
    evt := { s.evt with kind := none }
    ebuf := writeBytes s.ebuf 0 ((List.range f.event.bytes.length).map (Config.ebufResidue s.freeCount))
    freeCount := s.freeCount + 1 }

/-- A suspended command has completed: if it was nested, the event registers, EBUF and IN_CALLBACK show the enclosing
command's pending event again (60_exceptions.md R230, 10_state.md R39). -/
def State.restoreEnclosing (s : State) : State :=
  match s.stack with
  | [] => s
  | f :: _ => s.showEvent f.event

end Sys2Proof.Machine
end

