-- ==== Sys2Proof/Machine/Operands.lean ====
section
/-! DEFINITION. Operand assembly (30_encoding.md R85, R86) and the two gates that come before a command's own checks
(60_exceptions.md R223): the configuration gate and the input length. -/

namespace Sys2Proof.Machine

/-- `ARGx[15:0]` (30_encoding.md R85). -/
def lowHalf (r : U32) : U16 := r.setWidth 16

/-- Operand `b` or `delta` or `ack`: ARG0[15:0] (30_encoding.md R85). -/
def State.argHalf (s : State) : U16 := lowHalf s.arg0

/-- `zext_32` of a sequence number (00_scope.md R9). -/
def word (q : U16) : U32 := q.setWidth 32

/-- A Boolean result: bit 0 (10_state.md R23). -/
def boolWord (b : Bool) : U32 := if b then 1#32 else 0#32

/-- `n` and `IBUF[0..n-1]`, latched at issue; none when `n > IBUF_BYTES`, which is BAD_LENGTH (30_encoding.md R85). -/
def State.latchInput (s : State) : Option (List Byte) :=
  if s.arg2.toNat ≤ s.params.ibufBytes then some (readBytes s.ibuf 0 s.arg2.toNat) else none

/-- The configuration gate (45_endpoint.md R191), before every other check of the command. -/
def State.gated (s : State) (run : State → State) : State :=
  if s.configured then run s else s.finish .notConfigured

/-- A command that reads IBUF: BAD_LENGTH changes nothing else (30_encoding.md R85). -/
def State.withInput (s : State) (run : List Byte → State → State) : State :=
  match s.latchInput with
  | some b => run b s
  | none => s.finish .badLength

end Sys2Proof.Machine
end

