-- ==== Sys2Proof/Machine/SeqMath.lean ====
section
/-! DEFINITION. SequenceMath (40_seqmath.md): the wraparound-aware comparator and incrementer, and their three commands. -/

namespace Sys2Proof.Machine

/-- `gt16` (40_seqmath.md R110): at distance 32768 the numerically larger operand is the greater. -/
def gt16 (a b : U16) : Bool :=
  (decide (b < a) && decide (a - b ≤ 32768#16)) || (decide (a < b) && decide (32768#16 < b - a))

/-- `lt16` (40_seqmath.md R110). -/
def lt16 (a b : U16) : Bool := gt16 b a

/-- `inc16` (40_seqmath.md R113). -/
def inc16 (n delta : U16) : U16 := n + delta

/-- SEQ_GT (40_seqmath.md R111). -/
def execSeqGt (a : U16) (s : State) : Host.Outcome State Fault Refusal :=
  .next ({ s with res0 := boolWord (gt16 a s.argHalf) }.finish .ok)

/-- SEQ_LT (40_seqmath.md R112). -/
def execSeqLt (a : U16) (s : State) : Host.Outcome State Fault Refusal :=
  .next ({ s with res0 := boolWord (gt16 s.argHalf a) }.finish .ok)

/-- SEQ_INC (40_seqmath.md R113). -/
def execSeqInc (n : U16) (s : State) : Host.Outcome State Fault Refusal :=
  .next ({ s with res0 := word (inc16 n s.argHalf) }.finish .ok)

end Sys2Proof.Machine
end

