-- ==== Sys2Proof/Machine/SeqBuffer.lean ====
section
/-! DEFINITION. SequenceBuffer (41_seqbuffer.md): the windowed circular buffer and its six commands. The functions `sb…`
are the only ways any unit changes a SequenceBuffer. Teardown (R130) has no visible effect: storage belongs to the slot, so
evicting a slot leaves its payload as it was. -/

namespace Sys2Proof.Machine

/-- The slot of a sequence: `seq mod N` (41_seqbuffer.md R122). -/
def SeqBuf.slot (B : SeqBuf) (q : U16) : Nat := q.toNat % B.n.toNat

/-- The tag of slot `k`; `none` is EMPTY (10_state.md R33). -/
def SeqBuf.tag (B : SeqBuf) (k : Nat) : Option U16 := Table.get none B.tags k

/-- A slot's tag replaced. -/
def SeqBuf.setTag (B : SeqBuf) (k : Nat) (t : Option U16) : SeqBuf := { B with tags := Table.set none B.tags k t }

/-- `u16(S - N)`, the oldest sequence of the window (41_seqbuffer.md R121). -/
def SeqBuf.oldest (B : SeqBuf) : U16 := B.s - lowHalf B.n

/-- `sb_stale` (41_seqbuffer.md R121). -/
def sbStale (B : SeqBuf) (q : U16) : Bool := lt16 q B.oldest

/-- `evict` (41_seqbuffer.md R122). -/
def sbEvict (B : SeqBuf) (k : Nat) : SeqBuf := B.setTag k none

/-- Evict every slot `0 .. N-1` (41_seqbuffer.md R122, R129). -/
def sbEvictAll (B : SeqBuf) : SeqBuf := { B with tags := Table.clearBelow B.tags B.n.toNat }

/-- Evict the slots of the `count` sequences from `first` on (41_seqbuffer.md R122). -/
def sbEvictRange (B : SeqBuf) (first : U16) : Nat → SeqBuf
  | 0 => B
  | i + 1 => sbEvict (sbEvictRange B first i) (B.slot (first + BitVec.ofNat 16 i))

/-- `sweep` from `first` to `last` inclusive, by position (41_seqbuffer.md R122). -/
def sbSweep (B : SeqBuf) (first last : U16) : SeqBuf :=
  let count := (last - first).toNat + 1
  if B.n.toNat ≤ count then sbEvictAll B else sbEvictRange B first count

/-- The buffer after the advance part of an insert (41_seqbuffer.md R120, R123). -/
def sbAdvance (B : SeqBuf) (q : U16) : SeqBuf :=
  if gt16 (q + 1) B.s then { sbSweep B B.s q with s := q + 1 } else B

/-- `sb_insert` (41_seqbuffer.md R123): none is REJECTED, else the buffer and the slot, whose payload the caller writes. -/
def sbInsert (B : SeqBuf) (q : U16) : Option (SeqBuf × Nat) :=
  if sbStale B q then none
  else some ((sbAdvance B q).setTag (B.slot q) (some q), B.slot q)

/-- `sb_find` (41_seqbuffer.md R125). -/
def sbFind (B : SeqBuf) (q : U16) : Option Nat := if B.tag (B.slot q) = some q then some (B.slot q) else none

/-- `sb_remove` (41_seqbuffer.md R127): none is ABSENT. -/
def sbRemove (B : SeqBuf) (q : U16) : Option SeqBuf :=
  if B.tag (B.slot q) = some q then some (sbEvict B (B.slot q)) else none

/-- The buffer after a removal whose outcome is not reported (43_reassembler.md R167). -/
def sbRemoved (B : SeqBuf) (q : U16) : SeqBuf := (sbRemove B q).getD B

/-- The low `i` bits of ack_bits for the given `ack` (41_seqbuffer.md R126). -/
def sbAckBits (B : SeqBuf) (ack : U16) : Nat → U32
  | 0 => 0#32
  | i + 1 => sbAckBits B ack i ||| (boolWord (sbFind B (ack - BitVec.ofNat 16 i)).isSome <<< i)

/-- `ack` of `sb_genack`: the newest sequence (41_seqbuffer.md R126). -/
def SeqBuf.newest (B : SeqBuf) : U16 := B.s - 1

/-- `sb_genack` (41_seqbuffer.md R126). -/
def sbGenack (B : SeqBuf) : U16 × U32 := (B.newest, sbAckBits B B.newest 32)

/-- `sb_reset` (41_seqbuffer.md R129). -/
def sbReset (B : SeqBuf) : SeqBuf := { sbEvictAll B with s := 0 }

/-- The payload SB_INSERT writes (41_seqbuffer.md R124). -/
def State.fillSlot (s : State) (b : BufSel) (k : Nat) : State :=
  match b with
  | .sent => s.setSentRecord k ⟨s.time, false, s.arg2⟩
  | .recv => s.setRecvRecord k ⟨s.time, s.arg2⟩
  | .frag => s

/-- SB_INSERT past its gate (41_seqbuffer.md R124). -/
def runSbInsert (b : BufSel) (q : U16) (s : State) : State :=
  match sbInsert (s.buffer b) q with
  | none => s.finish .stale
  | some (B, k) => { (s.setBuffer b B).fillSlot b k with res0 := BitVec.ofNat 32 k }.finish .ok

/-- SB_INSERT (41_seqbuffer.md R124). BUF = FRAG is ILLEGAL, which the decoder already says (log 13). -/
def execSbInsert (b : BufSel) (q : U16) (s : State) : Host.Outcome State Fault Refusal :=
  .next (if b = .frag then s.finish .illegal else s.gated (runSbInsert b q))

/-- The result registers of a found slot (41_seqbuffer.md R125). -/
def State.reportSlot (s : State) (b : BufSel) (k : Nat) : State :=
  let s := { s with res0 := BitVec.ofNat 32 k }
  match b with
  | .sent =>
    let r := s.sentRecord k
    { s with res1 := boolWord r.acked, res2 := r.size, resn := r.time }
  | .recv =>
    let r := s.recvRecord k
    { s with res1 := 0, res2 := r.size, resn := r.time }
  | .frag =>
    let e := s.fragEntry k
    { s with res1 := word e.numReceived, res2 := word e.numTotal, res3 := e.headerBytes.setWidth 32 }

/-- SB_FIND past its gate (41_seqbuffer.md R125). -/
def runSbFind (b : BufSel) (q : U16) (s : State) : State :=
  match sbFind (s.buffer b) q with
  | none => s.finish .notFound
  | some k => (s.reportSlot b k).finish .ok

/-- SB_FIND (41_seqbuffer.md R125). -/
def execSbFind (b : BufSel) (q : U16) (s : State) : Host.Outcome State Fault Refusal :=
  .next (s.gated (runSbFind b q))

/-- SB_REMOVE past its gate (41_seqbuffer.md R127). -/
def runSbRemove (b : BufSel) (q : U16) (s : State) : State :=
  match sbRemove (s.buffer b) q with
  | none => s.finish .notFound
  | some B => (s.setBuffer b B).finish .ok

/-- SB_REMOVE (41_seqbuffer.md R127). -/
def execSbRemove (b : BufSel) (q : U16) (s : State) : Host.Outcome State Fault Refusal :=
  .next (s.gated (runSbRemove b q))

/-- SB_TEST_INSERT (41_seqbuffer.md R128). -/
def execSbTestInsert (b : BufSel) (q : U16) (s : State) : Host.Outcome State Fault Refusal :=
  .next (s.gated fun s => { s with res0 := boolWord (sbStale (s.buffer b) q) }.finish .ok)

/-- SB_GENACK (41_seqbuffer.md R126). -/
def execSbGenack (b : BufSel) (s : State) : Host.Outcome State Fault Refusal :=
  .next (s.gated fun s =>
    { s with res0 := word (sbGenack (s.buffer b)).1, res1 := (sbGenack (s.buffer b)).2 }.finish .ok)

/-- SB_RESET (41_seqbuffer.md R129). -/
def execSbReset (b : BufSel) (s : State) : Host.Outcome State Fault Refusal :=
  .next (s.gated fun s => (s.setBuffer b (sbReset (s.buffer b))).finish .ok)

end Sys2Proof.Machine
end

