-- ==== Sys2Proof/Machine/HeaderCodec.lean ====
section
/-! DEFINITION. HeaderCodec (42_header_codec.md, 30_encoding.md R90 to R97): the regular and the fragment header, bit-exact
and little-endian, and their four commands. -/

namespace Sys2Proof.Machine

/-- `wr16le` (20_memory.md R65). -/
def wr16le (v : U16) : List Byte := [v.extractLsb' 0 8, v.extractLsb' 8 8]

/-- `rd8` (20_memory.md R65). -/
def rd8 (b : List Byte) (p : Nat) : Byte := b.getD p 0

/-- `rd16le` (20_memory.md R65). -/
def rd16le (b : List Byte) (p : Nat) : U16 := rd8 b (p + 1) ++ rd8 b p

/-- Byte `k` of ack_bits (20_memory.md R61). -/
def ackByte (bits : U32) (k : Nat) : Byte := bits.extractLsb' (8 * k) 8

/-- AB_k: byte `k` of ack_bits is in the stream (30_encoding.md R90). -/
def ackByteSent (bits : U32) (k : Nat) : Bool := ackByte bits k ≠ 0xFF#8

/-- The ack_bits bytes of the stream (30_encoding.md R91). -/
def ackByteStream (bits : U32) (k : Nat) : List Byte := if ackByteSent bits k then [ackByte bits k] else []

/-- DELTA: the ack is sent as one byte (30_encoding.md R90). -/
def deltaSent (q ack : U16) : Bool := decide (q - ack ≤ 255#16)

/-- The first byte of a regular header: 0, 0, DELTA, AB3, AB2, AB1, AB0, 0 from bit 7 down (30_encoding.md R90). -/
def headerByte (q ack : U16) (bits : U32) : Byte :=
  0#2 ++ (BitVec.ofBool (deltaSent q ack) ++ (BitVec.ofBool (ackByteSent bits 3) ++ (BitVec.ofBool (ackByteSent bits 2) ++
    (BitVec.ofBool (ackByteSent bits 1) ++ (BitVec.ofBool (ackByteSent bits 0) ++ 0#1)))))

/-- The ack field of the stream (30_encoding.md R91). -/
def ackField (q ack : U16) : List Byte := if deltaSent q ack then [(q - ack).setWidth 8] else wr16le ack

/-- `hdr_encode` (42_header_codec.md R140). -/
def hdrEncode (q ack : U16) (bits : U32) : List Byte :=
  headerByte q ack bits :: (wr16le q ++ (ackField q ack ++
    (ackByteStream bits 0 ++ (ackByteStream bits 1 ++ (ackByteStream bits 2 ++ ackByteStream bits 3)))))

/-- How a header decode ends (42_header_codec.md R142, R146). -/
inductive Decoded (α : Type) where
  | short
  | marker
  | fields (h : α)
  deriving DecidableEq, Repr

/-- A decoded regular header; `length` is L, the bytes consumed. -/
structure RegularHeader where
  seq : U16
  ack : U16
  bits : U32
  length : Nat
  deriving DecidableEq, Repr

/-- The ack field at offset 3 and the offset after it; none is SHORT (42_header_codec.md R142). -/
def readAck (b : List Byte) (delta : Bool) (q : U16) : Option (U16 × Nat) :=
  if delta then (if b.length < 4 then none else some (q - (rd8 b 3).setWidth 16, 4))
  else (if b.length < 5 then none else some (rd16le b 3, 5))

/-- One byte of ack_bits at offset `p` and the offset after it: 0xFF when it is absent from the stream, none is SHORT
(42_header_codec.md R142). -/
def readAckByte (b : List Byte) (present : Bool) (p : Nat) : Option (Byte × Nat) :=
  if present then (if b.length < p + 1 then none else some (rd8 b p, p + 1)) else some (0xFF#8, p)

/-- The fields after the first three bytes (42_header_codec.md R142). -/
def readFields (b : List Byte) (first : Byte) (q : U16) : Option RegularHeader := do
  let (ack, p) ← readAck b (first.getLsbD 5) q
  let (b0, p) ← readAckByte b (first.getLsbD 1) p
  let (b1, p) ← readAckByte b (first.getLsbD 2) p
  let (b2, p) ← readAckByte b (first.getLsbD 3) p
  let (b3, p) ← readAckByte b (first.getLsbD 4) p
  some ⟨q, ack, b3 ++ (b2 ++ (b1 ++ b0)), p⟩

/-- `hdr_decode` (42_header_codec.md R142). Bits 6 and 7 of the first byte are ignored. -/
def hdrDecode (b : List Byte) : Decoded RegularHeader :=
  if b.length < 1 then .short
  else if (rd8 b 0).getLsbD 0 then .marker
  else if b.length < 3 then .short
  else
    match readFields b (rd8 b 0) (rd16le b 1) with
    | some h => .fields h
    | none => .short

/-- A decoded fragment header (30_encoding.md R93). -/
structure FragmentHeader where
  seq : U16
  id : Nat
  count : Nat
  deriving DecidableEq, Repr

/-- `fhdr_encode` (42_header_codec.md R144). -/
def fhdrEncode (q : U16) (id count : Nat) : List Byte :=
  0x01#8 :: (wr16le q ++ [BitVec.ofNat 8 id, BitVec.ofNat 8 (count - 1)])

/-- `fhdr_decode` (42_header_codec.md R146). -/
def fhdrDecode (b : List Byte) : Decoded FragmentHeader :=
  if b.length < 5 then .short
  else if rd8 b 0 ≠ 0x01#8 then .marker
  else .fields ⟨rd16le b 1, (rd8 b 3).toNat, (rd8 b 4).toNat + 1⟩

/-- HDR_ENC (42_header_codec.md R141). -/
def execHdrEnc (q : U16) (s : State) : Host.Outcome State Fault Refusal :=
  let out := hdrEncode q s.argHalf s.arg1
  .next ({ s.writeObuf out with res0 := BitVec.ofNat 32 out.length }.finish .ok)

/-- HDR_DEC past its length check (42_header_codec.md R143). -/
def runHdrDec (b : List Byte) (s : State) : State :=
  match hdrDecode b with
  | .short => s.finish .decodeShort
  | .marker => s.finish .decodeMarker
  | .fields h =>
    { s with res0 := word h.seq, res1 := word h.ack, res2 := h.bits, res3 := BitVec.ofNat 32 h.length }.finish .ok

/-- HDR_DEC (42_header_codec.md R143). -/
def execHdrDec (s : State) : Host.Outcome State Fault Refusal := .next (s.withInput runHdrDec)

/-- The operand check of FHDR_ENC (42_header_codec.md R145). -/
def fragOperandsLegal (id count : Nat) : Bool := id ≤ 255 && 1 ≤ count && count ≤ 256 && id < count

/-- FHDR_ENC (42_header_codec.md R145). -/
def execFhdrEnc (q : U16) (s : State) : Host.Outcome State Fault Refusal :=
  .next (if fragOperandsLegal s.arg0.toNat s.arg1.toNat then
      { s.writeObuf (fhdrEncode q s.arg0.toNat s.arg1.toNat) with res0 := 5 }.finish .ok
    else s.finish .badOperand)

/-- RES0, RES1 and RES2 of a decoded fragment header (42_header_codec.md R147, 43_reassembler.md R160). -/
def State.reportFragment (s : State) (h : FragmentHeader) : State :=
  { s with res0 := word h.seq, res1 := BitVec.ofNat 32 h.id, res2 := BitVec.ofNat 32 h.count }

/-- FHDR_DEC past its length check (42_header_codec.md R147). -/
def runFhdrDec (b : List Byte) (s : State) : State :=
  match fhdrDecode b with
  | .short => s.finish .decodeShort
  | .marker => s.finish .decodeMarker
  | .fields h => (s.reportFragment h).finish .ok

/-- FHDR_DEC (42_header_codec.md R147). -/
def execFhdrDec (s : State) : Host.Outcome State Fault Refusal := .next (s.withInput runFhdrDec)

end Sys2Proof.Machine
end

