-- ==== Sys2Proof/Machine/Reassembler.lean ====
section
/-! DEFINITION. The Reassembler (43_reassembler.md): `frag_core` in the order its rules give, and FRAG_RX. -/

namespace Sys2Proof.Machine

/-- How `frag_core` ends (43_reassembler.md R160): with a code, or with the rebuilt packet of sequence `seq`. -/
inductive FragOutcome where
  | ended (c : ResultCode)
  | complete (seq : U16) (pkt : List Byte)
  deriving DecidableEq, Repr

/-- `invalid(code)` (43_reassembler.md). -/
def fragInvalid (c : ResultCode) (s : State) : FragOutcome × State := (.ended c, s.count .fragmentsInvalid)

/-- The embedded header of fragment 0, none for the others, and the offset of the payload (43_reassembler.md R162). -/
def fragEmbedded (b : List Byte) (h : FragmentHeader) : Except ResultCode (Option RegularHeader × Nat) :=
  if h.id = 0 then
    match hdrDecode (b.drop 5) with
    | .short => .error .fragBadHeader
    | .marker => .error .fragBadHeader
    | .fields e => if e.seq ≠ h.seq then .error .fragSeqMismatch else .ok (some e, 5 + e.length)
  else .ok (none, 5)

/-- The entry a first fragment creates (43_reassembler.md R164). -/
def FragEntry.fresh (h : FragmentHeader) : FragEntry := ⟨h.seq, BitVec.ofNat 16 h.count, 0, 0, 0, 0⟩

/-- Find or create the entry of a fragment (43_reassembler.md R164). A new entry's REASM[k] is zeroed. -/
def fragSlot (h : FragmentHeader) (s : State) : Except ResultCode (Nat × State) :=
  match sbFind s.frag h.seq with
  | some k => if (s.fragEntry k).numTotal.toNat ≠ h.count then .error .fragCountMismatch else .ok (k, s)
  | none =>
    match sbInsert s.frag h.seq with
    | none => .error .fragStale
    | some (B, k) => .ok (k, { s with frag := B }.setFragEntry k (FragEntry.fresh h) [])

/-- The entry after fragment `h` with `len` payload bytes is stored, `hdrLen` being the length of the re-encoded header
when the fragment is number 0 (43_reassembler.md R166). -/
def FragEntry.store (e : FragEntry) (h : FragmentHeader) (hdrLen : Option Nat) (fs len : Nat) : FragEntry :=
  { e with
    received := e.received ||| (1#256 <<< h.id)
    numReceived := e.numReceived + 1
    headerBytes := match hdrLen with | some n => BitVec.ofNat 8 n | none => e.headerBytes
    packetBytes := if h.id = h.count - 1 then BitVec.ofNat 32 ((h.count - 1) * fs + len) else e.packetBytes }

/-- The re-encoded (minimal) header of fragment 0 (43_reassembler.md R166). -/
def fragHeaderBytes (h : FragmentHeader) (emb : Option RegularHeader) : Option (List Byte) :=
  emb.map fun e => hdrEncode h.seq e.ack e.bits

/-- REASM[k] after the fragment is stored: the header right-aligned before offset 9, the payload at `9 + id × fs`
(43_reassembler.md R166, 30_encoding.md R95). -/
def fragData (data : Memory) (h : FragmentHeader) (hdr : Option (List Byte)) (fs : Nat) (payload : List Byte) : Memory :=
  let data := match hdr with | some hh => writeBytes data (9 - hh.length) hh | none => data
  writeBytes data (9 + h.id * fs) payload

/-- The rebuilt packet (43_reassembler.md R167, 30_encoding.md R95). -/
def rebuiltPacket (e : FragEntry) (data : Memory) : List Byte :=
  readBytes data (9 - e.headerBytes.toNat) (e.headerBytes.toNat + e.packetBytes.toNat)

/-- Duplicate check, store and completion in slot `k` (43_reassembler.md R165 to R167). -/
def fragStore (h : FragmentHeader) (emb : Option RegularHeader) (payload : List Byte) (k : Nat) (s : State) :
    FragOutcome × State :=
  if (s.fragEntry k).received.getLsbD h.id then (.ended .fragDuplicate, s)
  else
    let fs := s.cfg.fragmentSize.toNat
    let hdr := fragHeaderBytes h emb
    let e := (s.fragEntry k).store h (hdr.map List.length) fs payload.length
    let data := fragData (s.reasmSpace k) h hdr fs payload
    let s := (s.count .fragmentsReceived).setFragEntry k e data
    if e.numReceived = e.numTotal then (.complete h.seq (rebuiltPacket e data), s) else (.ended .fragStored, s)

/-- The checks of a decoded fragment in the order of 43_reassembler.md R161 to R164, then the store. -/
def fragAccept (b : List Byte) (h : FragmentHeader) (s : State) : FragOutcome × State :=
  if s.cfg.maxFragments.toNat < h.count then fragInvalid .fragBadCount s
  else if h.count ≤ h.id then fragInvalid .fragBadId s
  else
    match fragEmbedded b h with
    | .error c => fragInvalid c s
    | .ok (emb, off) =>
      let payload := b.drop off
      if s.cfg.fragmentSize.toNat < payload.length then fragInvalid .fragTooBig s
      else if h.id ≠ h.count - 1 ∧ payload.length ≠ s.cfg.fragmentSize.toNat then fragInvalid .fragBadSize s
      else
        match fragSlot h s with
        | .error c => fragInvalid c s
        | .ok (k, s) => fragStore h emb payload k s

/-- `frag_core` (43_reassembler.md R160). RES0 to RES2 are written as soon as the fragment header decodes. -/
def fragCore (b : List Byte) (s : State) : FragOutcome × State :=
  match fhdrDecode b with
  | .short => fragInvalid .decodeShort s
  | .marker => fragInvalid .decodeMarker s
  | .fields h => fragAccept b h (s.reportFragment h)

/-- `sb_remove(FRAG, seq)` after a completion: tag-checked, and nothing is reported (43_reassembler.md R167). -/
def State.dropReassembly (s : State) (q : U16) : State := { s with frag := sbRemoved s.frag q }

/-- FRAG_RX past its gates (43_reassembler.md R168). -/
def runFragRx (b : List Byte) (s : State) : State :=
  match fragCore b s with
  | (.ended c, s) => s.finish c
  | (.complete q pkt, s) =>
    ({ s.writeObuf pkt with res3 := BitVec.ofNat 32 pkt.length }.dropReassembly q).finish .fragComplete

/-- FRAG_RX (43_reassembler.md R168). -/
def execFragRx (s : State) : Host.Outcome State Fault Refusal :=
  .next (s.gated fun s => s.withInput runFragRx)

end Sys2Proof.Machine
end

