-- ==== Sys2Proof/Machine/Num.lean ====
section
/-! DEFINITION. NUM arithmetic (00_scope.md R8, R11) over the open number format, an argument of the model. Each operation is
the exact result rounded once, each comparison is exact. For IEEE 754 binary64 with round-to-nearest-even, the default, it
is computed on natural numbers: a finite value is `± m × 2^(k - 1074)` with `m < 2^53`, and magnitudes are counted in units
of 2^-1074. Another format is given by the uninterpreted constants of Config (log 1). The sign and payload of a NaN result
are free values (log 2). -/

namespace Sys2Proof.Machine

/-! ## binary64 -/

/-- The 11-bit exponent field. -/
def b64Exp (a : NumWord) : Nat := (a.extractLsb' 52 11).toNat

/-- The 52-bit fraction field. -/
def b64Frac (a : NumWord) : Nat := (a.extractLsb' 0 52).toNat

/-- The sign bit. -/
def b64Sign (a : NumWord) : Bool := a.getLsbD 63

/-- Neither infinite nor NaN. -/
def b64Finite (a : NumWord) : Bool := b64Exp a ≠ 2047

def b64IsNan (a : NumWord) : Bool := b64Exp a = 2047 && b64Frac a ≠ 0

def b64IsInf (a : NumWord) : Bool := b64Exp a = 2047 && b64Frac a = 0

/-- The significand of a finite value, with the hidden bit. -/
def b64Sig (a : NumWord) : Nat := if b64Exp a = 0 then b64Frac a else 2 ^ 52 + b64Frac a

/-- The scale of a finite value: its magnitude is `b64Sig a * 2 ^ b64Scale a` units of 2^-1074. -/
def b64Scale (a : NumWord) : Nat := b64Exp a - 1

/-- The magnitude of a finite value, in units of 2^-1074. -/
def b64Mag (a : NumWord) : Nat := b64Sig a * 2 ^ b64Scale a

/-- A value from its sign and its low 63 bits. -/
def b64Pack (sign : Bool) (low : Nat) : NumWord := BitVec.ofNat 64 ((if sign then 2 ^ 63 else 0) + low)

/-- Infinity of the given sign. -/
def b64Inf (sign : Bool) : NumWord := b64Pack sign (2047 * 2 ^ 52)

/-- Round the exact magnitude `p / q` units of 2^-1074 (with `0 < q`) to the nearest value, ties to even; a magnitude past
the largest finite value becomes infinity. -/
def b64Round (sign : Bool) (p q : Nat) : NumWord :=
  let k := Nat.log2 (p / q) - 52
  let d := q * 2 ^ k
  let n := p / d
  let r := p % d
  let n := if d < 2 * r ∨ (2 * r = d ∧ n % 2 = 1) then n + 1 else n
  b64Pack sign (min (k * 2 ^ 52 + n) (2047 * 2 ^ 52))

/-- A quiet NaN with free sign and payload (log 2). -/
def b64Nan (op : NumOp) (a b : NumWord) : NumWord :=
  BitVec.ofBool (Config.nanSign op a b) ++ (0xFFF#12 ++ Config.nanPayload op a b)

/-- Change of sign. -/
def b64Neg (a : NumWord) : NumWord := a ^^^ 0x8000000000000000#64

/-- The exact magnitude. -/
def b64Abs (a : NumWord) : NumWord := a &&& 0x7FFFFFFFFFFFFFFF#64

/-- The exact value of a finite word as an integer count of 2^-1074. -/
def b64Value (a : NumWord) : Int := if b64Sign a then -(b64Mag a : Int) else (b64Mag a : Int)

/-- The sum. -/
def b64Add (a b : NumWord) : NumWord :=
  if b64IsNan a || b64IsNan b then b64Nan .add a b
  else if b64IsInf a then (if b64IsInf b && b64Sign a != b64Sign b then b64Nan .add a b else a)
  else if b64IsInf b then b
  else
    let v := b64Value a + b64Value b
    if v = 0 then b64Pack (b64Sign a && b64Sign b) 0
    else b64Round (decide (v < 0)) v.natAbs 1

/-- The difference. -/
def b64Sub (a b : NumWord) : NumWord := b64Add a (b64Neg b)

/-- The product. -/
def b64Mul (a b : NumWord) : NumWord :=
  let sign := b64Sign a != b64Sign b
  if b64IsNan a || b64IsNan b then b64Nan .mul a b
  else if b64IsInf a then (if b64Mag b = 0 then b64Nan .mul a b else b64Inf sign)
  else if b64IsInf b then (if b64Mag a = 0 then b64Nan .mul a b else b64Inf sign)
  else b64Round sign (b64Sig a * b64Sig b * 2 ^ (b64Scale a + b64Scale b)) (2 ^ 1074)

/-- The quotient. -/
def b64Div (a b : NumWord) : NumWord :=
  let sign := b64Sign a != b64Sign b
  if b64IsNan a || b64IsNan b then b64Nan .div a b
  else if b64IsInf a then (if b64IsInf b then b64Nan .div a b else b64Inf sign)
  else if b64IsInf b then b64Pack sign 0
  else if b64Mag b = 0 then (if b64Mag a = 0 then b64Nan .div a b else b64Inf sign)
  else b64Round sign (b64Sig a * 2 ^ b64Scale a * 2 ^ 1074) (b64Sig b * 2 ^ b64Scale b)

/-- Order key of a value that is not NaN: the low 63 bits order magnitudes, infinity included. -/
def b64Key (a : NumWord) : Int :=
  if b64Sign a then -((a.extractLsb' 0 63).toNat : Int) else ((a.extractLsb' 0 63).toNat : Int)

/-- Order, exact; false when either is NaN (00_scope.md R11, 44_smoother.md R180). -/
def b64Lt (a b : NumWord) : Bool := !b64IsNan a && !b64IsNan b && decide (b64Key a < b64Key b)

/-- Equality, exact; +0 equals -0 (44_smoother.md R181). -/
def b64Eq (a b : NumWord) : Bool := !b64IsNan a && !b64IsNan b && decide (b64Key a = b64Key b)

/-- An integer, exact below 2^53. -/
def b64OfNat (k : Nat) : NumWord := b64Round false (k * 2 ^ 1074) 1

/-! ## Other formats -/

/-- The words of the integers below 2^53 in format `id`. The word of zeros is 0 (10_state.md R41; log 1). -/
def otherCode (id : Nat) : Equiv.Perm NumWord :=
  (Config.numCode id).trans (Equiv.swap (Config.numCode id 0) 0)

/-- The exact value of a word of format `id`. -/
def otherExact (id : Nat) (a : NumWord) : Option ℚ :=
  let k := ((otherCode id).symm a).toNat
  if k < 2 ^ 53 then some (k : ℚ) else Config.numValue id a

/-- The one rounding of format `id`, exact on the integers below 2^53 (00_scope.md R11, `toN`). -/
def otherRound (id : Nat) (q : ℚ) : NumWord :=
  if q.den = 1 ∧ 0 ≤ q.num ∧ q.num < 2 ^ 53 then otherCode id (BitVec.ofNat 64 q.num.toNat) else Config.numRound id q

/-! ## NUM -/

/-- The exact value of a word under the format `f`; none for a word that is no finite number. -/
def numExact (f : NumFormat) (a : NumWord) : Option ℚ :=
  match f with
  | .binary64 => if b64Finite a then some (mkRat (b64Value a) (2 ^ 1074)) else none
  | .other id => otherExact id a

/-- A NaN (44_smoother.md R180). -/
def numIsNan (f : NumFormat) (a : NumWord) : Bool :=
  match f with
  | .binary64 => b64IsNan a
  | .other id => (otherExact id a).isNone && Config.numNan id a

/-- A finite NUM (44_smoother.md R181, R182; 45_endpoint.md R206). -/
def numFinite (f : NumFormat) (a : NumWord) : Bool := (numExact f a).isSome

/-- The exact result of an operation; none for a division by zero. -/
def numOpExact (op : NumOp) (x y : ℚ) : Option ℚ :=
  match op with
  | .add => some (x + y)
  | .sub => some (x - y)
  | .mul => some (x * y)
  | .div => if y = 0 then none else some (x / y)

/-- A NUM operation: the exact result rounded once under the format (00_scope.md R11). What a format other than binary64
gives where there is no exact result is a free value (log 2). -/
def numOp (f : NumFormat) (op : NumOp) (a b : NumWord) : NumWord :=
  match f with
  | .binary64 =>
    match op with
    | .add => b64Add a b
    | .sub => b64Sub a b
    | .mul => b64Mul a b
    | .div => b64Div a b
  | .other id =>
    match numExact f a, numExact f b with
    | some x, some y =>
      match numOpExact op x y with
      | some z => otherRound id z
      | none => Config.numSpecial id op a b
    | _, _ => Config.numSpecial id op a b

/-- `a +N b` (00_scope.md R11). -/
def numAdd (f : NumFormat) (a b : NumWord) : NumWord := numOp f .add a b

/-- `a -N b` (00_scope.md R11). -/
def numSub (f : NumFormat) (a b : NumWord) : NumWord := numOp f .sub a b

/-- `a *N b` (00_scope.md R11). -/
def numMul (f : NumFormat) (a b : NumWord) : NumWord := numOp f .mul a b

/-- `a /N b` (00_scope.md R11). -/
def numDiv (f : NumFormat) (a b : NumWord) : NumWord := numOp f .div a b

/-- `toN`, exact for every integer below 2^53 in every format (00_scope.md R11). -/
def numOfNat (f : NumFormat) (k : Nat) : NumWord :=
  match f with
  | .binary64 => b64OfNat k
  | .other id => otherRound id k

/-- Whether a comparison holds of two exact values. -/
def numHolds (c : NumCompare) (x y : ℚ) : Bool :=
  match c with
  | .lt => decide (x < y)
  | .eq => decide (x = y)
  | .absLt => decide (|x| < y)
  | .ltAbs => decide (x < |y|)

/-- A NUM comparison, of the exact values, with `absN` the exact magnitude (00_scope.md R11); false of a NaN (44_smoother.md
R180). What a format other than binary64 answers of another word that is no finite number is a free value (log 2). -/
def numCompare (f : NumFormat) (c : NumCompare) (a b : NumWord) : Bool :=
  match f with
  | .binary64 =>
    match c with
    | .lt => b64Lt a b
    | .eq => b64Eq a b
    | .absLt => b64Lt (b64Abs a) b
    | .ltAbs => b64Lt a (b64Abs b)
  | .other id =>
    match numExact f a, numExact f b with
    | some x, some y => numHolds c x y
    | _, _ => !numIsNan f a && !numIsNan f b && Config.numCompare id c a b

/-- `a < b`. -/
def numLt (f : NumFormat) (a b : NumWord) : Bool := numCompare f .lt a b

/-- `a == b`. -/
def numEq (f : NumFormat) (a b : NumWord) : Bool := numCompare f .eq a b

/-- `absN(a) < b`. -/
def numAbsLt (f : NumFormat) (a b : NumWord) : Bool := numCompare f .absLt a b

/-- `a < absN(b)`. -/
def numLtAbs (f : NumFormat) (a b : NumWord) : Bool := numCompare f .ltAbs a b

/-- `min`, of two record times (44_smoother.md R185; log 16). -/
def numMin (f : NumFormat) (a b : NumWord) : NumWord := if numLt f b a then b else a

/-- `max`, of two record times (44_smoother.md R185; log 16). -/
def numMax (f : NumFormat) (a b : NumWord) : NumWord := if numLt f a b then b else a

end Sys2Proof.Machine
end

