-- ==== Sys2Proof/Machine/Smoother.lean ====
section
/-! DEFINITION. The Smoother (44_smoother.md): the smoothing rules, the RTT fold, the windowed loss and bandwidth, and
their three commands. All arithmetic is NUM arithmetic, one rounding per operation, in the order written. -/

namespace Sys2Proof.Machine

/-- `smooth` (44_smoother.md R180): the comparison is strict, and with a NaN input it is false, in every format. -/
def smooth (num : NumFormat) (eps v raw f : NumWord) : NumWord :=
  if numIsNan num v = false ∧ numIsNan num raw = false ∧ numLtAbs num eps (numSub num v raw) = true then
    numAdd num v (numMul num (numSub num raw v) f)
  else raw

/-- `rtt_fold` on a value (44_smoother.md R181): a difference of exactly eps is smoothed. -/
def rttNext (num : NumFormat) (eps f rtt sample : NumWord) : NumWord :=
  if (numEq num rtt 0 && numLt num 0 sample) || numAbsLt num (numSub num rtt sample) eps then sample
  else numAdd num rtt (numMul num (numSub num sample rtt) f)

/-- `rtt_fold` (44_smoother.md R181). -/
def State.rttFold (s : State) (sample : NumWord) : State :=
  { s with stats := { s.stats with rtt := rttNext s.params.num s.params.snapEps s.cfg.rttFactor s.stats.rtt sample } }

/-- `samples`: the oldest half of the window (44_smoother.md R183). -/
def sbSamples (B : SeqBuf) : List U16 :=
  (List.range (B.n.toNat / 2)).map (fun i => B.oldest + BitVec.ofNat 16 i)

/-- The slots of the sampled sequences that are found, in sample order (44_smoother.md R183). -/
def sbSampledSlots (B : SeqBuf) : List Nat := (sbSamples B).filterMap (sbFind B)

/-- The sampled SENT records. -/
def State.sampledSent (s : State) : List SentRecord := (sbSampledSlots s.sent).map s.sentRecord

/-- The sampled RECV records. -/
def State.sampledRecv (s : State) : List RecvRecord := (sbSampledSlots s.recv).map s.recvRecord

/-- The raw loss: sampled records that are not acked, per sample, in percent (44_smoother.md R184). -/
def State.rawLoss (s : State) : NumWord :=
  let num := s.params.num
  numMul num
    (numDiv num (numOfNat num (s.sampledSent.countP (fun r => !r.acked))) (numOfNat num (s.sent.n.toNat / 2)))
    (numOfNat num 100)

/-- `loss_update` (44_smoother.md R184). -/
def State.lossUpdate (s : State) : State :=
  { s with stats := { s.stats with
      loss := smooth s.params.num s.params.snapEps s.stats.loss s.rawLoss s.cfg.lossFactor } }

/-- The exact byte sum of sampled (time, size) pairs (44_smoother.md R185). -/
def bwBytes (xs : List (NumWord × U32)) : Nat := (xs.map fun x => x.2.toNat).sum

/-- The first sampled time merged with the others by `pick`. The `+inf` and `-inf` that `min` and `max` start from in
44_smoother.md R185 give way to the first time; +0 for no time, which R185 never reads (log 16). -/
def bwFold (pick : NumWord → NumWord → NumWord) (xs : List (NumWord × U32)) : NumWord :=
  match xs with
  | [] => 0
  | x :: xs => xs.foldl (fun t y => pick t y.1) x.1

/-- The least sampled time (44_smoother.md R185). -/
def bwFirst (num : NumFormat) (xs : List (NumWord × U32)) : NumWord := bwFold (numMin num) xs

/-- The greatest sampled time (44_smoother.md R185). -/
def bwLast (num : NumFormat) (xs : List (NumWord × U32)) : NumWord := bwFold (numMax num) xs

/-- The raw bandwidth of sampled (time, size) pairs; none when there is no record or no two distinct times
(44_smoother.md R185). -/
def bwRaw (num : NumFormat) (xs : List (NumWord × U32)) : Option NumWord :=
  if xs ≠ [] ∧ numLt num (bwFirst num xs) (bwLast num xs) then
    some (numDiv num
      (numMul num (numDiv num (numOfNat num (bwBytes xs)) (numSub num (bwLast num xs) (bwFirst num xs))) (numOfNat num 8))
      (numOfNat num 1000))
  else none

/-- One bandwidth register after `bw_update`; without a raw value it is unchanged (44_smoother.md R185). -/
def bwNext (num : NumFormat) (eps f v : NumWord) (xs : List (NumWord × U32)) : NumWord :=
  match bwRaw num xs with
  | some raw => smooth num eps v raw f
  | none => v

/-- The (time, size) pairs SENT_KBPS samples (44_smoother.md R185). -/
def State.sentPairs (s : State) : List (NumWord × U32) := s.sampledSent.map fun r => (r.time, r.size)

/-- The (time, size) pairs RECV_KBPS samples (44_smoother.md R185). -/
def State.recvPairs (s : State) : List (NumWord × U32) := s.sampledRecv.map fun r => (r.time, r.size)

/-- The (time, size) pairs ACKED_KBPS samples: acked records, by send time (44_smoother.md R186). -/
def State.ackedPairs (s : State) : List (NumWord × U32) :=
  (s.sampledSent.filter fun r => r.acked).map fun r => (r.time, r.size)

/-- The three bandwidth updates (44_smoother.md R185, R186). -/
def State.bandwidthUpdate (s : State) : State :=
  { s with stats := { s.stats with
      sentKbps := bwNext s.params.num s.params.snapEps s.cfg.bandwidthFactor s.stats.sentKbps s.sentPairs
      recvKbps := bwNext s.params.num s.params.snapEps s.cfg.bandwidthFactor s.stats.recvKbps s.recvPairs
      ackedKbps := bwNext s.params.num s.params.snapEps s.cfg.bandwidthFactor s.stats.ackedKbps s.ackedPairs } }

/-- The four updates of STAT_UPDATE and EP_UPDATE (44_smoother.md R187). -/
def State.statUpdate (s : State) : State := s.lossUpdate.bandwidthUpdate

/-- The statistics after STAT_SMOOTH's selection `sel`; none for a selection other than 1 to 4 (44_smoother.md R182). -/
def State.smoothSelected (s : State) (sel : U32) (raw : NumWord) : Option Stats :=
  let num := s.params.num
  let eps := s.params.snapEps
  if sel = 1#32 then some { s.stats with loss := smooth num eps s.stats.loss raw s.cfg.lossFactor }
  else if sel = 2#32 then some { s.stats with sentKbps := smooth num eps s.stats.sentKbps raw s.cfg.bandwidthFactor }
  else if sel = 3#32 then some { s.stats with recvKbps := smooth num eps s.stats.recvKbps raw s.cfg.bandwidthFactor }
  else if sel = 4#32 then some { s.stats with ackedKbps := smooth num eps s.stats.ackedKbps raw s.cfg.bandwidthFactor }
  else none

/-- STAT_SMOOTH past its gate (44_smoother.md R182). -/
def runStatSmooth (s : State) : State :=
  if numFinite s.params.num s.numin then
    match s.smoothSelected s.arg0 s.numin with
    | some st => { s with stats := st }.finish .ok
    | none => s.finish .badOperand
  else s.finish .badOperand

/-- STAT_SMOOTH (44_smoother.md R182). -/
def execStatSmooth (s : State) : Host.Outcome State Fault Refusal := .next (s.gated runStatSmooth)

/-- RTT_FOLD past its gate (44_smoother.md R181). -/
def runRttFold (s : State) : State :=
  if numFinite s.params.num s.numin then (s.rttFold s.numin).finish .ok else s.finish .badOperand

/-- RTT_FOLD (44_smoother.md R181). -/
def execRttFold (s : State) : Host.Outcome State Fault Refusal := .next (s.gated runRttFold)

/-- STAT_UPDATE (44_smoother.md R187). -/
def execStatUpdate (s : State) : Host.Outcome State Fault Refusal :=
  .next (s.gated fun s => s.statUpdate.finish .ok)

end Sys2Proof.Machine
end

