-- ==== Sys2Proof/Machine/Endpoint.lean ====
section
/-! DEFINITION. The endpoint sequencer (45_endpoint.md): create, send, receive, update, reset, ack drain, and how a command
suspended at a host event goes on when the host writes EVT_DONE (60_exceptions.md R228 to R230). -/

namespace Sys2Proof.Machine

/-- `ceil(p / q)` for q ≥ 1 (00_scope.md R9). -/
def ceilDiv (p q : Nat) : Nat := (p + q - 1) / q

/-- The validation of EP_CREATE (45_endpoint.md R190). -/
abbrev CfgRegs.valid (c : CfgRegs) (p : Params) : Prop :=
  (1 ≤ c.maxPacketSize.toNat ∧ c.maxPacketSize.toNat ≤ p.ibufBytes) ∧
  (1 ≤ c.maxFragments.toNat ∧ c.maxFragments.toNat ≤ 256) ∧
  1 ≤ c.fragmentSize.toNat ∧
  (1 ≤ c.ackBufferSize.toNat ∧ c.ackBufferSize.toNat ≤ p.maxAcks) ∧
  (2 ≤ c.sentBufferSize.toNat ∧ c.sentBufferSize.toNat ≤ p.maxSbEntries) ∧
  (1 ≤ c.receivedBufferSize.toNat ∧ c.receivedBufferSize.toNat ≤ p.maxSbEntries) ∧
  (1 ≤ c.reassemblyBufferSize.toNat ∧ c.reassemblyBufferSize.toNat ≤ p.maxSbEntries) ∧
  (numFinite p.num c.rttFactor = true ∧ numFinite p.num c.lossFactor = true ∧ numFinite p.num c.bandwidthFactor = true) ∧
  9 + c.maxFragments.toNat * c.fragmentSize.toNat ≤ min p.obufBytes p.reasmBytes ∧
  (c.maxPacketSize.toNat ≤ c.fragmentAbove.toNat ∨
    ceilDiv c.maxPacketSize.toNat c.fragmentSize.toNat ≤ c.maxFragments.toNat)

/-- The state a successful EP_CREATE leaves (45_endpoint.md R190). -/
def State.created (s : State) : State :=
  { s with
    sent := ⟨s.cfg.sentBufferSize, 0, []⟩
    recv := ⟨s.cfg.receivedBufferSize, 0, []⟩
    frag := ⟨s.cfg.reassemblyBufferSize, 0, []⟩
    sequence := 0
    ackCount := 0
    time := 0
    stats := Stats.zero
    counters := Counters.zero
    configured := true }

/-- EP_CREATE (45_endpoint.md R190). -/
def execEpCreate (s : State) : Host.Outcome State Fault Refusal :=
  .next (if s.configured then s.finish .alreadyConfigured
    else if s.cfg.valid s.params then s.created.finish .ok
    else s.finish .configInvalid)

/-- Draw the accounted size `packet_header_size + n` (45_endpoint.md R194, R202): a sum that does not fit the 32 bits of
the record is a free value (log 10). Answers the size and the next draw number. -/
def State.accountedSize (s : State) (n : Nat) : U32 × Nat :=
  let total := s.cfg.packetHeaderSize.toNat + n
  if total < 2 ^ 32 then (BitVec.ofNat 32 total, s.freeCount) else (Config.oversize s.freeCount, s.freeCount + 1)

/-- The SENT record of a send; a rejected insert makes none (45_endpoint.md R194). -/
def State.recordSend (s : State) (q : U16) (n : Nat) : State :=
  match sbInsert s.sent q with
  | none => s
  | some (B, k) =>
    let size := s.accountedSize n
    { s with sent := B, freeCount := size.2 }.setSentRecord k ⟨s.time, false, size.1⟩

/-- Allocate the sequence and record the send (45_endpoint.md R194). -/
def State.allocate (s : State) (n : Nat) : State :=
  ({ s with sequence := s.sequence + 1 }.recordSend s.sequence n).count .packetsSent

/-- EP_SEND ends: RES0 and OK (45_endpoint.md R192). -/
def State.finishSend (s : State) (q : U16) : State := { s with res0 := word q }.finish .ok

/-- The payload bytes of fragment `j` (45_endpoint.md R196). -/
def fragmentPart (fs : Nat) (payload : List Byte) (j : Nat) : List Byte := (payload.drop (j * fs)).take fs

/-- Send fragment `j` of `total`, with the regular header `hdr` for fragment 0 and nothing for the others
(45_endpoint.md R196). -/
def State.sendFragment (s : State) (q : U16) (hdr payload : List Byte) (j total : Nat) : State :=
  (s.count .fragmentsSent).emit
    ⟨.tx, q, fhdrEncode q j total ++ (hdr ++ fragmentPart s.cfg.fragmentSize.toNat payload j)⟩
    (.sendFragments q payload (j + 1) total)

/-- The transmit part of EP_SEND (45_endpoint.md R195, R196). The number of fragments is at least 1 in every configured
state a run reaches (log 17). -/
def State.transmit (s : State) (q : U16) (hdr payload : List Byte) : State :=
  if payload.length ≤ s.cfg.fragmentAbove.toNat then s.emit ⟨.tx, q, hdr ++ payload⟩ (.sendRegular q)
  else
    let total := ceilDiv payload.length s.cfg.fragmentSize.toNat
    if total = 0 then s.finishSend q else s.sendFragment q hdr payload 0 total

/-- The regular header of a send: the sequence allocated and the acks of RECV (45_endpoint.md R194, R195). -/
def State.sendHeader (s : State) : List Byte :=
  hdrEncode s.sequence (sbGenack s.recv).1 (sbGenack s.recv).2

/-- EP_SEND past its gates (45_endpoint.md R192, R193). -/
def runEpSend (p : List Byte) (s : State) : State :=
  if s.cfg.maxPacketSize.toNat < p.length then (s.count .packetsTooLargeToSend).finish .tooLargeToSend
  else (s.allocate p.length).transmit s.sequence s.sendHeader p

/-- EP_SEND (45_endpoint.md R192). -/
def execEpSend (s : State) : Host.Outcome State Fault Refusal :=
  .next (s.gated fun s => s.withInput runEpSend)

/-- A receive ends with code `c`: directly, or, for the packet rebuilt from sequence `q`, with the reassembly removed, the
code in RES3 and FRAG_COMPLETE (45_endpoint.md R204). -/
def State.endReceive (s : State) (rebuilt : Option U16) (c : ResultCode) : State :=
  match rebuilt with
  | none => s.finish c
  | some q => { s.dropReassembly q with res3 := c.toWord }.finish .fragComplete

/-- The regular path up to the DELIVER event (45_endpoint.md R199 to R201). -/
def State.regularPath (s : State) (b : List Byte) (rebuilt : Option U16) : State :=
  let s := s.count .packetsReceived
  match hdrDecode b with
  | .short => (s.count .packetsInvalid).endReceive rebuilt .decodeShort
  | .marker => (s.count .packetsInvalid).endReceive rebuilt .decodeMarker
  | .fields h =>
    let s := { s with res0 := word h.seq }
    if sbStale s.recv h.seq then (s.count .packetsStale).endReceive rebuilt .stale
    else s.emit ⟨.deliver, h.seq, b.drop h.length⟩ (.deliver h.seq h.ack h.bits b.length rebuilt)

/-- The size check of `receive_core` (45_endpoint.md R198). -/
def State.checkSize (s : State) (b : List Byte) (rebuilt : Option U16) (run : State → State) : State :=
  if s.cfg.maxPacketSize.toNat < b.length then
    (s.count .packetsTooLargeToReceive).endReceive rebuilt .tooLargeToReceive
  else run s

/-- The fragment path (45_endpoint.md R204). The rebuilt packet re-enters through the size check and the regular path
(10_state.md R21, log 15). -/
def State.fragmentPath (s : State) (b : List Byte) : State :=
  match fragCore b s with
  | (.ended c, s) => s.finish c
  | (.complete q pkt, s) => s.checkSize pkt (some q) fun s => s.regularPath pkt (some q)

/-- Packet kind: bit 0 of the first byte; an empty packet is regular (30_encoding.md R96). -/
def isFragmentPacket (b : List Byte) : Bool := decide (1 ≤ b.length) && (rd8 b 0).getLsbD 0

/-- EP_RECEIVE past its gates: `receive_core` (45_endpoint.md R197, R198). -/
def runEpReceive (b : List Byte) (s : State) : State :=
  s.checkSize b none fun s => if isFragmentPacket b then s.fragmentPath b else s.regularPath b none

/-- EP_RECEIVE (45_endpoint.md R197). -/
def execEpReceive (s : State) : Host.Outcome State Fault Refusal :=
  .next (s.gated fun s => s.withInput runEpReceive)

/-- The RECV record of an accepted packet of `n` bytes; a rejected insert makes none (45_endpoint.md R202). -/
def State.recordReceive (s : State) (q : U16) (n : Nat) : State :=
  match sbInsert s.recv q with
  | none => s
  | some (B, k) =>
    let size := s.accountedSize n
    { s with recv := B, freeCount := size.2 }.setRecvRecord k ⟨s.time, size.1⟩

/-- The sample of an acked record, in milliseconds (45_endpoint.md R203, 44_smoother.md R181). -/
def rttSample (num : NumFormat) (now sentAt : NumWord) : NumWord :=
  numMul num (numSub num now sentAt) (numOfNat num 1000)

/-- Record the ack of `q`, found in slot `k` (45_endpoint.md R203). -/
def State.recordAck (s : State) (q : U16) (k : Nat) : State :=
  let r := s.sentRecord k
  ((({ s with
      acks := Table.set 0#16 s.acks s.ackCount.toNat q
      ackCount := s.ackCount + 1 }.setSentRecord k { r with acked := true }).count .packetsAcked).rttFold
    (rttSample s.params.num s.time r.time))

/-- One sequence the walk finds marked (45_endpoint.md R203). -/
def State.ackOne (s : State) (q : U16) : State :=
  match sbFind s.sent q with
  | none => s
  | some k =>
    if (s.sentRecord k).acked = false ∧ s.ackCount < s.cfg.ackBufferSize then s.recordAck q k else s

/-- The first `i` bits of the ack walk, ascending (45_endpoint.md R203). -/
def State.ackWalk (s : State) (ack : U16) (bits : U32) : Nat → State
  | 0 => s
  | i + 1 =>
    let s := s.ackWalk ack bits i
    if bits.getLsbD i then s.ackOne (ack - BitVec.ofNat 16 i) else s

/-- The host has answered DELIVER (45_endpoint.md R201 to R203). -/
def State.answered (s : State) (q ack : U16) (bits : U32) (n : Nat) (rebuilt : Option U16) (accepted : Bool) : State :=
  if accepted then ((s.recordReceive q n).ackWalk ack bits 32).endReceive rebuilt .ok
  else s.endReceive rebuilt .appRejected

/-- A suspended command goes on from its position after its event has ended; when it completes, the enclosing event is
shown again (60_exceptions.md R228 to R230). -/
def State.continueCommand (s : State) (p : Phase) (accepted : Bool) : State :=
  match p with
  | .sendRegular q => (s.finishSend q).restoreEnclosing
  | .sendFragments q payload next total =>
    if next < total then s.sendFragment q [] payload next total else (s.finishSend q).restoreEnclosing
  | .deliver q ack bits n rebuilt => (s.answered q ack bits n rebuilt accepted).restoreEnclosing

/-- The EVT_DONE write at a callback point (20_memory.md R66): bit 0 of the value is the answer to DELIVER. -/
def resume (value : U32) (s : State) : Host.Outcome State Fault Refusal :=
  match s.stack with
  | [] => .fault .noPendingEvent
  | f :: rest => .next ((s.endEvent f rest).continueCommand f.phase (value.getLsbD 0))

/-- EP_UPDATE past its gate (45_endpoint.md R206). -/
def runEpUpdate (s : State) : State :=
  if numFinite s.params.num s.numin then ({ s with time := s.numin }.statUpdate).finish .ok else s.finish .badOperand

/-- EP_UPDATE (45_endpoint.md R206). -/
def execEpUpdate (s : State) : Host.Outcome State Fault Refusal := .next (s.gated runEpUpdate)

/-- The part of EP_RESET that RESET_CLEARS_STATS adds (45_endpoint.md R208). -/
def State.clearStats (s : State) : State :=
  if s.params.resetClearsStats then { s with counters := Counters.zero, stats := Stats.zero, time := 0 } else s

/-- EP_RESET (45_endpoint.md R208). -/
def execEpReset (s : State) : Host.Outcome State Fault Refusal :=
  .next (s.gated fun s =>
    ({ s with
      sequence := 0
      ackCount := 0
      sent := sbReset s.sent
      recv := sbReset s.recv
      frag := sbReset s.frag }.clearStats).finish .ok)

/-- EP_ACK_CLEAR (45_endpoint.md R207). -/
def execEpAckClear (s : State) : Host.Outcome State Fault Refusal :=
  .next (s.gated fun s => { s with ackCount := 0 }.finish .ok)

end Sys2Proof.Machine
end

