-- ==== Sys2Proof/Machine/Dispatch.lean ====
section
/-! DEFINITION. The meaning of each command (30_encoding.md R87, the "semantics" column): one arm per constructor. -/

namespace Sys2Proof.Machine

def exec (i : Instr) (s : State) : Host.Outcome State Fault Refusal :=
  match i with
  | .seqGt a => Sys2Proof.Machine.execSeqGt a s
  | .seqLt a => Sys2Proof.Machine.execSeqLt a s
  | .seqInc n => Sys2Proof.Machine.execSeqInc n s
  | .sbInsert b q => Sys2Proof.Machine.execSbInsert b q s
  | .sbFind b q => Sys2Proof.Machine.execSbFind b q s
  | .sbRemove b q => Sys2Proof.Machine.execSbRemove b q s
  | .sbTestInsert b q => Sys2Proof.Machine.execSbTestInsert b q s
  | .sbGenack b => Sys2Proof.Machine.execSbGenack b s
  | .sbReset b => Sys2Proof.Machine.execSbReset b s
  | .hdrEnc q => Sys2Proof.Machine.execHdrEnc q s
  | .hdrDec => Sys2Proof.Machine.execHdrDec s
  | .fhdrEnc q => Sys2Proof.Machine.execFhdrEnc q s
  | .fhdrDec => Sys2Proof.Machine.execFhdrDec s
  | .fragRx => Sys2Proof.Machine.execFragRx s
  | .statSmooth => Sys2Proof.Machine.execStatSmooth s
  | .rttFold => Sys2Proof.Machine.execRttFold s
  | .statUpdate => Sys2Proof.Machine.execStatUpdate s
  | .epCreate => Sys2Proof.Machine.execEpCreate s
  | .epSend => Sys2Proof.Machine.execEpSend s
  | .epReceive => Sys2Proof.Machine.execEpReceive s
  | .epUpdate => Sys2Proof.Machine.execEpUpdate s
  | .epReset => Sys2Proof.Machine.execEpReset s
  | .epAckClear => Sys2Proof.Machine.execEpAckClear s

end Sys2Proof.Machine
end

