-- ==== Sys2Proof/Machine/HostInterface.lean ====
section
/-! DEFINITION. The host interface: the register map (20_memory.md R62), access widths and alignment (R63), the effect of
host accesses (R66, R67), and the CMD write, which decodes and runs a command (10_state.md R25, 30_encoding.md R88). -/

namespace Sys2Proof.Machine

/-- Which word of a 64-bit register (20_memory.md R62). -/
inductive Half where
  | lo
  | hi
  deriving DecidableEq, Repr

/-- The 32-bit configuration registers (10_state.md R26). -/
inductive CfgField where
  | maxPacketSize | fragmentAbove | maxFragments | fragmentSize | ackBufferSize | sentBufferSize
  | receivedBufferSize | reassemblyBufferSize | packetHeaderSize | context | index
  deriving DecidableEq, Repr

/-- The NUM configuration registers (10_state.md R26). -/
inductive CfgNumField where
  | rttFactor | lossFactor | bandwidthFactor
  deriving DecidableEq, Repr

/-- The registers of the register map (20_memory.md R62). -/
inductive HostReg where
  | cmd | status | arg0 | arg1 | arg2
  | numin (h : Half)
  | res0 | res1 | res2 | res3
  | resn (h : Half)
  | sequence | ackCount
  | time (h : Half)
  | rtt (h : Half)
  | loss (h : Half)
  | sentKbps (h : Half)
  | recvKbps (h : Half)
  | ackedKbps (h : Half)
  | counter (id : CounterId) (h : Half)
  | cfg (f : CfgField)
  | cfgNum (f : CfgNumField) (h : Half)
  | evtKind | evtSeq | evtLen | evtContext | evtIndex | evtDone
  | ack (i : Nat)
  deriving DecidableEq, Repr

/-- The register map, 0x000 to 0x06C: commands, operands, results and endpoint state (20_memory.md R62). -/
def stateRegisters : List (Nat × HostReg) :=
  [ (0x000, .cmd), (0x004, .status), (0x008, .arg0), (0x00C, .arg1), (0x010, .arg2),
    (0x018, .numin .lo), (0x01C, .numin .hi),
    (0x020, .res0), (0x024, .res1), (0x028, .res2), (0x02C, .res3),
    (0x030, .resn .lo), (0x034, .resn .hi), (0x038, .sequence), (0x03C, .ackCount),
    (0x040, .time .lo), (0x044, .time .hi), (0x048, .rtt .lo), (0x04C, .rtt .hi),
    (0x050, .loss .lo), (0x054, .loss .hi), (0x058, .sentKbps .lo), (0x05C, .sentKbps .hi),
    (0x060, .recvKbps .lo), (0x064, .recvKbps .hi), (0x068, .ackedKbps .lo), (0x06C, .ackedKbps .hi) ]

/-- The register map, 0x080 to 0x0CC: the counters (20_memory.md R62). -/
def counterRegisters : List (Nat × HostReg) :=
  [ (0x080, .counter .packetsSent .lo), (0x084, .counter .packetsSent .hi),
    (0x088, .counter .packetsReceived .lo), (0x08C, .counter .packetsReceived .hi),
    (0x090, .counter .packetsAcked .lo), (0x094, .counter .packetsAcked .hi),
    (0x098, .counter .packetsStale .lo), (0x09C, .counter .packetsStale .hi),
    (0x0A0, .counter .packetsInvalid .lo), (0x0A4, .counter .packetsInvalid .hi),
    (0x0A8, .counter .packetsTooLargeToSend .lo), (0x0AC, .counter .packetsTooLargeToSend .hi),
    (0x0B0, .counter .packetsTooLargeToReceive .lo), (0x0B4, .counter .packetsTooLargeToReceive .hi),
    (0x0B8, .counter .fragmentsSent .lo), (0x0BC, .counter .fragmentsSent .hi),
    (0x0C0, .counter .fragmentsReceived .lo), (0x0C4, .counter .fragmentsReceived .hi),
    (0x0C8, .counter .fragmentsInvalid .lo), (0x0CC, .counter .fragmentsInvalid .hi) ]

/-- The register map, 0x100 to 0x194: configuration and events (20_memory.md R62). -/
def configRegisters : List (Nat × HostReg) :=
  [ (0x100, .cfg .maxPacketSize), (0x104, .cfg .fragmentAbove), (0x108, .cfg .maxFragments),
    (0x10C, .cfg .fragmentSize), (0x110, .cfg .ackBufferSize), (0x114, .cfg .sentBufferSize),
    (0x118, .cfg .receivedBufferSize), (0x11C, .cfg .reassemblyBufferSize), (0x120, .cfg .packetHeaderSize),
    (0x124, .cfg .context), (0x128, .cfg .index),
    (0x130, .cfgNum .rttFactor .lo), (0x134, .cfgNum .rttFactor .hi),
    (0x138, .cfgNum .lossFactor .lo), (0x13C, .cfgNum .lossFactor .hi),
    (0x140, .cfgNum .bandwidthFactor .lo), (0x144, .cfgNum .bandwidthFactor .hi),
    (0x180, .evtKind), (0x184, .evtSeq), (0x188, .evtLen), (0x18C, .evtContext), (0x190, .evtIndex), (0x194, .evtDone) ]

/-- The register map below 0x10000 (20_memory.md R62). -/
def registerMap : List (Nat × HostReg) := stateRegisters ++ (counterRegisters ++ configRegisters)

/-- First address of ACKS (20_memory.md R62). -/
def acksBase : Nat := 0x10000
/-- First address of IBUF (20_memory.md R62). -/
def ibufBase : Nat := 0x100000
/-- First address of OBUF (20_memory.md R62). -/
def obufBase : Nat := 0x200000
/-- First address of EBUF (20_memory.md R62). -/
def ebufBase : Nat := 0x300000

/-- The register at a 4-byte-aligned address of the register region; none is unmapped (20_memory.md R62). -/
def registerAt (p : Params) (a : Nat) : Option HostReg :=
  if acksBase ≤ a then
    (if (a - acksBase) / 4 < p.maxAcks then some (.ack ((a - acksBase) / 4)) else none)
  else registerMap.lookup a

/-- The byte buffers of the host address space (20_memory.md R60). -/
inductive HostBuffer where
  | ibuf
  | obuf
  | ebuf
  deriving DecidableEq, Repr

/-- The buffer and offset of a byte address; none is unmapped (20_memory.md R62). -/
def bufferAt (p : Params) (a : Nat) : Option (HostBuffer × Nat) :=
  if ibufBase ≤ a ∧ a < ibufBase + p.ibufBytes then some (.ibuf, a - ibufBase)
  else if obufBase ≤ a ∧ a < obufBase + p.obufBytes then some (.obuf, a - obufBase)
  else if ebufBase ≤ a ∧ a < ebufBase + p.ebufBytes then some (.ebuf, a - ebufBase)
  else none

/-- The contents of a buffer. -/
def State.hostBuffer (s : State) : HostBuffer → Memory
  | .ibuf => s.ibuf
  | .obuf => s.obuf
  | .ebuf => s.ebuf

/-- One word of a 64-bit register (20_memory.md R62). -/
def halfOf (v : BitVec 64) : Half → U32
  | .lo => v.extractLsb' 0 32
  | .hi => v.extractLsb' 32 32

/-- A 64-bit register with one word written (20_memory.md R62). -/
def withHalf (v : BitVec 64) (h : Half) (w : U32) : BitVec 64 :=
  match h with
  | .lo => v.extractLsb' 32 32 ++ w
  | .hi => w ++ v.extractLsb' 0 32

/-- A 32-bit configuration register read. -/
def CfgRegs.get (c : CfgRegs) : CfgField → U32
  | .maxPacketSize => c.maxPacketSize
  | .fragmentAbove => c.fragmentAbove
  | .maxFragments => c.maxFragments
  | .fragmentSize => c.fragmentSize
  | .ackBufferSize => c.ackBufferSize
  | .sentBufferSize => c.sentBufferSize
  | .receivedBufferSize => c.receivedBufferSize
  | .reassemblyBufferSize => c.reassemblyBufferSize
  | .packetHeaderSize => c.packetHeaderSize
  | .context => c.context
  | .index => c.index

/-- A 32-bit configuration register written. -/
def CfgRegs.put (c : CfgRegs) (f : CfgField) (v : U32) : CfgRegs :=
  match f with
  | .maxPacketSize => { c with maxPacketSize := v }
  | .fragmentAbove => { c with fragmentAbove := v }
  | .maxFragments => { c with maxFragments := v }
  | .fragmentSize => { c with fragmentSize := v }
  | .ackBufferSize => { c with ackBufferSize := v }
  | .sentBufferSize => { c with sentBufferSize := v }
  | .receivedBufferSize => { c with receivedBufferSize := v }
  | .reassemblyBufferSize => { c with reassemblyBufferSize := v }
  | .packetHeaderSize => { c with packetHeaderSize := v }
  | .context => { c with context := v }
  | .index => { c with index := v }

/-- A NUM configuration register read. -/
def CfgRegs.getNum (c : CfgRegs) : CfgNumField → NumWord
  | .rttFactor => c.rttFactor
  | .lossFactor => c.lossFactor
  | .bandwidthFactor => c.bandwidthFactor

/-- A NUM configuration register written. -/
def CfgRegs.putNum (c : CfgRegs) (f : CfgNumField) (v : NumWord) : CfgRegs :=
  match f with
  | .rttFactor => { c with rttFactor := v }
  | .lossFactor => { c with lossFactor := v }
  | .bandwidthFactor => { c with bandwidthFactor := v }

/-- A register read; none is a write-only register (20_memory.md R62, access column). -/
def State.readReg (s : State) : HostReg → Option U32
  | .cmd => none
  | .evtDone => none
  | .status => some s.statusWord
  | .arg0 => some s.arg0
  | .arg1 => some s.arg1
  | .arg2 => some s.arg2
  | .numin h => some (halfOf s.numin h)
  | .res0 => some s.res0
  | .res1 => some s.res1
  | .res2 => some s.res2
  | .res3 => some s.res3
  | .resn h => some (halfOf s.resn h)
  | .sequence => some (word s.sequence)
  | .ackCount => some s.ackCount
  | .time h => some (halfOf s.time h)
  | .rtt h => some (halfOf s.stats.rtt h)
  | .loss h => some (halfOf s.stats.loss h)
  | .sentKbps h => some (halfOf s.stats.sentKbps h)
  | .recvKbps h => some (halfOf s.stats.recvKbps h)
  | .ackedKbps h => some (halfOf s.stats.ackedKbps h)
  | .counter id h => some (halfOf (s.counters.get id) h)
  | .cfg f => some (s.cfg.get f)
  | .cfgNum f h => some (halfOf (s.cfg.getNum f) h)
  | .evtKind => some (eventKindWord s.evt.kind)
  | .evtSeq => some (word s.evt.seq)
  | .evtLen => some s.evt.len
  | .evtContext => some s.evt.context
  | .evtIndex => some s.evt.index
  | .ack i => some (word (s.ackEntry i))

/-- The configuration registers after a write: ignored while CONFIGURED = 1 (10_state.md R26). -/
def State.writeCfg (s : State) (c : CfgRegs) : State := if s.configured then s else { s with cfg := c }

/-- A CMD write may issue a command: DEPTH = 0, or IN_CALLBACK = 1 and DEPTH < MAX_NEST (10_state.md R25). -/
def State.mayIssue (s : State) : Bool :=
  decide (s.depth = 0) || (s.inCallback && decide (s.depth < s.params.maxNest))

/-- A command word takes effect: a legal one runs its command, any other ends with ILLEGAL and changes nothing else
(30_encoding.md R88). -/
def runWord (w : U32) (s : State) : Host.Outcome State Fault Refusal :=
  match decode w with
  | .ok i => exec i s
  | .error _ => .next (s.finish .illegal)

/-- A CMD write (10_state.md R25, 60_exceptions.md R226). -/
def issue (w : U32) (s : State) : Host.Outcome State Fault Refusal :=
  if s.mayIssue then runWord w s
  else if s.inCallback then .fault .nestingTooDeep
  else .fault .commandWhileRunning

/-- An EVT_DONE write (20_memory.md R66, 60_exceptions.md R226). -/
def writeEvtDone (v : U32) (s : State) : Host.Outcome State Fault Refusal :=
  if s.inCallback then resume v s else .fault .noPendingEvent

/-- A register write (20_memory.md R62, R67). -/
def writeReg (r : HostReg) (v : U32) (s : State) : Host.Outcome State Fault Refusal :=
  match r with
  | .cmd => issue v s
  | .evtDone => writeEvtDone v s
  | .arg0 => .next { s with arg0 := v }
  | .arg1 => .next { s with arg1 := v }
  | .arg2 => .next { s with arg2 := v }
  | .numin h => .next { s with numin := withHalf s.numin h v }
  | .cfg f => .next (s.writeCfg (s.cfg.put f v))
  | .cfgNum f h => .next (s.writeCfg (s.cfg.putNum f (withHalf (s.cfg.getNum f) h v)))
  | .status | .res0 | .res1 | .res2 | .res3 | .resn _ | .sequence | .ackCount | .time _ | .rtt _ | .loss _
  | .sentKbps _ | .recvKbps _ | .ackedKbps _ | .counter _ _ | .evtKind | .evtSeq | .evtLen | .evtContext
  | .evtIndex | .ack _ => .fault .readOnly

/-- The two registers whose write has a fault of its own while the block is inside a step (60_exceptions.md R226). -/
def isTrigger (r : HostReg) : Bool := r = .cmd || r = .evtDone

/-- The register a register-region access reaches, or its fault: aligned 32-bit accesses only (20_memory.md R63; the order
of the reasons is log 11). -/
def reachRegister (p : Params) (width a : Nat) : Except Fault HostReg :=
  if width ≠ 4 then .error .badWidth
  else if a % 4 ≠ 0 then .error .misaligned
  else
    match registerAt p a with
    | none => .error .unmapped
    | some r => .ok r

/-- The buffer and offset a buffer access reaches, or its fault: 8-bit at any address, aligned 32-bit; the last byte must
be mapped too (20_memory.md R63, log 12). -/
def reachBuffer (p : Params) (width a : Nat) : Except Fault (HostBuffer × Nat) :=
  if width ≠ 1 ∧ width ≠ 4 then .error .badWidth
  else if a % width ≠ 0 then .error .misaligned
  else
    match bufferAt p a, bufferAt p (a + width - 1) with
    | some x, some _ => .ok x
    | _, _ => .error .unmapped

/-- The register region (20_memory.md R63). -/
def inRegisterRegion (a : Nat) : Bool := a < 0x20000

/-- A read's value reaches the host; nothing else changes (20_memory.md R67, log 6). -/
def State.answerRead (s : State) (v : U32) : State := { s with readData := v }

/-- The value of a buffer read: one byte, or four bytes little-endian (20_memory.md R63, R72; log 20). -/
def bufferValue (m : Memory) (width off : Nat) : U32 :=
  if width = 4 then readWord m off else (readByte m off).setWidth 32

/-- The bytes a buffer write stores (20_memory.md R63, R72; log 20). -/
def bufferStore (m : Memory) (width off : Nat) (v : U32) : Memory :=
  if width = 4 then writeBytes m off (wordBytes v) else writeByte m off (v.extractLsb' 0 8)

/-- A host read (20_memory.md R63, R64, R67). Inside a step, where no run gets (log 19), it names that reason first: DESIGN
CHOICE (log 11). -/
def hostRead (width a : Nat) (s : State) : Host.Outcome State Fault Refusal :=
  if s.insideStep then .fault .insideStep
  else if inRegisterRegion a then
    match reachRegister s.params width a with
    | .error f => .fault f
    | .ok r =>
      match s.readReg r with
      | none => .fault .writeOnly
      | some v => .next (s.answerRead v)
  else
    match reachBuffer s.params width a with
    | .error f => .fault f
    | .ok (b, off) => .next (s.answerRead (bufferValue (s.hostBuffer b) width off))

/-- A host write (20_memory.md R63, R64, R67). Inside a step, where no run gets (log 19), every write but an aligned 32-bit
one of CMD or EVT_DONE names that reason first, whatever else is wrong with it: DESIGN CHOICE (log 11). -/
def hostWrite (width a : Nat) (v : U32) (s : State) : Host.Outcome State Fault Refusal :=
  if inRegisterRegion a then
    match reachRegister s.params width a with
    | .error f => if s.insideStep then .fault .insideStep else .fault f
    | .ok r => if s.insideStep && !isTrigger r then .fault .insideStep else writeReg r v s
  else if s.insideStep then .fault .insideStep
  else
    match reachBuffer s.params width a with
    | .error f => .fault f
    | .ok (.ibuf, off) => .next { s with ibuf := bufferStore s.ibuf width off v }
    | .ok (_, _) => .fault .readOnly

/-- One host access (20_memory.md R63, R67). -/
def hostAccess (x : HostAccess) (s : State) : Host.Outcome State Fault Refusal :=
  match x with
  | .read width a => hostRead width a.toNat s
  | .write width a v => hostWrite width a.toNat v s

/-- The next transition: the oldest queued host access is performed; with none queued the block holds all its state
(60_exceptions.md R236; log 4, log 5). -/
def runNext (s : State) : Host.Outcome State Fault Refusal :=
  match s.host with
  | [] => .next s
  | x :: rest => hostAccess x { s with host := rest }

end Sys2Proof.Machine
end

