-- ==== Sys2Proof/Machine/Step.lean ====
section
/-! DEFINITION. One step of the machine: the oldest queued host access (20_memory.md R68, R69). A command word is fetched
nowhere (R71): it arrives as the host's write of CMD. -/

namespace Sys2Proof.Machine

def step : State → Host.Outcome State Fault Refusal := runNext

/-- The state in which the host's next access is the CMD write of the given word: this is where a command comes from
(10_state.md R25, log 4). -/
def State.withFetchWord (s : State) (nbits w : Nat) : State :=
  { s with host := .write 4 0 (fetchWord nbits w) :: s.host }

end Sys2Proof.Machine
end

