-- ==== Sys2Proof/Safety.lean ====
section
/-! DEFINITION. What counts as a consistent state and as a safe step, in the words the statements use. Every predicate here
is meant to hold after reset and to be kept by every step; none is used by the machine itself. -/

namespace Sys2Proof.Machine

/-- Every byte space and sparse table is in its canonical form, so equal contents are equal data. -/
def State.tablesCanonical (s : State) : Prop :=
  Memory.wf s.ibuf ∧ Memory.wf s.obuf ∧ Memory.wf s.ebuf ∧
  Table.wf none s.sent.tags ∧ Table.wf none s.recv.tags ∧ Table.wf none s.frag.tags ∧
  Table.wf 0#16 s.acks ∧ Table.wf SentRecord.zero s.sentRecords ∧ Table.wf RecvRecord.zero s.recvRecords ∧
  Table.wf FragEntry.zero s.fragEntries ∧ Table.wf ([] : Memory) s.reasm ∧ ∀ c ∈ s.reasm, Memory.wf c.2

/-- What is written lies inside its space: the byte buffers, REASM and ACKS list nothing past their sizes, and every pending
event fits EBUF (20_memory.md R60, R66; 10_state.md R32; 43_reassembler.md R164). -/
def State.spacesFit (s : State) : Prop :=
  Table.below s.ibuf s.params.ibufBytes ∧ Table.below s.obuf s.params.obufBytes ∧
  Table.below s.ebuf s.params.ebufBytes ∧ (∀ k, Table.below (s.reasmSpace k) s.params.reasmBytes) ∧
  Table.below s.acks s.params.maxAcks ∧ ∀ f ∈ s.stack, f.event.bytes.length ≤ s.params.ebufBytes

/-- The event registers and EBUF show the event `e` (20_memory.md R66, 10_state.md R39). -/
def State.shows (s : State) (e : Event) : Prop :=
  s.evt = ⟨some e.kind, e.seq, BitVec.ofNat 32 e.bytes.length, s.cfg.context, s.cfg.index⟩ ∧
  readBytes s.ebuf 0 e.bytes.length = e.bytes

/-- The command stack is sound: only a configured block has commands in progress, at most MAX_NEST of them; IN_CALLBACK
says whether one waits; and the host sees the innermost pending event, or EVT_KIND 0 (10_state.md R24, R25, R39;
60_exceptions.md R230). -/
def State.stackSound (s : State) : Prop :=
  s.depth ≤ s.params.maxNest ∧ (s.stack ≠ [] → s.configured = true) ∧
  match s.stack with
  | [] => s.inCallback = false ∧ s.evt.kind = none
  | f :: _ => s.inCallback = true ∧ s.shows f.event

/-- The configuration is validated exactly when CONFIGURED = 1, and the capacities are the configured ones; before that no
buffer has a capacity or a tag and no ack is listed (10_state.md R26, R27, R33; 45_endpoint.md R190). -/
def State.configSound (s : State) : Prop :=
  s.params.wf ∧
  (if s.configured then
    s.cfg.valid s.params ∧ s.sent.n = s.cfg.sentBufferSize ∧ s.recv.n = s.cfg.receivedBufferSize ∧
      s.frag.n = s.cfg.reassemblyBufferSize
  else s.sent = SeqBuf.zero ∧ s.recv = SeqBuf.zero ∧ s.frag = SeqBuf.zero ∧ s.ackCount = 0 ∧ s.stack = [])

/-- ACK_COUNT stays within the configured list (10_state.md R32). -/
def State.acksBounded (s : State) : Prop :=
  if s.configured then s.ackCount.toNat ≤ s.cfg.ackBufferSize.toNat else s.ackCount = 0

/-- Every tagged sequence sits in its own slot, `seq mod N` (41_seqbuffer.md R122, R123). -/
def SeqBuf.ownSlots (B : SeqBuf) : Prop := ∀ k q, B.tag k = some q → B.slot q = k

/-- Every tagged sequence lies in the window `u16(S - N) .. u16(S - 1)` (41_seqbuffer.md R121). -/
def SeqBuf.inWindow (B : SeqBuf) : Prop := ∀ k q, B.tag k = some q → (B.newest - q).toNat < B.n.toNat

/-- The capacities for which 41_seqbuffer.md R131 law 2 is stated here: N divides 65536, N ≤ 32768, and N ≥ 2. With N = 1
the law fails at one place (log 22). -/
def SeqBuf.exactSize (B : SeqBuf) : Prop := 2 ≤ B.n.toNat ∧ B.n.toNat ≤ 32768 ∧ B.n.toNat ∣ 65536

/-- Law 2 of 41_seqbuffer.md R131 for every buffer of the block. -/
def State.windowsSound (s : State) : Prop :=
  ∀ b : BufSel, (s.buffer b).ownSlots ∧ ((s.buffer b).exactSize → (s.buffer b).inWindow)

/-- TIME and every record time are finite (45_endpoint.md R206; 44_smoother.md R180, "never produces a NaN input"). -/
def State.timesFinite (s : State) : Prop :=
  numFinite s.params.num s.time = true ∧ (∀ k, numFinite s.params.num (s.sentRecord k).time = true) ∧
    ∀ k, numFinite s.params.num (s.recvRecord k).time = true

/-- How many of the low `n` bits of a bitmap are set. -/
def bitsBelow (v : BitVec 256) : Nat → Nat
  | 0 => 0
  | n + 1 => bitsBelow v n + (if v.getLsbD n then 1 else 0)

/-- A reassembly entry of sequence `q` is consistent under `max_fragments` mf and `fragment_size` fs (10_state.md R36,
43_reassembler.md R164 to R166). -/
def FragEntry.sound (e : FragEntry) (q : U16) (mf fs : Nat) : Prop :=
  e.sequence = q ∧ 1 ≤ e.numTotal.toNat ∧ e.numTotal.toNat ≤ mf ∧
  (∀ i, e.received.getLsbD i = true → i < e.numTotal.toNat) ∧
  e.numReceived.toNat = bitsBelow e.received 256 ∧
  (if e.received.getLsbD 0 then 4 ≤ e.headerBytes.toNat ∧ e.headerBytes.toNat ≤ 9 else e.headerBytes = 0) ∧
  (if e.received.getLsbD (e.numTotal.toNat - 1) then
      (e.numTotal.toNat - 1) * fs ≤ e.packetBytes.toNat ∧ e.packetBytes.toNat ≤ e.numTotal.toNat * fs
    else e.packetBytes = 0)

/-- Every partial reassembly that is tagged is consistent (43_reassembler.md R164 to R166). -/
def State.reassemblySound (s : State) : Prop :=
  s.configSound ∧
    ∀ k q, s.frag.tag k = some q →
      (s.fragEntry k).sound q s.cfg.maxFragments.toNat s.cfg.fragmentSize.toNat

/-- The command the host's next access issues, if it is a CMD write that may issue one (10_state.md R25). -/
def State.nextCommand (s : State) : Option Instr :=
  match s.host with
  | .write 4 0 w :: _ => if s.mayIssue then (decode w).toOption else none
  | _ => none

/-- A command word is legal, by its fields as numbers: the opcode map of 30_encoding.md R87 with the BUF and IMM columns,
and RSV = 0 (R88). -/
def legalWord (w : U32) : Prop :=
  let opc := w.toNat % 256
  let buf := w.toNat / 256 % 4
  let rsv := w.toNat / 1024 % 64
  let imm := w.toNat / 65536
  rsv = 0 ∧
    ((opc ∈ [0x01, 0x02, 0x03, 0x20, 0x22] ∧ buf = 0) ∨
     (opc = 0x10 ∧ buf ≤ 1) ∨
     (opc ∈ [0x11, 0x12, 0x13] ∧ buf ≤ 2) ∨
     (opc ∈ [0x14, 0x15] ∧ buf ≤ 2 ∧ imm = 0) ∨
     (opc ∈ [0x21, 0x23, 0x30, 0x40, 0x41, 0x42, 0x50, 0x51, 0x52, 0x53, 0x54, 0x55] ∧ buf = 0 ∧ imm = 0))

/-- The forward distance `u16(a - b)` of two sequence numbers as numbers (40_seqmath.md R110). -/
def seqDistance (a b : Nat) : Nat := (a + 65536 - b) % 65536

/-- The order of 40_seqmath.md R110 in its second form, on numbers in [0, 65535]. -/
def newerThan (a b : Nat) : Prop :=
  (1 ≤ seqDistance a b ∧ seqDistance a b ≤ 32767) ∨ (seqDistance a b = 32768 ∧ b < a)

/-- Slot `k` is emptied by an advance from S to `q` (41_seqbuffer.md R122): every slot when the range covers at least N
sequences, else the positions of the range. -/
def SeqBuf.swept (B : SeqBuf) (q : U16) (k : Nat) : Prop :=
  let count := seqDistance q.toNat B.s.toNat + 1
  if B.n.toNat ≤ count then k < B.n.toNat
  else ∃ i, i < count ∧ (B.s.toNat + i) % 65536 % B.n.toNat = k

/-- The bytes of a regular header, as numbers: the prefix byte of 30_encoding.md R90 with its bits 6 and 7 clear, then the
fields in the order of R91. -/
def headerLayout (q ack : U16) (bits : U32) : List Nat :=
  let d := seqDistance q.toNat ack.toNat
  let ackBytes := (List.range 4).map fun k => bits.toNat / 256 ^ k % 256
  let present : Nat → Nat := fun k => if bits.toNat / 256 ^ k % 256 = 255 then 0 else 1
  [2 * present 0 + 4 * present 1 + 8 * present 2 + 16 * present 3 + (if d ≤ 255 then 32 else 0),
    q.toNat % 256, q.toNat / 256] ++
  ((if d ≤ 255 then [d] else [ack.toNat % 256, ack.toNat / 256]) ++ ackBytes.filter (fun x => x ≠ 255))

/-- Byte `p` of a string, as a number. -/
def byteNat (b : List Byte) (p : Nat) : Nat := (b.getD p 0).toNat

/-- The offset of the ack_bits byte `k` in a regular header whose prefix byte is `x` (30_encoding.md R91). -/
def ackByteOffset (x k : Nat) : Nat :=
  3 + (if x / 32 % 2 = 1 then 1 else 2) + ((List.range k).map fun j => x / 2 ^ (j + 1) % 2).sum

/-- The length a prefix byte announces (30_encoding.md R92, R97). -/
def announcedLength (x : Nat) : Nat := ackByteOffset x 4

/-- The sequence of a regular header (30_encoding.md R91). -/
def headerSeq (b : List Byte) : Nat := byteNat b 1 + 256 * byteNat b 2

/-- The ack of a regular header: one byte of delta, or two bytes (30_encoding.md R91). -/
def headerAck (b : List Byte) : Nat :=
  if byteNat b 0 / 32 % 2 = 1 then seqDistance (headerSeq b) (byteNat b 3) else byteNat b 3 + 256 * byteNat b 4

/-- The ack_bits of a regular header: a byte that is absent is 0xFF (30_encoding.md R91). -/
def headerBits (b : List Byte) : Nat :=
  ((List.range 4).map fun k =>
    256 ^ k * (if byteNat b 0 / 2 ^ (k + 1) % 2 = 1 then byteNat b (ackByteOffset (byteNat b 0) k) else 255)).sum

/-- The length of a regular header by its fields (42_header_codec.md R148 law 2). -/
def headerLength (q ack : U16) (bits : U32) : Nat :=
  4 + (if seqDistance q.toNat ack.toNat ≤ 255 then 0 else 1) +
    (if bits.toNat % 256 = 255 then 0 else 1) + (if bits.toNat / 256 % 256 = 255 then 0 else 1) +
    (if bits.toNat / 65536 % 256 = 255 then 0 else 1) + (if bits.toNat / 16777216 = 255 then 0 else 1)

/-- An outcome with its next state changed. -/
def mapNext (f : State → State) : Host.Outcome State Fault Refusal → Host.Outcome State Fault Refusal
  | .next t => .next (f t)
  | .fault r => .fault r
  | .refused r => .refused r

/-- The commands that need the configuration (45_endpoint.md R191). -/
def needsConfig : Instr → Bool
  | .sbInsert _ _ | .sbFind _ _ | .sbRemove _ _ | .sbTestInsert _ _ | .sbGenack _ | .sbReset _ => true
  | .fragRx | .statSmooth | .rttFold | .statUpdate => true
  | .epSend | .epReceive | .epUpdate | .epReset | .epAckClear => true
  | .seqGt _ | .seqLt _ | .seqInc _ | .hdrEnc _ | .hdrDec | .fhdrEnc _ | .fhdrDec | .epCreate => false

/-- The exact value `q` rounded once under the format (00_scope.md R11). -/
def numRounded (f : NumFormat) (q : ℚ) : NumWord :=
  match f with
  | .binary64 => b64Round (decide (q < 0)) (q.num.natAbs * 2 ^ 1074) q.den
  | .other id => otherRound id q

/-- The LO word of a 64-bit register (20_memory.md R62). -/
def lowWord (x : BitVec 64) : Nat := x.toNat % 2 ^ 32

/-- The HI word of a 64-bit register (20_memory.md R62). -/
def highWord (x : BitVec 64) : Nat := x.toNat / 2 ^ 32

/-- A 64-bit register with its LO word written. -/
def setLowWord (x : BitVec 64) (v : U32) : BitVec 64 := BitVec.ofNat 64 (x.toNat / 2 ^ 32 * 2 ^ 32 + v.toNat)

/-- A 64-bit register with its HI word written. -/
def setHighWord (x : BitVec 64) (v : U32) : BitVec 64 := BitVec.ofNat 64 (v.toNat * 2 ^ 32 + x.toNat % 2 ^ 32)

/-- The two words of a 64-bit register at address `a`, and what they read. -/
def wideReads (a : Nat) (x : BitVec 64) : List (Nat × Nat) := [(a, lowWord x), (a + 4, highWord x)]

/-- Every register of 20_memory.md R62 that reads, ACKS apart: its address and the value it reads. STATUS has its fields
where 10_state.md R24 puts them. -/
def State.registerReads (s : State) : List (Nat × Nat) :=
  [ (0x004, s.code.toByte.toNat + (if s.configured then 256 else 0) + (if s.inCallback then 512 else 0) +
      65536 * (s.depth % 256)),
    (0x008, s.arg0.toNat), (0x00C, s.arg1.toNat), (0x010, s.arg2.toNat),
    (0x020, s.res0.toNat), (0x024, s.res1.toNat), (0x028, s.res2.toNat), (0x02C, s.res3.toNat),
    (0x038, s.sequence.toNat), (0x03C, s.ackCount.toNat),
    (0x100, s.cfg.maxPacketSize.toNat), (0x104, s.cfg.fragmentAbove.toNat), (0x108, s.cfg.maxFragments.toNat),
    (0x10C, s.cfg.fragmentSize.toNat), (0x110, s.cfg.ackBufferSize.toNat), (0x114, s.cfg.sentBufferSize.toNat),
    (0x118, s.cfg.receivedBufferSize.toNat), (0x11C, s.cfg.reassemblyBufferSize.toNat),
    (0x120, s.cfg.packetHeaderSize.toNat), (0x124, s.cfg.context.toNat), (0x128, s.cfg.index.toNat),
    (0x180, match s.evt.kind with | none => 0 | some .tx => 1 | some .deliver => 2),
    (0x184, s.evt.seq.toNat), (0x188, s.evt.len.toNat), (0x18C, s.evt.context.toNat), (0x190, s.evt.index.toNat) ] ++
  (wideReads 0x018 s.numin ++ wideReads 0x030 s.resn ++ wideReads 0x040 s.time ++ wideReads 0x048 s.stats.rtt ++
    wideReads 0x050 s.stats.loss ++ wideReads 0x058 s.stats.sentKbps ++ wideReads 0x060 s.stats.recvKbps ++
    wideReads 0x068 s.stats.ackedKbps ++
    wideReads 0x080 s.counters.packetsSent ++ wideReads 0x088 s.counters.packetsReceived ++
    wideReads 0x090 s.counters.packetsAcked ++ wideReads 0x098 s.counters.packetsStale ++
    wideReads 0x0A0 s.counters.packetsInvalid ++ wideReads 0x0A8 s.counters.packetsTooLargeToSend ++
    wideReads 0x0B0 s.counters.packetsTooLargeToReceive ++ wideReads 0x0B8 s.counters.fragmentsSent ++
    wideReads 0x0C0 s.counters.fragmentsReceived ++ wideReads 0x0C8 s.counters.fragmentsInvalid ++
    wideReads 0x130 s.cfg.rttFactor ++ wideReads 0x138 s.cfg.lossFactor ++ wideReads 0x140 s.cfg.bandwidthFactor)

/-- Every configuration register of 20_memory.md R62: its address and the configuration after a write of `v` to it. -/
def CfgRegs.writes (c : CfgRegs) (v : U32) : List (Nat × CfgRegs) :=
  [ (0x100, { c with maxPacketSize := v }), (0x104, { c with fragmentAbove := v }),
    (0x108, { c with maxFragments := v }), (0x10C, { c with fragmentSize := v }),
    (0x110, { c with ackBufferSize := v }), (0x114, { c with sentBufferSize := v }),
    (0x118, { c with receivedBufferSize := v }), (0x11C, { c with reassemblyBufferSize := v }),
    (0x120, { c with packetHeaderSize := v }), (0x124, { c with context := v }), (0x128, { c with index := v }),
    (0x130, { c with rttFactor := setLowWord c.rttFactor v }), (0x134, { c with rttFactor := setHighWord c.rttFactor v }),
    (0x138, { c with lossFactor := setLowWord c.lossFactor v }),
    (0x13C, { c with lossFactor := setHighWord c.lossFactor v }),
    (0x140, { c with bandwidthFactor := setLowWord c.bandwidthFactor v }),
    (0x144, { c with bandwidthFactor := setHighWord c.bandwidthFactor v }) ]

/-- The windows of the byte buffers (20_memory.md R62): first address, size, contents. -/
def State.byteWindows (s : State) : List (Nat × Nat × Memory) :=
  [ (0x100000, s.params.ibufBytes, s.ibuf), (0x200000, s.params.obufBytes, s.obuf),
    (0x300000, s.params.ebufBytes, s.ebuf) ]

/-- The addresses of `n` words from `a`. -/
def wordsFrom (a n : Nat) : List Nat := (List.range n).map fun i => a + 4 * i

/-- The read-only registers of 20_memory.md R62 below ACKS: STATUS; RES0 to ACKED_KBPS; the counters; the events. -/
def readOnlyRegisters : List Nat := 0x004 :: (wordsFrom 0x020 20 ++ (wordsFrom 0x080 20 ++ wordsFrom 0x180 5))

/-- Every register address of 20_memory.md R62 below ACKS: CMD, EVT_DONE, the operands, the configuration, and the
read-only ones. -/
def mappedRegisters : List Nat :=
  [0x000, 0x194, 0x008, 0x00C, 0x010, 0x018, 0x01C] ++
    (wordsFrom 0x100 11 ++ (wordsFrom 0x130 6 ++ readOnlyRegisters))

/-- The host's next access, a read or a write, has this width and address. -/
def State.nextAccesses (s : State) (width : Nat) (a : U32) : Prop :=
  ∃ v rest, s.host = .read width a :: rest ∨ s.host = .write width a v :: rest

/-- The host's next access writes EVT_DONE with `v` (20_memory.md R66). -/
def State.nextEndsEvent (s : State) (v : U32) (rest : List HostAccess) : Prop :=
  s.host = .write 4 0x194#32 v :: rest

/-- Sequential delivery of fragments to `frag_core` (43_reassembler.md R160), keeping every outcome. -/
def feedFragments : List (List Byte) → State → List FragOutcome × State
  | [], s => ([], s)
  | b :: bs, s =>
    let r := fragCore b s
    let rs := feedFragments bs r.2
    (r.1 :: rs.1, rs.2)

/-- Fragment `j` of the packet of sequence `q` with regular header `hdr` and payload `p` (45_endpoint.md R196). -/
def fragmentOf (fs : Nat) (q : U16) (hdr p : List Byte) (j : Nat) : List Byte :=
  fhdrEncode q j (ceilDiv p.length fs) ++ ((if j = 0 then hdr else []) ++ fragmentPart fs p j)

/-- What a fragment's bytes `b` carry after its fragment header: the payload from offset `off`, and for fragment 0 the
embedded header, of the same sequence, as the reassembler stores it (`hdr`, re-encoded; empty for the others)
(43_reassembler.md R162, R166). -/
def FragmentHeader.carries (h : FragmentHeader) (b hdr : List Byte) (off : Nat) : Prop :=
  (0 < h.id ∧ hdr = [] ∧ off = 5) ∨
  (h.id = 0 ∧ ∃ e, hdrDecode (b.drop 5) = .fields e ∧ e.seq = h.seq ∧ hdr = hdrEncode h.seq e.ack e.bits ∧
    off = 5 + e.length)

/-- The send of `n` bytes under the next sequence is recorded in `t`: a record at TIME, not acked, of the accounted size
(a free value where it does not fit 32 bits: log 10); none when SENT rejects the sequence (45_endpoint.md R194). -/
def State.sendRecorded (s t : State) (n : Nat) : Prop :=
  let k := s.sequence.toNat % s.sent.n.toNat
  (sbStale s.sent s.sequence = true → t.sent = s.sent ∧ t.sentRecords = s.sentRecords) ∧
  (sbStale s.sent s.sequence = false → sbInsert s.sent s.sequence = some (t.sent, k) ∧
    (t.sentRecord k).time = s.time ∧ (t.sentRecord k).acked = false ∧
    (s.cfg.packetHeaderSize.toNat + n < 2 ^ 32 →
      (t.sentRecord k).size = BitVec.ofNat 32 (s.cfg.packetHeaderSize.toNat + n)) ∧
    ∀ j, j ≠ k → t.sentRecord j = s.sentRecord j)

/-- The accepted packet of `n` bytes is recorded in `t`: a record at TIME of the accounted size (a free value where it does
not fit 32 bits: log 10); none when RECV rejects the sequence (45_endpoint.md R202). -/
def State.receiveRecorded (s t : State) (q : U16) (n : Nat) : Prop :=
  let k := q.toNat % s.recv.n.toNat
  (sbStale s.recv q = true → t.recv = s.recv ∧ t.recvRecords = s.recvRecords) ∧
  (sbStale s.recv q = false → sbInsert s.recv q = some (t.recv, k) ∧
    (t.recvRecord k).time = s.time ∧
    (s.cfg.packetHeaderSize.toNat + n < 2 ^ 32 →
      (t.recvRecord k).size = BitVec.ofNat 32 (s.cfg.packetHeaderSize.toNat + n)) ∧
    ∀ j, j ≠ k → t.recvRecord j = s.recvRecord j)

/-- In the ack walk, from `s` to `t`, the bits `marked` are recorded, in this order (45_endpoint.md R203): each is set and
its sequence is held and not acked; ACKS grows by their sequences; exactly their records become acked; RTT folds their
samples; and a set bit is left out only when the list was full before it. -/
def State.walkMarks (s t : State) (ack : U16) (bits : U32) (marked : List Nat) : Prop :=
  let seqOf : Nat → U16 := fun i => ack - BitVec.ofNat 16 i
  let fresh : Nat → Prop := fun i =>
    i < 32 ∧ bits.getLsbD i = true ∧ ∃ k, sbFind s.sent (seqOf i) = some k ∧ (s.sentRecord k).acked = false
  let num := s.params.num
  marked.Pairwise (· < ·) ∧ (∀ i ∈ marked, fresh i) ∧
  (∀ i, fresh i → i ∉ marked → s.cfg.ackBufferSize ≤ t.ackCount ∧ ∀ j ∈ marked, j < i) ∧
  t.ackCount.toNat = s.ackCount.toNat + marked.length ∧
  (∀ j, j < marked.length → t.ackEntry (s.ackCount.toNat + j) = seqOf (marked.getD j 0)) ∧
  (∀ j, j < s.ackCount.toNat ∨ t.ackCount.toNat ≤ j → t.ackEntry j = s.ackEntry j) ∧
  (∀ k, t.sentRecord k = { s.sentRecord k with acked := (t.sentRecord k).acked } ∧
    ((t.sentRecord k).acked = true ↔
      (s.sentRecord k).acked = true ∨ ∃ i ∈ marked, sbFind s.sent (seqOf i) = some k)) ∧
  t.stats.rtt = marked.foldl (fun rtt i =>
    let sentAt := (s.sentRecord ((seqOf i).toNat % s.sent.n.toNat)).time
    rttNext num s.params.snapEps s.cfg.rttFactor rtt
      (numMul num (numSub num s.time sentAt) (numOfNat num 1000))) s.stats.rtt

/-- The ack walk of a packet has been done in `t` (45_endpoint.md R203). -/
def State.acksWalked (s t : State) (ack : U16) (bits : U32) : Prop :=
  let w := s.ackWalk ack bits 32
  t.acks = w.acks ∧ t.ackCount = w.ackCount ∧ t.sentRecords = w.sentRecords ∧ t.counters = w.counters ∧ t.stats = w.stats

/-- In `t` the innermost command has completed: either none is left, no event is pending and the other event registers are
as they were (log 8), or the enclosing command's event is shown again (20_memory.md R66, 60_exceptions.md R230). -/
def State.eventEnded (s t : State) (below : List Frame) : Prop :=
  (below = [] → t.inCallback = false ∧ t.evt = { s.evt with kind := none }) ∧
  ∀ f fs, below = f :: fs → t.inCallback = true ∧ t.shows f.event

/-- A run is safe when no step faults: the host keeps to the interface contract (60_exceptions.md R226). -/
def State.safeFor (s : State) (n : Nat) : Prop := ∃ t, Sys2Proof.core.run n s = .next t

end Sys2Proof.Machine
end

