-- ==== Sys2Proof/Certificates/Slice0/Obligations.lean ====
section
/-! DEFINITION. The statements for the provers. Each formalises or rests on rules of spec/ that OBLIGATIONS.json cites;
where one rests on a choice of the model its docstring names the log entry. -/

open Sys2Proof Sys2Proof.Machine

/-! ## Encoding and the step -/

/-- Decode and encode are inverse: decoding the encoding of a well-formed command gives it back, every field at every
value, and encoding what a word decodes to gives the word, so no bit of it is dropped (30_encoding.md R80, R87). -/
def Obligations.DecodeAndEncodeAgree : Prop :=
  (∀ i : Instr, i.wellFormed = true → decode (encode i) = .ok i) ∧
  (∀ (w : U32) (i : Instr), decode w = .ok i → encode i = w ∧ i.wellFormed = true)

/-- The words that decode are exactly the rows of the opcode map with legal fields (30_encoding.md R87, R88). -/
def Obligations.LegalWordsExactly : Prop :=
  ∀ w : U32, (∃ i, decode w = .ok i) ↔ legalWord w

/-- The assembled examples of 30_encoding.md R100 decode as it says. -/
def Obligations.AssembledExamplesDecode : Prop :=
  decode 0x00000001#32 = .ok (.seqGt 0) ∧ decode 0x00010110#32 = .ok (.sbInsert .recv 1) ∧
  decode 0x000B0010#32 = .ok (.sbInsert .sent 11) ∧ decode 0x00000114#32 = .ok (.sbGenack .recv) ∧
  decode 0xFFFB0113#32 = .ok (.sbTestInsert .recv 65531) ∧ decode 0x00640020#32 = .ok (.hdrEnc 100) ∧
  decode 0x00000051#32 = .ok .epSend ∧ decode 0x00000052#32 = .ok .epReceive ∧
  decode 0x00000053#32 = .ok .epUpdate ∧ decode 0x00000314#32 = .error .illegalBuf ∧
  decode 0x00010051#32 = .error .nonzeroImm

/-- A CMD write that may issue a command runs exactly the decoded command; the step takes the access off the host's queue
and adds nothing else (10_state.md R25, 20_memory.md R67, R68). -/
def Obligations.StepRunsDecodedCommand : Prop :=
  ∀ (s : State) (w : U32) (rest : List HostAccess) (i : Instr),
    s.host = .write 4 0#32 w :: rest → s.mayIssue = true → decode w = .ok i →
    step s = exec i { s with host := rest }

/-- An illegal command word sets STATUS.CODE to ILLEGAL and changes nothing else (30_encoding.md R88). -/
def Obligations.IllegalWordChangesOnlyCode : Prop :=
  ∀ (s : State) (w : U32) (rest : List HostAccess),
    s.host = .write 4 0#32 w :: rest → s.mayIssue = true → ¬ legalWord w →
    step s = .next { s with host := rest, code := .illegal }

/-- The commands of R191 end with NOT_CONFIGURED and change nothing else while CONFIGURED = 0; the pure commands do the
same whatever CONFIGURED is (45_endpoint.md R191). -/
def Obligations.ConfigurationGate : Prop :=
  (∀ (i : Instr) (s : State), i.wellFormed = true → needsConfig i = true → s.configured = false →
    exec i s = .next { s with code := .notConfigured }) ∧
  (∀ (i : Instr) (s : State) (c : Bool), needsConfig i = false → i ≠ .epCreate →
    exec i { s with configured := c } = mapNext (fun t => { t with configured := c }) (exec i s))

/-! ## SequenceMath -/

/-- `gt16` is the formula of 40_seqmath.md R110, in its first and in its second form, and `lt16` is its converse. -/
def Obligations.SequenceOrderForms : Prop :=
  ∀ a b : U16,
    (gt16 a b = true ↔
      (b.toNat < a.toNat ∧ seqDistance a.toNat b.toNat ≤ 32768) ∨
      (a.toNat < b.toNat ∧ 32768 < seqDistance b.toNat a.toNat)) ∧
    (gt16 a b = true ↔ newerThan a.toNat b.toNat) ∧ lt16 a b = gt16 b a

/-- The five laws of 40_seqmath.md R114. In law 3, within an arc of 32768 numbers the relation is the order of the places in
the arc. -/
def Obligations.SequenceOrderLaws : Prop :=
  (∀ a b : U16, (lt16 a b = true ∧ gt16 a b = false ∧ a ≠ b) ∨ (lt16 a b = false ∧ gt16 a b = true ∧ a ≠ b) ∨
    (lt16 a b = false ∧ gt16 a b = false ∧ a = b)) ∧
  (∀ a : U16, gt16 a a = false) ∧
  ((∀ (base : U16) (i j : Nat), i < 32768 → j < 32768 →
      (gt16 (base + BitVec.ofNat 16 i) (base + BitVec.ofNat 16 j) = true ↔ j < i)) ∧
    gt16 20000 0 = true ∧ gt16 40000 20000 = true ∧ gt16 0 40000 = true) ∧
  ((∀ a b c : U16, a - b ≠ 32768 → gt16 (a + c) (b + c) = gt16 a b) ∧
    gt16 32768 0 = true ∧ gt16 (32768 + 32768) (0 + 32768) = false) ∧
  (∀ a b : U16, a - b ≠ 0 → a - b ≠ 32768 → (gt16 a b = true ↔ (a - b).toNat < 32768))

/-- SEQ_GT, SEQ_LT and SEQ_INC write RES0 and STATUS.CODE and nothing else (40_seqmath.md R111, R112, R113). -/
def Obligations.SequenceMathCommands : Prop :=
  ∀ (s : State) (x : U16),
    (newerThan x.toNat (s.arg0.toNat % 65536) → exec (.seqGt x) s = .next { s with res0 := 1, code := .ok }) ∧
    (¬ newerThan x.toNat (s.arg0.toNat % 65536) → exec (.seqGt x) s = .next { s with res0 := 0, code := .ok }) ∧
    (newerThan (s.arg0.toNat % 65536) x.toNat → exec (.seqLt x) s = .next { s with res0 := 1, code := .ok }) ∧
    (¬ newerThan (s.arg0.toNat % 65536) x.toNat → exec (.seqLt x) s = .next { s with res0 := 0, code := .ok }) ∧
    exec (.seqInc x) s =
      .next { s with res0 := BitVec.ofNat 32 ((x.toNat + s.arg0.toNat) % 65536), code := .ok }

/-! ## SequenceBuffer -/

/-- What an insert does to every slot: a stale sequence changes nothing; otherwise S advances as R120 says, the swept
slots are emptied by position and the sequence's own slot is tagged (41_seqbuffer.md R120 to R123). -/
def Obligations.InsertTagsAndSweeps : Prop :=
  ∀ (B : SeqBuf) (q : U16),
    (sbStale B q = true → sbInsert B q = none) ∧
    (sbStale B q = false →
      ∃ B' : SeqBuf, sbInsert B q = some (B', q.toNat % B.n.toNat) ∧ B'.n = B.n ∧
        (gt16 (q + 1) B.s = true → B'.s = q + 1) ∧ (gt16 (q + 1) B.s = false → B'.s = B.s) ∧
        B'.tag (q.toNat % B.n.toNat) = some q ∧
        ∀ k, k ≠ q.toNat % B.n.toNat →
          (gt16 (q + 1) B.s = true ∧ B.swept q k → B'.tag k = none) ∧
          (¬ (gt16 (q + 1) B.s = true ∧ B.swept q k) → B'.tag k = B.tag k))

/-- SB_INSERT of a sequence that is not stale tags its slot, writes the slot's record from TIME and ARG2, answers the
slot, and changes nothing else; a stale sequence ends with STALE and changes nothing else (41_seqbuffer.md R123, R124). -/
def Obligations.SbInsertWritesRecord : Prop :=
  ∀ (s : State) (q : U16), s.configured = true →
    (sbStale s.sent q = false → ∃ t, exec (.sbInsert .sent q) s = .next t ∧
      sbInsert s.sent q = some (t.sent, q.toNat % s.sent.n.toNat) ∧
      t.sentRecord (q.toNat % s.sent.n.toNat) = ⟨s.time, false, s.arg2⟩ ∧
      (∀ k, k ≠ q.toNat % s.sent.n.toNat → t.sentRecord k = s.sentRecord k) ∧
      t = { s with sent := t.sent, sentRecords := t.sentRecords,
                   res0 := BitVec.ofNat 32 (q.toNat % s.sent.n.toNat), code := .ok }) ∧
    (sbStale s.recv q = false → ∃ t, exec (.sbInsert .recv q) s = .next t ∧
      sbInsert s.recv q = some (t.recv, q.toNat % s.recv.n.toNat) ∧
      t.recvRecord (q.toNat % s.recv.n.toNat) = ⟨s.time, s.arg2⟩ ∧
      (∀ k, k ≠ q.toNat % s.recv.n.toNat → t.recvRecord k = s.recvRecord k) ∧
      t = { s with recv := t.recv, recvRecords := t.recvRecords,
                   res0 := BitVec.ofNat 32 (q.toNat % s.recv.n.toNat), code := .ok }) ∧
    (∀ b : BufSel, b ≠ .frag → sbStale (s.buffer b) q = true →
      exec (.sbInsert b q) s = .next { s with code := .stale })

/-- SB_FIND reports the slot's record, or NOT_FOUND with the result registers unchanged (41_seqbuffer.md R125). -/
def Obligations.SbFindReportsSlot : Prop :=
  ∀ (s : State) (q : U16), s.configured = true →
    (s.sent.tag (q.toNat % s.sent.n.toNat) = some q →
      exec (.sbFind .sent q) s = .next { s with
        res0 := BitVec.ofNat 32 (q.toNat % s.sent.n.toNat)
        res1 := if (s.sentRecord (q.toNat % s.sent.n.toNat)).acked then 1 else 0
        res2 := (s.sentRecord (q.toNat % s.sent.n.toNat)).size
        resn := (s.sentRecord (q.toNat % s.sent.n.toNat)).time
        code := .ok }) ∧
    (s.recv.tag (q.toNat % s.recv.n.toNat) = some q →
      exec (.sbFind .recv q) s = .next { s with
        res0 := BitVec.ofNat 32 (q.toNat % s.recv.n.toNat)
        res1 := 0
        res2 := (s.recvRecord (q.toNat % s.recv.n.toNat)).size
        resn := (s.recvRecord (q.toNat % s.recv.n.toNat)).time
        code := .ok }) ∧
    (s.frag.tag (q.toNat % s.frag.n.toNat) = some q →
      exec (.sbFind .frag q) s = .next { s with
        res0 := BitVec.ofNat 32 (q.toNat % s.frag.n.toNat)
        res1 := (s.fragEntry (q.toNat % s.frag.n.toNat)).numReceived.setWidth 32
        res2 := (s.fragEntry (q.toNat % s.frag.n.toNat)).numTotal.setWidth 32
        res3 := (s.fragEntry (q.toNat % s.frag.n.toNat)).headerBytes.setWidth 32
        code := .ok }) ∧
    (∀ b : BufSel, (s.buffer b).tag (q.toNat % (s.buffer b).n.toNat) ≠ some q →
      exec (.sbFind b q) s = .next { s with code := .notFound })

/-- SB_REMOVE empties the slot that holds exactly the sequence, leaves S, N, every other slot and every payload, and
otherwise ends with NOT_FOUND (41_seqbuffer.md R127). -/
def Obligations.SbRemoveEmptiesSlot : Prop :=
  ∀ (s : State) (b : BufSel) (q : U16), s.configured = true →
    ((s.buffer b).tag (q.toNat % (s.buffer b).n.toNat) = some q →
      ∃ t, exec (.sbRemove b q) s = .next t ∧
        (t.buffer b).n = (s.buffer b).n ∧ (t.buffer b).s = (s.buffer b).s ∧
        (t.buffer b).tag (q.toNat % (s.buffer b).n.toNat) = none ∧
        (∀ k, k ≠ q.toNat % (s.buffer b).n.toNat → (t.buffer b).tag k = (s.buffer b).tag k) ∧
        t = { s.setBuffer b (t.buffer b) with code := .ok }) ∧
    ((s.buffer b).tag (q.toNat % (s.buffer b).n.toNat) ≠ some q →
      exec (.sbRemove b q) s = .next { s with code := .notFound })

/-- SB_TEST_INSERT answers 1 exactly when the oldest sequence of the window is newer, and changes only RES0 and CODE; for
N ≤ 32768 it answers 0 for every sequence of the window (41_seqbuffer.md R121, R128). -/
def Obligations.SbTestInsertReportsStale : Prop :=
  ∀ (s : State) (b : BufSel) (q : U16), s.configured = true →
    let oldest := seqDistance (s.buffer b).s.toNat ((s.buffer b).n.toNat % 65536)
    (newerThan oldest q.toNat → exec (.sbTestInsert b q) s = .next { s with res0 := 1, code := .ok }) ∧
    (¬ newerThan oldest q.toNat → exec (.sbTestInsert b q) s = .next { s with res0 := 0, code := .ok }) ∧
    ((s.buffer b).n.toNat ≤ 32768 → seqDistance q.toNat oldest < (s.buffer b).n.toNat →
      exec (.sbTestInsert b q) s = .next { s with res0 := 0, code := .ok })

/-- SB_GENACK answers the newest sequence and, in bit i, whether the sequence i before it is held; the buffer is not
changed (41_seqbuffer.md R126). -/
def Obligations.SbGenackReportsReceipts : Prop :=
  ∀ (s : State) (b : BufSel), s.configured = true →
    ∃ bits : U32, exec (.sbGenack b) s =
        .next { s with res0 := ((s.buffer b).s - 1).setWidth 32, res1 := bits, code := .ok } ∧
      ∀ i, i < 32 → (bits.getLsbD i = true ↔
        (s.buffer b).tag (((s.buffer b).s - 1 - BitVec.ofNat 16 i).toNat % (s.buffer b).n.toNat) =
          some ((s.buffer b).s - 1 - BitVec.ofNat 16 i))

/-- SB_RESET empties every slot and sets S to 0, keeps N and every payload; then every lookup fails and SB_GENACK would
give (65535, 0) (41_seqbuffer.md R129). -/
def Obligations.SbResetEmptiesBuffer : Prop :=
  ∀ (s : State) (b : BufSel), s.configured = true → 0 < (s.buffer b).n.toNat →
    ∃ t, exec (.sbReset b) s = .next t ∧ (t.buffer b).s = 0 ∧ (t.buffer b).n = (s.buffer b).n ∧
      (∀ k, k < (s.buffer b).n.toNat → (t.buffer b).tag k = none) ∧
      (∀ q, sbFind (t.buffer b) q = none) ∧ sbGenack (t.buffer b) = (65535, 0) ∧
      t = { s.setBuffer b (t.buffer b) with code := .ok }

/-- Inserting 0, 1, …, 4N-1 in order into an empty buffer of capacity N leaves exactly the last N findable, with
S = u16(4N) (41_seqbuffer.md R131 law 1), here for every N with 4N ≤ 65536. -/
def Obligations.ConsecutiveInsertsKeepLastN : Prop :=
  ∀ n : Nat, 1 ≤ n → 4 * n ≤ 65536 →
    let B := (List.range (4 * n)).foldl
      (fun (B : SeqBuf) q => ((sbInsert B (BitVec.ofNat 16 q)).map Prod.fst).getD B) ⟨BitVec.ofNat 32 n, 0, []⟩
    B.s = BitVec.ofNat 16 (4 * n) ∧
      ∀ q, q < 4 * n → ((sbFind B (BitVec.ofNat 16 q)).isSome = true ↔ 3 * n ≤ q)

/-- Every tagged sequence sits in its own slot and, for capacities of at least 2 that divide 65536 and are at most 32768,
lies in the window: every step keeps this (41_seqbuffer.md R131 law 2; the bound N ≥ 2 is log 22). -/
def Obligations.WindowInvariantKept : Prop :=
  ∀ s t : State, s.windowsSound → step s = .next t → t.windowsSound

/-! ## HeaderCodec -/

/-- The round-trip laws of 42_header_codec.md R148: a regular header followed by any bytes decodes to its fields and to
the minimal length; a fragment header decodes to its fields. -/
def Obligations.HeadersRoundTrip : Prop :=
  (∀ (q ack : U16) (bits : U32) (tail : List Byte),
    hdrDecode (hdrEncode q ack bits ++ tail) = .fields ⟨q, ack, bits, headerLength q ack bits⟩ ∧
    (hdrEncode q ack bits).length = headerLength q ack bits) ∧
  (∀ (q : U16) (id count : Nat) (tail : List Byte), id < count → count ≤ 256 →
    fhdrDecode (fhdrEncode q id count ++ tail) = .fields ⟨q, id, count⟩)

/-- HDR_ENC writes the header to OBUF from offset 0 and its length to RES0, and nothing else: the prefix byte, then the fields
in order and little-endian, each present as the prefix says; OBUF bytes past the header keep their values
(30_encoding.md R90, R91; 42_header_codec.md R140, R141). -/
def Obligations.HdrEncWritesObuf : Prop :=
  ∀ (s : State) (q : U16), ∃ t, exec (.hdrEnc q) s = .next t ∧
    (headerLayout q s.argHalf s.arg1).length = headerLength q s.argHalf s.arg1 ∧
    (∀ p, p < headerLength q s.argHalf s.arg1 →
      (readByte t.obuf p).toNat = (headerLayout q s.argHalf s.arg1).getD p 0) ∧
    (∀ p, headerLength q s.argHalf s.arg1 ≤ p → readByte t.obuf p = readByte s.obuf p) ∧
    t = { s with obuf := t.obuf, res0 := BitVec.ofNat 32 (headerLength q s.argHalf s.arg1), code := .ok }

/-- HDR_DEC of any string that starts with a regular header, minimal or not, gives the fields and the length its prefix byte
announces, whatever prefix bits 6 and 7 are, and changes nothing else; so a header that HDR_ENC's bytes give decodes to its
own fields (30_encoding.md R90 to R92, R97; 42_header_codec.md R142, R143, R149). -/
def Obligations.HdrDecReportsFields : Prop :=
  ∀ s : State, s.arg2.toNat ≤ s.params.ibufBytes →
    let b := readBytes s.ibuf 0 s.arg2.toNat
    (1 ≤ b.length → byteNat b 0 % 2 = 0 → announcedLength (byteNat b 0) ≤ b.length →
      exec .hdrDec s = .next { s with
        res0 := BitVec.ofNat 32 (headerSeq b), res1 := BitVec.ofNat 32 (headerAck b)
        res2 := BitVec.ofNat 32 (headerBits b), res3 := BitVec.ofNat 32 (announcedLength (byteNat b 0))
        code := .ok }) ∧
    ∀ (q ack : U16) (bits : U32) (tail : List Byte), b = hdrEncode q ack bits ++ tail →
      exec .hdrDec s = .next { s with
        res0 := q.setWidth 32, res1 := ack.setWidth 32, res2 := bits,
        res3 := BitVec.ofNat 32 (headerLength q ack bits), code := .ok }

/-- HDR_DEC of a string it cannot decode changes only STATUS.CODE: BAD_LENGTH past IBUF_BYTES, DECODE_MARKER when bit 0 of
the first byte is 1, DECODE_SHORT for the empty string and, with bit 0 clear, for every string shorter than its prefix byte
announces, minimal or not (30_encoding.md R92, R97; 42_header_codec.md R142, R143). -/
def Obligations.HdrDecRejections : Prop :=
  ∀ s : State,
    (s.params.ibufBytes < s.arg2.toNat → exec .hdrDec s = .next { s with code := .badLength }) ∧
    (s.arg2.toNat ≤ s.params.ibufBytes →
      (s.arg2 = 0 → exec .hdrDec s = .next { s with code := .decodeShort }) ∧
      (1 ≤ s.arg2.toNat → (readByte s.ibuf 0).toNat % 2 = 1 →
        exec .hdrDec s = .next { s with code := .decodeMarker }) ∧
      (1 ≤ s.arg2.toNat → (readByte s.ibuf 0).toNat % 2 = 0 →
        s.arg2.toNat < announcedLength (readByte s.ibuf 0).toNat →
        exec .hdrDec s = .next { s with code := .decodeShort }))

/-- FHDR_ENC writes the five bytes and RES0 = 5 for a legal (id, count), and is refused with BAD_OPERAND otherwise
(42_header_codec.md R144, R145). -/
def Obligations.FhdrEncWritesObuf : Prop :=
  ∀ (s : State) (q : U16),
    (s.arg0.toNat < s.arg1.toNat → s.arg1.toNat ≤ 256 → ∃ t, exec (.fhdrEnc q) s = .next t ∧
      readBytes t.obuf 0 5 = [0x01, BitVec.ofNat 8 q.toNat, BitVec.ofNat 8 (q.toNat / 256),
        BitVec.ofNat 8 s.arg0.toNat, BitVec.ofNat 8 (s.arg1.toNat - 1)] ∧
      (∀ p, 5 ≤ p → readByte t.obuf p = readByte s.obuf p) ∧
      t = { s with obuf := t.obuf, res0 := 5, code := .ok }) ∧
    (s.arg1.toNat ≤ s.arg0.toNat ∨ 256 < s.arg1.toNat →
      exec (.fhdrEnc q) s = .next { s with code := .badOperand })

/-- FHDR_DEC reads sequence, id and count of a five-byte header whose first byte is 0x01; a shorter string is DECODE_SHORT
and another first byte DECODE_MARKER, the length check first; a length past IBUF_BYTES is BAD_LENGTH
(42_header_codec.md R146, R147). -/
def Obligations.FhdrDecReportsFields : Prop :=
  ∀ s : State,
    (s.params.ibufBytes < s.arg2.toNat → exec .fhdrDec s = .next { s with code := .badLength }) ∧
    (s.arg2.toNat ≤ s.params.ibufBytes →
      (5 ≤ s.arg2.toNat → readByte s.ibuf 0 = 0x01 → exec .fhdrDec s = .next { s with
        res0 := BitVec.ofNat 32 ((readByte s.ibuf 1).toNat + 256 * (readByte s.ibuf 2).toNat)
        res1 := BitVec.ofNat 32 (readByte s.ibuf 3).toNat
        res2 := BitVec.ofNat 32 ((readByte s.ibuf 4).toNat + 1)
        code := .ok }) ∧
      (s.arg2.toNat < 5 → exec .fhdrDec s = .next { s with code := .decodeShort }) ∧
      (5 ≤ s.arg2.toNat → readByte s.ibuf 0 ≠ 0x01 → exec .fhdrDec s = .next { s with code := .decodeMarker }))

/-! ## Reassembler -/

/-- Every way a fragment is turned away, in the order of the checks, each counted once in FRAGMENTS_INVALID, with RES0 to
RES2 written as soon as its header decodes; a repeated fragment is dropped with no count; and FRAG_RX ends with the
code and the state each of them gives (43_reassembler.md R160 to R165, R168). -/
def Obligations.FragmentRejections : Prop :=
  ∀ (s : State) (b : List Byte),
    let bad : State → ResultCode → FragOutcome × State := fun x c =>
      (.ended c, { x with counters := { x.counters with fragmentsInvalid := x.counters.fragmentsInvalid + 1 } })
    (∀ c u, s.configured = true → s.arg2.toNat ≤ s.params.ibufBytes → readBytes s.ibuf 0 s.arg2.toNat = b →
      fragCore b s = (.ended c, u) → exec .fragRx s = .next { u with code := c }) ∧
    (fhdrDecode b = .short → fragCore b s = bad s .decodeShort) ∧
    (fhdrDecode b = .marker → fragCore b s = bad s .decodeMarker) ∧
    ∀ h : FragmentHeader, fhdrDecode b = .fields h →
      let seen : State := { s with
        res0 := h.seq.setWidth 32, res1 := BitVec.ofNat 32 h.id, res2 := BitVec.ofNat 32 h.count }
      (s.cfg.maxFragments.toNat < h.count → fragCore b s = bad seen .fragBadCount) ∧
      (h.count ≤ s.cfg.maxFragments.toNat → h.count ≤ h.id → fragCore b s = bad seen .fragBadId) ∧
      (h.count ≤ s.cfg.maxFragments.toNat → h.id = 0 →
        ((∀ e, hdrDecode (b.drop 5) ≠ .fields e) → fragCore b s = bad seen .fragBadHeader) ∧
        (∀ e, hdrDecode (b.drop 5) = .fields e → e.seq ≠ h.seq → fragCore b s = bad seen .fragSeqMismatch)) ∧
      ∀ (hdr : List Byte) (off : Nat), h.count ≤ s.cfg.maxFragments.toNat → h.id < h.count → h.carries b hdr off →
        (s.cfg.fragmentSize.toNat < b.length - off → fragCore b s = bad seen .fragTooBig) ∧
        (b.length - off < s.cfg.fragmentSize.toNat → h.id ≠ h.count - 1 → fragCore b s = bad seen .fragBadSize) ∧
        (b.length - off ≤ s.cfg.fragmentSize.toNat →
          (h.id = h.count - 1 ∨ b.length - off = s.cfg.fragmentSize.toNat) →
          (sbFind s.frag h.seq = none → sbStale s.frag h.seq = true → fragCore b s = bad seen .fragStale) ∧
          (∀ k, sbFind s.frag h.seq = some k →
            ((s.fragEntry k).numTotal.toNat ≠ h.count → fragCore b s = bad seen .fragCountMismatch) ∧
            ((s.fragEntry k).numTotal.toNat = h.count → (s.fragEntry k).received.getLsbD h.id = true →
              fragCore b s = (.ended .fragDuplicate, seen))))

/-- FRAG_RX of the first fragment of a new packet of at least two: the packet's entry is created in the slot the insert
tags, with this fragment alone; its header and payload stand at their places in the zeroed REASM space; nothing else
changes (43_reassembler.md R160 to R168; 30_encoding.md R95). -/
def Obligations.FragRxOpensReassembly : Prop :=
  ∀ (s : State) (h : FragmentHeader) (hdr : List Byte) (off : Nat),
    let b := readBytes s.ibuf 0 s.arg2.toNat
    let fs := s.cfg.fragmentSize.toNat
    let k := h.seq.toNat % s.frag.n.toNat
    s.configured = true → s.arg2.toNat ≤ s.params.ibufBytes → fhdrDecode b = .fields h →
    h.count ≤ s.cfg.maxFragments.toNat → h.id < h.count → 2 ≤ h.count → h.carries b hdr off →
    b.length - off ≤ fs → (h.id = h.count - 1 ∨ b.length - off = fs) →
    sbFind s.frag h.seq = none → sbStale s.frag h.seq = false →
    ∃ t, exec .fragRx s = .next t ∧ sbInsert s.frag h.seq = some (t.frag, k) ∧
      t.fragEntry k = ⟨h.seq, BitVec.ofNat 16 h.count, 1, 1#256 <<< h.id, BitVec.ofNat 8 hdr.length,
        if h.id = h.count - 1 then BitVec.ofNat 32 ((h.count - 1) * fs + (b.length - off)) else 0⟩ ∧
      (∀ p, p < hdr.length → readByte (t.reasmSpace k) (9 - hdr.length + p) = hdr.getD p 0) ∧
      (∀ p, p < b.length - off → readByte (t.reasmSpace k) (9 + h.id * fs + p) = b.getD (off + p) 0) ∧
      (∀ a, a < 9 - hdr.length ∨ 9 ≤ a → a < 9 + h.id * fs ∨ 9 + h.id * fs + (b.length - off) ≤ a →
        readByte (t.reasmSpace k) a = 0) ∧
      (∀ j, j ≠ k → t.fragEntry j = s.fragEntry j ∧ t.reasmSpace j = s.reasmSpace j) ∧
      t = { s with
        frag := t.frag, fragEntries := t.fragEntries, reasm := t.reasm
        res0 := h.seq.setWidth 32, res1 := BitVec.ofNat 32 h.id, res2 := BitVec.ofNat 32 h.count
        counters := { s.counters with fragmentsReceived := s.counters.fragmentsReceived + 1 }
        code := .fragStored }

/-- FRAG_RX of a further fragment of a known packet that does not complete it: the fragment's bit, count, header and
payload range are written, FRAGMENTS_RECEIVED counts it, and nothing else changes (43_reassembler.md R160 to R168). -/
def Obligations.FragRxStoresFragment : Prop :=
  ∀ (s : State) (h : FragmentHeader) (hdr : List Byte) (off k : Nat),
    let b := readBytes s.ibuf 0 s.arg2.toNat
    let fs := s.cfg.fragmentSize.toNat
    s.configured = true → s.arg2.toNat ≤ s.params.ibufBytes → fhdrDecode b = .fields h →
    h.count ≤ s.cfg.maxFragments.toNat → h.id < h.count → h.carries b hdr off →
    b.length - off ≤ fs → (h.id = h.count - 1 ∨ b.length - off = fs) →
    sbFind s.frag h.seq = some k → (s.fragEntry k).numTotal.toNat = h.count →
    (s.fragEntry k).received.getLsbD h.id = false →
    (s.fragEntry k).numReceived + 1 ≠ (s.fragEntry k).numTotal →
    ∃ t, exec .fragRx s = .next t ∧
      (t.fragEntry k).numReceived = (s.fragEntry k).numReceived + 1 ∧
      (∀ i, i < 256 → ((t.fragEntry k).received.getLsbD i = true ↔
        i = h.id ∨ (s.fragEntry k).received.getLsbD i = true)) ∧
      (h.id = h.count - 1 → (t.fragEntry k).packetBytes = BitVec.ofNat 32 ((h.count - 1) * fs + (b.length - off))) ∧
      (h.id ≠ h.count - 1 → (t.fragEntry k).packetBytes = (s.fragEntry k).packetBytes) ∧
      (h.id = 0 → (t.fragEntry k).headerBytes = BitVec.ofNat 8 hdr.length) ∧
      (h.id ≠ 0 → (t.fragEntry k).headerBytes = (s.fragEntry k).headerBytes) ∧
      (t.fragEntry k).sequence = (s.fragEntry k).sequence ∧ (t.fragEntry k).numTotal = (s.fragEntry k).numTotal ∧
      (∀ p, p < hdr.length → readByte (t.reasmSpace k) (9 - hdr.length + p) = hdr.getD p 0) ∧
      (∀ p, p < b.length - off → readByte (t.reasmSpace k) (9 + h.id * fs + p) = b.getD (off + p) 0) ∧
      (∀ a, a < 9 - hdr.length ∨ 9 ≤ a → a < 9 + h.id * fs ∨ 9 + h.id * fs + (b.length - off) ≤ a →
        readByte (t.reasmSpace k) a = readByte (s.reasmSpace k) a) ∧
      (∀ j, j ≠ k → t.fragEntry j = s.fragEntry j ∧ t.reasmSpace j = s.reasmSpace j) ∧
      t = { s with
        fragEntries := t.fragEntries, reasm := t.reasm
        res0 := h.seq.setWidth 32, res1 := BitVec.ofNat 32 h.id, res2 := BitVec.ofNat 32 h.count
        counters := { s.counters with fragmentsReceived := s.counters.fragmentsReceived + 1 }
        code := .fragStored }

/-- FRAG_RX of the fragment that completes its packet: header and payload in OBUF, the fragment's sequence, id and count in
RES0 to RES2, the length in RES3, the reassembly removed (N, S and the other tags as they were, or as the insert left them
when the packet has this one fragment), FRAG_COMPLETE; beside the reassembly storage nothing else changes but
FRAGMENTS_RECEIVED. A fragment completes its packet when num_received + 1 = num_total, in a held entry or in a new one; the
packet is the bytes of REASM[k] from 9 - header_bytes, of length header_bytes + packet_bytes, after the fragment is stored
there (43_reassembler.md R160, R164, R166 to R168; 41_seqbuffer.md R127). -/
def Obligations.FragRxCompletesPacket : Prop :=
  (∀ (s : State) (h : FragmentHeader) (b hdr : List Byte) (off k : Nat) (e₀ : FragEntry) (m₀ : Memory),
    let fs := s.cfg.fragmentSize.toNat
    fhdrDecode b = .fields h → h.count ≤ s.cfg.maxFragments.toNat → h.id < h.count → h.carries b hdr off →
    b.length - off ≤ fs → (h.id = h.count - 1 ∨ b.length - off = fs) →
    (sbFind s.frag h.seq = some k ∧ (s.fragEntry k).numTotal.toNat = h.count ∧
        (s.fragEntry k).received.getLsbD h.id = false ∧ e₀ = s.fragEntry k ∧ m₀ = s.reasmSpace k) ∨
      (sbFind s.frag h.seq = none ∧ (∃ B, sbInsert s.frag h.seq = some (B, k)) ∧
        e₀ = ⟨h.seq, BitVec.ofNat 16 h.count, 0, 0, 0, 0⟩ ∧ m₀ = []) →
    e₀.numReceived + 1 = e₀.numTotal →
    ∃ u, fragCore b s = (.complete h.seq (readBytes (u.reasmSpace k) (9 - (u.fragEntry k).headerBytes.toNat)
        ((u.fragEntry k).headerBytes.toNat + (u.fragEntry k).packetBytes.toNat)), u) ∧
      (u.fragEntry k).headerBytes = (if h.id = 0 then BitVec.ofNat 8 hdr.length else e₀.headerBytes) ∧
      (u.fragEntry k).packetBytes =
        (if h.id = h.count - 1 then BitVec.ofNat 32 ((h.count - 1) * fs + (b.length - off)) else e₀.packetBytes) ∧
      (∀ p, p < hdr.length → readByte (u.reasmSpace k) (9 - hdr.length + p) = hdr.getD p 0) ∧
      (∀ p, p < b.length - off → readByte (u.reasmSpace k) (9 + h.id * fs + p) = b.getD (off + p) 0) ∧
      ∀ a, a < 9 - hdr.length ∨ 9 ≤ a → a < 9 + h.id * fs ∨ 9 + h.id * fs + (b.length - off) ≤ a →
        readByte (u.reasmSpace k) a = readByte m₀ a) ∧
  ∀ (s u : State) (q : U16) (pkt : List Byte), s.configured = true → s.arg2.toNat ≤ s.params.ibufBytes →
    fragCore (readBytes s.ibuf 0 s.arg2.toNat) s = (.complete q pkt, u) →
    ∃ t h, exec .fragRx s = .next t ∧ readBytes t.obuf 0 pkt.length = pkt ∧
      (∀ p, pkt.length ≤ p → readByte t.obuf p = readByte s.obuf p) ∧
      fhdrDecode (readBytes s.ibuf 0 s.arg2.toNat) = .fields h ∧ q = h.seq ∧ sbFind t.frag q = none ∧
      (sbFind s.frag q ≠ none → t.frag.n = s.frag.n ∧ t.frag.s = s.frag.s ∧
        ∀ k, k ≠ q.toNat % s.frag.n.toNat → t.frag.tag k = s.frag.tag k) ∧
      (sbFind s.frag q = none → ∃ B, sbInsert s.frag q = some (B, q.toNat % s.frag.n.toNat) ∧
        t.frag.n = B.n ∧ t.frag.s = B.s ∧ ∀ k, k ≠ q.toNat % s.frag.n.toNat → t.frag.tag k = B.tag k) ∧
      (∀ k, k ≠ q.toNat % s.frag.n.toNat → t.fragEntry k = s.fragEntry k ∧ t.reasmSpace k = s.reasmSpace k) ∧
      t = { s with
        obuf := t.obuf
        res0 := h.seq.setWidth 32, res1 := BitVec.ofNat 32 h.id, res2 := BitVec.ofNat 32 h.count
        res3 := BitVec.ofNat 32 pkt.length
        frag := t.frag, fragEntries := t.fragEntries, reasm := t.reasm
        counters := { s.counters with fragmentsReceived := s.counters.fragmentsReceived + 1 }
        code := .fragComplete }

/-- Order independence: the fragments of one packet, fed once each in any order to a block that holds nothing of it,
are all stored but the last, which completes exactly the header and the payload (43_reassembler.md R169). -/
def Obligations.FragmentsReassembleInAnyOrder : Prop :=
  ∀ (s : State) (q ack : U16) (bits : U32) (p : List Byte) (order : List Nat),
    let fs := s.cfg.fragmentSize.toNat
    let total := ceilDiv p.length fs
    s.configSound → s.configured = true → 1 ≤ p.length → total ≤ s.cfg.maxFragments.toNat →
    sbStale s.frag q = false → sbFind s.frag q = none → order.Perm (List.range total) →
    (feedFragments (order.map (fragmentOf fs q (hdrEncode q ack bits) p)) s).1 =
      List.replicate (total - 1) (.ended .fragStored) ++ [.complete q (hdrEncode q ack bits ++ p)]

/-- Every tagged partial reassembly stays consistent: its counts, its bitmap and its lengths agree (10_state.md R36,
43_reassembler.md R164 to R166). -/
def Obligations.ReassemblyInvariantKept : Prop :=
  ∀ s t : State, s.reassemblySound → step s = .next t → t.reassemblySound

/-! ## Smoother -/

/-- NUM arithmetic. In every format an operation on finite operands gives the exact sum, difference, product or quotient
rounded once (a zero of either sign has one value), a comparison compares the exact values, `absN` the exact magnitude, and
`toN` is exact below 2^53. In binary64, whose meaning is the model's (log 1), a rounded value is the nearest finite one, of
two equally near the one with an even last bit, with the sign of the exact value; past `2^1024 - 2^970` it is the infinity
of that sign (00_scope.md R8, R11). -/
def Obligations.NumRoundsOnce : Prop :=
  (∀ (f : NumFormat) (a b : NumWord) (x y : ℚ), numExact f a = some x → numExact f b = some y →
    (numLt f a b = true ↔ x < y) ∧ (numEq f a b = true ↔ x = y) ∧
    (numAbsLt f a b = true ↔ |x| < y) ∧ (numLtAbs f a b = true ↔ x < |y|) ∧
    let gives : NumWord → ℚ → Prop := fun r z =>
      (z ≠ 0 → r = numRounded f z) ∧ numExact f r = numExact f (numRounded f z)
    gives (numAdd f a b) (x + y) ∧ gives (numSub f a b) (x - y) ∧ gives (numMul f a b) (x * y) ∧
      (y ≠ 0 → gives (numDiv f a b) (x / y))) ∧
  (∀ (f : NumFormat) (k : Nat), numOfNat f k = numRounded f k) ∧
  (∀ q : ℚ, let r := numRounded .binary64 q
    (r.getLsbD 63 = true ↔ q < 0) ∧
    (2 ^ 1024 - 2 ^ 970 ≤ |q| → r = if q < 0 then 0xFFF0000000000000#64 else 0x7FF0000000000000#64) ∧
    (|q| < 2 ^ 1024 - 2 ^ 970 → ∃ v, numExact .binary64 r = some v ∧
      ∀ (c : NumWord) (w : ℚ), numExact .binary64 c = some w →
        |v - q| ≤ |w - q| ∧ (|v - q| = |w - q| → w ≠ v → r.getLsbD 0 = false))) ∧
  (∀ (f : NumFormat) (k : Nat), k < 2 ^ 53 → numExact f (numOfNat f k) = some (k : ℚ))

/-- STAT_SMOOTH smooths exactly the selected register and writes nothing else: the raw value where the difference is at most
SNAP_EPS and where the selected register holds a NaN, else a step of the factor toward it; another selector or a non-finite
operand is BAD_OPERAND (44_smoother.md R180, R182). -/
def Obligations.StatSmoothSelects : Prop :=
  ∀ s : State, s.configured = true →
    let num := s.params.num
    let smoothed : NumWord → NumWord → NumWord := fun v f =>
      if numIsNan num v = false ∧ numLtAbs num s.params.snapEps (numSub num v s.numin) = true then
        numAdd num v (numMul num (numSub num s.numin v) f)
      else s.numin
    (numFinite num s.numin = true →
      (s.arg0 = 1 → exec .statSmooth s = .next { s with code := .ok, stats := { s.stats with
        loss := smoothed s.stats.loss s.cfg.lossFactor } }) ∧
      (s.arg0 = 2 → exec .statSmooth s = .next { s with code := .ok, stats := { s.stats with
        sentKbps := smoothed s.stats.sentKbps s.cfg.bandwidthFactor } }) ∧
      (s.arg0 = 3 → exec .statSmooth s = .next { s with code := .ok, stats := { s.stats with
        recvKbps := smoothed s.stats.recvKbps s.cfg.bandwidthFactor } }) ∧
      (s.arg0 = 4 → exec .statSmooth s = .next { s with code := .ok, stats := { s.stats with
        ackedKbps := smoothed s.stats.ackedKbps s.cfg.bandwidthFactor } }) ∧
      (s.arg0 = 0 ∨ 5 ≤ s.arg0.toNat → exec .statSmooth s = .next { s with code := .badOperand })) ∧
    (numFinite num s.numin = false → exec .statSmooth s = .next { s with code := .badOperand })

/-- RTT_FOLD snaps on a first positive sample and below the threshold, and smooths otherwise; it writes RTT and CODE only
(44_smoother.md R181). -/
def Obligations.RttFoldCases : Prop :=
  ∀ s : State, s.configured = true →
    let num := s.params.num
    let snaps : Prop := (numEq num s.stats.rtt 0 = true ∧ numLt num 0 s.numin = true) ∨
      numAbsLt num (numSub num s.stats.rtt s.numin) s.params.snapEps = true
    (numFinite num s.numin = true →
      (snaps → exec .rttFold s = .next { s with code := .ok, stats := { s.stats with rtt := s.numin } }) ∧
      (¬ snaps → exec .rttFold s = .next { s with code := .ok, stats := { s.stats with
          rtt := numAdd num s.stats.rtt (numMul num (numSub num s.numin s.stats.rtt) s.cfg.rttFactor) } })) ∧
    (numFinite num s.numin = false → exec .rttFold s = .next { s with code := .badOperand })

/-- STAT_UPDATE recomputes LOSS and the three bandwidths, and writes nothing else. LOSS: the sampled sequences held and not
acked, per sample, in percent, smoothed. A bandwidth: unchanged when no two of its sampled records differ in time, else
bytes over the time span, in kilobits, smoothed. The span is from the least sampled time to the greatest
(44_smoother.md R183 to R187). -/
def Obligations.StatUpdateRecomputes : Prop :=
  (∀ (num : NumFormat) (xs : List (NumWord × U32)), xs ≠ [] → (∀ x ∈ xs, numFinite num x.1 = true) →
    (∃ x ∈ xs, bwFirst num xs = x.1) ∧ (∀ x ∈ xs, numLt num x.1 (bwFirst num xs) = false) ∧
    (∃ x ∈ xs, bwLast num xs = x.1) ∧ (∀ x ∈ xs, numLt num (bwLast num xs) x.1 = false)) ∧
  ∀ s : State, s.configured = true →
    let num := s.params.num
    let kbps : NumWord → List (NumWord × U32) → NumWord := fun v xs =>
      if xs.any (fun x => numLt num (bwFirst num xs) x.1) then
        smooth num s.params.snapEps v
          (numDiv num (numMul num (numDiv num (numOfNat num (xs.map fun x => x.2.toNat).sum)
            (numSub num (bwLast num xs) (bwFirst num xs))) (numOfNat num 8)) (numOfNat num 1000)) s.cfg.bandwidthFactor
      else v
    let held : SeqBuf → List Nat := fun B =>
      (((List.range (B.n.toNat / 2)).map fun i => B.s - B.n.setWidth 16 + BitVec.ofNat 16 i).filter
        fun q => decide (B.tag (q.toNat % B.n.toNat) = some q)).map fun q => q.toNat % B.n.toNat
    let sentHeld := (held s.sent).map s.sentRecord
    (∀ k, numFinite num (s.sentRecord k).time = true) → (∀ k, numFinite num (s.recvRecord k).time = true) →
    exec .statUpdate s = .next { s with code := .ok, stats :=
      { rtt := s.stats.rtt
        loss := smooth num s.params.snapEps s.stats.loss
          (numMul num (numDiv num (numOfNat num (sentHeld.filter fun r => !r.acked).length)
            (numOfNat num (s.sent.n.toNat / 2))) (numOfNat num 100)) s.cfg.lossFactor
        sentKbps := kbps s.stats.sentKbps (sentHeld.map fun r => (r.time, r.size))
        recvKbps := kbps s.stats.recvKbps (((held s.recv).map s.recvRecord).map fun r => (r.time, r.size))
        ackedKbps := kbps s.stats.ackedKbps ((sentHeld.filter fun r => r.acked).map fun r => (r.time, r.size)) } }

/-- While no sampled sequence is held, STAT_UPDATE smooths LOSS toward the raw value of no loss, changes no bandwidth and
nothing else; in binary64, whose meaning is the model's (log 1), that raw value is +0 (44_smoother.md R184, R185, R187;
70_reset_and_hazards.md R258). -/
def Obligations.LossWarmsUpTowardZero : Prop :=
  ∀ s : State, s.configured = true → 2 ≤ s.sent.n.toNat → s.sent.n.toNat ≤ 65536 →
    (∀ i, i < s.sent.n.toNat / 2 → sbFind s.sent (s.sent.oldest + BitVec.ofNat 16 i) = none) →
    (∀ i, i < s.recv.n.toNat / 2 → sbFind s.recv (s.recv.oldest + BitVec.ofNat 16 i) = none) →
    let num := s.params.num
    let raw := numMul num (numDiv num (numOfNat num 0) (numOfNat num (s.sent.n.toNat / 2))) (numOfNat num 100)
    (num = .binary64 → raw = 0) ∧
    exec .statUpdate s = .next { s with code := .ok, stats := { s.stats with
      loss := smooth num s.params.snapEps s.stats.loss raw s.cfg.lossFactor } }

/-! ## Endpoint -/

/-- EP_CREATE with a configuration that passes every bound of R190 configures the block and starts every endpoint field
from zero; the byte buffers, the operand and the result registers are unchanged (45_endpoint.md R190,
70_reset_and_hazards.md R246). -/
def Obligations.EpCreateConfigures : Prop :=
  ∀ s : State, s.configured = false →
    1 ≤ s.cfg.maxPacketSize.toNat → s.cfg.maxPacketSize.toNat ≤ s.params.ibufBytes →
    1 ≤ s.cfg.maxFragments.toNat → s.cfg.maxFragments.toNat ≤ 256 → 1 ≤ s.cfg.fragmentSize.toNat →
    1 ≤ s.cfg.ackBufferSize.toNat → s.cfg.ackBufferSize.toNat ≤ s.params.maxAcks →
    2 ≤ s.cfg.sentBufferSize.toNat → s.cfg.sentBufferSize.toNat ≤ s.params.maxSbEntries →
    1 ≤ s.cfg.receivedBufferSize.toNat → s.cfg.receivedBufferSize.toNat ≤ s.params.maxSbEntries →
    1 ≤ s.cfg.reassemblyBufferSize.toNat → s.cfg.reassemblyBufferSize.toNat ≤ s.params.maxSbEntries →
    numFinite s.params.num s.cfg.rttFactor = true → numFinite s.params.num s.cfg.lossFactor = true →
    numFinite s.params.num s.cfg.bandwidthFactor = true →
    9 + s.cfg.maxFragments.toNat * s.cfg.fragmentSize.toNat ≤ s.params.obufBytes →
    9 + s.cfg.maxFragments.toNat * s.cfg.fragmentSize.toNat ≤ s.params.reasmBytes →
    (s.cfg.maxPacketSize.toNat ≤ s.cfg.fragmentAbove.toNat ∨
      s.cfg.maxPacketSize.toNat ≤ s.cfg.maxFragments.toNat * s.cfg.fragmentSize.toNat) →
    exec .epCreate s = .next { s with
      sent := ⟨s.cfg.sentBufferSize, 0, []⟩, recv := ⟨s.cfg.receivedBufferSize, 0, []⟩
      frag := ⟨s.cfg.reassemblyBufferSize, 0, []⟩
      sequence := 0, ackCount := 0, time := 0, stats := ⟨0, 0, 0, 0, 0⟩
      counters := ⟨0, 0, 0, 0, 0, 0, 0, 0, 0, 0⟩
      configured := true, code := .ok }

/-- EP_SEND of a payload of at most `fragment_above` bytes allocates the sequence, records the send unless SENT rejects it,
counts it and raises one TX event with header and payload; it waits there (45_endpoint.md R192, R194, R195;
60_exceptions.md R228). -/
def Obligations.EpSendRaisesTx : Prop :=
  ∀ s : State, s.configured = true → s.arg2.toNat ≤ s.params.ibufBytes →
    s.arg2.toNat ≤ s.cfg.maxPacketSize.toNat → s.arg2.toNat ≤ s.cfg.fragmentAbove.toNat →
    let pkt := hdrEncode s.sequence (sbGenack s.recv).1 (sbGenack s.recv).2 ++ readBytes s.ibuf 0 s.arg2.toNat
    ∃ t, exec .epSend s = .next t ∧
      t.shows ⟨.tx, s.sequence, pkt⟩ ∧ (∀ p, pkt.length ≤ p → readByte t.ebuf p = readByte s.ebuf p) ∧
      s.sendRecorded t s.arg2.toNat ∧
      t = { s with
        sequence := s.sequence + 1, inCallback := true
        counters := { s.counters with packetsSent := s.counters.packetsSent + 1 }
        stack := ⟨.sendRegular s.sequence, ⟨.tx, s.sequence, pkt⟩⟩ :: s.stack
        sent := t.sent, sentRecords := t.sentRecords, evt := t.evt, ebuf := t.ebuf, freeCount := t.freeCount }

/-- EP_SEND of a larger payload records the send likewise and raises the TX event of fragment 0 first: fragment header,
regular header, the first `fragment_size` bytes; both send counters count before it (45_endpoint.md R194, R196;
30_encoding.md R94). -/
def Obligations.EpSendRaisesFirstFragment : Prop :=
  ∀ s : State, s.configSound → s.configured = true → s.arg2.toNat ≤ s.params.ibufBytes →
    s.arg2.toNat ≤ s.cfg.maxPacketSize.toNat → s.cfg.fragmentAbove.toNat < s.arg2.toNat →
    let p := readBytes s.ibuf 0 s.arg2.toNat
    let fs := s.cfg.fragmentSize.toNat
    let total := ceilDiv p.length fs
    let first := fhdrEncode s.sequence 0 total ++
      (hdrEncode s.sequence (sbGenack s.recv).1 (sbGenack s.recv).2 ++ p.take fs)
    1 ≤ total ∧ total ≤ s.cfg.maxFragments.toNat ∧
    ∃ t, exec .epSend s = .next t ∧ t.shows ⟨.tx, s.sequence, first⟩ ∧
      (∀ a, first.length ≤ a → readByte t.ebuf a = readByte s.ebuf a) ∧ s.sendRecorded t s.arg2.toNat ∧
      t = { s with
        sequence := s.sequence + 1, inCallback := true
        counters := { s.counters with
          packetsSent := s.counters.packetsSent + 1, fragmentsSent := s.counters.fragmentsSent + 1 }
        stack := ⟨.sendFragments s.sequence p 1 total, ⟨.tx, s.sequence, first⟩⟩ :: s.stack
        sent := t.sent, sentRecords := t.sentRecords, evt := t.evt, ebuf := t.ebuf, freeCount := t.freeCount }

/-- A fragmented EP_SEND goes on at each EVT_DONE, nested or not: while fragments are left it counts one and raises the TX
event of that fragment, header and payload part; after the last it ends with OK, RES0 the sequence and the enclosing event,
if any, shown again. Two parts are the model's choice: EBUF past both event strings keeps its bytes (log 7), and when idle
the event registers other than EVT_KIND keep their values (log 8). So, when the host ends
its TX events one after the other, it completes after exactly F of them (30_encoding.md R94; 45_endpoint.md R192, R196;
60_exceptions.md R228, R230). -/
def Obligations.FragmentedSendTerminates : Prop :=
  (∀ (s : State) (q : U16) (p : List Byte) (next total : Nat) (e : Event) (below : List Frame) (v : U32)
      (rest : List HostAccess),
    s.nextEndsEvent v rest → s.inCallback = true → s.stack = ⟨.sendFragments q p next total, e⟩ :: below →
    let x : Event := ⟨.tx, q, fhdrEncode q next total ++
      (p.drop (next * s.cfg.fragmentSize.toNat)).take s.cfg.fragmentSize.toNat⟩
    (next < total → ∃ t, step s = .next t ∧ t.shows x ∧
      (∀ a, x.bytes.length ≤ a → e.bytes.length ≤ a → readByte t.ebuf a = readByte s.ebuf a) ∧
      t = { s with
        host := rest, stack := ⟨.sendFragments q p (next + 1) total, x⟩ :: below
        counters := { s.counters with fragmentsSent := s.counters.fragmentsSent + 1 }
        evt := t.evt, ebuf := t.ebuf, freeCount := t.freeCount }) ∧
    (next = total → ∃ t, step s = .next t ∧ s.eventEnded t below ∧ t = { s with
      code := .ok, res0 := q.setWidth 32, host := rest
      stack := below, inCallback := t.inCallback, evt := t.evt, ebuf := t.ebuf, freeCount := t.freeCount })) ∧
  ∀ s t : State, s.configSound → s.configured = true → s.stack = [] → s.arg2.toNat ≤ s.params.ibufBytes →
    s.arg2.toNat ≤ s.cfg.maxPacketSize.toNat → s.cfg.fragmentAbove.toNat < s.arg2.toNat →
    exec .epSend s = .next t →
    let total := ceilDiv s.arg2.toNat s.cfg.fragmentSize.toNat
    ∃ u, Sys2Proof.core.run total { t with host := List.replicate total (.write 4 0x194#32 0#32) } = .next u ∧
      u.code = .ok ∧ u.stack = [] ∧ u.inCallback = false ∧ u.res0 = s.sequence.setWidth 32 ∧ u.host = [] ∧
      u.counters.fragmentsSent = s.counters.fragmentsSent + BitVec.ofNat 64 total

/-- Ending the TX event of a regular send completes it: OK and RES0, and either the block is idle or the enclosing
command's event is shown again; when idle, the event registers other than EVT_KIND keep their values, which is the model's
reading (log 8) (20_memory.md R66, 60_exceptions.md R228, R230). -/
def Obligations.SendCompletesAtEventEnd : Prop :=
  ∀ (s : State) (q : U16) (e : Event) (below : List Frame) (v : U32) (rest : List HostAccess),
    s.nextEndsEvent v rest → s.inCallback = true → s.stack = ⟨.sendRegular q, e⟩ :: below →
    ∃ t, step s = .next t ∧ s.eventEnded t below ∧ t = { s with
      code := .ok, res0 := q.setWidth 32, host := rest
      stack := below, inCallback := t.inCallback, evt := t.evt, ebuf := t.ebuf, freeCount := t.freeCount }

/-- EP_RECEIVE of a regular packet that is not stale counts it, reports its sequence and raises DELIVER with the payload
alone; nothing is recorded before the answer (45_endpoint.md R197 to R201; 60_exceptions.md R229). -/
def Obligations.EpReceiveRaisesDeliver : Prop :=
  ∀ (s : State) (h : RegularHeader), s.configured = true → s.arg2.toNat ≤ s.params.ibufBytes →
    s.arg2.toNat ≤ s.cfg.maxPacketSize.toNat →
    hdrDecode (readBytes s.ibuf 0 s.arg2.toNat) = .fields h → sbStale s.recv h.seq = false →
    let e : Event := ⟨.deliver, h.seq, (readBytes s.ibuf 0 s.arg2.toNat).drop h.length⟩
    ∃ t, exec .epReceive s = .next t ∧ t.shows e ∧
      (∀ p, e.bytes.length ≤ p → readByte t.ebuf p = readByte s.ebuf p) ∧
      t = { s with
        res0 := h.seq.setWidth 32, inCallback := true
        counters := { s.counters with packetsReceived := s.counters.packetsReceived + 1 }
        stack := ⟨.deliver h.seq h.ack h.bits s.arg2.toNat none, e⟩ :: s.stack
        evt := t.evt, ebuf := t.ebuf }

/-- EP_RECEIVE of a fragment packet is `frag_core`: without a completion its outcome is the code; a completed packet
re-enters at the size check. Too large or stale, it is counted and ends with FRAG_COMPLETE, the inner code in RES3 and the
reassembly removed; otherwise it raises DELIVER with its payload alone (45_endpoint.md R198 to R201, R204; 30_encoding.md
R96; 41_seqbuffer.md R127). -/
def Obligations.EpReceiveFragments : Prop :=
  ∀ (s u : State), s.configured = true → s.arg2.toNat ≤ s.params.ibufBytes →
    1 ≤ s.arg2.toNat → s.arg2.toNat ≤ s.cfg.maxPacketSize.toNat → (readByte s.ibuf 0).getLsbD 0 = true →
    (∀ c, fragCore (readBytes s.ibuf 0 s.arg2.toNat) s = (.ended c, u) →
      exec .epReceive s = .next { u with code := c }) ∧
    (∀ q pkt, fragCore (readBytes s.ibuf 0 s.arg2.toNat) s = (.complete q pkt, u) →
      let removed : State → Prop := fun t => t.frag.n = u.frag.n ∧ t.frag.s = u.frag.s ∧ sbFind t.frag q = none ∧
        ∀ k, k ≠ q.toNat % u.frag.n.toNat → t.frag.tag k = u.frag.tag k
      (u.cfg.maxPacketSize.toNat < pkt.length → ∃ t, exec .epReceive s = .next t ∧ removed t ∧
        t = { u with
          frag := t.frag, code := .fragComplete, res3 := 0x0D
          counters := { u.counters with packetsTooLargeToReceive := u.counters.packetsTooLargeToReceive + 1 } }) ∧
      (∀ h, pkt.length ≤ u.cfg.maxPacketSize.toNat → hdrDecode pkt = .fields h →
        (sbStale u.recv h.seq = true → ∃ t, exec .epReceive s = .next t ∧ removed t ∧
          t = { u with
            frag := t.frag, code := .fragComplete, res0 := h.seq.setWidth 32, res3 := 0x08
            counters := { u.counters with
              packetsReceived := u.counters.packetsReceived + 1, packetsStale := u.counters.packetsStale + 1 } }) ∧
        (sbStale u.recv h.seq = false →
          ∃ t, exec .epReceive s = .next t ∧ t.shows ⟨.deliver, h.seq, pkt.drop h.length⟩ ∧
            (∀ p, (pkt.drop h.length).length ≤ p → readByte t.ebuf p = readByte u.ebuf p) ∧
            t = { u with
              res0 := h.seq.setWidth 32, inCallback := true
              counters := { u.counters with packetsReceived := u.counters.packetsReceived + 1 }
              stack := ⟨.deliver h.seq h.ack h.bits pkt.length (some q), ⟨.deliver, h.seq, pkt.drop h.length⟩⟩ :: u.stack
              evt := t.evt, ebuf := t.ebuf })))

/-- Creates, sends and receives that end without an event: EP_CREATE on a configured block or with an invalid configuration
(each bound of R190 broken; the power-on one among them) changes only CODE; a length past IBUF_BYTES is BAD_LENGTH, for FRAG_RX too; too large is
counted; a regular packet that does not decode and a stale one are counted; nothing else changes but RES0 of the stale one
(45_endpoint.md R190, R192, R193, R197 to R200; 60_exceptions.md R227). -/
def Obligations.EndpointRefusals : Prop :=
  ∀ s : State,
    (s.configured = false → ¬ s.cfg.valid s.params → exec .epCreate s = .next { s with code := .configInvalid }) ∧
    (s.configured = false →
      (s.cfg.maxPacketSize.toNat < 1 ∨ s.params.ibufBytes < s.cfg.maxPacketSize.toNat ∨
        s.cfg.maxFragments.toNat < 1 ∨ 256 < s.cfg.maxFragments.toNat ∨ s.cfg.fragmentSize.toNat < 1 ∨
        s.cfg.ackBufferSize.toNat < 1 ∨ s.params.maxAcks < s.cfg.ackBufferSize.toNat ∨
        s.cfg.sentBufferSize.toNat < 2 ∨ s.params.maxSbEntries < s.cfg.sentBufferSize.toNat ∨
        s.cfg.receivedBufferSize.toNat < 1 ∨ s.params.maxSbEntries < s.cfg.receivedBufferSize.toNat ∨
        s.cfg.reassemblyBufferSize.toNat < 1 ∨ s.params.maxSbEntries < s.cfg.reassemblyBufferSize.toNat ∨
        numFinite s.params.num s.cfg.rttFactor = false ∨ numFinite s.params.num s.cfg.lossFactor = false ∨
        numFinite s.params.num s.cfg.bandwidthFactor = false ∨
        s.params.obufBytes < 9 + s.cfg.maxFragments.toNat * s.cfg.fragmentSize.toNat ∨
        s.params.reasmBytes < 9 + s.cfg.maxFragments.toNat * s.cfg.fragmentSize.toNat ∨
        (s.cfg.fragmentAbove.toNat < s.cfg.maxPacketSize.toNat ∧
          s.cfg.maxFragments.toNat * s.cfg.fragmentSize.toNat < s.cfg.maxPacketSize.toNat)) →
      exec .epCreate s = .next { s with code := .configInvalid }) ∧
    (s.configured = false → s.cfg = CfgRegs.zero → exec .epCreate s = .next { s with code := .configInvalid }) ∧
    (s.configured = true → exec .epCreate s = .next { s with code := .alreadyConfigured }) ∧
    (s.configured = true → s.params.ibufBytes < s.arg2.toNat →
      exec .epSend s = .next { s with code := .badLength } ∧ exec .epReceive s = .next { s with code := .badLength } ∧
      exec .fragRx s = .next { s with code := .badLength }) ∧
    (s.configured = true → s.arg2.toNat ≤ s.params.ibufBytes → s.cfg.maxPacketSize.toNat < s.arg2.toNat →
      exec .epSend s = .next { s with
        code := .tooLargeToSend
        counters := { s.counters with packetsTooLargeToSend := s.counters.packetsTooLargeToSend + 1 } } ∧
      exec .epReceive s = .next { s with
        code := .tooLargeToReceive
        counters := { s.counters with packetsTooLargeToReceive := s.counters.packetsTooLargeToReceive + 1 } }) ∧
    (s.configured = true → s.arg2.toNat ≤ s.params.ibufBytes → s.arg2.toNat ≤ s.cfg.maxPacketSize.toNat →
      (hdrDecode (readBytes s.ibuf 0 s.arg2.toNat) = .short → exec .epReceive s = .next { s with
        code := .decodeShort
        counters := { s.counters with
          packetsReceived := s.counters.packetsReceived + 1, packetsInvalid := s.counters.packetsInvalid + 1 } }) ∧
      (∀ h, hdrDecode (readBytes s.ibuf 0 s.arg2.toNat) = .fields h → sbStale s.recv h.seq = true →
        exec .epReceive s = .next { s with
          code := .stale, res0 := h.seq.setWidth 32
          counters := { s.counters with
            packetsReceived := s.counters.packetsReceived + 1, packetsStale := s.counters.packetsStale + 1 } }))

/-- The host's answer to DELIVER for a packet that was not rebuilt: 0 records nothing and counts nothing; 1 records the
packet in RECV (unless it has become stale) and then does the ack walk; the enclosing event, if any, is shown again; and
nothing else changes (45_endpoint.md R201 to R203; 20_memory.md R66; the event registers after the last event: log 8). -/
def Obligations.DeliverAnswerRecords : Prop :=
  ∀ (s : State) (q ack : U16) (bits : U32) (n : Nat) (e : Event) (below : List Frame) (v : U32) (rest : List HostAccess),
    s.nextEndsEvent v rest → s.inCallback = true → s.stack = ⟨.deliver q ack bits n none, e⟩ :: below →
    ∃ t, step s = .next t ∧ s.eventEnded t below ∧
      (v.toNat % 2 = 0 → t = { s with
        code := .appRejected, host := rest
        stack := below, inCallback := t.inCallback, evt := t.evt, ebuf := t.ebuf, freeCount := t.freeCount }) ∧
      (v.toNat % 2 = 1 → s.receiveRecorded t q n ∧ s.acksWalked t ack bits ∧ t = { s with
        code := .ok, host := rest
        recv := t.recv, recvRecords := t.recvRecords
        sentRecords := t.sentRecords, acks := t.acks, ackCount := t.ackCount, counters := t.counters, stats := t.stats
        stack := below, inCallback := t.inCallback, evt := t.evt, ebuf := t.ebuf, freeCount := t.freeCount })

/-- The ack walk, whole: the sequences it records are exactly the held, not yet acked ones whose bit is set, in ascending
bit order until the list is full; ACKS grows by them, their records and no others become acked, PACKETS_ACKED counts them
and RTT folds their samples; nothing else changes (45_endpoint.md R203, R209; 44_smoother.md R181). -/
def Obligations.AckWalkRecordsAcks : Prop :=
  ∀ (s : State) (ack : U16) (bits : U32),
    let t := s.ackWalk ack bits 32
    (∃ marked, s.walkMarks t ack bits marked) ∧
    t = { s with
      acks := t.acks, ackCount := t.ackCount, sentRecords := t.sentRecords
      counters := { s.counters with
        packetsAcked := s.counters.packetsAcked + (t.ackCount - s.ackCount).setWidth 64 }
      stats := { s.stats with rtt := t.stats.rtt } }

/-- The host's answer for a rebuilt packet: as for a packet that arrived whole, but it ends with FRAG_COMPLETE, the inner
code in RES3, and the reassembly removed (45_endpoint.md R201 to R204; 43_reassembler.md R167; the event registers after
the last event: log 8). -/
def Obligations.RebuiltPacketEndsReassembly : Prop :=
  ∀ (s : State) (q ack : U16) (bits : U32) (n : Nat) (r : U16) (e : Event) (below : List Frame) (v : U32)
    (rest : List HostAccess),
    s.nextEndsEvent v rest → s.inCallback = true → s.stack = ⟨.deliver q ack bits n (some r), e⟩ :: below →
    ∃ t, step s = .next t ∧ s.eventEnded t below ∧ sbFind t.frag r = none ∧
      (∀ k, k ≠ s.frag.slot r → t.frag.tag k = s.frag.tag k) ∧ t.frag.n = s.frag.n ∧ t.frag.s = s.frag.s ∧
      (v.toNat % 2 = 0 → t = { s with
        code := .fragComplete, res3 := 0x0E, frag := t.frag, host := rest
        stack := below, inCallback := t.inCallback, evt := t.evt, ebuf := t.ebuf, freeCount := t.freeCount }) ∧
      (v.toNat % 2 = 1 → s.receiveRecorded t q n ∧ s.acksWalked t ack bits ∧ t = { s with
        code := .fragComplete, res3 := 0x00, frag := t.frag, host := rest
        recv := t.recv, recvRecords := t.recvRecords
        sentRecords := t.sentRecords, acks := t.acks, ackCount := t.ackCount, counters := t.counters, stats := t.stats
        stack := below, inCallback := t.inCallback, evt := t.evt, ebuf := t.ebuf, freeCount := t.freeCount })

/-- Transport of a regular packet: what A's EP_SEND puts in its TX event, given to B's EP_RECEIVE, is delivered as A's
payload under A's sequence, when it fits and is not stale at B (45_endpoint.md R192, R195, R197, R201). -/
def Obligations.SentPacketIsDelivered : Prop :=
  ∀ (a a' b : State) (f : Frame) (below : List Frame),
    a.configured = true → a.arg2.toNat ≤ a.params.ibufBytes → a.arg2.toNat ≤ a.cfg.maxPacketSize.toNat →
    a.arg2.toNat ≤ a.cfg.fragmentAbove.toNat → exec .epSend a = .next a' → a'.stack = f :: below →
    b.configured = true → b.arg2.toNat = f.event.bytes.length → b.arg2.toNat ≤ b.params.ibufBytes →
    b.arg2.toNat ≤ b.cfg.maxPacketSize.toNat → readBytes b.ibuf 0 b.arg2.toNat = f.event.bytes →
    sbStale b.recv a.sequence = false →
    ∃ b', exec .epReceive b = .next b' ∧
      b'.shows ⟨.deliver, a.sequence, readBytes a.ibuf 0 a.arg2.toNat⟩ ∧ b'.inCallback = true

/-- EP_UPDATE sets TIME to a finite NUMIN and then does exactly what STAT_UPDATE does; a non-finite one is BAD_OPERAND and
TIME is unchanged (45_endpoint.md R206; 44_smoother.md R187). -/
def Obligations.EpUpdateSetsTime : Prop :=
  ∀ s : State, s.configured = true →
    (numFinite s.params.num s.numin = true →
      exec .epUpdate s = exec .statUpdate { s with time := s.numin } ∧
      ∃ t, exec .epUpdate s = .next t ∧ t.time = s.numin ∧ t.code = .ok ∧ t.stats.rtt = s.stats.rtt ∧
        t = { s with time := s.numin, code := .ok, stats := t.stats }) ∧
    (numFinite s.params.num s.numin = false → exec .epUpdate s = .next { s with code := .badOperand })

/-- EP_RESET resets SEQUENCE, ACK_COUNT and the three buffers, keeps the configuration, the payload storage, ACKS and the
byte buffers, and clears counters, statistics and TIME only when RESET_CLEARS_STATS is set; EP_ACK_CLEAR sets ACK_COUNT to
0 and leaves ACKS, the records and everything else (45_endpoint.md R207, R208; 70_reset_and_hazards.md R246; that ACKS keeps
its entries follows R32 and R246: log 21). -/
def Obligations.EpResetAndAckClear : Prop :=
  ∀ s : State, s.configured = true →
    exec .epAckClear s = .next { s with ackCount := 0, code := .ok } ∧
    ∃ t, exec .epReset s = .next t ∧
      (∀ b : BufSel, (t.buffer b).s = 0 ∧ (t.buffer b).n = (s.buffer b).n ∧
        ∀ k, k < (s.buffer b).n.toNat → (t.buffer b).tag k = none) ∧
      (s.params.resetClearsStats = false → t = { s with
        sequence := 0, ackCount := 0, code := .ok, sent := t.sent, recv := t.recv, frag := t.frag }) ∧
      (s.params.resetClearsStats = true → t = { s with
        sequence := 0, ackCount := 0, code := .ok, sent := t.sent, recv := t.recv, frag := t.frag
        counters := ⟨0, 0, 0, 0, 0, 0, 0, 0, 0, 0⟩, stats := ⟨0, 0, 0, 0, 0⟩, time := 0 })

/-! ## The host interface and the whole machine -/

/-- The host-interface faults: a CMD write while a command runs or at MAX_NEST, an EVT_DONE write with no event, a wrong
width or alignment in the register or the buffer region, an unmapped address, a write to a read-only register, ACKS, OBUF
or EBUF, a read of CMD or EVT_DONE (60_exceptions.md R226; 20_memory.md R62, R63; which reason names an access that breaks
two clauses is log 11). -/
def Obligations.HostInterfaceFaults : Prop :=
  ∀ (s : State) (v a : U32) (rest : List HostAccess),
    (s.host = .write 4 0#32 v :: rest → 0 < s.depth → s.inCallback = true → s.params.maxNest ≤ s.depth →
      step s = .fault .nestingTooDeep) ∧
    (s.host = .write 4 0#32 v :: rest → 0 < s.depth → s.inCallback = false → step s = .fault .commandWhileRunning) ∧
    (s.host = .write 4 0x194#32 v :: rest → s.inCallback = false → step s = .fault .noPendingEvent) ∧
    (s.insideStep = false → a.toNat < 0x20000 →
      (∀ w : Nat, w ≠ 4 → s.nextAccesses w a → step s = .fault .badWidth) ∧
      (a.toNat % 4 ≠ 0 → s.nextAccesses 4 a → step s = .fault .misaligned) ∧
      (a.toNat % 4 = 0 → a.toNat < 0x10000 → a.toNat ∉ mappedRegisters → s.nextAccesses 4 a →
        step s = .fault .unmapped) ∧
      (a.toNat % 4 = 0 → 0x10000 + 4 * s.params.maxAcks ≤ a.toNat → 0x10000 ≤ a.toNat → s.nextAccesses 4 a →
        step s = .fault .unmapped) ∧
      (a.toNat % 4 = 0 → a.toNat ∈ readOnlyRegisters ∨
          0x10000 ≤ a.toNat ∧ a.toNat < 0x10000 + 4 * s.params.maxAcks →
        s.host = .write 4 a v :: rest → step s = .fault .readOnly)) ∧
    (s.insideStep = false → 0x20000 ≤ a.toNat →
      (∀ w : Nat, w ≠ 1 → w ≠ 4 → s.nextAccesses w a → step s = .fault .badWidth) ∧
      (a.toNat % 4 ≠ 0 → s.nextAccesses 4 a → step s = .fault .misaligned) ∧
      (∀ w : Nat, w = 1 ∨ (w = 4 ∧ a.toNat % 4 = 0) →
        (∀ x ∈ s.byteWindows, a.toNat < x.1 ∨ x.1 + x.2.1 ≤ a.toNat) → s.nextAccesses w a →
        step s = .fault .unmapped)) ∧
    (s.insideStep = false → s.params.wf →
      ∀ w : Nat, w = 1 ∨ (w = 4 ∧ a.toNat % 4 = 0) →
        (0x200000 ≤ a.toNat ∧ a.toNat + w ≤ 0x200000 + s.params.obufBytes) ∨
          (0x300000 ≤ a.toNat ∧ a.toNat + w ≤ 0x300000 + s.params.ebufBytes) →
        s.host = .write w a v :: rest → step s = .fault .readOnly) ∧
    (s.insideStep = false → s.host = .read 4 0#32 :: rest ∨ s.host = .read 4 0x194#32 :: rest →
      step s = .fault .writeOnly)

/-- A host read has no side effect: only the value it returns and the host's queue change. Every register of the map reads
what the state holds, STATUS its fields in place with 0 in the reserved bits, a 64-bit one a word at a time; ACKS reads its
entries; and IBUF, OBUF and EBUF read the bytes they hold, four of them little-endian or one, on whose value only the low
8 bits are said (the others: log 20) (20_memory.md R61 to R63, R67; 10_state.md R24). -/
def Obligations.ReadsHaveNoSideEffect : Prop :=
  (∀ (s t : State) (width : Nat) (a : U32) (rest : List HostAccess),
    s.host = .read width a :: rest → step s = .next t → t = { s with host := rest, readData := t.readData }) ∧
  (∀ (s : State) (rest : List HostAccess), s.insideStep = false →
    let reads : Nat → Nat → (Nat → Prop) → Prop := fun width a holds =>
      s.host = .read width (BitVec.ofNat 32 a) :: rest → ∃ t, step s = .next t ∧ holds t.readData.toNat
    (∀ x ∈ s.registerReads, reads 4 x.1 fun v => v = x.2) ∧
    (s.params.wf → ∀ i, i < s.params.maxAcks → reads 4 (0x10000 + 4 * i) fun v => v = (s.ackEntry i).toNat) ∧
    (s.params.wf → ∀ x ∈ s.byteWindows, ∀ p, p < x.2.1 →
      (reads 1 (x.1 + p) fun v => v % 256 = (readByte x.2.2 p).toNat) ∧
      (p % 4 = 0 → p + 4 ≤ x.2.1 → reads 4 (x.1 + p) fun v => v = (readByte x.2.2 p).toNat +
        256 * (readByte x.2.2 (p + 1)).toNat + 256 ^ 2 * (readByte x.2.2 (p + 2)).toNat +
        256 ^ 3 * (readByte x.2.2 (p + 3)).toNat)))

/-- A write of an operand register, or of any configuration register of an unconfigured block, stores the value, a NUM one
word at a time; once CONFIGURED = 1 a write of any configuration register is ignored; nothing else changes (20_memory.md R62,
R67; 10_state.md R22, R26). -/
def Obligations.PlainRegistersHoldWrites : Prop :=
  ∀ (s : State) (v : U32) (rest : List HostAccess), s.insideStep = false →
    let after : State := { s with host := rest }
    let written : Nat → State → Prop := fun a t => s.host = .write 4 (BitVec.ofNat 32 a) v :: rest → step s = .next t
    written 0x008 { after with arg0 := v } ∧ written 0x00C { after with arg1 := v } ∧
    written 0x010 { after with arg2 := v } ∧ written 0x018 { after with numin := setLowWord s.numin v } ∧
    written 0x01C { after with numin := setHighWord s.numin v } ∧
    ∀ x ∈ s.cfg.writes v,
      (s.configured = false → written x.1 { after with cfg := x.2 }) ∧ (s.configured = true → written x.1 after)

/-- Mixed widths: after an aligned 32-bit write to IBUF, an 8-bit read of the byte at offset j of the word gives bits
[8j+7:8j] in the low 8 bits of its value (the others: log 20). An 8-bit write stores the low 8 bits of its value (log 20) in
its byte. Every other byte of IBUF, and all else of the state, is as before (20_memory.md R61, R63, R67, R72). -/
def Obligations.StoredWordReadsBytewise : Prop :=
  (∀ (s : State) (p : Nat) (v : U32) (rest : List HostAccess), s.insideStep = false → p < s.params.ibufBytes →
    s.params.ibufBytes ≤ 1048562 → s.host = .write 1 (BitVec.ofNat 32 (0x100000 + p)) v :: rest →
    ∃ t, step s = .next t ∧ (readByte t.ibuf p).toNat = v.toNat % 256 ∧
      (∀ a, a ≠ p → readByte t.ibuf a = readByte s.ibuf a) ∧ t = { s with host := rest, ibuf := t.ibuf }) ∧
  ∀ (s : State) (p j : Nat) (v : U32), s.insideStep = false → p % 4 = 0 → p + 4 ≤ s.params.ibufBytes →
    s.params.ibufBytes ≤ 1048562 → j < 4 → s.host = [] →
    ∃ t u, step { s with host := [.write 4 (BitVec.ofNat 32 (0x100000 + p)) v] } = .next t ∧
      (∀ a, a < p ∨ p + 4 ≤ a → readByte t.ibuf a = readByte s.ibuf a) ∧ t = { s with ibuf := t.ibuf } ∧
      step { t with host := [.read 1 (BitVec.ofNat 32 (0x100000 + p + j))] } = .next u ∧
      u.readData.toNat % 256 = v.toNat / 2 ^ (8 * j) % 256

/-- After a successful EP_CREATE nothing but power-on reset changes the configuration: every step keeps CONFIGURED, the
configuration registers, the parameters and the capacities (10_state.md R26, R27; 70_reset_and_hazards.md R252). -/
def Obligations.ConfigurationIsLocked : Prop :=
  ∀ s t : State, s.configured = true → step s = .next t →
    t.configured = true ∧ t.cfg = s.cfg ∧ t.params = s.params ∧
      t.sent.n = s.sent.n ∧ t.recv.n = s.recv.n ∧ t.frag.n = s.frag.n

/-- Only these accesses write these: IBUF, a host write to its window; OBUF, HDR_ENC, FHDR_ENC and FRAG_RX; TIME,
EP_UPDATE and the resets; SEQUENCE, EP_SEND and the resets (10_state.md R28, R29, R38; 20_memory.md R60). -/
def Obligations.OnlyTheirOwnersWrite : Prop :=
  ∀ s t : State, step s = .next t →
    (t.ibuf ≠ s.ibuf → ∃ (width : Nat) (a v : U32) (rest : List HostAccess), s.host = .write width a v :: rest ∧
      0x100000 ≤ a.toNat ∧ a.toNat < 0x100000 + s.params.ibufBytes) ∧
    (t.obuf ≠ s.obuf → ∃ i, s.nextCommand = some i ∧ ((∃ q, i = .hdrEnc q) ∨ (∃ q, i = .fhdrEnc q) ∨ i = .fragRx)) ∧
    (t.time ≠ s.time → ∃ i, s.nextCommand = some i ∧ (i = .epUpdate ∨ i = .epCreate ∨ i = .epReset)) ∧
    (t.sequence ≠ s.sequence → ∃ i, s.nextCommand = some i ∧ (i = .epSend ∨ i = .epCreate ∨ i = .epReset))

/-- A suspended command never reads the operand registers or IBUF again: its continuation is the same whatever the host
has written there (10_state.md R39). -/
def Obligations.SuspendedCommandsAreLatched : Prop :=
  ∀ (s : State) (v a0 a1 a2 : U32) (x : NumWord) (m : Memory),
    resume v { s with arg0 := a0, arg1 := a1, arg2 := a2, numin := x, ibuf := m } =
      mapNext (fun t => { t with arg0 := a0, arg1 := a1, arg2 := a2, numin := x, ibuf := m }) (resume v s)

/-- The byte spaces and tables stay in canonical form (the form is the model's own); and what is written stays inside its
space: IBUF, OBUF, EBUF and every REASM[k] list no byte past their sizes, ACKS no entry past MAX_ACKS, and every pending
event fits EBUF (20_memory.md R60, R66; 10_state.md R32; 43_reassembler.md R164, R168). -/
def Obligations.CanonicalFormKept : Prop :=
  (∀ s t : State, s.tablesCanonical → step s = .next t → t.tablesCanonical) ∧
  ∀ s t : State, s.reassemblySound → s.spacesFit → step s = .next t → t.spacesFit

/-- The command stack stays sound: nesting within MAX_NEST, IN_CALLBACK and EVT_KIND in step with it, and the host always
sees the innermost pending event, EBUF included, through every nesting and return (10_state.md R25, R39;
60_exceptions.md R230). -/
def Obligations.StackInvariantKept : Prop :=
  ∀ s t : State, s.params.wf → s.stackSound → step s = .next t → t.stackSound

/-- The configuration and the ack list stay sound, and every time stays finite (10_state.md R26, R32, R33;
45_endpoint.md R203, R206). -/
def Obligations.EndpointInvariantKept : Prop :=
  ∀ s t : State, s.configSound → s.acksBounded → s.timesFinite → step s = .next t →
    t.configSound ∧ t.acksBounded ∧ t.timesFinite

/-- After power-on reset every register, counter and statistic is zero, every tag EMPTY, every byte zero and no command in
progress (70_reset_and_hazards.md R245, 10_state.md R41), and every invariant stated here holds. -/
def Obligations.ResetStateIsSound : Prop :=
  (∀ b : BufSel, State.reset.buffer b = ⟨0, 0, []⟩) ∧ (∀ a, readByte State.reset.ibuf a = 0) ∧
  (∀ a, readByte State.reset.obuf a = 0) ∧ (∀ a, readByte State.reset.ebuf a = 0) ∧
  (∀ k a, readByte (State.reset.reasmSpace k) a = 0) ∧ (∀ i, State.reset.ackEntry i = 0) ∧
  State.reset.statusWord = 0 ∧ State.reset.cfg = CfgRegs.zero ∧ State.reset.counters = Counters.zero ∧
  State.reset.stats = Stats.zero ∧ State.reset.time = 0 ∧ State.reset.sequence = 0 ∧ State.reset.ackCount = 0 ∧
  [State.reset.arg0, State.reset.arg1, State.reset.arg2, State.reset.res0, State.reset.res1, State.reset.res2,
    State.reset.res3] = List.replicate 7 0 ∧
  State.reset.numin = 0 ∧ State.reset.resn = 0 ∧ State.reset.evt = EventRegs.zero ∧
  (∀ k, State.reset.sentRecord k = SentRecord.zero ∧ State.reset.recvRecord k = RecvRecord.zero ∧
    State.reset.fragEntry k = FragEntry.zero) ∧
  State.reset.tablesCanonical ∧ State.reset.stackSound ∧ State.reset.reassemblySound ∧ State.reset.acksBounded ∧
  State.reset.timesFinite ∧ State.reset.windowsSound ∧ State.reset.spacesFit
end

