-- ==== Sys2Proof/Laws/Decode.lean ====
section
/-! SUPPORT. The fields of a command word as numbers, and how a word is taken apart and put together again. -/

namespace Sys2Proof

theorem toNat_append {m n : Nat} (x : BitVec m) (y : BitVec n) : (x ++ y).toNat = x.toNat * 2 ^ n + y.toNat := by
  rw [BitVec.toNat_append, ← Nat.shiftLeft_add_eq_or_of_lt y.isLt, Nat.shiftLeft_eq]

/-- A command word as a number (30_encoding.md R80). -/
theorem commandWord_toNat (imm : U16) (buf : BitVec 2) (opc : Byte) :
    (commandWord imm buf opc).toNat = imm.toNat * 65536 + buf.toNat * 256 + opc.toNat := by
  have h1 : (commandWord imm buf opc).toNat = imm.toNat * 2 ^ 16 + (0#6 ++ (buf ++ opc)).toNat :=
    toNat_append (n := 16) imm (0#6 ++ (buf ++ opc))
  have h2 : (0#6 ++ (buf ++ opc)).toNat = (0#6).toNat * 2 ^ (2 + 8) + (buf ++ opc).toNat := toNat_append _ _
  have h3 : (buf ++ opc).toNat = buf.toNat * 2 ^ 8 + opc.toNat := toNat_append _ _
  rw [h1, h2, h3]
  simp only [BitVec.toNat_ofNat]
  omega

theorem commandWord_opc (imm : U16) (buf : BitVec 2) (opc : Byte) :
    (commandWord imm buf opc).extractLsb' 0 8 = opc := by
  apply BitVec.eq_of_toNat_eq
  have := opc.isLt
  rw [BitVec.extractLsb'_toNat, commandWord_toNat, Nat.shiftRight_eq_div_pow]
  omega

theorem commandWord_buf (imm : U16) (buf : BitVec 2) (opc : Byte) :
    (commandWord imm buf opc).extractLsb' 8 2 = buf := by
  apply BitVec.eq_of_toNat_eq
  have := opc.isLt
  have := buf.isLt
  rw [BitVec.extractLsb'_toNat, commandWord_toNat, Nat.shiftRight_eq_div_pow]
  omega

theorem commandWord_rsv (imm : U16) (buf : BitVec 2) (opc : Byte) :
    (commandWord imm buf opc).extractLsb' 10 6 = 0#6 := by
  apply BitVec.eq_of_toNat_eq
  have := opc.isLt
  have := buf.isLt
  rw [BitVec.extractLsb'_toNat, commandWord_toNat, Nat.shiftRight_eq_div_pow]
  simp only [BitVec.toNat_ofNat]
  omega

theorem commandWord_imm (imm : U16) (buf : BitVec 2) (opc : Byte) :
    (commandWord imm buf opc).extractLsb' 16 16 = imm := by
  apply BitVec.eq_of_toNat_eq
  have := opc.isLt
  have := buf.isLt
  have := imm.isLt
  rw [BitVec.extractLsb'_toNat, commandWord_toNat, Nat.shiftRight_eq_div_pow]
  omega

/-- Decoding a word that was put together from its fields. -/
theorem decode_commandWord (imm : U16) (buf : BitVec 2) (opc : Byte) :
    decode (commandWord imm buf opc) =
      (match opcodeOf opc with
        | none => .error .reservedOpcode
        | some op => decodeFields op buf imm) := by
  unfold decode
  rw [commandWord_opc, commandWord_buf, commandWord_rsv, commandWord_imm]
  rfl

/-- A word with RSV = 0 is put together from its fields. -/
theorem commandWord_fields {w : U32} (h : w.extractLsb' 10 6 = 0#6) :
    commandWord (w.extractLsb' 16 16) (w.extractLsb' 8 2) (w.extractLsb' 0 8) = w := by
  apply BitVec.eq_of_toNat_eq
  have h' := congrArg BitVec.toNat h
  rw [commandWord_toNat]
  simp only [BitVec.extractLsb'_toNat, Nat.shiftRight_eq_div_pow, BitVec.toNat_ofNat] at h' ⊢
  have := w.isLt
  omega

@[simp] theorem bufOf_bits (b : BufSel) : bufOf b.bits = some b := by cases b <;> rfl

theorem bits_of_bufOf {v : BitVec 2} {b : BufSel} (h : bufOf v = some b) : b.bits = v := by
  revert h; revert b; revert v; decide

/-- The opcode map read backwards: a selected command stands in the map. -/
theorem mem_opcodeMap {o : Byte} {op : Opcode} (h : opcodeOf o = some op) : (o, op) ∈ opcodeMap := by
  revert h; revert op; revert o; decide +kernel

end Sys2Proof
end

