-- ==== Sys2Proof/Laws/State.lean ====
section
/-! SUPPORT. One lemma per field per named update of State, each true by unfolding the update: later proofs never unfold a
record update. -/

namespace Sys2Proof.Machine

/-! ### State.finish -/

@[simp] theorem State.finish_params (s : State) (c : ResultCode) : (s.finish c).params = s.params := rfl
@[simp] theorem State.finish_arg0 (s : State) (c : ResultCode) : (s.finish c).arg0 = s.arg0 := rfl
@[simp] theorem State.finish_arg1 (s : State) (c : ResultCode) : (s.finish c).arg1 = s.arg1 := rfl
@[simp] theorem State.finish_arg2 (s : State) (c : ResultCode) : (s.finish c).arg2 = s.arg2 := rfl
@[simp] theorem State.finish_numin (s : State) (c : ResultCode) : (s.finish c).numin = s.numin := rfl
@[simp] theorem State.finish_res0 (s : State) (c : ResultCode) : (s.finish c).res0 = s.res0 := rfl
@[simp] theorem State.finish_res1 (s : State) (c : ResultCode) : (s.finish c).res1 = s.res1 := rfl
@[simp] theorem State.finish_res2 (s : State) (c : ResultCode) : (s.finish c).res2 = s.res2 := rfl
@[simp] theorem State.finish_res3 (s : State) (c : ResultCode) : (s.finish c).res3 = s.res3 := rfl
@[simp] theorem State.finish_resn (s : State) (c : ResultCode) : (s.finish c).resn = s.resn := rfl
@[simp] theorem State.finish_code (s : State) (c : ResultCode) : (s.finish c).code = c := rfl
@[simp] theorem State.finish_configured (s : State) (c : ResultCode) : (s.finish c).configured = s.configured := rfl
@[simp] theorem State.finish_inCallback (s : State) (c : ResultCode) : (s.finish c).inCallback = s.inCallback := rfl
@[simp] theorem State.finish_stack (s : State) (c : ResultCode) : (s.finish c).stack = s.stack := rfl
@[simp] theorem State.finish_cfg (s : State) (c : ResultCode) : (s.finish c).cfg = s.cfg := rfl
@[simp] theorem State.finish_sequence (s : State) (c : ResultCode) : (s.finish c).sequence = s.sequence := rfl
@[simp] theorem State.finish_time (s : State) (c : ResultCode) : (s.finish c).time = s.time := rfl
@[simp] theorem State.finish_stats (s : State) (c : ResultCode) : (s.finish c).stats = s.stats := rfl
@[simp] theorem State.finish_counters (s : State) (c : ResultCode) : (s.finish c).counters = s.counters := rfl
@[simp] theorem State.finish_acks (s : State) (c : ResultCode) : (s.finish c).acks = s.acks := rfl
@[simp] theorem State.finish_ackCount (s : State) (c : ResultCode) : (s.finish c).ackCount = s.ackCount := rfl
@[simp] theorem State.finish_sent (s : State) (c : ResultCode) : (s.finish c).sent = s.sent := rfl
@[simp] theorem State.finish_recv (s : State) (c : ResultCode) : (s.finish c).recv = s.recv := rfl
@[simp] theorem State.finish_frag (s : State) (c : ResultCode) : (s.finish c).frag = s.frag := rfl
@[simp] theorem State.finish_sentRecords (s : State) (c : ResultCode) : (s.finish c).sentRecords = s.sentRecords := rfl
@[simp] theorem State.finish_recvRecords (s : State) (c : ResultCode) : (s.finish c).recvRecords = s.recvRecords := rfl
@[simp] theorem State.finish_fragEntries (s : State) (c : ResultCode) : (s.finish c).fragEntries = s.fragEntries := rfl
@[simp] theorem State.finish_reasm (s : State) (c : ResultCode) : (s.finish c).reasm = s.reasm := rfl
@[simp] theorem State.finish_ibuf (s : State) (c : ResultCode) : (s.finish c).ibuf = s.ibuf := rfl
@[simp] theorem State.finish_obuf (s : State) (c : ResultCode) : (s.finish c).obuf = s.obuf := rfl
@[simp] theorem State.finish_ebuf (s : State) (c : ResultCode) : (s.finish c).ebuf = s.ebuf := rfl
@[simp] theorem State.finish_evt (s : State) (c : ResultCode) : (s.finish c).evt = s.evt := rfl
@[simp] theorem State.finish_host (s : State) (c : ResultCode) : (s.finish c).host = s.host := rfl
@[simp] theorem State.finish_readData (s : State) (c : ResultCode) : (s.finish c).readData = s.readData := rfl
@[simp] theorem State.finish_freeCount (s : State) (c : ResultCode) : (s.finish c).freeCount = s.freeCount := rfl
@[simp] theorem State.finish_sentRecord (s : State) (c : ResultCode) (j : Nat) :
    (s.finish c).sentRecord j = s.sentRecord j := rfl
@[simp] theorem State.finish_recvRecord (s : State) (c : ResultCode) (j : Nat) :
    (s.finish c).recvRecord j = s.recvRecord j := rfl
@[simp] theorem State.finish_fragEntry (s : State) (c : ResultCode) (j : Nat) :
    (s.finish c).fragEntry j = s.fragEntry j := rfl
@[simp] theorem State.finish_reasmSpace (s : State) (c : ResultCode) (j : Nat) :
    (s.finish c).reasmSpace j = s.reasmSpace j := rfl
@[simp] theorem State.finish_ackEntry (s : State) (c : ResultCode) (j : Nat) :
    (s.finish c).ackEntry j = s.ackEntry j := rfl

/-! ### State.count -/

@[simp] theorem State.count_params (s : State) (id : CounterId) : (s.count id).params = s.params := rfl
@[simp] theorem State.count_arg0 (s : State) (id : CounterId) : (s.count id).arg0 = s.arg0 := rfl
@[simp] theorem State.count_arg1 (s : State) (id : CounterId) : (s.count id).arg1 = s.arg1 := rfl
@[simp] theorem State.count_arg2 (s : State) (id : CounterId) : (s.count id).arg2 = s.arg2 := rfl
@[simp] theorem State.count_numin (s : State) (id : CounterId) : (s.count id).numin = s.numin := rfl
@[simp] theorem State.count_res0 (s : State) (id : CounterId) : (s.count id).res0 = s.res0 := rfl
@[simp] theorem State.count_res1 (s : State) (id : CounterId) : (s.count id).res1 = s.res1 := rfl
@[simp] theorem State.count_res2 (s : State) (id : CounterId) : (s.count id).res2 = s.res2 := rfl
@[simp] theorem State.count_res3 (s : State) (id : CounterId) : (s.count id).res3 = s.res3 := rfl
@[simp] theorem State.count_resn (s : State) (id : CounterId) : (s.count id).resn = s.resn := rfl
@[simp] theorem State.count_code (s : State) (id : CounterId) : (s.count id).code = s.code := rfl
@[simp] theorem State.count_configured (s : State) (id : CounterId) : (s.count id).configured = s.configured := rfl
@[simp] theorem State.count_inCallback (s : State) (id : CounterId) : (s.count id).inCallback = s.inCallback := rfl
@[simp] theorem State.count_stack (s : State) (id : CounterId) : (s.count id).stack = s.stack := rfl
@[simp] theorem State.count_cfg (s : State) (id : CounterId) : (s.count id).cfg = s.cfg := rfl
@[simp] theorem State.count_sequence (s : State) (id : CounterId) : (s.count id).sequence = s.sequence := rfl
@[simp] theorem State.count_time (s : State) (id : CounterId) : (s.count id).time = s.time := rfl
@[simp] theorem State.count_stats (s : State) (id : CounterId) : (s.count id).stats = s.stats := rfl
@[simp] theorem State.count_counters (s : State) (id : CounterId) : (s.count id).counters = s.counters.bump id := rfl
@[simp] theorem State.count_acks (s : State) (id : CounterId) : (s.count id).acks = s.acks := rfl
@[simp] theorem State.count_ackCount (s : State) (id : CounterId) : (s.count id).ackCount = s.ackCount := rfl
@[simp] theorem State.count_sent (s : State) (id : CounterId) : (s.count id).sent = s.sent := rfl
@[simp] theorem State.count_recv (s : State) (id : CounterId) : (s.count id).recv = s.recv := rfl
@[simp] theorem State.count_frag (s : State) (id : CounterId) : (s.count id).frag = s.frag := rfl
@[simp] theorem State.count_sentRecords (s : State) (id : CounterId) : (s.count id).sentRecords = s.sentRecords := rfl
@[simp] theorem State.count_recvRecords (s : State) (id : CounterId) : (s.count id).recvRecords = s.recvRecords := rfl
@[simp] theorem State.count_fragEntries (s : State) (id : CounterId) : (s.count id).fragEntries = s.fragEntries := rfl
@[simp] theorem State.count_reasm (s : State) (id : CounterId) : (s.count id).reasm = s.reasm := rfl
@[simp] theorem State.count_ibuf (s : State) (id : CounterId) : (s.count id).ibuf = s.ibuf := rfl
@[simp] theorem State.count_obuf (s : State) (id : CounterId) : (s.count id).obuf = s.obuf := rfl
@[simp] theorem State.count_ebuf (s : State) (id : CounterId) : (s.count id).ebuf = s.ebuf := rfl
@[simp] theorem State.count_evt (s : State) (id : CounterId) : (s.count id).evt = s.evt := rfl
@[simp] theorem State.count_host (s : State) (id : CounterId) : (s.count id).host = s.host := rfl
@[simp] theorem State.count_readData (s : State) (id : CounterId) : (s.count id).readData = s.readData := rfl
@[simp] theorem State.count_freeCount (s : State) (id : CounterId) : (s.count id).freeCount = s.freeCount := rfl
@[simp] theorem State.count_sentRecord (s : State) (id : CounterId) (j : Nat) :
    (s.count id).sentRecord j = s.sentRecord j := rfl
@[simp] theorem State.count_recvRecord (s : State) (id : CounterId) (j : Nat) :
    (s.count id).recvRecord j = s.recvRecord j := rfl
@[simp] theorem State.count_fragEntry (s : State) (id : CounterId) (j : Nat) :
    (s.count id).fragEntry j = s.fragEntry j := rfl
@[simp] theorem State.count_reasmSpace (s : State) (id : CounterId) (j : Nat) :
    (s.count id).reasmSpace j = s.reasmSpace j := rfl
@[simp] theorem State.count_ackEntry (s : State) (id : CounterId) (j : Nat) :
    (s.count id).ackEntry j = s.ackEntry j := rfl

/-! ### State.setSentRecord -/

@[simp] theorem State.setSentRecord_params (s : State) (k : Nat) (r : SentRecord) :
    (s.setSentRecord k r).params = s.params := rfl
@[simp] theorem State.setSentRecord_arg0 (s : State) (k : Nat) (r : SentRecord) :
    (s.setSentRecord k r).arg0 = s.arg0 := rfl
@[simp] theorem State.setSentRecord_arg1 (s : State) (k : Nat) (r : SentRecord) :
    (s.setSentRecord k r).arg1 = s.arg1 := rfl
@[simp] theorem State.setSentRecord_arg2 (s : State) (k : Nat) (r : SentRecord) :
    (s.setSentRecord k r).arg2 = s.arg2 := rfl
@[simp] theorem State.setSentRecord_numin (s : State) (k : Nat) (r : SentRecord) :
    (s.setSentRecord k r).numin = s.numin := rfl
@[simp] theorem State.setSentRecord_res0 (s : State) (k : Nat) (r : SentRecord) :
    (s.setSentRecord k r).res0 = s.res0 := rfl
@[simp] theorem State.setSentRecord_res1 (s : State) (k : Nat) (r : SentRecord) :
    (s.setSentRecord k r).res1 = s.res1 := rfl
@[simp] theorem State.setSentRecord_res2 (s : State) (k : Nat) (r : SentRecord) :
    (s.setSentRecord k r).res2 = s.res2 := rfl
@[simp] theorem State.setSentRecord_res3 (s : State) (k : Nat) (r : SentRecord) :
    (s.setSentRecord k r).res3 = s.res3 := rfl
@[simp] theorem State.setSentRecord_resn (s : State) (k : Nat) (r : SentRecord) :
    (s.setSentRecord k r).resn = s.resn := rfl
@[simp] theorem State.setSentRecord_code (s : State) (k : Nat) (r : SentRecord) :
    (s.setSentRecord k r).code = s.code := rfl
@[simp] theorem State.setSentRecord_configured (s : State) (k : Nat) (r : SentRecord) :
    (s.setSentRecord k r).configured = s.configured := rfl
@[simp] theorem State.setSentRecord_inCallback (s : State) (k : Nat) (r : SentRecord) :
    (s.setSentRecord k r).inCallback = s.inCallback := rfl
@[simp] theorem State.setSentRecord_stack (s : State) (k : Nat) (r : SentRecord) :
    (s.setSentRecord k r).stack = s.stack := rfl
@[simp] theorem State.setSentRecord_cfg (s : State) (k : Nat) (r : SentRecord) : (s.setSentRecord k r).cfg = s.cfg := rfl
@[simp] theorem State.setSentRecord_sequence (s : State) (k : Nat) (r : SentRecord) :
    (s.setSentRecord k r).sequence = s.sequence := rfl
@[simp] theorem State.setSentRecord_time (s : State) (k : Nat) (r : SentRecord) :
    (s.setSentRecord k r).time = s.time := rfl
@[simp] theorem State.setSentRecord_stats (s : State) (k : Nat) (r : SentRecord) :
    (s.setSentRecord k r).stats = s.stats := rfl
@[simp] theorem State.setSentRecord_counters (s : State) (k : Nat) (r : SentRecord) :
    (s.setSentRecord k r).counters = s.counters := rfl
@[simp] theorem State.setSentRecord_acks (s : State) (k : Nat) (r : SentRecord) :
    (s.setSentRecord k r).acks = s.acks := rfl
@[simp] theorem State.setSentRecord_ackCount (s : State) (k : Nat) (r : SentRecord) :
    (s.setSentRecord k r).ackCount = s.ackCount := rfl
@[simp] theorem State.setSentRecord_sent (s : State) (k : Nat) (r : SentRecord) :
    (s.setSentRecord k r).sent = s.sent := rfl
@[simp] theorem State.setSentRecord_recv (s : State) (k : Nat) (r : SentRecord) :
    (s.setSentRecord k r).recv = s.recv := rfl
@[simp] theorem State.setSentRecord_frag (s : State) (k : Nat) (r : SentRecord) :
    (s.setSentRecord k r).frag = s.frag := rfl
@[simp] theorem State.setSentRecord_sentRecords (s : State) (k : Nat) (r : SentRecord) :
    (s.setSentRecord k r).sentRecords = Table.set SentRecord.zero s.sentRecords k r := rfl
@[simp] theorem State.setSentRecord_recvRecords (s : State) (k : Nat) (r : SentRecord) :
    (s.setSentRecord k r).recvRecords = s.recvRecords := rfl
@[simp] theorem State.setSentRecord_fragEntries (s : State) (k : Nat) (r : SentRecord) :
    (s.setSentRecord k r).fragEntries = s.fragEntries := rfl
@[simp] theorem State.setSentRecord_reasm (s : State) (k : Nat) (r : SentRecord) :
    (s.setSentRecord k r).reasm = s.reasm := rfl
@[simp] theorem State.setSentRecord_ibuf (s : State) (k : Nat) (r : SentRecord) :
    (s.setSentRecord k r).ibuf = s.ibuf := rfl
@[simp] theorem State.setSentRecord_obuf (s : State) (k : Nat) (r : SentRecord) :
    (s.setSentRecord k r).obuf = s.obuf := rfl
@[simp] theorem State.setSentRecord_ebuf (s : State) (k : Nat) (r : SentRecord) :
    (s.setSentRecord k r).ebuf = s.ebuf := rfl
@[simp] theorem State.setSentRecord_evt (s : State) (k : Nat) (r : SentRecord) : (s.setSentRecord k r).evt = s.evt := rfl
@[simp] theorem State.setSentRecord_host (s : State) (k : Nat) (r : SentRecord) :
    (s.setSentRecord k r).host = s.host := rfl
@[simp] theorem State.setSentRecord_readData (s : State) (k : Nat) (r : SentRecord) :
    (s.setSentRecord k r).readData = s.readData := rfl
@[simp] theorem State.setSentRecord_freeCount (s : State) (k : Nat) (r : SentRecord) :
    (s.setSentRecord k r).freeCount = s.freeCount := rfl
@[simp] theorem State.setSentRecord_recvRecord (s : State) (k : Nat) (r : SentRecord) (j : Nat) :
    (s.setSentRecord k r).recvRecord j = s.recvRecord j := rfl
@[simp] theorem State.setSentRecord_fragEntry (s : State) (k : Nat) (r : SentRecord) (j : Nat) :
    (s.setSentRecord k r).fragEntry j = s.fragEntry j := rfl
@[simp] theorem State.setSentRecord_reasmSpace (s : State) (k : Nat) (r : SentRecord) (j : Nat) :
    (s.setSentRecord k r).reasmSpace j = s.reasmSpace j := rfl
@[simp] theorem State.setSentRecord_ackEntry (s : State) (k : Nat) (r : SentRecord) (j : Nat) :
    (s.setSentRecord k r).ackEntry j = s.ackEntry j := rfl

/-! ### State.setRecvRecord -/

@[simp] theorem State.setRecvRecord_params (s : State) (k : Nat) (r : RecvRecord) :
    (s.setRecvRecord k r).params = s.params := rfl
@[simp] theorem State.setRecvRecord_arg0 (s : State) (k : Nat) (r : RecvRecord) :
    (s.setRecvRecord k r).arg0 = s.arg0 := rfl
@[simp] theorem State.setRecvRecord_arg1 (s : State) (k : Nat) (r : RecvRecord) :
    (s.setRecvRecord k r).arg1 = s.arg1 := rfl
@[simp] theorem State.setRecvRecord_arg2 (s : State) (k : Nat) (r : RecvRecord) :
    (s.setRecvRecord k r).arg2 = s.arg2 := rfl
@[simp] theorem State.setRecvRecord_numin (s : State) (k : Nat) (r : RecvRecord) :
    (s.setRecvRecord k r).numin = s.numin := rfl
@[simp] theorem State.setRecvRecord_res0 (s : State) (k : Nat) (r : RecvRecord) :
    (s.setRecvRecord k r).res0 = s.res0 := rfl
@[simp] theorem State.setRecvRecord_res1 (s : State) (k : Nat) (r : RecvRecord) :
    (s.setRecvRecord k r).res1 = s.res1 := rfl
@[simp] theorem State.setRecvRecord_res2 (s : State) (k : Nat) (r : RecvRecord) :
    (s.setRecvRecord k r).res2 = s.res2 := rfl
@[simp] theorem State.setRecvRecord_res3 (s : State) (k : Nat) (r : RecvRecord) :
    (s.setRecvRecord k r).res3 = s.res3 := rfl
@[simp] theorem State.setRecvRecord_resn (s : State) (k : Nat) (r : RecvRecord) :
    (s.setRecvRecord k r).resn = s.resn := rfl
@[simp] theorem State.setRecvRecord_code (s : State) (k : Nat) (r : RecvRecord) :
    (s.setRecvRecord k r).code = s.code := rfl
@[simp] theorem State.setRecvRecord_configured (s : State) (k : Nat) (r : RecvRecord) :
    (s.setRecvRecord k r).configured = s.configured := rfl
@[simp] theorem State.setRecvRecord_inCallback (s : State) (k : Nat) (r : RecvRecord) :
    (s.setRecvRecord k r).inCallback = s.inCallback := rfl
@[simp] theorem State.setRecvRecord_stack (s : State) (k : Nat) (r : RecvRecord) :
    (s.setRecvRecord k r).stack = s.stack := rfl
@[simp] theorem State.setRecvRecord_cfg (s : State) (k : Nat) (r : RecvRecord) : (s.setRecvRecord k r).cfg = s.cfg := rfl
@[simp] theorem State.setRecvRecord_sequence (s : State) (k : Nat) (r : RecvRecord) :
    (s.setRecvRecord k r).sequence = s.sequence := rfl
@[simp] theorem State.setRecvRecord_time (s : State) (k : Nat) (r : RecvRecord) :
    (s.setRecvRecord k r).time = s.time := rfl
@[simp] theorem State.setRecvRecord_stats (s : State) (k : Nat) (r : RecvRecord) :
    (s.setRecvRecord k r).stats = s.stats := rfl
@[simp] theorem State.setRecvRecord_counters (s : State) (k : Nat) (r : RecvRecord) :
    (s.setRecvRecord k r).counters = s.counters := rfl
@[simp] theorem State.setRecvRecord_acks (s : State) (k : Nat) (r : RecvRecord) :
    (s.setRecvRecord k r).acks = s.acks := rfl
@[simp] theorem State.setRecvRecord_ackCount (s : State) (k : Nat) (r : RecvRecord) :
    (s.setRecvRecord k r).ackCount = s.ackCount := rfl
@[simp] theorem State.setRecvRecord_sent (s : State) (k : Nat) (r : RecvRecord) :
    (s.setRecvRecord k r).sent = s.sent := rfl
@[simp] theorem State.setRecvRecord_recv (s : State) (k : Nat) (r : RecvRecord) :
    (s.setRecvRecord k r).recv = s.recv := rfl
@[simp] theorem State.setRecvRecord_frag (s : State) (k : Nat) (r : RecvRecord) :
    (s.setRecvRecord k r).frag = s.frag := rfl
@[simp] theorem State.setRecvRecord_sentRecords (s : State) (k : Nat) (r : RecvRecord) :
    (s.setRecvRecord k r).sentRecords = s.sentRecords := rfl
@[simp] theorem State.setRecvRecord_recvRecords (s : State) (k : Nat) (r : RecvRecord) :
    (s.setRecvRecord k r).recvRecords = Table.set RecvRecord.zero s.recvRecords k r := rfl
@[simp] theorem State.setRecvRecord_fragEntries (s : State) (k : Nat) (r : RecvRecord) :
    (s.setRecvRecord k r).fragEntries = s.fragEntries := rfl
@[simp] theorem State.setRecvRecord_reasm (s : State) (k : Nat) (r : RecvRecord) :
    (s.setRecvRecord k r).reasm = s.reasm := rfl
@[simp] theorem State.setRecvRecord_ibuf (s : State) (k : Nat) (r : RecvRecord) :
    (s.setRecvRecord k r).ibuf = s.ibuf := rfl
@[simp] theorem State.setRecvRecord_obuf (s : State) (k : Nat) (r : RecvRecord) :
    (s.setRecvRecord k r).obuf = s.obuf := rfl
@[simp] theorem State.setRecvRecord_ebuf (s : State) (k : Nat) (r : RecvRecord) :
    (s.setRecvRecord k r).ebuf = s.ebuf := rfl
@[simp] theorem State.setRecvRecord_evt (s : State) (k : Nat) (r : RecvRecord) : (s.setRecvRecord k r).evt = s.evt := rfl
@[simp] theorem State.setRecvRecord_host (s : State) (k : Nat) (r : RecvRecord) :
    (s.setRecvRecord k r).host = s.host := rfl
@[simp] theorem State.setRecvRecord_readData (s : State) (k : Nat) (r : RecvRecord) :
    (s.setRecvRecord k r).readData = s.readData := rfl
@[simp] theorem State.setRecvRecord_freeCount (s : State) (k : Nat) (r : RecvRecord) :
    (s.setRecvRecord k r).freeCount = s.freeCount := rfl
@[simp] theorem State.setRecvRecord_sentRecord (s : State) (k : Nat) (r : RecvRecord) (j : Nat) :
    (s.setRecvRecord k r).sentRecord j = s.sentRecord j := rfl
@[simp] theorem State.setRecvRecord_fragEntry (s : State) (k : Nat) (r : RecvRecord) (j : Nat) :
    (s.setRecvRecord k r).fragEntry j = s.fragEntry j := rfl
@[simp] theorem State.setRecvRecord_reasmSpace (s : State) (k : Nat) (r : RecvRecord) (j : Nat) :
    (s.setRecvRecord k r).reasmSpace j = s.reasmSpace j := rfl
@[simp] theorem State.setRecvRecord_ackEntry (s : State) (k : Nat) (r : RecvRecord) (j : Nat) :
    (s.setRecvRecord k r).ackEntry j = s.ackEntry j := rfl

/-! ### State.setFragEntry -/

@[simp] theorem State.setFragEntry_params (s : State) (k : Nat) (e : FragEntry) (m : Memory) :
    (s.setFragEntry k e m).params = s.params := rfl
@[simp] theorem State.setFragEntry_arg0 (s : State) (k : Nat) (e : FragEntry) (m : Memory) :
    (s.setFragEntry k e m).arg0 = s.arg0 := rfl
@[simp] theorem State.setFragEntry_arg1 (s : State) (k : Nat) (e : FragEntry) (m : Memory) :
    (s.setFragEntry k e m).arg1 = s.arg1 := rfl
@[simp] theorem State.setFragEntry_arg2 (s : State) (k : Nat) (e : FragEntry) (m : Memory) :
    (s.setFragEntry k e m).arg2 = s.arg2 := rfl
@[simp] theorem State.setFragEntry_numin (s : State) (k : Nat) (e : FragEntry) (m : Memory) :
    (s.setFragEntry k e m).numin = s.numin := rfl
@[simp] theorem State.setFragEntry_res0 (s : State) (k : Nat) (e : FragEntry) (m : Memory) :
    (s.setFragEntry k e m).res0 = s.res0 := rfl
@[simp] theorem State.setFragEntry_res1 (s : State) (k : Nat) (e : FragEntry) (m : Memory) :
    (s.setFragEntry k e m).res1 = s.res1 := rfl
@[simp] theorem State.setFragEntry_res2 (s : State) (k : Nat) (e : FragEntry) (m : Memory) :
    (s.setFragEntry k e m).res2 = s.res2 := rfl
@[simp] theorem State.setFragEntry_res3 (s : State) (k : Nat) (e : FragEntry) (m : Memory) :
    (s.setFragEntry k e m).res3 = s.res3 := rfl
@[simp] theorem State.setFragEntry_resn (s : State) (k : Nat) (e : FragEntry) (m : Memory) :
    (s.setFragEntry k e m).resn = s.resn := rfl
@[simp] theorem State.setFragEntry_code (s : State) (k : Nat) (e : FragEntry) (m : Memory) :
    (s.setFragEntry k e m).code = s.code := rfl
@[simp] theorem State.setFragEntry_configured (s : State) (k : Nat) (e : FragEntry) (m : Memory) :
    (s.setFragEntry k e m).configured = s.configured := rfl
@[simp] theorem State.setFragEntry_inCallback (s : State) (k : Nat) (e : FragEntry) (m : Memory) :
    (s.setFragEntry k e m).inCallback = s.inCallback := rfl
@[simp] theorem State.setFragEntry_stack (s : State) (k : Nat) (e : FragEntry) (m : Memory) :
    (s.setFragEntry k e m).stack = s.stack := rfl
@[simp] theorem State.setFragEntry_cfg (s : State) (k : Nat) (e : FragEntry) (m : Memory) :
    (s.setFragEntry k e m).cfg = s.cfg := rfl
@[simp] theorem State.setFragEntry_sequence (s : State) (k : Nat) (e : FragEntry) (m : Memory) :
    (s.setFragEntry k e m).sequence = s.sequence := rfl
@[simp] theorem State.setFragEntry_time (s : State) (k : Nat) (e : FragEntry) (m : Memory) :
    (s.setFragEntry k e m).time = s.time := rfl
@[simp] theorem State.setFragEntry_stats (s : State) (k : Nat) (e : FragEntry) (m : Memory) :
    (s.setFragEntry k e m).stats = s.stats := rfl
@[simp] theorem State.setFragEntry_counters (s : State) (k : Nat) (e : FragEntry) (m : Memory) :
    (s.setFragEntry k e m).counters = s.counters := rfl
@[simp] theorem State.setFragEntry_acks (s : State) (k : Nat) (e : FragEntry) (m : Memory) :
    (s.setFragEntry k e m).acks = s.acks := rfl
@[simp] theorem State.setFragEntry_ackCount (s : State) (k : Nat) (e : FragEntry) (m : Memory) :
    (s.setFragEntry k e m).ackCount = s.ackCount := rfl
@[simp] theorem State.setFragEntry_sent (s : State) (k : Nat) (e : FragEntry) (m : Memory) :
    (s.setFragEntry k e m).sent = s.sent := rfl
@[simp] theorem State.setFragEntry_recv (s : State) (k : Nat) (e : FragEntry) (m : Memory) :
    (s.setFragEntry k e m).recv = s.recv := rfl
@[simp] theorem State.setFragEntry_frag (s : State) (k : Nat) (e : FragEntry) (m : Memory) :
    (s.setFragEntry k e m).frag = s.frag := rfl
@[simp] theorem State.setFragEntry_sentRecords (s : State) (k : Nat) (e : FragEntry) (m : Memory) :
    (s.setFragEntry k e m).sentRecords = s.sentRecords := rfl
@[simp] theorem State.setFragEntry_recvRecords (s : State) (k : Nat) (e : FragEntry) (m : Memory) :
    (s.setFragEntry k e m).recvRecords = s.recvRecords := rfl
@[simp] theorem State.setFragEntry_fragEntries (s : State) (k : Nat) (e : FragEntry) (m : Memory) :
    (s.setFragEntry k e m).fragEntries = Table.set FragEntry.zero s.fragEntries k e := rfl
@[simp] theorem State.setFragEntry_reasm (s : State) (k : Nat) (e : FragEntry) (m : Memory) :
    (s.setFragEntry k e m).reasm = Table.set ([] : Memory) s.reasm k m := rfl
@[simp] theorem State.setFragEntry_ibuf (s : State) (k : Nat) (e : FragEntry) (m : Memory) :
    (s.setFragEntry k e m).ibuf = s.ibuf := rfl
@[simp] theorem State.setFragEntry_obuf (s : State) (k : Nat) (e : FragEntry) (m : Memory) :
    (s.setFragEntry k e m).obuf = s.obuf := rfl
@[simp] theorem State.setFragEntry_ebuf (s : State) (k : Nat) (e : FragEntry) (m : Memory) :
    (s.setFragEntry k e m).ebuf = s.ebuf := rfl
@[simp] theorem State.setFragEntry_evt (s : State) (k : Nat) (e : FragEntry) (m : Memory) :
    (s.setFragEntry k e m).evt = s.evt := rfl
@[simp] theorem State.setFragEntry_host (s : State) (k : Nat) (e : FragEntry) (m : Memory) :
    (s.setFragEntry k e m).host = s.host := rfl
@[simp] theorem State.setFragEntry_readData (s : State) (k : Nat) (e : FragEntry) (m : Memory) :
    (s.setFragEntry k e m).readData = s.readData := rfl
@[simp] theorem State.setFragEntry_freeCount (s : State) (k : Nat) (e : FragEntry) (m : Memory) :
    (s.setFragEntry k e m).freeCount = s.freeCount := rfl
@[simp] theorem State.setFragEntry_sentRecord (s : State) (k : Nat) (e : FragEntry) (m : Memory) (j : Nat) :
    (s.setFragEntry k e m).sentRecord j = s.sentRecord j := rfl
@[simp] theorem State.setFragEntry_recvRecord (s : State) (k : Nat) (e : FragEntry) (m : Memory) (j : Nat) :
    (s.setFragEntry k e m).recvRecord j = s.recvRecord j := rfl
@[simp] theorem State.setFragEntry_ackEntry (s : State) (k : Nat) (e : FragEntry) (m : Memory) (j : Nat) :
    (s.setFragEntry k e m).ackEntry j = s.ackEntry j := rfl

/-! ### State.writeObuf -/

@[simp] theorem State.writeObuf_params (s : State) (out : List Byte) : (s.writeObuf out).params = s.params := rfl
@[simp] theorem State.writeObuf_arg0 (s : State) (out : List Byte) : (s.writeObuf out).arg0 = s.arg0 := rfl
@[simp] theorem State.writeObuf_arg1 (s : State) (out : List Byte) : (s.writeObuf out).arg1 = s.arg1 := rfl
@[simp] theorem State.writeObuf_arg2 (s : State) (out : List Byte) : (s.writeObuf out).arg2 = s.arg2 := rfl
@[simp] theorem State.writeObuf_numin (s : State) (out : List Byte) : (s.writeObuf out).numin = s.numin := rfl
@[simp] theorem State.writeObuf_res0 (s : State) (out : List Byte) : (s.writeObuf out).res0 = s.res0 := rfl
@[simp] theorem State.writeObuf_res1 (s : State) (out : List Byte) : (s.writeObuf out).res1 = s.res1 := rfl
@[simp] theorem State.writeObuf_res2 (s : State) (out : List Byte) : (s.writeObuf out).res2 = s.res2 := rfl
@[simp] theorem State.writeObuf_res3 (s : State) (out : List Byte) : (s.writeObuf out).res3 = s.res3 := rfl
@[simp] theorem State.writeObuf_resn (s : State) (out : List Byte) : (s.writeObuf out).resn = s.resn := rfl
@[simp] theorem State.writeObuf_code (s : State) (out : List Byte) : (s.writeObuf out).code = s.code := rfl
@[simp] theorem State.writeObuf_configured (s : State) (out : List Byte) :
    (s.writeObuf out).configured = s.configured := rfl
@[simp] theorem State.writeObuf_inCallback (s : State) (out : List Byte) :
    (s.writeObuf out).inCallback = s.inCallback := rfl
@[simp] theorem State.writeObuf_stack (s : State) (out : List Byte) : (s.writeObuf out).stack = s.stack := rfl
@[simp] theorem State.writeObuf_cfg (s : State) (out : List Byte) : (s.writeObuf out).cfg = s.cfg := rfl
@[simp] theorem State.writeObuf_sequence (s : State) (out : List Byte) : (s.writeObuf out).sequence = s.sequence := rfl
@[simp] theorem State.writeObuf_time (s : State) (out : List Byte) : (s.writeObuf out).time = s.time := rfl
@[simp] theorem State.writeObuf_stats (s : State) (out : List Byte) : (s.writeObuf out).stats = s.stats := rfl
@[simp] theorem State.writeObuf_counters (s : State) (out : List Byte) : (s.writeObuf out).counters = s.counters := rfl
@[simp] theorem State.writeObuf_acks (s : State) (out : List Byte) : (s.writeObuf out).acks = s.acks := rfl
@[simp] theorem State.writeObuf_ackCount (s : State) (out : List Byte) : (s.writeObuf out).ackCount = s.ackCount := rfl
@[simp] theorem State.writeObuf_sent (s : State) (out : List Byte) : (s.writeObuf out).sent = s.sent := rfl
@[simp] theorem State.writeObuf_recv (s : State) (out : List Byte) : (s.writeObuf out).recv = s.recv := rfl
@[simp] theorem State.writeObuf_frag (s : State) (out : List Byte) : (s.writeObuf out).frag = s.frag := rfl
@[simp] theorem State.writeObuf_sentRecords (s : State) (out : List Byte) :
    (s.writeObuf out).sentRecords = s.sentRecords := rfl
@[simp] theorem State.writeObuf_recvRecords (s : State) (out : List Byte) :
    (s.writeObuf out).recvRecords = s.recvRecords := rfl
@[simp] theorem State.writeObuf_fragEntries (s : State) (out : List Byte) :
    (s.writeObuf out).fragEntries = s.fragEntries := rfl
@[simp] theorem State.writeObuf_reasm (s : State) (out : List Byte) : (s.writeObuf out).reasm = s.reasm := rfl
@[simp] theorem State.writeObuf_ibuf (s : State) (out : List Byte) : (s.writeObuf out).ibuf = s.ibuf := rfl
@[simp] theorem State.writeObuf_obuf (s : State) (out : List Byte) :
    (s.writeObuf out).obuf = writeBytes s.obuf 0 out := rfl
@[simp] theorem State.writeObuf_ebuf (s : State) (out : List Byte) : (s.writeObuf out).ebuf = s.ebuf := rfl
@[simp] theorem State.writeObuf_evt (s : State) (out : List Byte) : (s.writeObuf out).evt = s.evt := rfl
@[simp] theorem State.writeObuf_host (s : State) (out : List Byte) : (s.writeObuf out).host = s.host := rfl
@[simp] theorem State.writeObuf_readData (s : State) (out : List Byte) : (s.writeObuf out).readData = s.readData := rfl
@[simp] theorem State.writeObuf_freeCount (s : State) (out : List Byte) :
    (s.writeObuf out).freeCount = s.freeCount := rfl
@[simp] theorem State.writeObuf_sentRecord (s : State) (out : List Byte) (j : Nat) :
    (s.writeObuf out).sentRecord j = s.sentRecord j := rfl
@[simp] theorem State.writeObuf_recvRecord (s : State) (out : List Byte) (j : Nat) :
    (s.writeObuf out).recvRecord j = s.recvRecord j := rfl
@[simp] theorem State.writeObuf_fragEntry (s : State) (out : List Byte) (j : Nat) :
    (s.writeObuf out).fragEntry j = s.fragEntry j := rfl
@[simp] theorem State.writeObuf_reasmSpace (s : State) (out : List Byte) (j : Nat) :
    (s.writeObuf out).reasmSpace j = s.reasmSpace j := rfl
@[simp] theorem State.writeObuf_ackEntry (s : State) (out : List Byte) (j : Nat) :
    (s.writeObuf out).ackEntry j = s.ackEntry j := rfl

/-! ### State.showEvent -/

@[simp] theorem State.showEvent_params (s : State) (e : Event) : (s.showEvent e).params = s.params := rfl
@[simp] theorem State.showEvent_arg0 (s : State) (e : Event) : (s.showEvent e).arg0 = s.arg0 := rfl
@[simp] theorem State.showEvent_arg1 (s : State) (e : Event) : (s.showEvent e).arg1 = s.arg1 := rfl
@[simp] theorem State.showEvent_arg2 (s : State) (e : Event) : (s.showEvent e).arg2 = s.arg2 := rfl
@[simp] theorem State.showEvent_numin (s : State) (e : Event) : (s.showEvent e).numin = s.numin := rfl
@[simp] theorem State.showEvent_res0 (s : State) (e : Event) : (s.showEvent e).res0 = s.res0 := rfl
@[simp] theorem State.showEvent_res1 (s : State) (e : Event) : (s.showEvent e).res1 = s.res1 := rfl
@[simp] theorem State.showEvent_res2 (s : State) (e : Event) : (s.showEvent e).res2 = s.res2 := rfl
@[simp] theorem State.showEvent_res3 (s : State) (e : Event) : (s.showEvent e).res3 = s.res3 := rfl
@[simp] theorem State.showEvent_resn (s : State) (e : Event) : (s.showEvent e).resn = s.resn := rfl
@[simp] theorem State.showEvent_code (s : State) (e : Event) : (s.showEvent e).code = s.code := rfl
@[simp] theorem State.showEvent_configured (s : State) (e : Event) : (s.showEvent e).configured = s.configured := rfl
@[simp] theorem State.showEvent_inCallback (s : State) (e : Event) : (s.showEvent e).inCallback = true := rfl
@[simp] theorem State.showEvent_stack (s : State) (e : Event) : (s.showEvent e).stack = s.stack := rfl
@[simp] theorem State.showEvent_cfg (s : State) (e : Event) : (s.showEvent e).cfg = s.cfg := rfl
@[simp] theorem State.showEvent_sequence (s : State) (e : Event) : (s.showEvent e).sequence = s.sequence := rfl
@[simp] theorem State.showEvent_time (s : State) (e : Event) : (s.showEvent e).time = s.time := rfl
@[simp] theorem State.showEvent_stats (s : State) (e : Event) : (s.showEvent e).stats = s.stats := rfl
@[simp] theorem State.showEvent_counters (s : State) (e : Event) : (s.showEvent e).counters = s.counters := rfl
@[simp] theorem State.showEvent_acks (s : State) (e : Event) : (s.showEvent e).acks = s.acks := rfl
@[simp] theorem State.showEvent_ackCount (s : State) (e : Event) : (s.showEvent e).ackCount = s.ackCount := rfl
@[simp] theorem State.showEvent_sent (s : State) (e : Event) : (s.showEvent e).sent = s.sent := rfl
@[simp] theorem State.showEvent_recv (s : State) (e : Event) : (s.showEvent e).recv = s.recv := rfl
@[simp] theorem State.showEvent_frag (s : State) (e : Event) : (s.showEvent e).frag = s.frag := rfl
@[simp] theorem State.showEvent_sentRecords (s : State) (e : Event) : (s.showEvent e).sentRecords = s.sentRecords := rfl
@[simp] theorem State.showEvent_recvRecords (s : State) (e : Event) : (s.showEvent e).recvRecords = s.recvRecords := rfl
@[simp] theorem State.showEvent_fragEntries (s : State) (e : Event) : (s.showEvent e).fragEntries = s.fragEntries := rfl
@[simp] theorem State.showEvent_reasm (s : State) (e : Event) : (s.showEvent e).reasm = s.reasm := rfl
@[simp] theorem State.showEvent_ibuf (s : State) (e : Event) : (s.showEvent e).ibuf = s.ibuf := rfl
@[simp] theorem State.showEvent_obuf (s : State) (e : Event) : (s.showEvent e).obuf = s.obuf := rfl
@[simp] theorem State.showEvent_ebuf (s : State) (e : Event) : (s.showEvent e).ebuf = writeBytes s.ebuf 0 e.bytes := rfl
@[simp] theorem State.showEvent_evt (s : State) (e : Event) :
    (s.showEvent e).evt = ⟨some e.kind, e.seq, BitVec.ofNat 32 e.bytes.length, s.cfg.context, s.cfg.index⟩ := rfl
@[simp] theorem State.showEvent_host (s : State) (e : Event) : (s.showEvent e).host = s.host := rfl
@[simp] theorem State.showEvent_readData (s : State) (e : Event) : (s.showEvent e).readData = s.readData := rfl
@[simp] theorem State.showEvent_freeCount (s : State) (e : Event) : (s.showEvent e).freeCount = s.freeCount := rfl
@[simp] theorem State.showEvent_sentRecord (s : State) (e : Event) (j : Nat) :
    (s.showEvent e).sentRecord j = s.sentRecord j := rfl
@[simp] theorem State.showEvent_recvRecord (s : State) (e : Event) (j : Nat) :
    (s.showEvent e).recvRecord j = s.recvRecord j := rfl
@[simp] theorem State.showEvent_fragEntry (s : State) (e : Event) (j : Nat) :
    (s.showEvent e).fragEntry j = s.fragEntry j := rfl
@[simp] theorem State.showEvent_reasmSpace (s : State) (e : Event) (j : Nat) :
    (s.showEvent e).reasmSpace j = s.reasmSpace j := rfl
@[simp] theorem State.showEvent_ackEntry (s : State) (e : Event) (j : Nat) :
    (s.showEvent e).ackEntry j = s.ackEntry j := rfl

/-! ### State.emit -/

@[simp] theorem State.emit_params (s : State) (e : Event) (p : Phase) : (s.emit e p).params = s.params := rfl
@[simp] theorem State.emit_arg0 (s : State) (e : Event) (p : Phase) : (s.emit e p).arg0 = s.arg0 := rfl
@[simp] theorem State.emit_arg1 (s : State) (e : Event) (p : Phase) : (s.emit e p).arg1 = s.arg1 := rfl
@[simp] theorem State.emit_arg2 (s : State) (e : Event) (p : Phase) : (s.emit e p).arg2 = s.arg2 := rfl
@[simp] theorem State.emit_numin (s : State) (e : Event) (p : Phase) : (s.emit e p).numin = s.numin := rfl
@[simp] theorem State.emit_res0 (s : State) (e : Event) (p : Phase) : (s.emit e p).res0 = s.res0 := rfl
@[simp] theorem State.emit_res1 (s : State) (e : Event) (p : Phase) : (s.emit e p).res1 = s.res1 := rfl
@[simp] theorem State.emit_res2 (s : State) (e : Event) (p : Phase) : (s.emit e p).res2 = s.res2 := rfl
@[simp] theorem State.emit_res3 (s : State) (e : Event) (p : Phase) : (s.emit e p).res3 = s.res3 := rfl
@[simp] theorem State.emit_resn (s : State) (e : Event) (p : Phase) : (s.emit e p).resn = s.resn := rfl
@[simp] theorem State.emit_code (s : State) (e : Event) (p : Phase) : (s.emit e p).code = s.code := rfl
@[simp] theorem State.emit_configured (s : State) (e : Event) (p : Phase) : (s.emit e p).configured = s.configured := rfl
@[simp] theorem State.emit_inCallback (s : State) (e : Event) (p : Phase) : (s.emit e p).inCallback = true := rfl
@[simp] theorem State.emit_stack (s : State) (e : Event) (p : Phase) : (s.emit e p).stack = ⟨p, e⟩ :: s.stack := rfl
@[simp] theorem State.emit_cfg (s : State) (e : Event) (p : Phase) : (s.emit e p).cfg = s.cfg := rfl
@[simp] theorem State.emit_sequence (s : State) (e : Event) (p : Phase) : (s.emit e p).sequence = s.sequence := rfl
@[simp] theorem State.emit_time (s : State) (e : Event) (p : Phase) : (s.emit e p).time = s.time := rfl
@[simp] theorem State.emit_stats (s : State) (e : Event) (p : Phase) : (s.emit e p).stats = s.stats := rfl
@[simp] theorem State.emit_counters (s : State) (e : Event) (p : Phase) : (s.emit e p).counters = s.counters := rfl
@[simp] theorem State.emit_acks (s : State) (e : Event) (p : Phase) : (s.emit e p).acks = s.acks := rfl
@[simp] theorem State.emit_ackCount (s : State) (e : Event) (p : Phase) : (s.emit e p).ackCount = s.ackCount := rfl
@[simp] theorem State.emit_sent (s : State) (e : Event) (p : Phase) : (s.emit e p).sent = s.sent := rfl
@[simp] theorem State.emit_recv (s : State) (e : Event) (p : Phase) : (s.emit e p).recv = s.recv := rfl
@[simp] theorem State.emit_frag (s : State) (e : Event) (p : Phase) : (s.emit e p).frag = s.frag := rfl
@[simp] theorem State.emit_sentRecords (s : State) (e : Event) (p : Phase) :
    (s.emit e p).sentRecords = s.sentRecords := rfl
@[simp] theorem State.emit_recvRecords (s : State) (e : Event) (p : Phase) :
    (s.emit e p).recvRecords = s.recvRecords := rfl
@[simp] theorem State.emit_fragEntries (s : State) (e : Event) (p : Phase) :
    (s.emit e p).fragEntries = s.fragEntries := rfl
@[simp] theorem State.emit_reasm (s : State) (e : Event) (p : Phase) : (s.emit e p).reasm = s.reasm := rfl
@[simp] theorem State.emit_ibuf (s : State) (e : Event) (p : Phase) : (s.emit e p).ibuf = s.ibuf := rfl
@[simp] theorem State.emit_obuf (s : State) (e : Event) (p : Phase) : (s.emit e p).obuf = s.obuf := rfl
@[simp] theorem State.emit_ebuf (s : State) (e : Event) (p : Phase) :
    (s.emit e p).ebuf = writeBytes s.ebuf 0 e.bytes := rfl
@[simp] theorem State.emit_evt (s : State) (e : Event) (p : Phase) :
    (s.emit e p).evt = ⟨some e.kind, e.seq, BitVec.ofNat 32 e.bytes.length, s.cfg.context, s.cfg.index⟩ := rfl
@[simp] theorem State.emit_host (s : State) (e : Event) (p : Phase) : (s.emit e p).host = s.host := rfl
@[simp] theorem State.emit_readData (s : State) (e : Event) (p : Phase) : (s.emit e p).readData = s.readData := rfl
@[simp] theorem State.emit_freeCount (s : State) (e : Event) (p : Phase) : (s.emit e p).freeCount = s.freeCount := rfl
@[simp] theorem State.emit_sentRecord (s : State) (e : Event) (p : Phase) (j : Nat) :
    (s.emit e p).sentRecord j = s.sentRecord j := rfl
@[simp] theorem State.emit_recvRecord (s : State) (e : Event) (p : Phase) (j : Nat) :
    (s.emit e p).recvRecord j = s.recvRecord j := rfl
@[simp] theorem State.emit_fragEntry (s : State) (e : Event) (p : Phase) (j : Nat) :
    (s.emit e p).fragEntry j = s.fragEntry j := rfl
@[simp] theorem State.emit_reasmSpace (s : State) (e : Event) (p : Phase) (j : Nat) :
    (s.emit e p).reasmSpace j = s.reasmSpace j := rfl
@[simp] theorem State.emit_ackEntry (s : State) (e : Event) (p : Phase) (j : Nat) :
    (s.emit e p).ackEntry j = s.ackEntry j := rfl

/-! ### State.endEvent -/

@[simp] theorem State.endEvent_params (s : State) (f : Frame) (rest : List Frame) :
    (s.endEvent f rest).params = s.params := rfl
@[simp] theorem State.endEvent_arg0 (s : State) (f : Frame) (rest : List Frame) :
    (s.endEvent f rest).arg0 = s.arg0 := rfl
@[simp] theorem State.endEvent_arg1 (s : State) (f : Frame) (rest : List Frame) :
    (s.endEvent f rest).arg1 = s.arg1 := rfl
@[simp] theorem State.endEvent_arg2 (s : State) (f : Frame) (rest : List Frame) :
    (s.endEvent f rest).arg2 = s.arg2 := rfl
@[simp] theorem State.endEvent_numin (s : State) (f : Frame) (rest : List Frame) :
    (s.endEvent f rest).numin = s.numin := rfl
@[simp] theorem State.endEvent_res0 (s : State) (f : Frame) (rest : List Frame) :
    (s.endEvent f rest).res0 = s.res0 := rfl
@[simp] theorem State.endEvent_res1 (s : State) (f : Frame) (rest : List Frame) :
    (s.endEvent f rest).res1 = s.res1 := rfl
@[simp] theorem State.endEvent_res2 (s : State) (f : Frame) (rest : List Frame) :
    (s.endEvent f rest).res2 = s.res2 := rfl
@[simp] theorem State.endEvent_res3 (s : State) (f : Frame) (rest : List Frame) :
    (s.endEvent f rest).res3 = s.res3 := rfl
@[simp] theorem State.endEvent_resn (s : State) (f : Frame) (rest : List Frame) :
    (s.endEvent f rest).resn = s.resn := rfl
@[simp] theorem State.endEvent_code (s : State) (f : Frame) (rest : List Frame) :
    (s.endEvent f rest).code = s.code := rfl
@[simp] theorem State.endEvent_configured (s : State) (f : Frame) (rest : List Frame) :
    (s.endEvent f rest).configured = s.configured := rfl
@[simp] theorem State.endEvent_inCallback (s : State) (f : Frame) (rest : List Frame) :
    (s.endEvent f rest).inCallback = false := rfl
@[simp] theorem State.endEvent_stack (s : State) (f : Frame) (rest : List Frame) :
    (s.endEvent f rest).stack = rest := rfl
@[simp] theorem State.endEvent_cfg (s : State) (f : Frame) (rest : List Frame) : (s.endEvent f rest).cfg = s.cfg := rfl
@[simp] theorem State.endEvent_sequence (s : State) (f : Frame) (rest : List Frame) :
    (s.endEvent f rest).sequence = s.sequence := rfl
@[simp] theorem State.endEvent_time (s : State) (f : Frame) (rest : List Frame) :
    (s.endEvent f rest).time = s.time := rfl
@[simp] theorem State.endEvent_stats (s : State) (f : Frame) (rest : List Frame) :
    (s.endEvent f rest).stats = s.stats := rfl
@[simp] theorem State.endEvent_counters (s : State) (f : Frame) (rest : List Frame) :
    (s.endEvent f rest).counters = s.counters := rfl
@[simp] theorem State.endEvent_acks (s : State) (f : Frame) (rest : List Frame) :
    (s.endEvent f rest).acks = s.acks := rfl
@[simp] theorem State.endEvent_ackCount (s : State) (f : Frame) (rest : List Frame) :
    (s.endEvent f rest).ackCount = s.ackCount := rfl
@[simp] theorem State.endEvent_sent (s : State) (f : Frame) (rest : List Frame) :
    (s.endEvent f rest).sent = s.sent := rfl
@[simp] theorem State.endEvent_recv (s : State) (f : Frame) (rest : List Frame) :
    (s.endEvent f rest).recv = s.recv := rfl
@[simp] theorem State.endEvent_frag (s : State) (f : Frame) (rest : List Frame) :
    (s.endEvent f rest).frag = s.frag := rfl
@[simp] theorem State.endEvent_sentRecords (s : State) (f : Frame) (rest : List Frame) :
    (s.endEvent f rest).sentRecords = s.sentRecords := rfl
@[simp] theorem State.endEvent_recvRecords (s : State) (f : Frame) (rest : List Frame) :
    (s.endEvent f rest).recvRecords = s.recvRecords := rfl
@[simp] theorem State.endEvent_fragEntries (s : State) (f : Frame) (rest : List Frame) :
    (s.endEvent f rest).fragEntries = s.fragEntries := rfl
@[simp] theorem State.endEvent_reasm (s : State) (f : Frame) (rest : List Frame) :
    (s.endEvent f rest).reasm = s.reasm := rfl
@[simp] theorem State.endEvent_ibuf (s : State) (f : Frame) (rest : List Frame) :
    (s.endEvent f rest).ibuf = s.ibuf := rfl
@[simp] theorem State.endEvent_obuf (s : State) (f : Frame) (rest : List Frame) :
    (s.endEvent f rest).obuf = s.obuf := rfl
@[simp] theorem State.endEvent_ebuf (s : State) (f : Frame) (rest : List Frame) :
    (s.endEvent f rest).ebuf = writeBytes s.ebuf 0
      ((List.range f.event.bytes.length).map (Config.ebufResidue s.freeCount)) := rfl
@[simp] theorem State.endEvent_evt (s : State) (f : Frame) (rest : List Frame) :
    (s.endEvent f rest).evt = { s.evt with kind := none } := rfl
@[simp] theorem State.endEvent_host (s : State) (f : Frame) (rest : List Frame) :
    (s.endEvent f rest).host = s.host := rfl
@[simp] theorem State.endEvent_readData (s : State) (f : Frame) (rest : List Frame) :
    (s.endEvent f rest).readData = s.readData := rfl
@[simp] theorem State.endEvent_freeCount (s : State) (f : Frame) (rest : List Frame) :
    (s.endEvent f rest).freeCount = s.freeCount + 1 := rfl
@[simp] theorem State.endEvent_sentRecord (s : State) (f : Frame) (rest : List Frame) (j : Nat) :
    (s.endEvent f rest).sentRecord j = s.sentRecord j := rfl
@[simp] theorem State.endEvent_recvRecord (s : State) (f : Frame) (rest : List Frame) (j : Nat) :
    (s.endEvent f rest).recvRecord j = s.recvRecord j := rfl
@[simp] theorem State.endEvent_fragEntry (s : State) (f : Frame) (rest : List Frame) (j : Nat) :
    (s.endEvent f rest).fragEntry j = s.fragEntry j := rfl
@[simp] theorem State.endEvent_reasmSpace (s : State) (f : Frame) (rest : List Frame) (j : Nat) :
    (s.endEvent f rest).reasmSpace j = s.reasmSpace j := rfl
@[simp] theorem State.endEvent_ackEntry (s : State) (f : Frame) (rest : List Frame) (j : Nat) :
    (s.endEvent f rest).ackEntry j = s.ackEntry j := rfl

/-! ### State.reportFragment -/

@[simp] theorem State.reportFragment_params (s : State) (h : FragmentHeader) :
    (s.reportFragment h).params = s.params := rfl
@[simp] theorem State.reportFragment_arg0 (s : State) (h : FragmentHeader) : (s.reportFragment h).arg0 = s.arg0 := rfl
@[simp] theorem State.reportFragment_arg1 (s : State) (h : FragmentHeader) : (s.reportFragment h).arg1 = s.arg1 := rfl
@[simp] theorem State.reportFragment_arg2 (s : State) (h : FragmentHeader) : (s.reportFragment h).arg2 = s.arg2 := rfl
@[simp] theorem State.reportFragment_numin (s : State) (h : FragmentHeader) : (s.reportFragment h).numin = s.numin := rfl
@[simp] theorem State.reportFragment_res0 (s : State) (h : FragmentHeader) :
    (s.reportFragment h).res0 = word h.seq := rfl
@[simp] theorem State.reportFragment_res1 (s : State) (h : FragmentHeader) :
    (s.reportFragment h).res1 = BitVec.ofNat 32 h.id := rfl
@[simp] theorem State.reportFragment_res2 (s : State) (h : FragmentHeader) :
    (s.reportFragment h).res2 = BitVec.ofNat 32 h.count := rfl
@[simp] theorem State.reportFragment_res3 (s : State) (h : FragmentHeader) : (s.reportFragment h).res3 = s.res3 := rfl
@[simp] theorem State.reportFragment_resn (s : State) (h : FragmentHeader) : (s.reportFragment h).resn = s.resn := rfl
@[simp] theorem State.reportFragment_code (s : State) (h : FragmentHeader) : (s.reportFragment h).code = s.code := rfl
@[simp] theorem State.reportFragment_configured (s : State) (h : FragmentHeader) :
    (s.reportFragment h).configured = s.configured := rfl
@[simp] theorem State.reportFragment_inCallback (s : State) (h : FragmentHeader) :
    (s.reportFragment h).inCallback = s.inCallback := rfl
@[simp] theorem State.reportFragment_stack (s : State) (h : FragmentHeader) : (s.reportFragment h).stack = s.stack := rfl
@[simp] theorem State.reportFragment_cfg (s : State) (h : FragmentHeader) : (s.reportFragment h).cfg = s.cfg := rfl
@[simp] theorem State.reportFragment_sequence (s : State) (h : FragmentHeader) :
    (s.reportFragment h).sequence = s.sequence := rfl
@[simp] theorem State.reportFragment_time (s : State) (h : FragmentHeader) : (s.reportFragment h).time = s.time := rfl
@[simp] theorem State.reportFragment_stats (s : State) (h : FragmentHeader) : (s.reportFragment h).stats = s.stats := rfl
@[simp] theorem State.reportFragment_counters (s : State) (h : FragmentHeader) :
    (s.reportFragment h).counters = s.counters := rfl
@[simp] theorem State.reportFragment_acks (s : State) (h : FragmentHeader) : (s.reportFragment h).acks = s.acks := rfl
@[simp] theorem State.reportFragment_ackCount (s : State) (h : FragmentHeader) :
    (s.reportFragment h).ackCount = s.ackCount := rfl
@[simp] theorem State.reportFragment_sent (s : State) (h : FragmentHeader) : (s.reportFragment h).sent = s.sent := rfl
@[simp] theorem State.reportFragment_recv (s : State) (h : FragmentHeader) : (s.reportFragment h).recv = s.recv := rfl
@[simp] theorem State.reportFragment_frag (s : State) (h : FragmentHeader) : (s.reportFragment h).frag = s.frag := rfl
@[simp] theorem State.reportFragment_sentRecords (s : State) (h : FragmentHeader) :
    (s.reportFragment h).sentRecords = s.sentRecords := rfl
@[simp] theorem State.reportFragment_recvRecords (s : State) (h : FragmentHeader) :
    (s.reportFragment h).recvRecords = s.recvRecords := rfl
@[simp] theorem State.reportFragment_fragEntries (s : State) (h : FragmentHeader) :
    (s.reportFragment h).fragEntries = s.fragEntries := rfl
@[simp] theorem State.reportFragment_reasm (s : State) (h : FragmentHeader) : (s.reportFragment h).reasm = s.reasm := rfl
@[simp] theorem State.reportFragment_ibuf (s : State) (h : FragmentHeader) : (s.reportFragment h).ibuf = s.ibuf := rfl
@[simp] theorem State.reportFragment_obuf (s : State) (h : FragmentHeader) : (s.reportFragment h).obuf = s.obuf := rfl
@[simp] theorem State.reportFragment_ebuf (s : State) (h : FragmentHeader) : (s.reportFragment h).ebuf = s.ebuf := rfl
@[simp] theorem State.reportFragment_evt (s : State) (h : FragmentHeader) : (s.reportFragment h).evt = s.evt := rfl
@[simp] theorem State.reportFragment_host (s : State) (h : FragmentHeader) : (s.reportFragment h).host = s.host := rfl
@[simp] theorem State.reportFragment_readData (s : State) (h : FragmentHeader) :
    (s.reportFragment h).readData = s.readData := rfl
@[simp] theorem State.reportFragment_freeCount (s : State) (h : FragmentHeader) :
    (s.reportFragment h).freeCount = s.freeCount := rfl
@[simp] theorem State.reportFragment_sentRecord (s : State) (h : FragmentHeader) (j : Nat) :
    (s.reportFragment h).sentRecord j = s.sentRecord j := rfl
@[simp] theorem State.reportFragment_recvRecord (s : State) (h : FragmentHeader) (j : Nat) :
    (s.reportFragment h).recvRecord j = s.recvRecord j := rfl
@[simp] theorem State.reportFragment_fragEntry (s : State) (h : FragmentHeader) (j : Nat) :
    (s.reportFragment h).fragEntry j = s.fragEntry j := rfl
@[simp] theorem State.reportFragment_reasmSpace (s : State) (h : FragmentHeader) (j : Nat) :
    (s.reportFragment h).reasmSpace j = s.reasmSpace j := rfl
@[simp] theorem State.reportFragment_ackEntry (s : State) (h : FragmentHeader) (j : Nat) :
    (s.reportFragment h).ackEntry j = s.ackEntry j := rfl

/-! ### State.dropReassembly -/

@[simp] theorem State.dropReassembly_params (s : State) (q : U16) : (s.dropReassembly q).params = s.params := rfl
@[simp] theorem State.dropReassembly_arg0 (s : State) (q : U16) : (s.dropReassembly q).arg0 = s.arg0 := rfl
@[simp] theorem State.dropReassembly_arg1 (s : State) (q : U16) : (s.dropReassembly q).arg1 = s.arg1 := rfl
@[simp] theorem State.dropReassembly_arg2 (s : State) (q : U16) : (s.dropReassembly q).arg2 = s.arg2 := rfl
@[simp] theorem State.dropReassembly_numin (s : State) (q : U16) : (s.dropReassembly q).numin = s.numin := rfl
@[simp] theorem State.dropReassembly_res0 (s : State) (q : U16) : (s.dropReassembly q).res0 = s.res0 := rfl
@[simp] theorem State.dropReassembly_res1 (s : State) (q : U16) : (s.dropReassembly q).res1 = s.res1 := rfl
@[simp] theorem State.dropReassembly_res2 (s : State) (q : U16) : (s.dropReassembly q).res2 = s.res2 := rfl
@[simp] theorem State.dropReassembly_res3 (s : State) (q : U16) : (s.dropReassembly q).res3 = s.res3 := rfl
@[simp] theorem State.dropReassembly_resn (s : State) (q : U16) : (s.dropReassembly q).resn = s.resn := rfl
@[simp] theorem State.dropReassembly_code (s : State) (q : U16) : (s.dropReassembly q).code = s.code := rfl
@[simp] theorem State.dropReassembly_configured (s : State) (q : U16) :
    (s.dropReassembly q).configured = s.configured := rfl
@[simp] theorem State.dropReassembly_inCallback (s : State) (q : U16) :
    (s.dropReassembly q).inCallback = s.inCallback := rfl
@[simp] theorem State.dropReassembly_stack (s : State) (q : U16) : (s.dropReassembly q).stack = s.stack := rfl
@[simp] theorem State.dropReassembly_cfg (s : State) (q : U16) : (s.dropReassembly q).cfg = s.cfg := rfl
@[simp] theorem State.dropReassembly_sequence (s : State) (q : U16) : (s.dropReassembly q).sequence = s.sequence := rfl
@[simp] theorem State.dropReassembly_time (s : State) (q : U16) : (s.dropReassembly q).time = s.time := rfl
@[simp] theorem State.dropReassembly_stats (s : State) (q : U16) : (s.dropReassembly q).stats = s.stats := rfl
@[simp] theorem State.dropReassembly_counters (s : State) (q : U16) : (s.dropReassembly q).counters = s.counters := rfl
@[simp] theorem State.dropReassembly_acks (s : State) (q : U16) : (s.dropReassembly q).acks = s.acks := rfl
@[simp] theorem State.dropReassembly_ackCount (s : State) (q : U16) : (s.dropReassembly q).ackCount = s.ackCount := rfl
@[simp] theorem State.dropReassembly_sent (s : State) (q : U16) : (s.dropReassembly q).sent = s.sent := rfl
@[simp] theorem State.dropReassembly_recv (s : State) (q : U16) : (s.dropReassembly q).recv = s.recv := rfl
@[simp] theorem State.dropReassembly_frag (s : State) (q : U16) : (s.dropReassembly q).frag = sbRemoved s.frag q := rfl
@[simp] theorem State.dropReassembly_sentRecords (s : State) (q : U16) :
    (s.dropReassembly q).sentRecords = s.sentRecords := rfl
@[simp] theorem State.dropReassembly_recvRecords (s : State) (q : U16) :
    (s.dropReassembly q).recvRecords = s.recvRecords := rfl
@[simp] theorem State.dropReassembly_fragEntries (s : State) (q : U16) :
    (s.dropReassembly q).fragEntries = s.fragEntries := rfl
@[simp] theorem State.dropReassembly_reasm (s : State) (q : U16) : (s.dropReassembly q).reasm = s.reasm := rfl
@[simp] theorem State.dropReassembly_ibuf (s : State) (q : U16) : (s.dropReassembly q).ibuf = s.ibuf := rfl
@[simp] theorem State.dropReassembly_obuf (s : State) (q : U16) : (s.dropReassembly q).obuf = s.obuf := rfl
@[simp] theorem State.dropReassembly_ebuf (s : State) (q : U16) : (s.dropReassembly q).ebuf = s.ebuf := rfl
@[simp] theorem State.dropReassembly_evt (s : State) (q : U16) : (s.dropReassembly q).evt = s.evt := rfl
@[simp] theorem State.dropReassembly_host (s : State) (q : U16) : (s.dropReassembly q).host = s.host := rfl
@[simp] theorem State.dropReassembly_readData (s : State) (q : U16) : (s.dropReassembly q).readData = s.readData := rfl
@[simp] theorem State.dropReassembly_freeCount (s : State) (q : U16) :
    (s.dropReassembly q).freeCount = s.freeCount := rfl
@[simp] theorem State.dropReassembly_sentRecord (s : State) (q : U16) (j : Nat) :
    (s.dropReassembly q).sentRecord j = s.sentRecord j := rfl
@[simp] theorem State.dropReassembly_recvRecord (s : State) (q : U16) (j : Nat) :
    (s.dropReassembly q).recvRecord j = s.recvRecord j := rfl
@[simp] theorem State.dropReassembly_fragEntry (s : State) (q : U16) (j : Nat) :
    (s.dropReassembly q).fragEntry j = s.fragEntry j := rfl
@[simp] theorem State.dropReassembly_reasmSpace (s : State) (q : U16) (j : Nat) :
    (s.dropReassembly q).reasmSpace j = s.reasmSpace j := rfl
@[simp] theorem State.dropReassembly_ackEntry (s : State) (q : U16) (j : Nat) :
    (s.dropReassembly q).ackEntry j = s.ackEntry j := rfl

/-! ### State.rttFold -/

@[simp] theorem State.rttFold_params (s : State) (x : NumWord) : (s.rttFold x).params = s.params := rfl
@[simp] theorem State.rttFold_arg0 (s : State) (x : NumWord) : (s.rttFold x).arg0 = s.arg0 := rfl
@[simp] theorem State.rttFold_arg1 (s : State) (x : NumWord) : (s.rttFold x).arg1 = s.arg1 := rfl
@[simp] theorem State.rttFold_arg2 (s : State) (x : NumWord) : (s.rttFold x).arg2 = s.arg2 := rfl
@[simp] theorem State.rttFold_numin (s : State) (x : NumWord) : (s.rttFold x).numin = s.numin := rfl
@[simp] theorem State.rttFold_res0 (s : State) (x : NumWord) : (s.rttFold x).res0 = s.res0 := rfl
@[simp] theorem State.rttFold_res1 (s : State) (x : NumWord) : (s.rttFold x).res1 = s.res1 := rfl
@[simp] theorem State.rttFold_res2 (s : State) (x : NumWord) : (s.rttFold x).res2 = s.res2 := rfl
@[simp] theorem State.rttFold_res3 (s : State) (x : NumWord) : (s.rttFold x).res3 = s.res3 := rfl
@[simp] theorem State.rttFold_resn (s : State) (x : NumWord) : (s.rttFold x).resn = s.resn := rfl
@[simp] theorem State.rttFold_code (s : State) (x : NumWord) : (s.rttFold x).code = s.code := rfl
@[simp] theorem State.rttFold_configured (s : State) (x : NumWord) : (s.rttFold x).configured = s.configured := rfl
@[simp] theorem State.rttFold_inCallback (s : State) (x : NumWord) : (s.rttFold x).inCallback = s.inCallback := rfl
@[simp] theorem State.rttFold_stack (s : State) (x : NumWord) : (s.rttFold x).stack = s.stack := rfl
@[simp] theorem State.rttFold_cfg (s : State) (x : NumWord) : (s.rttFold x).cfg = s.cfg := rfl
@[simp] theorem State.rttFold_sequence (s : State) (x : NumWord) : (s.rttFold x).sequence = s.sequence := rfl
@[simp] theorem State.rttFold_time (s : State) (x : NumWord) : (s.rttFold x).time = s.time := rfl
@[simp] theorem State.rttFold_stats (s : State) (x : NumWord) :
    (s.rttFold x).stats = { s.stats with rtt := rttNext s.params.num s.params.snapEps s.cfg.rttFactor s.stats.rtt x } := rfl
@[simp] theorem State.rttFold_counters (s : State) (x : NumWord) : (s.rttFold x).counters = s.counters := rfl
@[simp] theorem State.rttFold_acks (s : State) (x : NumWord) : (s.rttFold x).acks = s.acks := rfl
@[simp] theorem State.rttFold_ackCount (s : State) (x : NumWord) : (s.rttFold x).ackCount = s.ackCount := rfl
@[simp] theorem State.rttFold_sent (s : State) (x : NumWord) : (s.rttFold x).sent = s.sent := rfl
@[simp] theorem State.rttFold_recv (s : State) (x : NumWord) : (s.rttFold x).recv = s.recv := rfl
@[simp] theorem State.rttFold_frag (s : State) (x : NumWord) : (s.rttFold x).frag = s.frag := rfl
@[simp] theorem State.rttFold_sentRecords (s : State) (x : NumWord) : (s.rttFold x).sentRecords = s.sentRecords := rfl
@[simp] theorem State.rttFold_recvRecords (s : State) (x : NumWord) : (s.rttFold x).recvRecords = s.recvRecords := rfl
@[simp] theorem State.rttFold_fragEntries (s : State) (x : NumWord) : (s.rttFold x).fragEntries = s.fragEntries := rfl
@[simp] theorem State.rttFold_reasm (s : State) (x : NumWord) : (s.rttFold x).reasm = s.reasm := rfl
@[simp] theorem State.rttFold_ibuf (s : State) (x : NumWord) : (s.rttFold x).ibuf = s.ibuf := rfl
@[simp] theorem State.rttFold_obuf (s : State) (x : NumWord) : (s.rttFold x).obuf = s.obuf := rfl
@[simp] theorem State.rttFold_ebuf (s : State) (x : NumWord) : (s.rttFold x).ebuf = s.ebuf := rfl
@[simp] theorem State.rttFold_evt (s : State) (x : NumWord) : (s.rttFold x).evt = s.evt := rfl
@[simp] theorem State.rttFold_host (s : State) (x : NumWord) : (s.rttFold x).host = s.host := rfl
@[simp] theorem State.rttFold_readData (s : State) (x : NumWord) : (s.rttFold x).readData = s.readData := rfl
@[simp] theorem State.rttFold_freeCount (s : State) (x : NumWord) : (s.rttFold x).freeCount = s.freeCount := rfl
@[simp] theorem State.rttFold_sentRecord (s : State) (x : NumWord) (j : Nat) :
    (s.rttFold x).sentRecord j = s.sentRecord j := rfl
@[simp] theorem State.rttFold_recvRecord (s : State) (x : NumWord) (j : Nat) :
    (s.rttFold x).recvRecord j = s.recvRecord j := rfl
@[simp] theorem State.rttFold_fragEntry (s : State) (x : NumWord) (j : Nat) :
    (s.rttFold x).fragEntry j = s.fragEntry j := rfl
@[simp] theorem State.rttFold_reasmSpace (s : State) (x : NumWord) (j : Nat) :
    (s.rttFold x).reasmSpace j = s.reasmSpace j := rfl
@[simp] theorem State.rttFold_ackEntry (s : State) (x : NumWord) (j : Nat) :
    (s.rttFold x).ackEntry j = s.ackEntry j := rfl

/-! ### State.finishSend -/

@[simp] theorem State.finishSend_params (s : State) (q : U16) : (s.finishSend q).params = s.params := rfl
@[simp] theorem State.finishSend_arg0 (s : State) (q : U16) : (s.finishSend q).arg0 = s.arg0 := rfl
@[simp] theorem State.finishSend_arg1 (s : State) (q : U16) : (s.finishSend q).arg1 = s.arg1 := rfl
@[simp] theorem State.finishSend_arg2 (s : State) (q : U16) : (s.finishSend q).arg2 = s.arg2 := rfl
@[simp] theorem State.finishSend_numin (s : State) (q : U16) : (s.finishSend q).numin = s.numin := rfl
@[simp] theorem State.finishSend_res0 (s : State) (q : U16) : (s.finishSend q).res0 = word q := rfl
@[simp] theorem State.finishSend_res1 (s : State) (q : U16) : (s.finishSend q).res1 = s.res1 := rfl
@[simp] theorem State.finishSend_res2 (s : State) (q : U16) : (s.finishSend q).res2 = s.res2 := rfl
@[simp] theorem State.finishSend_res3 (s : State) (q : U16) : (s.finishSend q).res3 = s.res3 := rfl
@[simp] theorem State.finishSend_resn (s : State) (q : U16) : (s.finishSend q).resn = s.resn := rfl
@[simp] theorem State.finishSend_code (s : State) (q : U16) : (s.finishSend q).code = .ok := rfl
@[simp] theorem State.finishSend_configured (s : State) (q : U16) : (s.finishSend q).configured = s.configured := rfl
@[simp] theorem State.finishSend_inCallback (s : State) (q : U16) : (s.finishSend q).inCallback = s.inCallback := rfl
@[simp] theorem State.finishSend_stack (s : State) (q : U16) : (s.finishSend q).stack = s.stack := rfl
@[simp] theorem State.finishSend_cfg (s : State) (q : U16) : (s.finishSend q).cfg = s.cfg := rfl
@[simp] theorem State.finishSend_sequence (s : State) (q : U16) : (s.finishSend q).sequence = s.sequence := rfl
@[simp] theorem State.finishSend_time (s : State) (q : U16) : (s.finishSend q).time = s.time := rfl
@[simp] theorem State.finishSend_stats (s : State) (q : U16) : (s.finishSend q).stats = s.stats := rfl
@[simp] theorem State.finishSend_counters (s : State) (q : U16) : (s.finishSend q).counters = s.counters := rfl
@[simp] theorem State.finishSend_acks (s : State) (q : U16) : (s.finishSend q).acks = s.acks := rfl
@[simp] theorem State.finishSend_ackCount (s : State) (q : U16) : (s.finishSend q).ackCount = s.ackCount := rfl
@[simp] theorem State.finishSend_sent (s : State) (q : U16) : (s.finishSend q).sent = s.sent := rfl
@[simp] theorem State.finishSend_recv (s : State) (q : U16) : (s.finishSend q).recv = s.recv := rfl
@[simp] theorem State.finishSend_frag (s : State) (q : U16) : (s.finishSend q).frag = s.frag := rfl
@[simp] theorem State.finishSend_sentRecords (s : State) (q : U16) : (s.finishSend q).sentRecords = s.sentRecords := rfl
@[simp] theorem State.finishSend_recvRecords (s : State) (q : U16) : (s.finishSend q).recvRecords = s.recvRecords := rfl
@[simp] theorem State.finishSend_fragEntries (s : State) (q : U16) : (s.finishSend q).fragEntries = s.fragEntries := rfl
@[simp] theorem State.finishSend_reasm (s : State) (q : U16) : (s.finishSend q).reasm = s.reasm := rfl
@[simp] theorem State.finishSend_ibuf (s : State) (q : U16) : (s.finishSend q).ibuf = s.ibuf := rfl
@[simp] theorem State.finishSend_obuf (s : State) (q : U16) : (s.finishSend q).obuf = s.obuf := rfl
@[simp] theorem State.finishSend_ebuf (s : State) (q : U16) : (s.finishSend q).ebuf = s.ebuf := rfl
@[simp] theorem State.finishSend_evt (s : State) (q : U16) : (s.finishSend q).evt = s.evt := rfl
@[simp] theorem State.finishSend_host (s : State) (q : U16) : (s.finishSend q).host = s.host := rfl
@[simp] theorem State.finishSend_readData (s : State) (q : U16) : (s.finishSend q).readData = s.readData := rfl
@[simp] theorem State.finishSend_freeCount (s : State) (q : U16) : (s.finishSend q).freeCount = s.freeCount := rfl
@[simp] theorem State.finishSend_sentRecord (s : State) (q : U16) (j : Nat) :
    (s.finishSend q).sentRecord j = s.sentRecord j := rfl
@[simp] theorem State.finishSend_recvRecord (s : State) (q : U16) (j : Nat) :
    (s.finishSend q).recvRecord j = s.recvRecord j := rfl
@[simp] theorem State.finishSend_fragEntry (s : State) (q : U16) (j : Nat) :
    (s.finishSend q).fragEntry j = s.fragEntry j := rfl
@[simp] theorem State.finishSend_reasmSpace (s : State) (q : U16) (j : Nat) :
    (s.finishSend q).reasmSpace j = s.reasmSpace j := rfl
@[simp] theorem State.finishSend_ackEntry (s : State) (q : U16) (j : Nat) :
    (s.finishSend q).ackEntry j = s.ackEntry j := rfl

/-! ### State.answerRead -/

@[simp] theorem State.answerRead_params (s : State) (v : U32) : (s.answerRead v).params = s.params := rfl
@[simp] theorem State.answerRead_arg0 (s : State) (v : U32) : (s.answerRead v).arg0 = s.arg0 := rfl
@[simp] theorem State.answerRead_arg1 (s : State) (v : U32) : (s.answerRead v).arg1 = s.arg1 := rfl
@[simp] theorem State.answerRead_arg2 (s : State) (v : U32) : (s.answerRead v).arg2 = s.arg2 := rfl
@[simp] theorem State.answerRead_numin (s : State) (v : U32) : (s.answerRead v).numin = s.numin := rfl
@[simp] theorem State.answerRead_res0 (s : State) (v : U32) : (s.answerRead v).res0 = s.res0 := rfl
@[simp] theorem State.answerRead_res1 (s : State) (v : U32) : (s.answerRead v).res1 = s.res1 := rfl
@[simp] theorem State.answerRead_res2 (s : State) (v : U32) : (s.answerRead v).res2 = s.res2 := rfl
@[simp] theorem State.answerRead_res3 (s : State) (v : U32) : (s.answerRead v).res3 = s.res3 := rfl
@[simp] theorem State.answerRead_resn (s : State) (v : U32) : (s.answerRead v).resn = s.resn := rfl
@[simp] theorem State.answerRead_code (s : State) (v : U32) : (s.answerRead v).code = s.code := rfl
@[simp] theorem State.answerRead_configured (s : State) (v : U32) : (s.answerRead v).configured = s.configured := rfl
@[simp] theorem State.answerRead_inCallback (s : State) (v : U32) : (s.answerRead v).inCallback = s.inCallback := rfl
@[simp] theorem State.answerRead_stack (s : State) (v : U32) : (s.answerRead v).stack = s.stack := rfl
@[simp] theorem State.answerRead_cfg (s : State) (v : U32) : (s.answerRead v).cfg = s.cfg := rfl
@[simp] theorem State.answerRead_sequence (s : State) (v : U32) : (s.answerRead v).sequence = s.sequence := rfl
@[simp] theorem State.answerRead_time (s : State) (v : U32) : (s.answerRead v).time = s.time := rfl
@[simp] theorem State.answerRead_stats (s : State) (v : U32) : (s.answerRead v).stats = s.stats := rfl
@[simp] theorem State.answerRead_counters (s : State) (v : U32) : (s.answerRead v).counters = s.counters := rfl
@[simp] theorem State.answerRead_acks (s : State) (v : U32) : (s.answerRead v).acks = s.acks := rfl
@[simp] theorem State.answerRead_ackCount (s : State) (v : U32) : (s.answerRead v).ackCount = s.ackCount := rfl
@[simp] theorem State.answerRead_sent (s : State) (v : U32) : (s.answerRead v).sent = s.sent := rfl
@[simp] theorem State.answerRead_recv (s : State) (v : U32) : (s.answerRead v).recv = s.recv := rfl
@[simp] theorem State.answerRead_frag (s : State) (v : U32) : (s.answerRead v).frag = s.frag := rfl
@[simp] theorem State.answerRead_sentRecords (s : State) (v : U32) : (s.answerRead v).sentRecords = s.sentRecords := rfl
@[simp] theorem State.answerRead_recvRecords (s : State) (v : U32) : (s.answerRead v).recvRecords = s.recvRecords := rfl
@[simp] theorem State.answerRead_fragEntries (s : State) (v : U32) : (s.answerRead v).fragEntries = s.fragEntries := rfl
@[simp] theorem State.answerRead_reasm (s : State) (v : U32) : (s.answerRead v).reasm = s.reasm := rfl
@[simp] theorem State.answerRead_ibuf (s : State) (v : U32) : (s.answerRead v).ibuf = s.ibuf := rfl
@[simp] theorem State.answerRead_obuf (s : State) (v : U32) : (s.answerRead v).obuf = s.obuf := rfl
@[simp] theorem State.answerRead_ebuf (s : State) (v : U32) : (s.answerRead v).ebuf = s.ebuf := rfl
@[simp] theorem State.answerRead_evt (s : State) (v : U32) : (s.answerRead v).evt = s.evt := rfl
@[simp] theorem State.answerRead_host (s : State) (v : U32) : (s.answerRead v).host = s.host := rfl
@[simp] theorem State.answerRead_readData (s : State) (v : U32) : (s.answerRead v).readData = v := rfl
@[simp] theorem State.answerRead_freeCount (s : State) (v : U32) : (s.answerRead v).freeCount = s.freeCount := rfl
@[simp] theorem State.answerRead_sentRecord (s : State) (v : U32) (j : Nat) :
    (s.answerRead v).sentRecord j = s.sentRecord j := rfl
@[simp] theorem State.answerRead_recvRecord (s : State) (v : U32) (j : Nat) :
    (s.answerRead v).recvRecord j = s.recvRecord j := rfl
@[simp] theorem State.answerRead_fragEntry (s : State) (v : U32) (j : Nat) :
    (s.answerRead v).fragEntry j = s.fragEntry j := rfl
@[simp] theorem State.answerRead_reasmSpace (s : State) (v : U32) (j : Nat) :
    (s.answerRead v).reasmSpace j = s.reasmSpace j := rfl
@[simp] theorem State.answerRead_ackEntry (s : State) (v : U32) (j : Nat) :
    (s.answerRead v).ackEntry j = s.ackEntry j := rfl

/-! ### State.setBuffer -/

@[simp] theorem State.setBuffer_params (s : State) (b : BufSel) (B : SeqBuf) : (s.setBuffer b B).params = s.params := by
  cases b <;> rfl
@[simp] theorem State.setBuffer_arg0 (s : State) (b : BufSel) (B : SeqBuf) : (s.setBuffer b B).arg0 = s.arg0 := by
  cases b <;> rfl
@[simp] theorem State.setBuffer_arg1 (s : State) (b : BufSel) (B : SeqBuf) : (s.setBuffer b B).arg1 = s.arg1 := by
  cases b <;> rfl
@[simp] theorem State.setBuffer_arg2 (s : State) (b : BufSel) (B : SeqBuf) : (s.setBuffer b B).arg2 = s.arg2 := by
  cases b <;> rfl
@[simp] theorem State.setBuffer_numin (s : State) (b : BufSel) (B : SeqBuf) : (s.setBuffer b B).numin = s.numin := by
  cases b <;> rfl
@[simp] theorem State.setBuffer_res0 (s : State) (b : BufSel) (B : SeqBuf) : (s.setBuffer b B).res0 = s.res0 := by
  cases b <;> rfl
@[simp] theorem State.setBuffer_res1 (s : State) (b : BufSel) (B : SeqBuf) : (s.setBuffer b B).res1 = s.res1 := by
  cases b <;> rfl
@[simp] theorem State.setBuffer_res2 (s : State) (b : BufSel) (B : SeqBuf) : (s.setBuffer b B).res2 = s.res2 := by
  cases b <;> rfl
@[simp] theorem State.setBuffer_res3 (s : State) (b : BufSel) (B : SeqBuf) : (s.setBuffer b B).res3 = s.res3 := by
  cases b <;> rfl
@[simp] theorem State.setBuffer_resn (s : State) (b : BufSel) (B : SeqBuf) : (s.setBuffer b B).resn = s.resn := by
  cases b <;> rfl
@[simp] theorem State.setBuffer_code (s : State) (b : BufSel) (B : SeqBuf) : (s.setBuffer b B).code = s.code := by
  cases b <;> rfl
@[simp] theorem State.setBuffer_configured (s : State) (b : BufSel) (B : SeqBuf) : (s.setBuffer b B).configured = s.configured := by
  cases b <;> rfl
@[simp] theorem State.setBuffer_inCallback (s : State) (b : BufSel) (B : SeqBuf) : (s.setBuffer b B).inCallback = s.inCallback := by
  cases b <;> rfl
@[simp] theorem State.setBuffer_stack (s : State) (b : BufSel) (B : SeqBuf) : (s.setBuffer b B).stack = s.stack := by
  cases b <;> rfl
@[simp] theorem State.setBuffer_cfg (s : State) (b : BufSel) (B : SeqBuf) : (s.setBuffer b B).cfg = s.cfg := by
  cases b <;> rfl
@[simp] theorem State.setBuffer_sequence (s : State) (b : BufSel) (B : SeqBuf) : (s.setBuffer b B).sequence = s.sequence := by
  cases b <;> rfl
@[simp] theorem State.setBuffer_time (s : State) (b : BufSel) (B : SeqBuf) : (s.setBuffer b B).time = s.time := by
  cases b <;> rfl
@[simp] theorem State.setBuffer_stats (s : State) (b : BufSel) (B : SeqBuf) : (s.setBuffer b B).stats = s.stats := by
  cases b <;> rfl
@[simp] theorem State.setBuffer_counters (s : State) (b : BufSel) (B : SeqBuf) : (s.setBuffer b B).counters = s.counters := by
  cases b <;> rfl
@[simp] theorem State.setBuffer_acks (s : State) (b : BufSel) (B : SeqBuf) : (s.setBuffer b B).acks = s.acks := by
  cases b <;> rfl
@[simp] theorem State.setBuffer_ackCount (s : State) (b : BufSel) (B : SeqBuf) : (s.setBuffer b B).ackCount = s.ackCount := by
  cases b <;> rfl
@[simp] theorem State.setBuffer_sentRecords (s : State) (b : BufSel) (B : SeqBuf) : (s.setBuffer b B).sentRecords = s.sentRecords := by
  cases b <;> rfl
@[simp] theorem State.setBuffer_recvRecords (s : State) (b : BufSel) (B : SeqBuf) : (s.setBuffer b B).recvRecords = s.recvRecords := by
  cases b <;> rfl
@[simp] theorem State.setBuffer_fragEntries (s : State) (b : BufSel) (B : SeqBuf) : (s.setBuffer b B).fragEntries = s.fragEntries := by
  cases b <;> rfl
@[simp] theorem State.setBuffer_reasm (s : State) (b : BufSel) (B : SeqBuf) : (s.setBuffer b B).reasm = s.reasm := by
  cases b <;> rfl
@[simp] theorem State.setBuffer_ibuf (s : State) (b : BufSel) (B : SeqBuf) : (s.setBuffer b B).ibuf = s.ibuf := by
  cases b <;> rfl
@[simp] theorem State.setBuffer_obuf (s : State) (b : BufSel) (B : SeqBuf) : (s.setBuffer b B).obuf = s.obuf := by
  cases b <;> rfl
@[simp] theorem State.setBuffer_ebuf (s : State) (b : BufSel) (B : SeqBuf) : (s.setBuffer b B).ebuf = s.ebuf := by
  cases b <;> rfl
@[simp] theorem State.setBuffer_evt (s : State) (b : BufSel) (B : SeqBuf) : (s.setBuffer b B).evt = s.evt := by
  cases b <;> rfl
@[simp] theorem State.setBuffer_host (s : State) (b : BufSel) (B : SeqBuf) : (s.setBuffer b B).host = s.host := by
  cases b <;> rfl
@[simp] theorem State.setBuffer_readData (s : State) (b : BufSel) (B : SeqBuf) : (s.setBuffer b B).readData = s.readData := by
  cases b <;> rfl
@[simp] theorem State.setBuffer_freeCount (s : State) (b : BufSel) (B : SeqBuf) : (s.setBuffer b B).freeCount = s.freeCount := by
  cases b <;> rfl
@[simp] theorem State.buffer_setBuffer (s : State) (b : BufSel) (B : SeqBuf) : (s.setBuffer b B).buffer b = B := by
  cases b <;> rfl
theorem State.buffer_setBuffer_ne (s : State) (b c : BufSel) (B : SeqBuf) (h : c ≠ b) :
    (s.setBuffer b B).buffer c = s.buffer c := by
  cases b <;> cases c <;> first | rfl | exact absurd rfl h

end Sys2Proof.Machine
end

