-- ==== Sys2Proof/Laws/Table.lean ====
section
/-! SUPPORT. The laws of sparse tables and byte spaces: reading after writing, clearing, and the canonical form, which every
operation keeps. Reading laws hold of every table; the canonical form is only needed where equality of data is. -/

namespace Sys2Proof.Machine

/-! ### Reading -/

@[simp] theorem Table.get_nil {α : Type} (d : α) (a : Nat) : Table.get d [] a = d := rfl

theorem Table.get_insert {α : Type} (d v : α) (a b : Nat) (t : List (Nat × α)) (h : ∀ c ∈ t, c.1 ≠ a) :
    Table.get d (Table.insert a v t) b = if b = a then v else Table.get d t b := by
  induction t with
  | nil => simp [Table.insert, Table.get, eq_comm (a := a)]
  | cons c t ih =>
    have hc : c.1 ≠ a := h c (by simp)
    have ht := ih (fun x hx => h x (by simp [hx]))
    by_cases hlt : a < c.1
    · simp [Table.insert, hlt, Table.get, eq_comm (a := a)]
    · by_cases hb : c.1 = b
      · subst hb; simp [Table.insert, hlt, Table.get, hc]
      · simp [Table.insert, hlt, Table.get, hb, ht]

theorem Table.get_erase {α : Type} (d : α) (a b : Nat) (t : List (Nat × α)) :
    Table.get d (Table.erase t a) b = if b = a then d else Table.get d t b := by
  induction t with
  | nil => simp [Table.erase, Table.get]
  | cons c t ih =>
    unfold Table.erase at ih ⊢
    by_cases hc : c.1 = a
    · rw [List.filter_cons_of_neg (by simpa using hc), ih]
      by_cases hb : b = a
      · simp [hb]
      · have : ¬ c.1 = b := fun h => hb (h ▸ hc)
        simp [hb, Table.get, this]
    · rw [List.filter_cons_of_pos (by simpa using hc)]
      by_cases hb : c.1 = b
      · have : ¬ b = a := fun h => hc (hb.trans h)
        simp [Table.get, hb, this]
      · rw [Table.get, if_neg hb, ih, Table.get, if_neg hb]

theorem Table.not_mem_erase {α : Type} (t : List (Nat × α)) (a : Nat) : ∀ c ∈ Table.erase t a, c.1 ≠ a := by
  intro c hc
  simpa using (List.mem_filter.1 hc).2

/-- Reading after a write, at any index and in any table. -/
theorem Table.get_set {α : Type} [DecidableEq α] (d : α) (t : List (Nat × α)) (a b : Nat) (v : α) :
    Table.get d (Table.set d t a v) b = if b = a then v else Table.get d t b := by
  unfold Table.set
  split
  · next h => rw [Table.get_erase, h]
  · rw [Table.get_insert _ _ _ _ _ (Table.not_mem_erase t a), Table.get_erase]
    split <;> rfl

@[simp] theorem Table.get_set_same {α : Type} [DecidableEq α] (d : α) (t : List (Nat × α)) (a : Nat) (v : α) :
    Table.get d (Table.set d t a v) a = v := by simp [Table.get_set]

theorem Table.get_set_ne {α : Type} [DecidableEq α] (d : α) (t : List (Nat × α)) {a b : Nat} (v : α) (h : b ≠ a) :
    Table.get d (Table.set d t a v) b = Table.get d t b := by simp [Table.get_set, h]

theorem Table.get_clearBelow {α : Type} (d : α) (t : List (Nat × α)) (n k : Nat) :
    Table.get d (Table.clearBelow t n) k = if k < n then d else Table.get d t k := by
  induction t with
  | nil => simp [Table.clearBelow, Table.get]
  | cons c t ih =>
    simp only [Table.clearBelow] at ih ⊢
    by_cases hc : n ≤ c.1
    · rw [List.filter_cons_of_pos (by simpa using hc)]
      by_cases hb : c.1 = k
      · have : ¬ k < n := by omega
        simp [Table.get, hb, this]
      · simp [Table.get, hb, ih]
    · rw [List.filter_cons_of_neg (by simpa using hc), ih]
      by_cases hk : k < n
      · simp [hk]
      · have : ¬ c.1 = k := by omega
        simp [hk, Table.get, this]

/-! ### The canonical form -/

theorem Table.wf_nil {α : Type} [DecidableEq α] (d : α) : Table.wf d ([] : List (Nat × α)) := by simp [Table.wf]

theorem Table.wf_filter {α : Type} [DecidableEq α] {d : α} {t : List (Nat × α)} (p : Nat × α → Bool)
    (h : Table.wf d t) : Table.wf d (t.filter p) :=
  ⟨h.1.sublist List.filter_sublist, fun c hc => h.2 c (List.mem_filter.1 hc).1⟩

theorem Table.mem_insert {α : Type} {a : Nat} {v : α} {t : List (Nat × α)} {c : Nat × α} :
    c ∈ Table.insert a v t ↔ c = (a, v) ∨ c ∈ t := by
  induction t with
  | nil => simp [Table.insert]
  | cons x t ih =>
    unfold Table.insert
    split
    · simp
    · simp only [List.mem_cons, ih]
      tauto

theorem Table.wf_insert {α : Type} [DecidableEq α] {d v : α} {a : Nat} {t : List (Nat × α)} (hv : v ≠ d)
    (ht : Table.wf d t) (h : ∀ c ∈ t, c.1 ≠ a) : Table.wf d (Table.insert a v t) := by
  refine ⟨?_, fun c hc => ?_⟩
  · induction t with
    | nil => simp [Table.insert]
    | cons x t ih =>
      obtain ⟨hp, hd⟩ := ht
      rw [List.pairwise_cons] at hp
      unfold Table.insert
      split
      · next hlt =>
        refine List.pairwise_cons.2 ⟨fun c hc => ?_, List.pairwise_cons.2 hp⟩
        rcases List.mem_cons.1 hc with rfl | hc
        · exact hlt
        · exact lt_trans hlt (hp.1 c hc)
      · next hlt =>
        refine List.pairwise_cons.2 ⟨fun c hc => ?_, ih ⟨hp.2, fun c hc => hd c (by simp [hc])⟩
          (fun c hc => h c (by simp [hc]))⟩
        rcases Table.mem_insert.1 hc with rfl | hc
        · have := h x (by simp); simp only; omega
        · exact hp.1 c hc
  · rcases Table.mem_insert.1 hc with rfl | hc
    · exact hv
    · exact ht.2 c hc

/-- A write keeps the canonical form. -/
theorem Table.wf_set {α : Type} [DecidableEq α] {d : α} {t : List (Nat × α)} (a : Nat) (v : α) (h : Table.wf d t) :
    Table.wf d (Table.set d t a v) := by
  unfold Table.set
  split
  · exact Table.wf_filter _ h
  · next hv => exact Table.wf_insert hv (Table.wf_filter _ h) (Table.not_mem_erase t a)

/-- Clearing a range keeps the canonical form. -/
theorem Table.wf_clearBelow {α : Type} [DecidableEq α] {d : α} {t : List (Nat × α)} (n : Nat) (h : Table.wf d t) :
    Table.wf d (Table.clearBelow t n) := Table.wf_filter _ h

/-- What a listed entry of a written table can be. -/
theorem Table.mem_set {α : Type} [DecidableEq α] {d : α} {t : List (Nat × α)} {a : Nat} {v : α} {c : Nat × α}
    (h : c ∈ Table.set d t a v) : c = (a, v) ∨ c ∈ t := by
  unfold Table.set at h
  split at h
  · exact .inr (List.mem_filter.1 h).1
  · rcases Table.mem_insert.1 h with h | h
    · exact .inl h
    · exact .inr (List.mem_filter.1 h).1

/-- Writing inside a space lists nothing past its size. -/
theorem Table.below_set {α : Type} [DecidableEq α] {d : α} {t : List (Nat × α)} {a n : Nat} {v : α}
    (h : Table.below t n) (ha : a < n) : Table.below (Table.set d t a v) n := by
  intro c hc
  rcases Table.mem_set hc with rfl | h1
  · exact ha
  · exact h c h1

/-- A property of the default and of every listed value is one of every value read. -/
theorem Table.get_of_forall {α : Type} {P : α → Prop} {d : α} {t : List (Nat × α)} (hd : P d) (ht : ∀ c ∈ t, P c.2)
    (a : Nat) : P (Table.get d t a) := by
  induction t with
  | nil => exact hd
  | cons c t ih =>
    unfold Table.get
    split
    · exact ht c (by simp)
    · exact ih (fun x hx => ht x (by simp [hx]))

/-! ### Byte spaces -/

@[simp] theorem readByte_nil (a : Nat) : readByte [] a = 0#8 := rfl

theorem readByte_writeByte (m : Memory) (a b : Nat) (v : Byte) :
    readByte (writeByte m a v) b = if b = a then v else readByte m b := Table.get_set ..

/-- Reading one byte after writing a byte string, in any byte space. -/
theorem readByte_writeBytes (bs : List Byte) (m : Memory) (a p : Nat) :
    readByte (writeBytes m a bs) p = if a ≤ p ∧ p < a + bs.length then bs.getD (p - a) 0 else readByte m p := by
  induction bs generalizing m a with
  | nil => rw [writeBytes, if_neg (by simp)]
  | cons b bs ih =>
    rw [writeBytes, ih, readByte_writeByte]
    by_cases h1 : p = a
    · subst h1; simp
    · by_cases h2 : a + 1 ≤ p ∧ p < a + 1 + bs.length
      · have h3 : a ≤ p ∧ p < a + (b :: bs).length := by rw [List.length_cons]; omega
        have h4 : p - a = (p - (a + 1)) + 1 := by omega
        rw [if_pos h2, if_pos h3, h4, List.getD_cons_succ]
      · have h3 : ¬ (a ≤ p ∧ p < a + (b :: bs).length) := by rw [List.length_cons]; omega
        rw [if_neg h2, if_neg h3, if_neg h1]

@[simp] theorem length_readBytes (m : Memory) (a n : Nat) : (readBytes m a n).length = n := by simp [readBytes]

theorem getD_readBytes (m : Memory) (a n i : Nat) (h : i < n) : (readBytes m a n).getD i 0 = readByte m (a + i) := by
  simp [readBytes, List.getD, h]

/-- A byte space read equals a list when every byte does. -/
theorem readBytes_eq {m : Memory} {a : Nat} {l : List Byte}
    (h : ∀ i, i < l.length → readByte m (a + i) = l.getD i 0) : readBytes m a l.length = l := by
  apply List.ext_getElem (by simp)
  intro i h1 h2
  simpa [readBytes, List.getD, h2] using h i h2

/-- What was written is read back. -/
@[simp] theorem readBytes_writeBytes (m : Memory) (a : Nat) (bs : List Byte) :
    readBytes (writeBytes m a bs) a bs.length = bs := by
  apply readBytes_eq
  intro i hi
  rw [readByte_writeBytes, if_pos (by omega)]
  congr 1
  omega

theorem readBytes_congr {m m' : Memory} {a n : Nat} (h : ∀ i, i < n → readByte m (a + i) = readByte m' (a + i)) :
    readBytes m a n = readBytes m' a n := by
  apply List.map_congr_left
  intro i hi
  exact h i (List.mem_range.1 hi)

theorem readBytes_append (m : Memory) (a n k : Nat) :
    readBytes m a (n + k) = readBytes m a n ++ readBytes m (a + n) k := by
  simp [readBytes, List.range_add, Function.comp_def, Nat.add_assoc]

theorem Memory.wf_nil : Memory.wf [] := Table.wf_nil _

theorem Memory.wf_writeByte {m : Memory} (a : Nat) (b : Byte) (h : Memory.wf m) : Memory.wf (writeByte m a b) :=
  Table.wf_set a b h

theorem Memory.wf_writeBytes {m : Memory} (a : Nat) (bs : List Byte) (h : Memory.wf m) :
    Memory.wf (writeBytes m a bs) := by
  induction bs generalizing m a with
  | nil => exact h
  | cons b bs ih => exact ih _ (Memory.wf_writeByte a b h)

/-- Bytes written inside a space list nothing past its size. -/
theorem Memory.below_writeBytes (bs : List Byte) : ∀ {m : Memory} {a n : Nat},
    Table.below m n → a + bs.length ≤ n → Table.below (writeBytes m a bs) n := by
  induction bs with
  | nil => intro m a n h _; exact h
  | cons b bs ih =>
    intro m a n h ha
    rw [List.length_cons] at ha
    exact ih (Table.below_set h (by omega)) (by omega)

theorem Memory.wf_bufferStore {m : Memory} (width off : Nat) (v : U32) (h : Memory.wf m) :
    Memory.wf (bufferStore m width off v) := by
  unfold bufferStore
  split
  · exact Memory.wf_writeBytes _ _ h
  · exact Memory.wf_writeByte _ _ h

theorem Memory.wf_fragData {m : Memory} (h : FragmentHeader) (hdr : Option (List Byte)) (fs : Nat) (p : List Byte)
    (hm : Memory.wf m) : Memory.wf (fragData m h hdr fs p) := by
  unfold fragData
  cases hdr with
  | none => exact Memory.wf_writeBytes _ _ hm
  | some hh => exact Memory.wf_writeBytes _ _ (Memory.wf_writeBytes _ _ hm)

/-- The byte spaces of the reset state are in canonical form. -/
theorem reset_memory_wf : Memory.wf State.reset.ibuf ∧ Memory.wf State.reset.obuf ∧ Memory.wf State.reset.ebuf :=
  ⟨Memory.wf_nil, Memory.wf_nil, Memory.wf_nil⟩

/-! ### Slot payloads -/

theorem State.sentRecord_setSentRecord (s : State) (k j : Nat) (r : SentRecord) :
    (s.setSentRecord k r).sentRecord j = if j = k then r else s.sentRecord j := Table.get_set ..

theorem State.recvRecord_setRecvRecord (s : State) (k j : Nat) (r : RecvRecord) :
    (s.setRecvRecord k r).recvRecord j = if j = k then r else s.recvRecord j := Table.get_set ..

theorem State.fragEntry_setFragEntry (s : State) (k j : Nat) (e : FragEntry) (m : Memory) :
    (s.setFragEntry k e m).fragEntry j = if j = k then e else s.fragEntry j := Table.get_set ..

theorem State.reasmSpace_setFragEntry (s : State) (k j : Nat) (e : FragEntry) (m : Memory) :
    (s.setFragEntry k e m).reasmSpace j = if j = k then m else s.reasmSpace j := Table.get_set ..

/-- A shown event is what the host sees. -/
theorem State.shows_showEvent (s : State) (e : Event) : (s.showEvent e).shows e :=
  ⟨rfl, readBytes_writeBytes _ _ _⟩

theorem State.shows_emit (s : State) (e : Event) (p : Phase) : (s.emit e p).shows e :=
  ⟨rfl, readBytes_writeBytes _ _ _⟩

end Sys2Proof.Machine
end

