-- ==== Sys2Proof/Laws/HeaderCodec.lean ====
section
/-! SUPPORT. The pieces of the header codec: reads past a piece, one field of a header read back, and what the decoders
answer. -/

namespace Sys2Proof.Machine

@[simp] theorem length_wr16le (v : U16) : (wr16le v).length = 2 := rfl

@[simp] theorem rd8_cons_zero (x : Byte) (b : List Byte) : rd8 (x :: b) 0 = x := rfl

@[simp] theorem rd8_cons_succ (x : Byte) (b : List Byte) (p : Nat) : rd8 (x :: b) (p + 1) = rd8 b p := by
  simp [rd8]

/-- A two-byte field written little-endian is read back. -/
theorem rd16le_wr16le (pre tail : List Byte) (v : U16) : rd16le (pre ++ (wr16le v ++ tail)) pre.length = v := by
  have h0 : rd8 (pre ++ (wr16le v ++ tail)) pre.length = v.extractLsb' 0 8 := by simp [rd8, wr16le]
  have h1 : rd8 (pre ++ (wr16le v ++ tail)) (pre.length + 1) = v.extractLsb' 8 8 := by
    simp [rd8, wr16le]
  unfold rd16le
  rw [h0, h1]
  apply BitVec.eq_of_toNat_eq
  rw [toNat_append, BitVec.extractLsb'_toNat, BitVec.extractLsb'_toNat, Nat.shiftRight_eq_div_pow]
  have := v.isLt
  omega

theorem rd8_append (pre tail : List Byte) (x : Byte) : rd8 (pre ++ x :: tail) pre.length = x := by simp [rd8]

theorem rd8_readBytes (m : Memory) (n p : Nat) (h : p < n) : rd8 (readBytes m 0 n) p = readByte m p := by
  unfold rd8
  rw [getD_readBytes _ _ _ _ h, Nat.zero_add]

/-- The length of the ack field. -/
theorem length_ackField (q ack : U16) : (ackField q ack).length = if deltaSent q ack then 1 else 2 := by
  unfold ackField; split <;> rfl

/-- The length of one ack_bits byte of the stream. -/
theorem length_ackByteStream (bits : U32) (k : Nat) :
    (ackByteStream bits k).length = if ackByteSent bits k then 1 else 0 := by
  unfold ackByteStream; split <;> rfl

/-- One ack_bits byte read back at its place, present in the stream or not. -/
theorem readAckByte_append (pre tail : List Byte) (bits : U32) (k : Nat) :
    readAckByte (pre ++ (ackByteStream bits k ++ tail)) (ackByteSent bits k) pre.length =
      some (ackByte bits k, pre.length + (ackByteStream bits k).length) := by
  unfold readAckByte ackByteStream ackByteSent
  by_cases h : ackByte bits k = 0xFF#8
  · simp [h]
  · simp [h, rd8]

/-- The four bytes of ack_bits put together again. -/
theorem ackBytes_append (bits : U32) :
    ackByte bits 3 ++ (ackByte bits 2 ++ (ackByte bits 1 ++ ackByte bits 0)) = bits := by
  have h1 : (ackByte bits 1 ++ ackByte bits 0).toNat = (ackByte bits 1).toNat * 2 ^ 8 + (ackByte bits 0).toNat :=
    toNat_append _ _
  have h2 : (ackByte bits 2 ++ (ackByte bits 1 ++ ackByte bits 0)).toNat =
    (ackByte bits 2).toNat * 2 ^ (8 + 8) + (ackByte bits 1 ++ ackByte bits 0).toNat := toNat_append _ _
  have h3 : (ackByte bits 3 ++ (ackByte bits 2 ++ (ackByte bits 1 ++ ackByte bits 0))).toNat =
    (ackByte bits 3).toNat * 2 ^ (8 + (8 + 8)) + (ackByte bits 2 ++ (ackByte bits 1 ++ ackByte bits 0)).toNat :=
    toNat_append _ _
  apply BitVec.eq_of_toNat_eq
  refine h3.trans ?_
  rw [h2, h1]
  simp only [ackByte, BitVec.extractLsb'_toNat, Nat.shiftRight_eq_div_pow]
  have := bits.isLt
  omega

/-- The bits of the first byte of a header. -/
theorem headerByte_bits (q ack : U16) (bits : U32) :
    (headerByte q ack bits).getLsbD 0 = false ∧ (headerByte q ack bits).getLsbD 1 = ackByteSent bits 0 ∧
    (headerByte q ack bits).getLsbD 2 = ackByteSent bits 1 ∧ (headerByte q ack bits).getLsbD 3 = ackByteSent bits 2 ∧
    (headerByte q ack bits).getLsbD 4 = ackByteSent bits 3 ∧ (headerByte q ack bits).getLsbD 5 = deltaSent q ack := by
  unfold headerByte
  cases ackByteSent bits 0 <;> cases ackByteSent bits 1 <;> cases ackByteSent bits 2 <;> cases ackByteSent bits 3 <;>
    cases deltaSent q ack <;> decide

/-- `hdr_decode` past its first three bytes. -/
theorem hdrDecode_of_regular {b : List Byte} (h3 : 3 ≤ b.length) (h0 : (rd8 b 0).getLsbD 0 = false) :
    hdrDecode b = (match readFields b (rd8 b 0) (rd16le b 1) with | some h => .fields h | none => .short) := by
  have h1 : ¬ b.length < 1 := by omega
  have h2 : ¬ b.length < 3 := by omega
  simp only [hdrDecode, h1, h2, h0, if_false, Bool.false_eq_true]
  all_goals cases readFields b (rd8 b 0) (rd16le b 1) <;> rfl

/-- A string that decodes as a regular header starts with a byte whose bit 0 is clear. -/
theorem bit_of_hdrDecode {b : List Byte} {h : RegularHeader} (hd : hdrDecode b = .fields h) :
    3 ≤ b.length ∧ (rd8 b 0).getLsbD 0 = false := by
  unfold hdrDecode at hd
  split at hd
  · cases hd
  · split at hd
    · cases hd
    · next h0 =>
      split at hd
      · cases hd
      · next h3 => exact ⟨by omega, by simpa using h0⟩

/-- A decoded regular packet is routed as regular. -/
theorem not_isFragmentPacket {b : List Byte} {h : RegularHeader} (hd : hdrDecode b = .fields h) :
    isFragmentPacket b = false := by
  simp only [isFragmentPacket, (bit_of_hdrDecode hd).2, Bool.and_false]

/-- What `fhdr_decode` answers. -/
theorem fhdrDecode_eq_fields {b : List Byte} {h : FragmentHeader} (hd : fhdrDecode b = .fields h) :
    5 ≤ b.length ∧ rd8 b 0 = 0x01#8 ∧ h = ⟨rd16le b 1, (rd8 b 3).toNat, (rd8 b 4).toNat + 1⟩ := by
  unfold fhdrDecode at hd
  split at hd
  · cases hd
  · next h5 =>
    split at hd
    · cases hd
    · next h1 => cases hd; exact ⟨by omega, by simpa using h1, rfl⟩

/-- A decoded fragment has at least one and at most 256 parts, and a number below 256. -/
theorem FragmentHeader.bounds {b : List Byte} {h : FragmentHeader} (hd : fhdrDecode b = .fields h) :
    1 ≤ h.count ∧ h.count ≤ 256 ∧ h.id ≤ 255 := by
  obtain ⟨-, -, rfl⟩ := fhdrDecode_eq_fields hd
  have h1 := (rd8 b 3).isLt
  have h2 := (rd8 b 4).isLt
  simp only
  omega

end Sys2Proof.Machine
end

