-- ==== Sys2Proof/Laws/Num.lean ====
section
/-! SUPPORT. What a NUM operation and a NUM comparison can do, once for every format: the exact value of a word, and the
exact rule of a format other than binary64 (00_scope.md R11). -/

namespace Sys2Proof.Machine

/-- The word of zeros codes 0 in every other format. -/
@[simp] theorem otherCode_zero (id : Nat) : otherCode id 0#64 = 0#64 := by
  simp only [otherCode, Equiv.trans_apply]
  exact Equiv.swap_apply_left _ _

/-- An integer below 2^53 is the exact value of its word. -/
theorem otherExact_code (id : Nat) {k : Nat} (h : k < 2 ^ 53) :
    otherExact id (otherCode id (BitVec.ofNat 64 k)) = some (k : ℚ) := by
  have hk : (BitVec.ofNat 64 k).toNat = k := by rw [BitVec.toNat_ofNat]; omega
  simp only [otherExact, Equiv.symm_apply_apply, hk, h, if_true]

/-- Rounding an integer below 2^53 gives its word. -/
theorem otherRound_natCast (id : Nat) {k : Nat} (h : k < 2 ^ 53) :
    otherRound id (k : ℚ) = otherCode id (BitVec.ofNat 64 k) := by
  unfold otherRound
  rw [if_pos]
  · simp
  · refine ⟨Rat.den_natCast _, ?_, ?_⟩
    · simp
    · rw [Rat.num_natCast]; omega

/-- The word of zeros is +0 in every format. -/
@[simp] theorem numExact_zero (f : NumFormat) : numExact f 0#64 = some 0 := by
  cases f with
  | binary64 => decide +kernel
  | other id =>
    have h := otherExact_code id (k := 0) (by norm_num)
    rw [show BitVec.ofNat 64 0 = 0#64 from rfl, otherCode_zero] at h
    exact_mod_cast h

@[simp] theorem numFinite_zero (f : NumFormat) : numFinite f 0#64 = true := by simp [numFinite]

/-- A word is finite exactly when it has an exact value. -/
theorem numFinite_iff {f : NumFormat} {a : NumWord} : numFinite f a = true ↔ ∃ x, numExact f a = some x :=
  Option.isSome_iff_exists

theorem numExact_binary64 {a : NumWord} (h : b64Finite a = true) :
    numExact .binary64 a = some (mkRat (b64Value a) (2 ^ 1074)) :=
  if_pos h

theorem numFinite_binary64 (a : NumWord) : numFinite .binary64 a = b64Finite a := by
  cases h : b64Finite a with
  | true => exact numFinite_iff.2 ⟨_, numExact_binary64 h⟩
  | false =>
    have : numExact .binary64 a = none := if_neg (by simp [h])
    simp [numFinite, this]

/-- An operation of another format on finite operands is the exact result rounded once. -/
theorem numOp_other {id : Nat} {op : NumOp} {a b : NumWord} {x y z : ℚ} (ha : numExact (.other id) a = some x)
    (hb : numExact (.other id) b = some y) (hz : numOpExact op x y = some z) :
    numOp (.other id) op a b = otherRound id z := by
  simp only [numOp, ha, hb, hz]

/-- A finite word is no NaN, and a NaN is no finite word. -/
theorem numIsNan_of_finite {f : NumFormat} {a : NumWord} (h : numFinite f a = true) : numIsNan f a = false := by
  cases f with
  | binary64 =>
    rw [numFinite_binary64] at h
    simp only [b64Finite, ne_eq, decide_not, Bool.not_eq_true', decide_eq_false_iff_not] at h
    simp [numIsNan, b64IsNan, h]
  | other id =>
    obtain ⟨x, hx⟩ := numFinite_iff.1 h
    have hx : otherExact id a = some x := hx
    simp [numIsNan, hx]

/-- A comparison in another format is of the exact values. -/
theorem numCompare_other {id : Nat} {c : NumCompare} {a b : NumWord} {x y : ℚ} (ha : numExact (.other id) a = some x)
    (hb : numExact (.other id) b = some y) : numCompare (.other id) c a b = numHolds c x y := by
  simp only [numCompare, ha, hb]

end Sys2Proof.Machine
end

