-- ==== Sys2Proof/Laws/SeqBuffer.lean ====
section
/-! SUPPORT. The comparator on numbers, and what each SequenceBuffer operation does to every slot. -/

namespace Sys2Proof.Machine

/-- The comparator on numbers, in the form arithmetic reasons about. -/
theorem gt16_iff (a b : U16) : gt16 a b = true ↔
    (b.toNat < a.toNat ∧ a.toNat - b.toNat ≤ 32768) ∨ (a.toNat < b.toNat ∧ 32768 < b.toNat - a.toNat) := by
  have ha := a.isLt
  have hb := b.isLt
  simp only [gt16, Bool.or_eq_true, Bool.and_eq_true, decide_eq_true_eq, BitVec.lt_def, BitVec.le_def,
    BitVec.toNat_sub, BitVec.toNat_ofNat]
  constructor
  · rintro (⟨h1, h2⟩ | ⟨h1, h2⟩)
    · left; omega
    · right; omega
  · rintro (⟨h1, h2⟩ | ⟨h1, h2⟩)
    · left; omega
    · right; omega

theorem gt16_eq_false_iff (a b : U16) : gt16 a b = false ↔
    ¬ ((b.toNat < a.toNat ∧ a.toNat - b.toNat ≤ 32768) ∨ (a.toNat < b.toNat ∧ 32768 < b.toNat - a.toNat)) := by
  rw [← gt16_iff, Bool.not_eq_true]

@[simp] theorem gt16_self (a : U16) : gt16 a a = false := by rw [gt16_eq_false_iff]; omega

theorem SeqBuf.tag_setTag (B : SeqBuf) (k j : Nat) (t : Option U16) :
    (B.setTag k t).tag j = if j = k then t else B.tag j := Table.get_set ..

@[simp] theorem SeqBuf.setTag_n (B : SeqBuf) (k : Nat) (t : Option U16) : (B.setTag k t).n = B.n := rfl
@[simp] theorem SeqBuf.setTag_s (B : SeqBuf) (k : Nat) (t : Option U16) : (B.setTag k t).s = B.s := rfl
@[simp] theorem sbEvict_n (B : SeqBuf) (k : Nat) : (sbEvict B k).n = B.n := rfl
@[simp] theorem sbEvict_s (B : SeqBuf) (k : Nat) : (sbEvict B k).s = B.s := rfl
@[simp] theorem sbEvictAll_n (B : SeqBuf) : (sbEvictAll B).n = B.n := rfl
@[simp] theorem sbEvictAll_s (B : SeqBuf) : (sbEvictAll B).s = B.s := rfl
@[simp] theorem sbReset_n (B : SeqBuf) : (sbReset B).n = B.n := rfl
@[simp] theorem sbReset_s (B : SeqBuf) : (sbReset B).s = 0 := rfl

theorem SeqBuf.slot_congr {A B : SeqBuf} (h : A.n = B.n) (q : U16) : A.slot q = B.slot q := by
  simp [SeqBuf.slot, h]

theorem SeqBuf.slot_lt (B : SeqBuf) (q : U16) (h : 0 < B.n.toNat) : B.slot q < B.n.toNat := Nat.mod_lt _ h

theorem sbEvict_tag (B : SeqBuf) (k j : Nat) : (sbEvict B k).tag j = if j = k then none else B.tag j :=
  B.tag_setTag ..

theorem sbEvictAll_tag (B : SeqBuf) (j : Nat) :
    (sbEvictAll B).tag j = if j < B.n.toNat then none else B.tag j := Table.get_clearBelow ..

theorem sbReset_tag (B : SeqBuf) (j : Nat) : (sbReset B).tag j = if j < B.n.toNat then none else B.tag j :=
  Table.get_clearBelow ..

@[simp] theorem sbEvictRange_n (B : SeqBuf) (q : U16) (c : Nat) : (sbEvictRange B q c).n = B.n := by
  induction c with
  | zero => rfl
  | succ c ih => simpa [sbEvictRange] using ih

@[simp] theorem sbEvictRange_s (B : SeqBuf) (q : U16) (c : Nat) : (sbEvictRange B q c).s = B.s := by
  induction c with
  | zero => rfl
  | succ c ih => simpa [sbEvictRange] using ih

/-- Evicting a range empties exactly the positions of its sequences. -/
theorem sbEvictRange_tag (B : SeqBuf) (q : U16) (c j : Nat) :
    (sbEvictRange B q c).tag j = if ∃ i, i < c ∧ B.slot (q + BitVec.ofNat 16 i) = j then none else B.tag j := by
  induction c with
  | zero => simp [sbEvictRange]
  | succ c ih =>
    rw [sbEvictRange, sbEvict_tag, ih]
    by_cases h : j = B.slot (q + BitVec.ofNat 16 c)
    · rw [if_pos h, if_pos ⟨c, by omega, h.symm⟩]
    · rw [if_neg h]
      by_cases h2 : ∃ i, i < c ∧ B.slot (q + BitVec.ofNat 16 i) = j
      · rw [if_pos h2, if_pos]
        obtain ⟨i, hi, he⟩ := h2
        exact ⟨i, by omega, he⟩
      · rw [if_neg h2, if_neg]
        rintro ⟨i, hi, he⟩
        rcases Nat.lt_succ_iff_lt_or_eq.1 hi with hi | rfl
        · exact h2 ⟨i, hi, he⟩
        · exact h he.symm

@[simp] theorem sbSweep_n (B : SeqBuf) (p q : U16) : (sbSweep B p q).n = B.n := by
  unfold sbSweep; simp only; split <;> simp

@[simp] theorem sbAdvance_n (B : SeqBuf) (q : U16) : (sbAdvance B q).n = B.n := by
  unfold sbAdvance; split <;> simp

theorem sbAdvance_s (B : SeqBuf) (q : U16) : (sbAdvance B q).s = if gt16 (q + 1) B.s then q + 1 else B.s := by
  unfold sbAdvance; split <;> rfl

/-- The slots an advance to `q` empties. -/
theorem sbAdvance_tag (B : SeqBuf) (q : U16) (j : Nat) :
    (sbAdvance B q).tag j =
      if gt16 (q + 1) B.s = true ∧
        (if B.n.toNat ≤ (q - B.s).toNat + 1 then j < B.n.toNat
          else ∃ i, i < (q - B.s).toNat + 1 ∧ B.slot (B.s + BitVec.ofNat 16 i) = j)
      then none else B.tag j := by
  unfold sbAdvance
  by_cases h : gt16 (q + 1) B.s = true
  · rw [if_pos h]
    show (sbSweep B B.s q).tag j = _
    unfold sbSweep
    by_cases hc : B.n.toNat ≤ (q - B.s).toNat + 1
    · simp only [hc, if_true, h, true_and, sbEvictAll_tag]
    · simp only [hc, if_false, h, true_and, sbEvictRange_tag]
  · rw [if_neg h, if_neg (fun x => h x.1)]

/-- A slot that an advance leaves tagged was tagged so before and was not swept. -/
theorem sbAdvance_tag_eq_some {B : SeqBuf} {q p : U16} {j : Nat} (h : (sbAdvance B q).tag j = some p) :
    B.tag j = some p ∧ (gt16 (q + 1) B.s = true →
      ¬ (if B.n.toNat ≤ (q - B.s).toNat + 1 then j < B.n.toNat
        else ∃ i, i < (q - B.s).toNat + 1 ∧ B.slot (B.s + BitVec.ofNat 16 i) = j)) := by
  rw [sbAdvance_tag] at h
  by_cases hc : gt16 (q + 1) B.s = true ∧
      (if B.n.toNat ≤ (q - B.s).toNat + 1 then j < B.n.toNat
        else ∃ i, i < (q - B.s).toNat + 1 ∧ B.slot (B.s + BitVec.ofNat 16 i) = j)
  · rw [if_pos hc] at h; cases h
  · rw [if_neg hc] at h; exact ⟨h, fun hg hs => hc ⟨hg, hs⟩⟩

/-- Everything `sb_insert` can do. -/
theorem sbInsert_eq_some {B B' : SeqBuf} {q : U16} {k : Nat} (h : sbInsert B q = some (B', k)) :
    sbStale B q = false ∧ k = B.slot q ∧ B'.n = B.n ∧ B'.s = (if gt16 (q + 1) B.s then q + 1 else B.s) ∧
      B'.tag k = some q ∧ (∀ j, j ≠ k → B'.tag j = (sbAdvance B q).tag j) ∧ B' = (sbAdvance B q).setTag k (some q) := by
  unfold sbInsert at h
  split at h
  · cases h
  · next hs =>
    simp only [Option.some.injEq, Prod.mk.injEq] at h
    obtain ⟨rfl, rfl⟩ := h
    refine ⟨by simpa using hs, rfl, by simp, by simp [sbAdvance_s], ?_, ?_, rfl⟩
    · simp [SeqBuf.tag_setTag]
    · intro j hj; simp [SeqBuf.tag_setTag, hj]

theorem sbInsert_of_not_stale {B : SeqBuf} {q : U16} (h : sbStale B q = false) :
    sbInsert B q = some ((sbAdvance B q).setTag (B.slot q) (some q), B.slot q) := by simp [sbInsert, h]

theorem sbInsert_of_stale {B : SeqBuf} {q : U16} (h : sbStale B q = true) : sbInsert B q = none := by
  simp [sbInsert, h]

theorem sbFind_eq_some {B : SeqBuf} {q : U16} {k : Nat} :
    sbFind B q = some k ↔ k = B.slot q ∧ B.tag k = some q := by
  unfold sbFind
  constructor
  · intro h
    split at h
    · next ht => cases h; exact ⟨rfl, ht⟩
    · cases h
  · rintro ⟨rfl, h⟩; simp [h]

theorem sbFind_eq_none {B : SeqBuf} {q : U16} : sbFind B q = none ↔ B.tag (B.slot q) ≠ some q := by
  unfold sbFind; split <;> simp_all

/-- Removal empties the sequence's slot when it holds exactly the sequence, and does nothing otherwise. -/
theorem sbRemoved_cases (B : SeqBuf) (q : U16) :
    (B.tag (B.slot q) = some q ∧ sbRemoved B q = sbEvict B (B.slot q)) ∨
    (B.tag (B.slot q) ≠ some q ∧ sbRemoved B q = B) := by
  unfold sbRemoved sbRemove
  by_cases h : B.tag (B.slot q) = some q
  · left; simp [h]
  · right; simp [h]

@[simp] theorem sbRemoved_n (B : SeqBuf) (q : U16) : (sbRemoved B q).n = B.n := by
  rcases sbRemoved_cases B q with ⟨_, h⟩ | ⟨_, h⟩ <;> rw [h]; rfl

@[simp] theorem sbRemoved_s (B : SeqBuf) (q : U16) : (sbRemoved B q).s = B.s := by
  rcases sbRemoved_cases B q with ⟨_, h⟩ | ⟨_, h⟩ <;> rw [h]; rfl

theorem sbRemoved_tag (B : SeqBuf) (q : U16) (j : Nat) :
    (sbRemoved B q).tag j = if j = B.slot q ∧ B.tag j = some q then none else B.tag j := by
  rcases sbRemoved_cases B q with ⟨h, he⟩ | ⟨h, he⟩ <;> rw [he]
  · rw [sbEvict_tag]
    by_cases hj : j = B.slot q
    · subst hj; simp [h]
    · simp [hj]
  · rw [if_neg]
    rintro ⟨rfl, h2⟩
    exact h h2

/-! ### The canonical form of the tags -/

theorem SeqBuf.wf_setTag {B : SeqBuf} (k : Nat) (t : Option U16) (h : Table.wf none B.tags) :
    Table.wf none (B.setTag k t).tags := Table.wf_set k t h

theorem sbEvictAll_wf {B : SeqBuf} (h : Table.wf none B.tags) : Table.wf none (sbEvictAll B).tags :=
  Table.wf_clearBelow _ h

theorem sbReset_wf {B : SeqBuf} (h : Table.wf none B.tags) : Table.wf none (sbReset B).tags :=
  Table.wf_clearBelow _ h

theorem sbEvictRange_wf {B : SeqBuf} (q : U16) (c : Nat) (h : Table.wf none B.tags) :
    Table.wf none (sbEvictRange B q c).tags := by
  induction c with
  | zero => exact h
  | succ c ih => exact SeqBuf.wf_setTag _ _ ih

theorem sbAdvance_wf {B : SeqBuf} (q : U16) (h : Table.wf none B.tags) : Table.wf none (sbAdvance B q).tags := by
  unfold sbAdvance
  split
  · show Table.wf none (sbSweep B B.s q).tags
    unfold sbSweep
    simp only
    split
    · exact sbEvictAll_wf h
    · exact sbEvictRange_wf _ _ h
  · exact h

theorem sbInsert_wf {B B' : SeqBuf} {q : U16} {k : Nat} (h : Table.wf none B.tags) (hi : sbInsert B q = some (B', k)) :
    Table.wf none B'.tags := by
  rw [(sbInsert_eq_some hi).2.2.2.2.2.2]
  exact SeqBuf.wf_setTag _ _ (sbAdvance_wf q h)

theorem sbRemoved_wf {B : SeqBuf} (q : U16) (h : Table.wf none B.tags) : Table.wf none (sbRemoved B q).tags := by
  rcases sbRemoved_cases B q with ⟨_, he⟩ | ⟨_, he⟩ <;> rw [he]
  · exact SeqBuf.wf_setTag _ _ h
  · exact h

end Sys2Proof.Machine
end

