-- ==== Sys2Proof/Laws/Step.lean ====
section
/-! SUPPORT. Everything one step can do, said once: a later proof about `step` takes the cases of `step_cases` and never
unfolds the host interface. -/

namespace Sys2Proof.Machine

/-! ### The register region -/

/-- A listed register is reached by an aligned 32-bit access. -/
theorem reachRegister_of_lookup (p : Params) {a : Nat} {r : HostReg} (h : registerMap.lookup a = some r)
    (ha : a % 4 = 0) (hlt : a < acksBase) : reachRegister p 4 a = .ok r := by
  have : ¬ acksBase ≤ a := by omega
  simp [reachRegister, registerAt, ha, this, h]

theorem inRegisterRegion_of_lt {a : Nat} (h : a < acksBase) : inRegisterRegion a = true := by
  unfold acksBase at h
  simp [inRegisterRegion]; omega

/-- A write of a listed register. -/
theorem hostWrite_register (s : State) (v : U32) {a : Nat} {r : HostReg} (h : registerMap.lookup a = some r)
    (ha : a % 4 = 0) (hlt : a < acksBase) (hs : s.insideStep = false ∨ isTrigger r = true) :
    hostWrite 4 a v s = writeReg r v s := by
  unfold hostWrite
  rw [inRegisterRegion_of_lt hlt, if_pos rfl, reachRegister_of_lookup s.params h ha hlt]
  rcases hs with hs | hs <;> simp [hs]

/-- A read of a listed register. -/
theorem hostRead_register (s : State) {a : Nat} {r : HostReg} (h : registerMap.lookup a = some r)
    (ha : a % 4 = 0) (hlt : a < acksBase) (hs : s.insideStep = false) :
    hostRead 4 a s =
      (match s.readReg r with
        | none => .fault .writeOnly
        | some v => .next (s.answerRead v)) := by
  unfold hostRead
  simp only [hs, Bool.false_eq_true, if_false, inRegisterRegion_of_lt hlt, if_true,
    reachRegister_of_lookup s.params h ha hlt]
  all_goals cases s.readReg r <;> rfl

/-- A write of CMD issues a command. -/
theorem hostWrite_cmd (s : State) (w : U32) : hostWrite 4 0 w s = issue w s :=
  hostWrite_register s w (r := .cmd) rfl rfl (by decide) (.inr rfl)

/-- A write of EVT_DONE ends an event. -/
theorem hostWrite_evtDone (s : State) (v : U32) : hostWrite 4 0x194 v s = writeEvtDone v s :=
  hostWrite_register s v (r := .evtDone) (by decide) rfl (by decide) (.inr rfl)

/-- CMD stands at address 0 and nowhere else. -/
theorem lookup_eq_cmd {a : Nat} (h : registerMap.lookup a = some .cmd) : a = 0 := by
  have hm := List.lookup_eq_some_iff.1 h
  obtain ⟨l₁, l₂, he, -⟩ := hm
  have hx : (a, HostReg.cmd) ∈ registerMap := by rw [he]; simp
  have hall : ∀ x ∈ registerMap, x.2 = HostReg.cmd → x.1 = 0 := by decide
  exact hall _ hx rfl

/-- EVT_DONE stands at address 0x194 and nowhere else. -/
theorem lookup_eq_evtDone {a : Nat} (h : registerMap.lookup a = some .evtDone) : a = 0x194 := by
  have hm := List.lookup_eq_some_iff.1 h
  obtain ⟨l₁, l₂, he, -⟩ := hm
  have hx : (a, HostReg.evtDone) ∈ registerMap := by rw [he]; simp
  have hall : ∀ x ∈ registerMap, x.2 = HostReg.evtDone → x.1 = 0x194 := by decide
  exact hall _ hx rfl

theorem reachRegister_eq_ok {p : Params} {width a : Nat} {r : HostReg} (h : reachRegister p width a = .ok r) :
    width = 4 ∧ a % 4 = 0 ∧ registerAt p a = some r := by
  unfold reachRegister at h
  split at h
  · cases h
  · next hw =>
    split at h
    · cases h
    · next ha =>
      split at h
      · cases h
      · next r' hr => cases h; exact ⟨by simpa using hw, by simpa using ha, hr⟩

theorem registerAt_eq_cmd {p : Params} {a : Nat} (h : registerAt p a = some .cmd) : a = 0 := by
  unfold registerAt at h
  split at h
  · split at h <;> cases h
  · exact lookup_eq_cmd h

theorem registerAt_eq_evtDone {p : Params} {a : Nat} (h : registerAt p a = some .evtDone) : a = 0x194 := by
  unfold registerAt at h
  split at h
  · split at h <;> cases h
  · exact lookup_eq_evtDone h

/-! ### One step -/

/-- What a step does, by the host access it performs; `s0` is the state without that access in the queue. -/
inductive StepCase (s s0 t : State) (x : HostAccess) : Prop where
  /-- A read. -/
  | read (v : U32) (hx : ∃ width a, x = .read width a) (ht : t = s0.answerRead v)
  /-- A write of an operand register. -/
  | operand (a0 a1 a2 : U32) (num : NumWord) (ht : t = { s0 with arg0 := a0, arg1 := a1, arg2 := a2, numin := num })
  /-- A write of a configuration register. -/
  | config (c : CfgRegs) (ht : t = s0.writeCfg c)
  /-- A write of IBUF. -/
  | input (width off : Nat) (a v : U32) (hx : x = .write width a v) (hlo : 0x100000 ≤ a.toNat)
      (hhi : a.toNat < 0x100000 + s0.params.ibufBytes)
      (hfit : s0.params.wf → off + (if width = 4 then 4 else 1) ≤ s0.params.ibufBytes)
      (ht : t = { s0 with ibuf := bufferStore s0.ibuf width off v })
  /-- A write of CMD. -/
  | command (w : U32) (hx : x = .write 4 0 w) (hm : s0.mayIssue = true) (ht : runWord w s0 = .next t)
  /-- A write of EVT_DONE. -/
  | answer (v : U32) (hx : x = .write 4 0x194 v) (hc : s0.inCallback = true) (ht : resume v s0 = .next t)

theorem writeReg_cases {s0 t s : State} {r : HostReg} {width : Nat} {a v : U32}
    (hr : reachRegister s0.params width a.toNat = .ok r) (h : writeReg r v s0 = .next t) :
    StepCase s s0 t (.write width a v) := by
  obtain ⟨rfl, -, hat⟩ := reachRegister_eq_ok hr
  cases r with
  | cmd =>
    have ha : a = 0 := BitVec.eq_of_toNat_eq (registerAt_eq_cmd hat)
    simp only [writeReg, issue] at h
    split at h
    · next hm => exact .command v (by rw [ha]) hm h
    · split at h <;> cases h
  | evtDone =>
    have ha : a = 0x194 := BitVec.eq_of_toNat_eq (registerAt_eq_evtDone hat)
    simp only [writeReg, writeEvtDone] at h
    split at h
    · next hc => exact .answer v (by rw [ha]) hc h
    · cases h
  | arg0 => cases h; exact .operand v s0.arg1 s0.arg2 s0.numin rfl
  | arg1 => cases h; exact .operand s0.arg0 v s0.arg2 s0.numin rfl
  | arg2 => cases h; exact .operand s0.arg0 s0.arg1 v s0.numin rfl
  | numin hf => cases h; exact .operand s0.arg0 s0.arg1 s0.arg2 _ rfl
  | cfg f => cases h; exact .config _ rfl
  | cfgNum f hf => cases h; exact .config _ rfl
  | _ => cases h

theorem bufferAt_eq_ibuf {p : Params} {a off : Nat} (h : bufferAt p a = some (.ibuf, off)) :
    ibufBase ≤ a ∧ a < ibufBase + p.ibufBytes := by
  unfold bufferAt at h
  split at h
  · assumption
  · split at h
    · cases h
    · split at h <;> cases h

theorem reachBuffer_eq_ok {p : Params} {width a off : Nat} {b : HostBuffer} (h : reachBuffer p width a = .ok (b, off)) :
    bufferAt p a = some (b, off) := by
  unfold reachBuffer at h
  split at h
  · cases h
  · split at h
    · cases h
    · split at h
      · next hb _ => rw [hb]; injection h with h; rw [h]
      · cases h

/-- A mapped buffer address is in one of the three windows. -/
theorem bufferAt_eq_some {p : Params} {a : Nat} {x : HostBuffer × Nat} (h : bufferAt p a = some x) :
    (ibufBase ≤ a ∧ a < ibufBase + p.ibufBytes) ∨ (obufBase ≤ a ∧ a < obufBase + p.obufBytes) ∨ ebufBase ≤ a := by
  unfold bufferAt at h
  split at h
  · next h1 => exact Or.inl h1
  · split at h
    · next h1 => exact Or.inr (Or.inl h1)
    · split at h
      · next h1 => exact Or.inr (Or.inr h1.1)
      · cases h

theorem bufferAt_ibuf_offset {p : Params} {a off : Nat} (h : bufferAt p a = some (.ibuf, off)) : off = a - ibufBase := by
  unfold bufferAt at h
  split at h
  · exact (Prod.mk.inj (Option.some.inj h)).2.symm
  · split at h
    · cases h
    · split at h <;> cases h

/-- An access that reaches IBUF stays inside it: the window is followed by unmapped addresses. -/
theorem reachBuffer_ibuf_fits {p : Params} {width a off : Nat} (h : reachBuffer p width a = .ok (.ibuf, off))
    (hp : p.wf) : off + (if width = 4 then 4 else 1) ≤ p.ibufBytes := by
  obtain ⟨-, -, -, -, -, hi, -⟩ := hp
  have hb := reachBuffer_eq_ok h
  have h0 := bufferAt_eq_ibuf hb
  have ho := bufferAt_ibuf_offset hb
  have hlast : ∃ y, bufferAt p (a + width - 1) = some y := by
    unfold reachBuffer at h
    split at h
    · cases h
    · split at h
      · cases h
      · split at h
        · next y _ hl => exact ⟨_, hl⟩
        · cases h
  obtain ⟨y, hy⟩ := hlast
  have h3 := bufferAt_eq_some hy
  have e1 : ibufBase = 0x100000 := rfl
  have e2 : obufBase = 0x200000 := rfl
  have e3 : ebufBase = 0x300000 := rfl
  split <;> omega

/-- Everything a step can do: nothing when the host has queued nothing, else one host access. -/
theorem step_cases {s t : State} (h : step s = .next t) :
    (s.host = [] ∧ t = s) ∨
      ∃ (x : HostAccess) (rest : List HostAccess), s.host = x :: rest ∧ StepCase s { s with host := rest } t x := by
  unfold step runNext at h
  split at h
  · next hh => cases h; exact .inl ⟨hh, rfl⟩
  · next x rest hh =>
    refine .inr ⟨x, rest, hh, ?_⟩
    generalize hs0 : ({ s with host := rest } : State) = s0 at h ⊢
    cases x with
    | read width a =>
      simp only [hostAccess, hostRead] at h
      split at h
      · cases h
      · split at h
        · split at h
          · cases h
          · split at h
            · cases h
            · cases h; exact .read _ ⟨_, _, rfl⟩ rfl
        · split at h
          · cases h
          · cases h; exact .read _ ⟨_, _, rfl⟩ rfl
    | write width a v =>
      simp only [hostAccess, hostWrite] at h
      split at h
      · split at h
        · split at h <;> cases h
        · next r hr =>
          split at h
          · cases h
          · exact writeReg_cases hr h
      · split at h
        · cases h
        · split at h
          · cases h
          · next off hb =>
            cases h
            have := bufferAt_eq_ibuf (reachBuffer_eq_ok hb)
            exact .input width off a v rfl this.1 this.2 (reachBuffer_ibuf_fits hb) rfl
          · cases h

/-- A resumed command continues from the innermost entry of the stack. -/
theorem resume_eq_next {v : U32} {s t : State} (h : resume v s = .next t) :
    ∃ f rest, s.stack = f :: rest ∧ t = (s.endEvent f rest).continueCommand f.phase (v.getLsbD 0) := by
  unfold resume at h
  split at h
  · cases h
  · next f rest hs => cases h; exact ⟨f, rest, hs, rfl⟩

/-- A command word runs its command, or ends with ILLEGAL. -/
theorem runWord_eq_next {w : U32} {s t : State} (h : runWord w s = .next t) :
    (∃ i, decode w = .ok i ∧ exec i s = .next t) ∨ ((∀ i, decode w ≠ .ok i) ∧ t = s.finish .illegal) := by
  unfold runWord at h
  split at h
  · next i hi => exact .inl ⟨i, hi, h⟩
  · next e he => cases h; exact .inr ⟨by simp [he], rfl⟩

end Sys2Proof.Machine
end

