-- ==== Sys2Proof/Laws/Updates.lean ====
section
/-! SUPPORT. What every command is made of: a chain of the updates named here, and at most one host event at its end. An
invariant of the machine is proved once per update (`Updates.preserves`) and never by unfolding a command. -/

namespace Sys2Proof.Machine

/-- A byte string no longer than the packet rebuilt from some tagged reassembly (43_reassembler.md R167). -/
def State.rebuilds (s : State) (b : List Byte) : Prop :=
  ∃ k q, s.frag.tag k = some q ∧ b.length ≤ (s.fragEntry k).headerBytes.toNat + (s.fragEntry k).packetBytes.toNat

/-- What a command writes to OBUF: a header or a rebuilt packet (42_header_codec.md R141, R145; 43_reassembler.md R168). -/
def State.builds (s : State) (out : List Byte) : Prop := out.length ≤ 9 ∨ s.rebuilds out

/-- The byte string of an event: a header and bytes of IBUF, headers and one fragment part, or a rebuilt packet
(45_endpoint.md R195, R196, R201). -/
def State.raises (s : State) (e : Event) : Prop :=
  e.bytes.length ≤ 9 + s.params.ibufBytes ∨ e.bytes.length ≤ 14 + s.cfg.fragmentSize.toNat ∨ s.rebuilds e.bytes

/-- The updates of the state that the commands are made of, each with what the command has checked before it. -/
inductive Update : State → State → Prop where
  | finish (s : State) (c : ResultCode) : Update s (s.finish c)
  | results (s : State) (a b c d : U32) (x : NumWord) :
      Update s { s with res0 := a, res1 := b, res2 := c, res3 := d, resn := x }
  | count (s : State) (id : CounterId) : Update s (s.count id)
  | stats (s : State) (st : Stats) : Update s { s with stats := st }
  | output (s : State) (out : List Byte) (ho : s.builds out) : Update s (s.writeObuf out)
  | sentInsert (s : State) (q : U16) (B : SeqBuf) (k : Nat) (size : U32) (n : Nat)
      (h : sbInsert s.sent q = some (B, k)) :
      Update s ({ s with sent := B, freeCount := n }.setSentRecord k ⟨s.time, false, size⟩)
  | recvInsert (s : State) (q : U16) (B : SeqBuf) (k : Nat) (size : U32) (n : Nat)
      (h : sbInsert s.recv q = some (B, k)) :
      Update s ({ s with recv := B, freeCount := n }.setRecvRecord k ⟨s.time, size⟩)
  | remove (s : State) (b : BufSel) (q : U16) : Update s (s.setBuffer b (sbRemoved (s.buffer b) q))
  | reset (s : State) (b : BufSel) : Update s (s.setBuffer b (sbReset (s.buffer b)))
  | allocate (s : State) (q : U16) : Update s { s with sequence := q }
  | ackClear (s : State) : Update s { s with ackCount := 0 }
  | ackRecord (s : State) (q : U16) (k : Nat) (hf : sbFind s.sent q = some k)
      (ha : (s.sentRecord k).acked = false) (hn : s.ackCount < s.cfg.ackBufferSize) : Update s (s.recordAck q k)
  | create (s : State) (hc : s.configured = false) (hv : s.cfg.valid s.params) : Update s s.created
  | clear (s : State) : Update s { s with counters := Counters.zero, stats := Stats.zero, time := 0 }
  | setTime (s : State) (x : NumWord) (hx : numFinite s.params.num x = true) : Update s { s with time := x }
  | fragCreate (s : State) (h : FragmentHeader) (B : SeqBuf) (k : Nat) (hi : sbInsert s.frag h.seq = some (B, k))
      (h1 : 1 ≤ h.count) (h2 : h.count ≤ s.cfg.maxFragments.toNat) (h3 : h.count ≤ 256) :
      Update s ({ s with frag := B }.setFragEntry k (FragEntry.fresh h) [])
  | fragStore (s : State) (h : FragmentHeader) (k : Nat) (hdr : Option (List Byte)) (payload : List Byte)
      (hf : s.frag.tag k = some h.seq) (ht : (s.fragEntry k).numTotal.toNat = h.count)
      (hr : (s.fragEntry k).received.getLsbD h.id = false) (hid : h.id < h.count) (h3 : h.count ≤ 256)
      (hle : payload.length ≤ s.cfg.fragmentSize.toNat)
      (hsz : h.id = h.count - 1 ∨ payload.length = s.cfg.fragmentSize.toNat)
      (hn : h.id ≠ 0 → hdr = none) (hs : h.id = 0 → ∃ hh, hdr = some hh ∧ 4 ≤ hh.length ∧ hh.length ≤ 9) :
      Update s (s.setFragEntry k
        ((s.fragEntry k).store h (hdr.map List.length) s.cfg.fragmentSize.toNat payload.length)
        (fragData (s.reasmSpace k) h hdr s.cfg.fragmentSize.toNat payload))

/-- A chain of updates. -/
inductive Updates : State → State → Prop where
  | refl (s : State) : Updates s s
  | tail {s t u : State} (h : Updates s t) (hu : Update t u) : Updates s u

theorem Update.single {s t : State} (h : Update s t) : Updates s t := .tail (.refl s) h

theorem Updates.trans {s t u : State} (h : Updates s t) (h' : Updates t u) : Updates s u := by
  induction h' with
  | refl => exact h
  | tail _ hu ih => exact .tail ih hu

/-- A property that every update keeps is kept by every chain. -/
theorem Updates.preserves {P : State → Prop} {s t : State} (h : Updates s t)
    (hP : ∀ a b, Update a b → P a → P b) (hs : P s) : P t := by
  induction h with
  | refl => exact hs
  | tail _ hu ih => exact hP _ _ hu ih

/-- What no update changes. -/
theorem Update.frame {s t : State} (h : Update s t) :
    t.params = s.params ∧ t.arg0 = s.arg0 ∧ t.arg1 = s.arg1 ∧ t.arg2 = s.arg2 ∧ t.numin = s.numin ∧
    t.inCallback = s.inCallback ∧ t.stack = s.stack ∧ t.cfg = s.cfg ∧ t.ibuf = s.ibuf ∧ t.ebuf = s.ebuf ∧
    t.evt = s.evt ∧ t.host = s.host ∧ t.readData = s.readData ∧ (s.configured = true → t.configured = true) := by
  cases h with
  | remove b q => cases b <;> simp [State.setBuffer]
  | reset b => cases b <;> simp [State.setBuffer]
  | ackRecord q k => simp [State.recordAck]
  | create hc hv => simp [State.created]
  | _ => simp

theorem Updates.frame {s t : State} (h : Updates s t) :
    t.params = s.params ∧ t.arg0 = s.arg0 ∧ t.arg1 = s.arg1 ∧ t.arg2 = s.arg2 ∧ t.numin = s.numin ∧
    t.inCallback = s.inCallback ∧ t.stack = s.stack ∧ t.cfg = s.cfg ∧ t.ibuf = s.ibuf ∧ t.ebuf = s.ebuf ∧
    t.evt = s.evt ∧ t.host = s.host ∧ t.readData = s.readData ∧ (s.configured = true → t.configured = true) := by
  induction h with
  | refl => simp
  | tail _ hu ih =>
    obtain ⟨a1, a2, a3, a4, a5, a6, a7, a8, a9, a10, a11, a12, a13, a14⟩ := ih
    obtain ⟨b1, b2, b3, b4, b5, b6, b7, b8, b9, b10, b11, b12, b13, b14⟩ := hu.frame
    exact ⟨b1.trans a1, b2.trans a2, b3.trans a3, b4.trans a4, b5.trans a5, b6.trans a6, b7.trans a7, b8.trans a8,
      b9.trans a9, b10.trans a10, b11.trans a11, b12.trans a12, b13.trans a13, fun h => b14 (a14 h)⟩

/-! ### The shared operations as chains -/

theorem updates_finish (s : State) (c : ResultCode) : Updates s (s.finish c) := (Update.finish s c).single

theorem Updates.finish {s t : State} (h : Updates s t) (c : ResultCode) : Updates s (t.finish c) :=
  .tail h (.finish t c)

theorem Updates.count {s t : State} (h : Updates s t) (id : CounterId) : Updates s (t.count id) :=
  .tail h (.count t id)

theorem Updates.res0 {s t : State} (h : Updates s t) (v : U32) : Updates s { t with res0 := v } :=
  .tail h (.results t v t.res1 t.res2 t.res3 t.resn)

theorem Updates.res3 {s t : State} (h : Updates s t) (v : U32) : Updates s { t with res3 := v } :=
  .tail h (.results t t.res0 t.res1 t.res2 v t.resn)

theorem Updates.dropReassembly {s t : State} (h : Updates s t) (q : U16) : Updates s (t.dropReassembly q) :=
  .tail h (.remove t .frag q)

theorem Updates.endReceive {s t : State} (h : Updates s t) (rebuilt : Option U16) (c : ResultCode) :
    Updates s (t.endReceive rebuilt c) := by
  cases rebuilt with
  | none => exact h.finish c
  | some q => exact ((h.dropReassembly q).res3 c.toWord).finish .fragComplete

theorem updates_recordSend (s : State) (q : U16) (n : Nat) : Updates s (s.recordSend q n) := by
  unfold State.recordSend
  split
  · exact .refl s
  · next B k h => exact (Update.sentInsert s q B k _ _ h).single

theorem updates_recordReceive (s : State) (q : U16) (n : Nat) : Updates s (s.recordReceive q n) := by
  unfold State.recordReceive
  split
  · exact .refl s
  · next B k h => exact (Update.recvInsert s q B k _ _ h).single

theorem updates_ackOne (s : State) (q : U16) : Updates s (s.ackOne q) := by
  unfold State.ackOne
  split
  · exact .refl s
  · next k h =>
    split
    · next hc => exact (Update.ackRecord s q k h hc.1 hc.2).single
    · exact .refl s

theorem updates_ackWalk (s : State) (ack : U16) (bits : U32) (i : Nat) : Updates s (s.ackWalk ack bits i) := by
  induction i with
  | zero => exact .refl s
  | succ i ih =>
    unfold State.ackWalk
    simp only
    split
    · exact ih.trans (updates_ackOne _ _)
    · exact ih

theorem updates_answered (s : State) (q ack : U16) (bits : U32) (n : Nat) (rebuilt : Option U16) (acc : Bool) :
    Updates s (s.answered q ack bits n rebuilt acc) := by
  unfold State.answered
  split
  · exact ((updates_recordReceive s q n).trans (updates_ackWalk _ ack bits 32)).endReceive rebuilt .ok
  · exact (Updates.refl s).endReceive rebuilt .appRejected

theorem updates_allocate (s : State) (n : Nat) : Updates s (s.allocate n) :=
  (((Update.allocate s (s.sequence + 1)).single).trans (updates_recordSend _ _ n)).count .packetsSent

theorem updates_finishSend (s : State) (q : U16) : Updates s (s.finishSend q) := ((Updates.refl s).res0 _).finish .ok

theorem updates_reportFragment (s : State) (h : FragmentHeader) : Updates s (s.reportFragment h) :=
  (Update.results s (word h.seq) (BitVec.ofNat 32 h.id) (BitVec.ofNat 32 h.count) s.res3 s.resn).single

theorem updates_stats (s : State) (st : Stats) : Updates s { s with stats := st } := (Update.stats s st).single

theorem updates_statUpdate (s : State) : Updates s s.statUpdate :=
  (updates_stats s s.lossUpdate.stats).trans (updates_stats s.lossUpdate s.statUpdate.stats)

/-- The length of an encoded regular header. -/
theorem length_hdrEncode_bounds (q ack : U16) (bits : U32) :
    4 ≤ (hdrEncode q ack bits).length ∧ (hdrEncode q ack bits).length ≤ 9 := by
  simp only [hdrEncode, List.length_cons, List.length_append, length_wr16le, length_ackField, length_ackByteStream]
  split <;> split <;> split <;> split <;> split <;> omega

theorem updates_fragStore (s : State) (h : FragmentHeader) (emb : Option RegularHeader) (payload : List Byte) (k : Nat)
    (hf : s.frag.tag k = some h.seq) (ht : (s.fragEntry k).numTotal.toNat = h.count) (hid : h.id < h.count)
    (h3 : h.count ≤ 256) (hle : payload.length ≤ s.cfg.fragmentSize.toNat)
    (hsz : h.id = h.count - 1 ∨ payload.length = s.cfg.fragmentSize.toNat) (hemb : emb.isSome = decide (h.id = 0)) :
    Updates s (fragStore h emb payload k s).2 := by
  unfold fragStore
  split
  · exact .refl s
  · next hr =>
    have hn : h.id ≠ 0 → fragHeaderBytes h emb = none := by
      intro h0
      cases emb with
      | none => rfl
      | some e => simp [h0] at hemb
    have hs : h.id = 0 → ∃ hh, fragHeaderBytes h emb = some hh ∧ 4 ≤ hh.length ∧ hh.length ≤ 9 := by
      intro h0
      cases emb with
      | none => simp [h0] at hemb
      | some e => exact ⟨_, rfl, length_hdrEncode_bounds _ _ _⟩
    have hu := Update.fragStore (s.count .fragmentsReceived) h k (fragHeaderBytes h emb) payload hf ht
      (show (s.fragEntry k).received.getLsbD h.id = false by simpa using hr) hid h3 hle hsz hn hs
    have := Updates.tail ((Updates.refl s).count .fragmentsReceived) hu
    simp only
    split <;> exact this

/-- What a first fragment finds or makes: a slot tagged with its sequence and an entry of its count. -/
theorem fragSlot_eq_ok {h : FragmentHeader} {s t : State} {k : Nat} (hs : fragSlot h s = .ok (k, t))
    (h1 : 1 ≤ h.count) (h2 : h.count ≤ s.cfg.maxFragments.toNat) (h3 : h.count ≤ 256) :
    Updates s t ∧ t.frag.tag k = some h.seq ∧ (t.fragEntry k).numTotal.toNat = h.count := by
  unfold fragSlot at hs
  split at hs
  · next k' hk =>
    split at hs
    · cases hs
    · next hc =>
      cases hs
      have := sbFind_eq_some.1 hk
      exact ⟨.refl s, this.2, by simpa using hc⟩
  · split at hs
    · cases hs
    · next B k' hi =>
      cases hs
      refine ⟨(Update.fragCreate s h B k hi h1 h2 h3).single, (sbInsert_eq_some hi).2.2.2.2.1, ?_⟩
      rw [State.fragEntry_setFragEntry, if_pos rfl]
      simp [FragEntry.fresh]
      omega

theorem fragEmbedded_eq_ok {b : List Byte} {h : FragmentHeader} {emb : Option RegularHeader} {off : Nat}
    (he : fragEmbedded b h = .ok (emb, off)) : emb.isSome = decide (h.id = 0) := by
  unfold fragEmbedded at he
  split at he
  · next h0 =>
    split at he
    · cases he
    · cases he
    · split at he
      · cases he
      · cases he; simp [h0]
  · next h0 => cases he; simp [h0]

theorem updates_fragAccept (b : List Byte) (h : FragmentHeader) (s : State) (h1 : 1 ≤ h.count) (h3 : h.count ≤ 256) :
    Updates s (fragAccept b h s).2 := by
  have hbad : ∀ c, Updates s (fragInvalid c s).2 := fun c => (Updates.refl s).count .fragmentsInvalid
  unfold fragAccept
  split
  · exact hbad _
  · next hmf =>
    split
    · exact hbad _
    · next hid =>
      split
      · exact hbad _
      · next emb off he =>
        simp only
        split
        · exact hbad _
        · next htb =>
          split
          · exact hbad _
          · next hbs =>
            split
            · exact hbad _
            · next k t hs =>
              obtain ⟨hu, hf, ht⟩ := fragSlot_eq_ok hs h1 (by omega) h3
              have hcfg := hu.frame.2.2.2.2.2.2.2.1
              refine hu.trans (updates_fragStore t h emb _ k hf ht (by omega) h3 ?_ ?_ (fragEmbedded_eq_ok he))
              · rw [hcfg]; omega
              · rw [hcfg]
                by_cases hl : h.id = h.count - 1
                · exact .inl hl
                · right
                  by_contra hx
                  exact hbs ⟨hl, hx⟩

/-- A completion leaves its packet in a tagged slot. -/
theorem fragStore_complete {h : FragmentHeader} {emb : Option RegularHeader} {payload pkt : List Byte} {k : Nat}
    {s t : State} {q : U16} (hk : s.frag.tag k = some h.seq)
    (he : fragStore h emb payload k s = (.complete q pkt, t)) : t.rebuilds pkt := by
  unfold fragStore at he
  split at he
  · cases he
  · simp only at he
    split at he
    · cases he
      refine ⟨k, h.seq, hk, ?_⟩
      rw [State.fragEntry_setFragEntry, if_pos rfl, rebuiltPacket, length_readBytes]
    · cases he

theorem fragCore_complete {b pkt : List Byte} {s t : State} {q : U16} (he : fragCore b s = (.complete q pkt, t)) :
    t.rebuilds pkt := by
  unfold fragCore at he
  split at he
  · cases he
  · cases he
  · next h hd =>
    have hb := FragmentHeader.bounds hd
    unfold fragAccept at he
    split at he
    · cases he
    · next hmf =>
      split at he
      · cases he
      · split at he
        · cases he
        · simp only at he
          split at he
          · cases he
          · split at he
            · cases he
            · split at he
              · cases he
              · next k u hs =>
                exact fragStore_complete (fragSlot_eq_ok hs hb.1 (by omega) hb.2.1).2.1 he

theorem updates_fragCore (b : List Byte) (s : State) : Updates s (fragCore b s).2 := by
  unfold fragCore
  split
  · exact (Updates.refl s).count .fragmentsInvalid
  · exact (Updates.refl s).count .fragmentsInvalid
  · next h hd =>
    have := FragmentHeader.bounds hd
    exact (updates_reportFragment s h).trans (updates_fragAccept b h _ this.1 this.2.1)

/-! ### The commands -/

/-- How a run of updates ends: completed, or suspended at a host event. -/
def Ends (s t : State) : Prop := Updates s t ∨ ∃ u e p, Updates s u ∧ u.raises e ∧ t = State.emit u e p

theorem Ends.of {s t u : State} (h : Updates s t) (h' : Ends t u) : Ends s u := by
  rcases h' with h' | ⟨v, e, p, h', he, rfl⟩
  · exact .inl (h.trans h')
  · exact .inr ⟨v, e, p, h.trans h', he, rfl⟩

/-- A fragment packet is a fragment header, at most one regular header, and one part of the payload. -/
theorem length_fragment_le (fs : Nat) (q : U16) (hdr payload : List Byte) (j total : Nat) (hh : hdr.length ≤ 9) :
    (fhdrEncode q j total ++ (hdr ++ fragmentPart fs payload j)).length ≤ 14 + fs := by
  simp only [fhdrEncode, wr16le, fragmentPart, List.length_append, List.length_cons, List.length_nil, List.length_take]
  omega

theorem ends_sendFragment (s : State) (q : U16) (hdr payload : List Byte) (j total : Nat) (hh : hdr.length ≤ 9) :
    Ends s (s.sendFragment q hdr payload j total) :=
  .inr ⟨_, _, _, (Updates.refl s).count .fragmentsSent, .inr (.inl (length_fragment_le _ q hdr payload j total hh)), rfl⟩

theorem ends_transmit (s : State) (q : U16) (hdr payload : List Byte) (hh : hdr.length ≤ 9)
    (hp : payload.length ≤ s.params.ibufBytes) : Ends s (s.transmit q hdr payload) := by
  unfold State.transmit
  split
  · exact .inr ⟨s, _, _, .refl s, .inl (by rw [List.length_append]; omega), rfl⟩
  · simp only
    split
    · exact .inl (updates_finishSend s q)
    · exact ends_sendFragment _ _ _ _ _ _ hh

theorem ends_regularPath (s : State) (b : List Byte) (rebuilt : Option U16)
    (hb : b.length ≤ s.params.ibufBytes ∨ s.rebuilds b) : Ends s (s.regularPath b rebuilt) := by
  have hc : Updates s (s.count .packetsReceived) := (Updates.refl s).count .packetsReceived
  unfold State.regularPath
  simp only
  split
  · exact .inl ((hc.count .packetsInvalid).endReceive rebuilt .decodeShort)
  · exact .inl ((hc.count .packetsInvalid).endReceive rebuilt .decodeMarker)
  · split
    · exact .inl (((hc.res0 _).count .packetsStale).endReceive rebuilt .stale)
    · refine .inr ⟨_, _, _, hc.res0 _, ?_, rfl⟩
      rcases hb with hb | ⟨k, q, hk, hb⟩
      · exact .inl (List.length_drop ▸ (Nat.sub_le _ _).trans (hb.trans (Nat.le_add_left _ _)))
      · exact .inr (.inr ⟨k, q, hk, List.length_drop ▸ (Nat.sub_le _ _).trans hb⟩)

theorem ends_checkSize (s : State) (b : List Byte) (rebuilt : Option U16) (run : State → State) (h : Ends s (run s)) :
    Ends s (s.checkSize b rebuilt run) := by
  unfold State.checkSize
  split
  · exact .inl (((Updates.refl s).count .packetsTooLargeToReceive).endReceive rebuilt .tooLargeToReceive)
  · exact h

theorem ends_fragmentPath (s : State) (b : List Byte) : Ends s (s.fragmentPath b) := by
  have hu := updates_fragCore b s
  unfold State.fragmentPath
  split
  · next c t he => rw [he] at hu; exact .inl (hu.finish c)
  · next q pkt t he =>
    have hb := fragCore_complete he
    rw [he] at hu
    exact .of hu (ends_checkSize _ _ _ _ (ends_regularPath _ _ _ (.inr hb)))

theorem ends_gated (s : State) (run : State → State) (h : Ends s (run s)) : Ends s (s.gated run) := by
  unfold State.gated
  split
  · exact h
  · exact .inl (updates_finish s _)

theorem length_of_latchInput {s : State} {b : List Byte} (h : s.latchInput = some b) : b.length ≤ s.params.ibufBytes := by
  unfold State.latchInput at h
  split at h
  · next hn => injection h with h; rw [← h, length_readBytes]; exact hn
  · cases h

theorem ends_withInput (s : State) (run : List Byte → State → State)
    (h : ∀ b : List Byte, b.length ≤ s.params.ibufBytes → Ends s (run b s)) : Ends s (s.withInput run) := by
  unfold State.withInput
  split
  · next b hb => exact h b (length_of_latchInput hb)
  · exact .inl (updates_finish s _)

/-- Every command is a chain of updates with at most one host event at its end; it never faults. -/
theorem exec_ends (i : Instr) (s : State) : ∃ t, exec i s = .next t ∧ Ends s t := by
  cases i with
  | seqGt a => exact ⟨_, rfl, .inl (((Updates.refl s).res0 _).finish .ok)⟩
  | seqLt a => exact ⟨_, rfl, .inl (((Updates.refl s).res0 _).finish .ok)⟩
  | seqInc n => exact ⟨_, rfl, .inl (((Updates.refl s).res0 _).finish .ok)⟩
  | sbInsert b q =>
    refine ⟨_, rfl, ?_⟩
    cases b with
    | frag => exact .inl (updates_finish s _)
    | sent =>
      refine ends_gated s _ ?_
      unfold runSbInsert
      split
      · exact .inl (updates_finish s _)
      · next B k h => exact .inl ((((Update.sentInsert s q B k s.arg2 s.freeCount h).single).res0 _).finish .ok)
    | recv =>
      refine ends_gated s _ ?_
      unfold runSbInsert
      split
      · exact .inl (updates_finish s _)
      · next B k h => exact .inl ((((Update.recvInsert s q B k s.arg2 s.freeCount h).single).res0 _).finish .ok)
  | sbFind b q =>
    refine ⟨_, rfl, ends_gated s _ ?_⟩
    unfold runSbFind
    split
    · exact .inl (updates_finish s _)
    · next k h =>
      refine .inl (Updates.finish ?_ .ok)
      cases b <;> exact (Update.results s _ _ _ _ _).single
  | sbRemove b q =>
    refine ⟨_, rfl, ends_gated s _ ?_⟩
    unfold runSbRemove
    split
    · exact .inl (updates_finish s _)
    · next B h =>
      have hB : B = sbRemoved (s.buffer b) q := by unfold sbRemoved; rw [h]; rfl
      rw [hB]
      exact .inl ((Update.remove s b q).single.finish .ok)
  | sbTestInsert b q => exact ⟨_, rfl, ends_gated s _ (.inl (((Updates.refl s).res0 _).finish .ok))⟩
  | sbGenack b =>
    exact ⟨_, rfl, ends_gated s _ (.inl ((Update.results s _ _ s.res2 s.res3 s.resn).single.finish .ok))⟩
  | sbReset b => exact ⟨_, rfl, ends_gated s _ (.inl ((Update.reset s b).single.finish .ok))⟩
  | hdrEnc q =>
    exact ⟨_, rfl, .inl (((Update.output s _ (.inl (length_hdrEncode_bounds _ _ _).2)).single.res0 _).finish .ok)⟩
  | hdrDec =>
    refine ⟨_, rfl, ends_withInput s _ fun b _ => ?_⟩
    unfold runHdrDec
    split
    · exact .inl (updates_finish s _)
    · exact .inl (updates_finish s _)
    · exact .inl ((Update.results s _ _ _ _ s.resn).single.finish .ok)
  | fhdrEnc q =>
    refine ⟨_, rfl, ?_⟩
    split
    · exact .inl (((Update.output s _ (.inl (by simp [fhdrEncode]))).single.res0 _).finish .ok)
    · exact .inl (updates_finish s _)
  | fhdrDec =>
    refine ⟨_, rfl, ends_withInput s _ fun b _ => ?_⟩
    unfold runFhdrDec
    split
    · exact .inl (updates_finish s _)
    · exact .inl (updates_finish s _)
    · exact .inl ((updates_reportFragment s _).finish .ok)
  | fragRx =>
    refine ⟨_, rfl, ends_gated s _ (ends_withInput s _ fun b _ => ?_)⟩
    have hu := updates_fragCore b s
    unfold runFragRx
    split
    · next c t he => rw [he] at hu; exact .inl (hu.finish c)
    · next q pkt t he =>
      have hb := fragCore_complete he
      rw [he] at hu
      exact .inl ((((Updates.tail hu (.output t pkt (.inr hb))).res3 _).dropReassembly q).finish .fragComplete)
  | statSmooth =>
    refine ⟨_, rfl, ends_gated s _ ?_⟩
    unfold runStatSmooth
    split
    · split
      · exact .inl ((updates_stats s _).finish .ok)
      · exact .inl (updates_finish s _)
    · exact .inl (updates_finish s _)
  | rttFold =>
    refine ⟨_, rfl, ends_gated s _ ?_⟩
    unfold runRttFold
    split
    · exact .inl ((updates_stats s _).finish .ok)
    · exact .inl (updates_finish s _)
  | statUpdate => exact ⟨_, rfl, ends_gated s _ (.inl ((updates_statUpdate s).finish .ok))⟩
  | epCreate =>
    refine ⟨_, rfl, ?_⟩
    split
    · exact .inl (updates_finish s _)
    · next hc =>
      split
      · next hv => exact .inl ((Update.create s (by simpa using hc) hv).single.finish .ok)
      · exact .inl (updates_finish s _)
  | epSend =>
    refine ⟨_, rfl, ends_gated s _ (ends_withInput s _ fun b hb => ?_)⟩
    unfold runEpSend
    split
    · exact .inl (((Updates.refl s).count .packetsTooLargeToSend).finish .tooLargeToSend)
    · have hu := updates_allocate s b.length
      exact .of hu (ends_transmit _ _ _ _ (length_hdrEncode_bounds _ _ _).2 (by rw [hu.frame.1]; exact hb))
  | epReceive =>
    refine ⟨_, rfl, ends_gated s _ (ends_withInput s _ fun b hb => ends_checkSize s b none _ ?_)⟩
    split
    · exact ends_fragmentPath s b
    · exact ends_regularPath s b none (.inl hb)
  | epUpdate =>
    refine ⟨_, rfl, ends_gated s _ ?_⟩
    unfold runEpUpdate
    split
    · next hf => exact .inl (((Update.setTime s s.numin hf).single.trans (updates_statUpdate _)).finish .ok)
    · exact .inl (updates_finish s _)
  | epReset =>
    refine ⟨_, rfl, ends_gated s _ (.inl (Updates.finish ?_ .ok))⟩
    have h : Updates s { s with
        sequence := 0, ackCount := 0, sent := sbReset s.sent, recv := sbReset s.recv, frag := sbReset s.frag } :=
      .tail (.tail (.tail (.tail (.tail (.refl s) (.allocate s 0)) (.ackClear _)) (.reset _ .sent)) (.reset _ .recv))
        (.reset _ .frag)
    unfold State.clearStats
    split
    · exact .tail h (.clear _)
    · exact h
  | epAckClear => exact ⟨_, rfl, ends_gated s _ (.inl ((Update.ackClear s).single.finish .ok))⟩

/-- A suspended command that is continued: it completes, and the enclosing event is shown, or it raises its next event. -/
theorem continueCommand_cases (s : State) (p : Phase) (acc : Bool) :
    ∃ u, Updates s u ∧ (s.continueCommand p acc = u.restoreEnclosing ∨
      ∃ e p', u.raises e ∧ s.continueCommand p acc = State.emit u e p') := by
  cases p with
  | sendRegular q => exact ⟨_, updates_finishSend s q, .inl rfl⟩
  | sendFragments q payload next total =>
    unfold State.continueCommand
    simp only
    split
    · exact ⟨_, (Updates.refl s).count .fragmentsSent,
        .inr ⟨_, _, .inr (.inl (length_fragment_le _ _ [] _ _ _ (Nat.zero_le 9))), rfl⟩⟩
    · exact ⟨_, updates_finishSend s q, .inl rfl⟩
  | deliver q ack bits n rebuilt => exact ⟨_, updates_answered s q ack bits n rebuilt acc, .inl rfl⟩

end Sys2Proof.Machine
end

