-- ==== Sys2Proof/Laws/Operands.lean ====
section
/-! SUPPORT. The gates that come before a command's own checks, each in the form a proof rewrites with, and the induction
that every invariant of the machine is an instance of. -/

namespace Sys2Proof.Machine

theorem State.gated_of_configured {s : State} (h : s.configured = true) (run : State → State) : s.gated run = run s :=
  if_pos h

theorem State.gated_of_unconfigured {s : State} (h : s.configured = false) (run : State → State) :
    s.gated run = s.finish .notConfigured := by
  unfold State.gated
  rw [h]
  rfl

theorem State.withInput_of_le {s : State} (h : s.arg2.toNat ≤ s.params.ibufBytes) (run : List Byte → State → State) :
    s.withInput run = run (readBytes s.ibuf 0 s.arg2.toNat) s := by
  unfold State.withInput State.latchInput
  rw [if_pos h]

theorem State.withInput_of_lt {s : State} (h : s.params.ibufBytes < s.arg2.toNat) (run : List Byte → State → State) :
    s.withInput run = s.finish .badLength := by
  unfold State.withInput State.latchInput
  rw [if_neg (by omega)]

theorem State.checkSize_of_le {s : State} {b : List Byte} (h : b.length ≤ s.cfg.maxPacketSize.toNat)
    (rebuilt : Option U16) (run : State → State) : s.checkSize b rebuilt run = run s := if_neg (by omega)

theorem State.checkSize_of_lt {s : State} {b : List Byte} (h : s.cfg.maxPacketSize.toNat < b.length)
    (rebuilt : Option U16) (run : State → State) :
    s.checkSize b rebuilt run = (s.count .packetsTooLargeToReceive).endReceive rebuilt .tooLargeToReceive := if_pos h

theorem mayIssue_of_idle {s : State} (h : s.stack = []) : s.mayIssue = true := by
  simp [State.mayIssue, State.depth, h]

/-- A property that host reads and writes, every update, and the begin and end of a host event keep is kept by every
step. -/
theorem step_preserves (P : State → Prop)
    (hread : ∀ s h v, P s → P { s with host := h, readData := v })
    (hoperand : ∀ s a0 a1 a2 n, P s → P { s with arg0 := a0, arg1 := a1, arg2 := a2, numin := n })
    (hconfig : ∀ s c, s.configured = false → P s → P { s with cfg := c })
    (hinput : ∀ s width off v, (s.params.wf → off + (if width = 4 then 4 else 1) ≤ s.params.ibufBytes) →
      P s → P { s with ibuf := bufferStore s.ibuf width off v })
    (hupdate : ∀ s t, Update s t → P s → P t)
    (hemit : ∀ s e p, s.raises e → P s → P (s.emit e p))
    (hend : ∀ s f rest, s.stack = f :: rest → P s → P (s.endEvent f rest))
    (hrestore : ∀ s, P s → P s.restoreEnclosing)
    {s t : State} (hs : P s) (h : step s = .next t) : P t := by
  rcases step_cases h with ⟨_, rfl⟩ | ⟨x, rest, hh, hc⟩
  · exact hs
  have h0 : P { s with host := rest } := hread s rest s.readData hs
  cases hc with
  | read v hx ht => subst ht; exact hread s rest v hs
  | operand a0 a1 a2 num ht => subst ht; exact hoperand _ a0 a1 a2 num h0
  | config c ht =>
    subst ht
    unfold State.writeCfg
    split
    · exact h0
    · next hcf => exact hconfig _ c (by simpa using hcf) h0
  | input width off a v hx hlo hhi hfit ht => subst ht; exact hinput _ width off v hfit h0
  | command w hx hm ht =>
    rcases runWord_eq_next ht with ⟨i, -, hi⟩ | ⟨-, rfl⟩
    · obtain ⟨t', he, hen⟩ := exec_ends i { s with host := rest }
      rw [he] at hi
      cases hi
      rcases hen with hu | ⟨u, e, p, hu, hr, rfl⟩
      · exact hu.preserves hupdate h0
      · exact hemit _ _ _ hr (hu.preserves hupdate h0)
    · exact hupdate _ _ (.finish _ _) h0
  | answer v hx hcb ht =>
    obtain ⟨f, r, hst, rfl⟩ := resume_eq_next ht
    have h1 := hend _ f r hst h0
    obtain ⟨u, hu, hcc | ⟨e, p', he, hcc⟩⟩ :=
      continueCommand_cases (State.endEvent { s with host := rest } f r) f.phase (v.getLsbD 0)
    · rw [hcc]; exact hrestore _ (hu.preserves hupdate h1)
    · rw [hcc]; exact hemit _ _ _ he (hu.preserves hupdate h1)

end Sys2Proof.Machine
end

