-- ==== Sys2Proof/Laws/PerInstr.lean ====
section
/-! SUPPORT. One lemma per command: the word its encoder gives belongs to the command's own row of spec/opcode_table.json
(the row's mask and match). -/

namespace Sys2Proof

/-- The OPC and RSV fields of a command word. -/
theorem commandWord_and_opc (imm : U16) (buf : BitVec 2) (opc : Byte) :
    commandWord imm buf opc &&& 0x0000FCFF#32 = commandWord 0 0 opc := by
  have h : (0x0000FCFF#32 : U32) = (0#16 ++ (0x3F#6 ++ (0#2 ++ 0xFF#8)) : BitVec 32) := by decide
  rw [h]
  unfold commandWord
  rw [BitVec.and_append, BitVec.and_append, BitVec.and_append]
  simp only [BitVec.and_zero, BitVec.zero_and]
  rw [show opc &&& 0xFF#8 = opc from BitVec.and_allOnes]
  rfl

/-- The OPC, BUF and RSV fields of a command word. -/
theorem commandWord_and_bufOpc (imm : U16) (buf : BitVec 2) (opc : Byte) :
    commandWord imm buf opc &&& 0x0000FFFF#32 = commandWord 0 buf opc := by
  have h : (0x0000FFFF#32 : U32) = (0#16 ++ (0x3F#6 ++ (3#2 ++ 0xFF#8)) : BitVec 32) := by decide
  rw [h]
  unfold commandWord
  rw [BitVec.and_append, BitVec.and_append, BitVec.and_append]
  simp only [BitVec.and_zero, BitVec.zero_and]
  rw [show opc &&& 0xFF#8 = opc from BitVec.and_allOnes, show buf &&& 3#2 = buf from BitVec.and_allOnes]
  rfl

end Sys2Proof

namespace Sys2Proof.Laws

/-- A well-formed command's word carries its row's pattern under the row's mask. -/
def OpcodeRow.Statement (i : Instr) : Prop := i.wellFormed = true → encode i &&& (opcodeRow i).mask = (opcodeRow i).pattern

theorem OpcodeRow.seqGt (a : U16) : OpcodeRow.Statement (.seqGt a) := fun _ => by
  simp only [encode, opcodeRow, commandWord_and_bufOpc]
  decide

theorem OpcodeRow.seqLt (a : U16) : OpcodeRow.Statement (.seqLt a) := fun _ => by
  simp only [encode, opcodeRow, commandWord_and_bufOpc]
  decide

theorem OpcodeRow.seqInc (n : U16) : OpcodeRow.Statement (.seqInc n) := fun _ => by
  simp only [encode, opcodeRow, commandWord_and_bufOpc]
  decide

theorem OpcodeRow.sbInsert (b : BufSel) (q : U16) : OpcodeRow.Statement (.sbInsert b q) := fun _ => by
  simp only [encode, opcodeRow, commandWord_and_opc]
  decide

theorem OpcodeRow.sbFind (b : BufSel) (q : U16) : OpcodeRow.Statement (.sbFind b q) := fun _ => by
  simp only [encode, opcodeRow, commandWord_and_opc]
  decide

theorem OpcodeRow.sbRemove (b : BufSel) (q : U16) : OpcodeRow.Statement (.sbRemove b q) := fun _ => by
  simp only [encode, opcodeRow, commandWord_and_opc]
  decide

theorem OpcodeRow.sbTestInsert (b : BufSel) (q : U16) : OpcodeRow.Statement (.sbTestInsert b q) := fun _ => by
  simp only [encode, opcodeRow, commandWord_and_opc]
  decide

theorem OpcodeRow.sbGenack (b : BufSel) : OpcodeRow.Statement (.sbGenack b) := fun _ => by
  cases b <;> decide

theorem OpcodeRow.sbReset (b : BufSel) : OpcodeRow.Statement (.sbReset b) := fun _ => by
  cases b <;> decide

theorem OpcodeRow.hdrEnc (q : U16) : OpcodeRow.Statement (.hdrEnc q) := fun _ => by
  simp only [encode, opcodeRow, commandWord_and_bufOpc]
  decide

theorem OpcodeRow.hdrDec : OpcodeRow.Statement .hdrDec := fun _ => by decide

theorem OpcodeRow.fhdrEnc (q : U16) : OpcodeRow.Statement (.fhdrEnc q) := fun _ => by
  simp only [encode, opcodeRow, commandWord_and_bufOpc]
  decide

theorem OpcodeRow.fhdrDec : OpcodeRow.Statement .fhdrDec := fun _ => by decide

theorem OpcodeRow.fragRx : OpcodeRow.Statement .fragRx := fun _ => by decide

theorem OpcodeRow.statSmooth : OpcodeRow.Statement .statSmooth := fun _ => by decide

theorem OpcodeRow.rttFold : OpcodeRow.Statement .rttFold := fun _ => by decide

theorem OpcodeRow.statUpdate : OpcodeRow.Statement .statUpdate := fun _ => by decide

theorem OpcodeRow.epCreate : OpcodeRow.Statement .epCreate := fun _ => by decide

theorem OpcodeRow.epSend : OpcodeRow.Statement .epSend := fun _ => by decide

theorem OpcodeRow.epReceive : OpcodeRow.Statement .epReceive := fun _ => by decide

theorem OpcodeRow.epUpdate : OpcodeRow.Statement .epUpdate := fun _ => by decide

theorem OpcodeRow.epReset : OpcodeRow.Statement .epReset := fun _ => by decide

theorem OpcodeRow.epAckClear : OpcodeRow.Statement .epAckClear := fun _ => by decide

end Sys2Proof.Laws
end

