-- ==== Sys2Proof/Laws/Rounding.lean ====
section
/-! SUPPORT. Rounding to binary64 on natural numbers: a magnitude is a strictly increasing function of the low 63 bits of its
word, and `b64Round` gives the nearest one, ties to even, with its overflow bound. -/

namespace Sys2Proof.Machine

/-- The low 63 bits: the exponent and the fraction field together. -/
def b64Low (a : NumWord) : Nat := (a.extractLsb' 0 63).toNat

/-- The magnitude, in units of 2^-1074, that low 63 bits `x` stand for. -/
def b64MagOf (x : Nat) : Nat := (if x / 2^52 = 0 then x % 2^52 else 2^52 + x % 2^52) * 2 ^ (x / 2^52 - 1)

theorem b64Low_lt (a : NumWord) : b64Low a < 2^63 := (a.extractLsb' 0 63).isLt

/-- The exponent and the fraction fields are the quotient and the remainder of the low 63 bits. -/
theorem b64Exp_eq (a : NumWord) : b64Exp a = b64Low a / 2^52 := by
  unfold b64Exp b64Low
  simp only [BitVec.extractLsb'_toNat, Nat.shiftRight_eq_div_pow]
  omega

theorem b64Frac_eq (a : NumWord) : b64Frac a = b64Low a % 2^52 := by
  unfold b64Frac b64Low
  simp only [BitVec.extractLsb'_toNat, Nat.shiftRight_eq_div_pow]
  omega

/-- A magnitude is a function of the low 63 bits. -/
theorem b64Mag_eq (a : NumWord) : b64Mag a = b64MagOf (b64Low a) := by
  unfold b64Mag b64Sig b64Scale b64MagOf
  rw [b64Exp_eq, b64Frac_eq]

/-- The finite words are those whose low 63 bits stay below the first infinity. -/
theorem b64Finite_iff (a : NumWord) : b64Finite a = true ↔ b64Low a < 2047 * 2^52 := by
  unfold b64Finite
  rw [b64Exp_eq]
  have := b64Low_lt a
  simp
  omega

theorem b64Low_pack (s : Bool) (L : Nat) (h : L < 2^63) : b64Low (b64Pack s L) = L := by
  unfold b64Low b64Pack
  simp only [BitVec.extractLsb'_toNat, Nat.shiftRight_eq_div_pow, BitVec.toNat_ofNat]
  cases s <;> simp <;> omega

theorem b64Sign_pack (s : Bool) (L : Nat) (h : L < 2^63) : b64Sign (b64Pack s L) = s := by
  unfold b64Sign b64Pack
  rw [BitVec.getLsbD_ofNat]
  simp only [Nat.reduceLT, decide_true, Bool.true_and]
  rw [Nat.testBit_eq_decide_div_mod_eq]
  cases s <;> simp <;> omega

theorem getLsbD_zero_pack (s : Bool) (L : Nat) : (b64Pack s L).getLsbD 0 = decide (L % 2 = 1) := by
  unfold b64Pack
  rw [BitVec.getLsbD_ofNat, Nat.testBit_zero]
  cases s <;> simp
  all_goals omega

/-- A larger low word is a larger magnitude. -/
theorem b64MagOf_strictMono {L L' : Nat} (h : L < L') : b64MagOf L < b64MagOf L' := by
  unfold b64MagOf
  have hL := Nat.div_add_mod L (2^52)
  have hL' := Nat.div_add_mod L' (2^52)
  have f1 := Nat.mod_lt L (show 0 < 2^52 by decide)
  have f2 := Nat.mod_lt L' (show 0 < 2^52 by decide)
  generalize he : L / 2^52 = e at *
  generalize he' : L' / 2^52 = e' at *
  generalize L % 2^52 = f at *
  generalize L' % 2^52 = f' at *
  by_cases hee : e = e'
  · subst hee
    refine Nat.mul_lt_mul_of_pos_right ?_ (Nat.pos_of_ne_zero (by positivity))
    split <;> omega
  · have hlt : e < e' := by omega
    rw [if_neg (show ¬ e' = 0 by omega)]
    by_cases h0 : e = 0
    · rw [if_pos h0, h0]
      have : 1 ≤ 2 ^ (e' - 1) := Nat.one_le_two_pow
      simp only [Nat.zero_sub, pow_zero, Nat.mul_one]
      nlinarith
    · rw [if_neg h0]
      obtain ⟨j, hj⟩ : ∃ j, e' - 1 = (e - 1) + 1 + j := ⟨e' - 1 - (e - 1) - 1, by omega⟩
      rw [hj, pow_add, pow_add]
      have h1 : 1 ≤ 2 ^ j := Nat.one_le_two_pow
      have h2 : 1 ≤ 2 ^ (e-1) := Nat.one_le_two_pow
      calc (2^52 + f) * 2^(e-1) < (2^52 + 2^52) * 2^(e-1) := Nat.mul_lt_mul_of_pos_right (by omega) (by omega)
        _ = 2^52 * (2^(e-1) * 2^1 * 1) := by ring
        _ ≤ 2^52 * (2^(e-1) * 2^1 * 2^j) := by gcongr
        _ ≤ (2^52 + f') * (2^(e-1) * 2^1 * 2^j) := by gcongr; omega

theorem b64MagOf_lt_iff {L L' : Nat} : b64MagOf L < b64MagOf L' ↔ L < L' := by
  constructor
  · intro h; by_contra hc
    rcases Nat.lt_or_ge L' L with h' | h'
    · have := b64MagOf_strictMono h'; omega
    · have : L = L' := by omega
      subst this; omega
  · exact b64MagOf_strictMono

theorem b64MagOf_inj {L L' : Nat} : b64MagOf L = b64MagOf L' ↔ L = L' := by
  have a := @b64MagOf_lt_iff L L'
  have b := @b64MagOf_lt_iff L' L
  omega

/-- The magnitude of the low word that stands for `n × 2 ^ k`. -/
theorem b64MagOf_scaled (k n : Nat) (h1 : k = 0 ∨ 2^52 ≤ n) (h2 : n ≤ 2^53) : b64MagOf (k * 2^52 + n) = n * 2^k := by
  unfold b64MagOf
  by_cases hk : n < 2^52
  · have hk0 : k = 0 := by omega
    subst hk0
    simp only [Nat.zero_mul, Nat.zero_add]
    rw [show n / 2^52 = 0 by omega]
    simp; omega
  · by_cases h3 : n = 2^53
    · subst h3
      rw [show (k * 2^52 + 2^53) / 2^52 = k + 2 by omega, if_neg (by omega), show (k * 2^52 + 2^53) % 2^52 = 0 by omega]
      rw [show k + 2 - 1 = k + 1 by omega, pow_succ]; ring
    · rw [show (k * 2^52 + n) / 2^52 = k + 1 by omega, if_neg (by omega),
        show (k * 2^52 + n) % 2^52 = n - 2^52 by omega, Nat.add_sub_cancel, Nat.add_sub_cancel' (by omega)]

/-- A magnitude at or above `2 ^ (52 + k)` is a multiple of `2 ^ k`. -/
theorem b64MagOf_multiple (L k : Nat) (h : k = 0 ∨ 2^52 * 2^k ≤ b64MagOf L) : ∃ j, b64MagOf L = j * 2^k := by
  rcases h with rfl | h
  · exact ⟨b64MagOf L, by simp⟩
  unfold b64MagOf at h ⊢
  generalize hs : (if L / 2^52 = 0 then L % 2^52 else 2^52 + L % 2^52) = sg at *
  have hsg : sg < 2^53 := by
    have := Nat.mod_lt L (show 0 < 2^52 by decide)
    rw [← hs]; split <;> omega
  have hk : k ≤ L / 2^52 - 1 := by
    by_contra hc
    obtain ⟨j, hj⟩ : ∃ j, k = (L / 2^52 - 1) + 1 + j := ⟨k - (L / 2^52 - 1) - 1, by omega⟩
    rw [hj, pow_add, pow_add] at h
    have h1 : 1 ≤ 2 ^ j := Nat.one_le_two_pow
    have h2 : 1 ≤ 2 ^ (L/2^52-1) := Nat.one_le_two_pow
    generalize 2 ^ (L/2^52-1) = A at *
    have : 2^52 * (A * 2^1 * 1) ≤ 2^52 * (A * 2^1 * 2^j) := by gcongr
    nlinarith
  obtain ⟨j, hj⟩ : ∃ j, L / 2^52 - 1 = j + k := ⟨L / 2^52 - 1 - k, by omega⟩
  exact ⟨sg * 2^j, by rw [hj, pow_add]; ring⟩

/-- The scale `b64Round` chooses: the power of two its significand is counted in. -/
def roundScale (p q : Nat) : Nat := Nat.log2 (p / q) - 52

/-- `p / d` rounded to the nearest integer, half to even. -/
def roundEven (p d : Nat) : Nat :=
  if d < 2 * (p % d) ∨ (2 * (p % d) = d ∧ (p / d) % 2 = 1) then p / d + 1 else p / d

/-- The significand `b64Round` gives at that scale, ties to even. -/
def roundSig (p q : Nat) : Nat := roundEven p (q * 2 ^ roundScale p q)

/-- The low 63 bits `b64Round` gives, before they are cut at infinity. -/
def roundLow (p q : Nat) : Nat := roundScale p q * 2^52 + roundSig p q

/-- `b64Round` in two steps: the scale, then the significand at that scale. -/
theorem b64Round_eq (s : Bool) (p q : Nat) : b64Round s p q = b64Pack s (min (roundLow p q) (2047 * 2^52)) :=
  rfl

/-- At the chosen scale the integer quotient has 53 bits, or fewer at the least scale. -/
theorem roundScale_bounds (p q : Nat) :
    (roundScale p q = 0 ∧ p / q < 2^53) ∨
      (2^52 * 2^(roundScale p q) ≤ p / q ∧ p / q < 2^53 * 2^(roundScale p q)) := by
  unfold roundScale
  by_cases h0 : p / q = 0
  · left; rw [h0]; exact ⟨rfl, by decide⟩
  have h1 := Nat.log2_self_le h0
  have h2 := Nat.lt_log2_self (n := p / q)
  by_cases h : Nat.log2 (p / q) < 52
  · left
    refine ⟨by omega, ?_⟩
    exact lt_of_lt_of_le h2 (Nat.pow_le_pow_right (by decide) (by omega))
  · right
    rw [← pow_add, ← pow_add]
    rw [show 52 + (Nat.log2 (p / q) - 52) = Nat.log2 (p/q) by omega,
      show 53 + (Nat.log2 (p / q) - 52) = Nat.log2 (p/q) + 1 by omega]
    exact ⟨h1, h2⟩

/-- The rounded significand has 53 bits, or is the next power of two. -/
theorem roundSig_bounds (p q : Nat) : (roundScale p q = 0 ∨ 2^52 ≤ roundSig p q) ∧ roundSig p q ≤ 2^53 := by
  have hk := roundScale_bounds p q
  unfold roundSig
  generalize roundScale p q = k at *
  have hdiv : p / (q * 2^k) = p / q / 2^k := by rw [Nat.div_div_eq_div_mul]
  have b1 : k = 0 ∨ 2^52 ≤ p / (q * 2^k) := by
    rcases hk with ⟨h, _⟩ | ⟨h, _⟩
    · exact .inl h
    · right; rw [hdiv]; exact (Nat.le_div_iff_mul_le (by positivity)).2 h
  have b2 : p / (q * 2^k) < 2^53 := by
    rw [hdiv]
    rcases hk with ⟨h, h'⟩ | ⟨_, h⟩
    · rw [h]; simpa using h'
    · exact (Nat.div_lt_iff_lt_mul (by positivity)).2 h
  unfold roundEven
  constructor <;> split <;> omega

/-- Rounding a quotient half to even gives the nearest multiple, an even one of two equally near. -/
theorem nearest_multiple (p d j : Nat) (hd : 0 < d) :
    (((roundEven p d * d : Nat) : Int) - p).natAbs ≤ (((j * d : Nat) : Int) - p).natAbs ∧
    ((((roundEven p d * d : Nat) : Int) - p).natAbs = (((j * d : Nat) : Int) - p).natAbs →
      j ≠ roundEven p d → roundEven p d % 2 = 0) := by
  have hp := Nat.div_add_mod p d
  have hr := Nat.mod_lt p hd
  have key : (roundEven p d * d = p + d - p % d ∧ (d < 2 * (p % d) ∨ (2 * (p % d) = d ∧ (p / d) % 2 = 1)) ∧
        roundEven p d = p / d + 1) ∨
      (roundEven p d * d = p - p % d ∧ ¬ (d < 2 * (p % d) ∨ (2 * (p % d) = d ∧ (p / d) % 2 = 1)) ∧
        roundEven p d = p / d) := by
    unfold roundEven
    rw [Nat.mul_comm] at hp
    split
    · next h => exact .inl ⟨by rw [Nat.add_mul, Nat.one_mul]; omega, h, rfl⟩
    · next h => exact .inr ⟨by omega, h, rfl⟩
  generalize roundEven p d = n at *
  generalize hQ : p / d = Q at *
  have hj : (j * d : Nat) ≤ Q * d ∨ Q * d + d ≤ j * d := by
    rcases Nat.lt_or_ge Q j with h | h
    · right; calc Q * d + d = (Q+1) * d := by ring
        _ ≤ j * d := Nat.mul_le_mul_right _ h
    · left; exact Nat.mul_le_mul_right _ h
  have hj' : j = Q ∨ j = Q + 1 ∨ j * d + d ≤ Q * d ∨ Q * d + 2 * d ≤ j * d := by
    rcases Nat.lt_trichotomy j Q with h | h | h
    · right; right; left; calc j * d + d = (j+1) * d := by ring
        _ ≤ _ := Nat.mul_le_mul_right _ h
    · left; exact h
    · rcases Nat.eq_or_lt_of_le h with h | h
      · right; left; exact h.symm
      · right; right; right
        calc Q * d + 2 * d = (Q+2) * d := by ring
          _ ≤ _ := Nat.mul_le_mul_right _ h
  rw [Nat.mul_comm d Q] at hp
  generalize hr' : p % d = r at *
  have hjQ : j = Q → j * d = Q * d := fun h => by rw [h]
  have hjQ1 : j = Q + 1 → j * d = Q * d + d := fun h => by rw [h]; ring
  generalize j * d = J at *
  generalize Q * d = QD at *
  generalize n * d = N at *
  clear hj hQ hr'
  rcases hj' with h | h | h | h
  · have hJ := hjQ h
    clear hjQ hjQ1
    rcases key with ⟨e1, e2, e3⟩ | ⟨e1, e2, e3⟩ <;> constructor <;> omega
  · have hJ := hjQ1 h
    clear hjQ hjQ1
    rcases key with ⟨e1, e2, e3⟩ | ⟨e1, e2, e3⟩ <;> constructor <;> omega
  · clear hjQ hjQ1
    rcases key with ⟨e1, e2, e3⟩ | ⟨e1, e2, e3⟩ <;> constructor <;> omega
  · clear hjQ hjQ1
    rcases key with ⟨e1, e2, e3⟩ | ⟨e1, e2, e3⟩ <;> constructor <;> omega

/-- The rounded magnitude is the nearest of all magnitudes; of two equally near it has the even significand. -/
theorem b64MagOf_nearest (p q : Nat) (hq : 0 < q) (L : Nat) :
    (((b64MagOf (roundLow p q) * q : Nat) : Int) - p).natAbs ≤ (((b64MagOf L * q : Nat) : Int) - p).natAbs ∧
    ((((b64MagOf (roundLow p q) * q : Nat) : Int) - p).natAbs = (((b64MagOf L * q : Nat) : Int) - p).natAbs →
      b64MagOf L ≠ b64MagOf (roundLow p q) → roundSig p q % 2 = 0) := by
  have hk := roundScale_bounds p q
  obtain ⟨n1, n2⟩ := roundSig_bounds p q
  unfold roundLow
  rw [b64MagOf_scaled _ _ n1 n2]
  unfold roundSig at *
  generalize roundScale p q = k at *
  have hd : 0 < q * 2^k := by positivity
  have near := fun j => nearest_multiple p (q * 2^k) j hd
  have e : ∀ j, j * (q * 2^k) = j * 2^k * q := fun j => by ring
  by_cases hm : k = 0 ∨ 2^52 * 2^k ≤ b64MagOf L
  · obtain ⟨j, hj⟩ := b64MagOf_multiple L k hm
    have := near j
    rw [e, e] at this
    rw [hj]
    refine ⟨this.1, fun h1 h2 => this.2 h1 (fun h3 => h2 (by rw [h3]))⟩
  · have hm1 : b64MagOf L < 2^52 * 2^k := by omega
    have hk0 : k ≠ 0 := by omega
    have hp : 2^52 * 2^k * q ≤ p := by
      rcases hk with ⟨h, _⟩ | ⟨h, _⟩
      · exact absurd h hk0
      · exact (Nat.le_div_iff_mul_le hq).1 h
    have := (near (2^52)).1
    rw [e, e] at this
    have h3 : b64MagOf L * q < 2^52 * 2^k * q := Nat.mul_lt_mul_of_pos_right hm1 hq
    generalize b64MagOf L * q = A at *
    generalize 2^52 * 2^k * q = B at *
    generalize roundEven p (q * 2^k) * 2^k * q = C at *
    omega

/-- The overflow bound at the largest scale. -/
theorem overflow_bound_eq (q : Nat) : (2^54 - 1) * 2^2044 * q * 2 = (2^54 - 1) * (q * 2^2045) := by
  rw [show (2045 : Nat) = 2044 + 1 from rfl, pow_succ 2 2044]
  generalize (2 : Nat)^2044 = X
  generalize (2^54 - 1 : Nat) = Y
  ring

/-- At the largest scale of a finite value the significand reaches 2^53 exactly from the overflow bound on. -/
theorem overflow_at_top_scale (p d T : Nat) (hd : 0 < d) (hT : T * 2 = (2^54 - 1) * d) (hlt : p < 2^53 * d) :
    2^53 ≤ roundEven p d ↔ T ≤ p := by
  unfold roundEven
  have hp := Nat.div_add_mod p d
  have hr := Nat.mod_lt p hd
  have hQ : p / d < 2^53 := (Nat.div_lt_iff_lt_mul hd).2 hlt
  generalize p / d = Q at *
  generalize p % d = r at *
  have hT' : T * 2 + d = 2 * (d * 2^53) := by rw [hT]; ring_nf
  have hQd : Q = 2^53 - 1 → d * Q + d = d * 2^53 := fun h => by subst h; ring_nf
  have hQd2 : Q + 2 ≤ 2^53 → d * Q + d + d ≤ d * 2^53 := fun h => by
    calc d * Q + d + d = d * (Q + 2) := by ring
      _ ≤ _ := Nat.mul_le_mul_left _ h
  generalize d * 2^53 = X at *
  generalize d * Q = Y at *
  clear hT hlt
  by_cases hq1 : Q = 2^53 - 1
  · have := hQd hq1
    clear hQd hQd2
    have hodd : Q % 2 = 1 := by omega
    split
    · next h => constructor <;> intro <;> omega
    · next h =>
      constructor
      · intro _; omega
      · intro _; exfalso; apply h; omega
  · have := hQd2 (by omega)
    clear hQd hQd2
    split <;> constructor <;> intro <;> omega

theorem overflow_above_top_scale : (2^54 - 1) * 2^2044 ≤ 2^52 * 2^2046 := by
  rw [show (2046 : Nat) = 2044 + 2 from rfl, pow_add]
  generalize (2 : Nat)^2044 = x
  omega

/-- A magnitude rounds past the largest finite one exactly from half a unit above it on. -/
theorem round_overflows_iff (p q : Nat) (hq : 0 < q) :
    2047 * 2^52 ≤ roundLow p q ↔ (2^54 - 1) * 2^2044 * q ≤ p := by
  have hk := roundScale_bounds p q
  have hns := roundSig_bounds p q
  unfold roundLow
  unfold roundSig at *
  generalize roundScale p q = k at *
  rcases Nat.lt_trichotomy k 2045 with h | h | h
  · constructor
    · intro h'; omega
    · intro h'
      exfalso
      have hpw : 2^k ≤ 2^2044 := Nat.pow_le_pow_right (by decide) (by omega)
      have hlt : p / q < 2^53 * 2^2044 := by
        rcases hk with ⟨_, h''⟩ | ⟨_, h''⟩
        · exact lt_of_lt_of_le h'' (Nat.le_mul_of_pos_right _ (Nat.two_pow_pos _))
        · exact lt_of_lt_of_le h'' (Nat.mul_le_mul_left _ hpw)
      have hp2 : p < 2^53 * 2^2044 * q := (Nat.div_lt_iff_lt_mul hq).1 hlt
      have : 2^53 * 2^2044 * q ≤ (2^54 - 1) * 2^2044 * q :=
        Nat.mul_le_mul_right _ (Nat.mul_le_mul_right _ (by norm_num))
      omega
  · subst h
    have hlt : p < 2^53 * (q * 2^2045) := by
      rcases hk with ⟨h, _⟩ | ⟨_, h''⟩
      · omega
      · have := (Nat.div_lt_iff_lt_mul hq).1 h''
        rwa [Nat.mul_assoc, Nat.mul_comm _ q] at this
    have := overflow_at_top_scale p _ ((2^54 - 1) * 2^2044 * q) (by positivity) (overflow_bound_eq q) hlt
    rw [← this]
    omega
  · constructor
    · intro _
      rcases hk with ⟨h', _⟩ | ⟨h', _⟩
      · omega
      · have h2 := (Nat.le_div_iff_mul_le hq).1 h'
        have hpw : 2^2046 ≤ 2^k := Nat.pow_le_pow_right (by decide) h
        have : (2^54 - 1) * 2^2044 * q ≤ 2^52 * 2^k * q := by
          gcongr ?_ * q
          exact overflow_above_top_scale.trans (Nat.mul_le_mul_left _ hpw)
        omega
    · intro _; omega

end Sys2Proof.Machine
end

