-- ==== Sys2Proof/Tests/Slice0.lean ====
section
/-! SUPPORT. Tests of the model. Expected results are the vectors of 95_test_vectors.md, or hand calculation from the rule
named; the words are written out from the encoding of 30_encoding.md R80 (IMM, RSV, BUF, OPC). The theorems `witness_…`
show that the hypotheses of the statements can be met, clause by clause. -/

-- one theorem at a time: many kernel evaluations at once would need many threads
set_option Elab.async false

namespace Sys2Proof.Machine.Tests

/-! ## Small states -/

/-- binary64 0.25, 1.0, 2.0 and 50.0 as 95_test_vectors.md §0 and IEEE 754 write them. -/
def quarter : NumWord := 0x3FD0000000000000#64
def one : NumWord := 0x3FF0000000000000#64
def two : NumWord := 0x4000000000000000#64
def fifty : NumWord := 0x4049000000000000#64
/-- A quiet NaN. -/
def notANumber : NumWord := 0x7FF8000000000000#64

/-- CFG-A and CFG-C of 95_test_vectors.md §0. -/
def cfgA : CfgRegs := ⟨1024, 512, 16, 64, 8, 16, 16, 4, 0, 7, 1, quarter, quarter, quarter⟩
def cfgC : CfgRegs := ⟨64, 8, 16, 4, 8, 16, 16, 4, 0, 7, 1, quarter, quarter, quarter⟩

/-- The fresh block under a configuration: the state 95_test_vectors.md calls "fresh". -/
def fresh (c : CfgRegs) : State :=
  { State.reset with
    cfg := c, configured := true
    sent := ⟨c.sentBufferSize, 0, []⟩, recv := ⟨c.receivedBufferSize, 0, []⟩, frag := ⟨c.reassemblyBufferSize, 0, []⟩ }

/-- A state with bytes in IBUF and their number in ARG2. -/
def input (s : State) (bs : List Byte) : State :=
  { s with ibuf := writeBytes s.ibuf 0 bs, arg2 := BitVec.ofNat 32 bs.length }

/-- What a state shows of the next state, or none where there is none. -/
def after {α : Type} (o : Host.Outcome State Fault Refusal) (f : State → α) : Option α :=
  match o with
  | .next t => some (f t)
  | _ => none

/-- RECV of 95_test_vectors.md S1: sequences 1, 5, 9 and 11 inserted, S = 12. -/
def held : State :=
  { fresh cfgA with recv := ⟨16, 12, [(1, some 1), (5, some 5), (9, some 9), (11, some 11)]⟩ }

/-- The fragments F0, F1 and F2 of 95_test_vectors.md §4.2. -/
def f0 : List Byte := [0x01, 0, 0, 0, 2, 0x3E, 0, 0, 1, 0, 0, 0, 0, 0, 1, 2, 3]
def f1 : List Byte := [0x01, 0, 0, 1, 2, 4, 5, 6, 7]
def f2 : List Byte := [0x01, 0, 0, 2, 2, 8, 9]

/-- The fresh CFG-C block after F2 (95_test_vectors.md §4.2, step 1): slot 0 holds sequence 0, one of three fragments, 10
payload bytes. -/
def partly : State :=
  { fresh cfgC with
    frag := ⟨4, 1, [(0, some 0)]⟩
    fragEntries := [(0, ⟨0, 3, 1, 4, 0, 10⟩)], reasm := [(0, [(17, 8), (18, 9)])]
    res2 := 3, res1 := 2, code := .fragStored
    counters := { Counters.zero with fragmentsReceived := 1 } }

/-- The block of 95_test_vectors.md P3 after A's EP_SEND of AA BB CC: it waits at the TX event. -/
def waiting : State :=
  let pkt : List Byte := [0x3E, 0, 0, 1, 0, 0, 0, 0, 0xAA, 0xBB, 0xCC]
  { fresh cfgA with
    sequence := 1, sent := ⟨16, 1, [(0, some 0)]⟩, sentRecords := [(0, ⟨0, false, 3⟩)]
    counters := { Counters.zero with packetsSent := 1 }
    stack := [⟨.sendRegular 0, ⟨.tx, 0, pkt⟩⟩], inCallback := true
    evt := ⟨some .tx, 0, 11, 7, 1⟩, ebuf := writeBytes [] 0 pkt }

/-- The block of 95_test_vectors.md P3, B, waiting for the answer to DELIVER(0, AA BB CC). -/
def delivering (rebuilt : Option U16) : State :=
  { fresh cfgA with
    stack := [⟨.deliver 0 65535 0 11 rebuilt, ⟨.deliver, 0, [0xAA, 0xBB, 0xCC]⟩⟩], inCallback := true
    evt := ⟨some .deliver, 0, 3, 7, 1⟩, ebuf := writeBytes [] 0 [0xAA, 0xBB, 0xCC] }

/-! ## Well-formedness and decoding -/

/-- The one ill-formed shape is refused, and its neighbours are not (30_encoding.md R83). -/
theorem test_wellFormed_refuses : (Instr.sbInsert .frag 1).wellFormed = false ∧
    (Instr.sbInsert .recv 1).wellFormed = true ∧ (Instr.sbFind .frag 1).wellFormed = true := by decide

/-- SequenceMath words: IMM 32768 (95_test_vectors.md §2), 20000 and 65535. -/
theorem test_decode_seqMath : decode 0x80000001#32 = .ok (.seqGt 32768) ∧ decode 0x4E200002#32 = .ok (.seqLt 20000) ∧
    decode 0xFFFF0003#32 = .ok (.seqInc 65535) := by decide

/-- SequenceBuffer words of 95_test_vectors.md P1 and 30_encoding.md R100, and one word for each BUF. -/
theorem test_decode_seqBuffer : decode 0x00010110#32 = .ok (.sbInsert .recv 1) ∧
    decode 0x000B0010#32 = .ok (.sbInsert .sent 11) ∧ decode 0x00000211#32 = .ok (.sbFind .frag 0) ∧
    decode 0x00060112#32 = .ok (.sbRemove .recv 6) ∧ decode 0xFFFB0113#32 = .ok (.sbTestInsert .recv 65531) ∧
    decode 0x00000114#32 = .ok (.sbGenack .recv) ∧ decode 0x00000015#32 = .ok (.sbReset .sent) := by decide

/-- HeaderCodec, Reassembler and Smoother words (30_encoding.md R87, 95_test_vectors.md P2). -/
theorem test_decode_codec : decode 0x00050020#32 = .ok (.hdrEnc 5) ∧ decode 0x00000021#32 = .ok .hdrDec ∧
    decode 0x12340022#32 = .ok (.fhdrEnc 0x1234) ∧ decode 0x00000023#32 = .ok .fhdrDec ∧
    decode 0x00000030#32 = .ok .fragRx ∧ decode 0x00000040#32 = .ok .statSmooth ∧
    decode 0x00000041#32 = .ok .rttFold ∧ decode 0x00000042#32 = .ok .statUpdate := by decide

/-- Endpoint words (30_encoding.md R87, 95_test_vectors.md P0 to P3). -/
theorem test_decode_endpoint : decode 0x00000050#32 = .ok .epCreate ∧ decode 0x00000051#32 = .ok .epSend ∧
    decode 0x00000052#32 = .ok .epReceive ∧ decode 0x00000053#32 = .ok .epUpdate ∧
    decode 0x00000054#32 = .ok .epReset ∧ decode 0x00000055#32 = .ok .epAckClear := by decide

/-- Illegal words, one for each clause of 30_encoding.md R88. -/
theorem test_decode_illegal : decode 0x00000004#32 = .error .reservedOpcode ∧
    decode 0x00000401#32 = .error .reservedBits ∧ decode 0x00000314#32 = .error .illegalBuf ∧
    decode 0x00010210#32 = .error .illegalBuf ∧ decode 0x00010051#32 = .error .nonzeroImm := by decide

/-- The word of the first step after reset is fetched and run (10_state.md R25): SEQ_INC of 65535 by ARG0 = 0. -/
theorem test_step_runs_command :
    after (step (State.reset.withFetchWord 32 0xFFFF0003)) (fun t => (t.res0, t.code, t.host)) = some (65535, .ok, []) := by
  decide +kernel

/-! ## Commands -/

/-- 95_test_vectors.md §2: distance 32768, numerically larger wins; and the wrap. -/
theorem test_seqGt : after (exec (.seqGt 32768) State.reset) (·.res0) = some 1 ∧
    after (exec (.seqGt 65535) State.reset) (·.res0) = some 0 := by decide +kernel

theorem test_seqLt : after (exec (.seqLt 32769) State.reset) (·.res0) = some 1 ∧
    after (exec (.seqLt 32768) State.reset) (·.res0) = some 0 := by decide +kernel

/-- 95_test_vectors.md §2: (10, 65535) is 9, (32767, 1) is 32768. -/
theorem test_seqInc : after (exec (.seqInc 10) { State.reset with arg0 := 65535 }) (·.res0) = some 9 ∧
    after (exec (.seqInc 32767) { State.reset with arg0 := 1 }) (·.res0) = some 32768 := by decide +kernel

/-- 95_test_vectors.md S13: the advance from S = 5 to 10 in a buffer of 4 clears every slot. -/
theorem test_sbInsert_sweeps :
    after (exec (.sbInsert .recv 10)
        { fresh cfgA with recv := ⟨4, 5, [(0, some 4), (1, some 1), (2, some 2), (3, some 3)]⟩ })
      (fun t => (t.recv, t.res0, t.code)) = some (⟨4, 11, [(2, some 10)]⟩, 2, .ok) := by decide +kernel

/-- 95_test_vectors.md S9: stale, no change. -/
theorem test_sbInsert_stale : exec (.sbInsert .recv 65531) held = .next { held with code := .stale } := rfl

/-- 95_test_vectors.md S20. -/
theorem test_sbFind :
    after (exec (.sbFind .sent 3) { fresh cfgA with sent := ⟨16, 4, [(3, some 3)]⟩, sentRecords := [(3, ⟨0, false, 77⟩)] })
      (fun t => (t.res0, t.res1, t.res2, t.resn, t.code)) = some (3, 0, 77, 0, .ok) := by decide +kernel

/-- 95_test_vectors.md S4: the tag is exact. -/
theorem test_sbFind_exact : exec (.sbFind .recv 21) held = .next { held with code := .notFound } := rfl

/-- 95_test_vectors.md S5 and S6. -/
theorem test_sbRemove :
    after (exec (.sbRemove .recv 5) held) (fun t => (t.recv, t.code)) =
      some (⟨16, 12, [(1, some 1), (9, some 9), (11, some 11)]⟩, .ok) ∧
    exec (.sbRemove .recv 6) held = .next { held with code := .notFound } := ⟨by decide +kernel, rfl⟩

/-- 95_test_vectors.md S7 and S8. -/
theorem test_sbTestInsert : after (exec (.sbTestInsert .recv 65531) held) (·.res0) = some 1 ∧
    after (exec (.sbTestInsert .recv 65532) held) (·.res0) = some 0 := by decide +kernel

/-- 95_test_vectors.md W1 and S19. -/
theorem test_sbGenack : after (exec (.sbGenack .recv) held) (fun t => (t.res0, t.res1)) = some (11, 0x445) ∧
    after (exec (.sbGenack .recv) (fresh cfgA)) (fun t => (t.res0, t.res1)) = some (65535, 0) := by decide +kernel

/-- 95_test_vectors.md W5, P1. -/
theorem test_sbReset : after (exec (.sbReset .recv) held) (·.recv) = some ⟨16, 0, []⟩ := by decide +kernel

/-- 95_test_vectors.md §4.1: d = 6 across the wrap, and the maximum. -/
theorem test_hdrEnc :
    after (exec (.hdrEnc 5) { State.reset with arg0 := 65535, arg1 := 0xFFFF }) (fun t => (readBytes t.obuf 0 7, t.res0)) =
      some ([0x38, 5, 0, 6, 0, 0, 0], 6) ∧
    after (exec (.hdrEnc 1000) State.reset) (fun t => (readBytes t.obuf 0 9, t.res0)) =
      some ([0x1E, 0xE8, 3, 0, 0, 0, 0, 0, 0], 9) := by decide +kernel

/-- 95_test_vectors.md §4.1: a non-minimal header, with bits 6 and 7 ignored in the second. -/
theorem test_hdrDec :
    after (exec .hdrDec (input State.reset [0x02, 0x64, 0, 0x63, 0, 0xFF]))
      (fun t => (t.res0, t.res1, t.res2, t.res3)) = some (100, 99, 0xFFFFFFFF, 6) ∧
    after (exec .hdrDec (input State.reset [0xE0, 5, 0, 0])) (fun t => (t.res0, t.res1, t.res2, t.res3)) =
      some (5, 5, 0xFFFFFFFF, 4) := by decide +kernel

/-- 95_test_vectors.md §4.1: length before marker, and each short string. -/
theorem test_hdrDec_rejects :
    after (exec .hdrDec (input State.reset [0x21, 0x64, 0, 1])) (·.code) = some .decodeMarker ∧
    after (exec .hdrDec (input State.reset [0x20, 0x64, 0])) (·.code) = some .decodeShort ∧
    after (exec .hdrDec { State.reset with arg2 := 16401 }) (·.code) = some .badLength := by decide +kernel

/-- 95_test_vectors.md P2: id 2 of 3; count 0 is BAD_OPERAND. -/
theorem test_fhdrEnc :
    after (exec (.fhdrEnc 0x1234) { State.reset with arg0 := 2, arg1 := 3 }) (fun t => (readBytes t.obuf 0 5, t.res0)) =
      some ([1, 0x34, 0x12, 2, 2], 5) ∧
    after (exec (.fhdrEnc 0x1234) { State.reset with arg0 := 2 }) (·.code) = some .badOperand := by decide +kernel

/-- 95_test_vectors.md §4.1: id ≥ count is not checked here; length is checked first. -/
theorem test_fhdrDec :
    after (exec .fhdrDec (input State.reset [1, 0, 0, 5, 1])) (fun t => (t.res0, t.res1, t.res2)) = some (0, 5, 2) ∧
    after (exec .fhdrDec (input State.reset [0, 0, 0, 0])) (·.code) = some .decodeShort := by decide +kernel

/-- 95_test_vectors.md §4.2: F2 gives the state `partly`. -/
theorem test_fragRx_first :
    after (exec .fragRx (input (fresh cfgC) f2)) (fun t => decide (t = { input partly f2 with res0 := 0 })) = some true := by
  decide +kernel

/-- 95_test_vectors.md §4.2: after F0, F1 completes the packet. -/
theorem test_fragRx_completes :
    after (exec .fragRx (input (((after (exec .fragRx (input partly f0)) id).getD State.reset)) f1))
      (fun t => (t.code, t.res3, readBytes t.obuf 0 18, t.frag)) =
        some (.fragComplete, 18, [0x3E, 0, 0, 1, 0, 0, 0, 0, 0, 1, 2, 3, 4, 5, 6, 7, 8, 9], ⟨4, 1, []⟩) := by
  decide +kernel

/-- 95_test_vectors.md §4.3: (1, 0, 50) is 12.5, (2, 0, 3.2) is 0.8. -/
theorem test_statSmooth :
    after (exec .statSmooth { fresh cfgA with arg0 := 1, numin := fifty }) (·.stats.loss) =
      some 0x4029000000000000#64 ∧
    after (exec .statSmooth { fresh cfgA with arg0 := 2, numin := 0x400999999999999A#64 }) (·.stats.sentKbps) =
      some 0x3FE999999999999A#64 := by decide +kernel

/-- 95_test_vectors.md §4.3: (0, 50) snaps to 50, (10, 0) is 7.5. -/
theorem test_rttFold : after (exec .rttFold { fresh cfgA with numin := fifty }) (·.stats.rtt) = some fifty ∧
    after (exec .rttFold { fresh cfgA with stats := { Stats.zero with rtt := 0x4024000000000000#64 } }) (·.stats.rtt) =
      some 0x401E000000000000#64 := by decide +kernel

/-- 95_test_vectors.md §4.3: SENT with N = 8, sequences 0 to 7, 0 and 2 acked, all sent at one time: LOSS is 12.5 and no
bandwidth changes. -/
theorem test_statUpdate :
    after (exec .statUpdate { fresh cfgA with
        sent := ⟨8, 8, [(0, some 0), (1, some 1), (2, some 2), (3, some 3)]⟩
        sentRecords := [(0, ⟨one, true, 100⟩), (1, ⟨one, false, 100⟩), (2, ⟨one, true, 100⟩), (3, ⟨one, false, 100⟩)] })
      (·.stats) = some ⟨0, 0x4029000000000000#64, 0, 0, 0⟩ := by decide +kernel

/-- 95_test_vectors.md P6: times 1.0 and 2.0, 400 bytes: SENT_KBPS is 0.8 and LOSS 25. -/
theorem test_epUpdate :
    after (exec .epUpdate { fresh cfgA with
        numin := two, sent := ⟨8, 8, [(0, some 0), (1, some 1), (2, some 2), (3, some 3)]⟩
        sentRecords := [(0, ⟨one, false, 100⟩), (1, ⟨one, false, 100⟩), (2, ⟨two, false, 100⟩), (3, ⟨two, false, 100⟩)] })
      (fun t => (t.stats, t.time)) =
        some (⟨0, 0x4039000000000000#64, 0x3FE999999999999A#64, 0, 0⟩, two) := by decide +kernel

/-- 95_test_vectors.md E19. -/
theorem test_epUpdate_nan : exec .epUpdate { fresh cfgA with numin := notANumber } =
    .next { fresh cfgA with numin := notANumber, code := .badOperand } := by
  rw [show exec .epUpdate { fresh cfgA with numin := notANumber } =
    .next (runEpUpdate { fresh cfgA with numin := notANumber }) from rfl]
  unfold runEpUpdate
  rw [if_neg (by decide +kernel)]
  rfl

/-- 95_test_vectors.md E1 and E2: the power-on configuration is invalid; CFG-A gives the fresh block. -/
theorem test_epCreate :
    after (exec .epCreate { State.reset with cfg := cfgA }) (fun t => decide (t = fresh cfgA)) = some true ∧
    after (exec .epCreate State.reset) (fun t => (t.code, t.configured)) = some (.configInvalid, false) := by decide +kernel

/-- 95_test_vectors.md P3: A's send of AA BB CC waits at its TX event. -/
theorem test_epSend :
    after (exec .epSend (input (fresh cfgA) [0xAA, 0xBB, 0xCC]))
      (fun t => decide (t = { input waiting [0xAA, 0xBB, 0xCC] with code := .ok })) = some true := by decide +kernel

/-- 95_test_vectors.md E8. -/
theorem test_epSend_tooLarge :
    after (exec .epSend { fresh cfgA with arg2 := 1025 }) (fun t => (t.code, t.counters.packetsTooLargeToSend, t.sequence)) =
      some (.tooLargeToSend, 1, 0) := by decide +kernel

/-- 95_test_vectors.md P3: B's receive of the same bytes waits at DELIVER. -/
theorem test_epReceive :
    after (exec .epReceive (input (fresh cfgA) [0x3E, 0, 0, 1, 0, 0, 0, 0, 0xAA, 0xBB, 0xCC]))
      (fun t => (t.stack, t.evt, t.counters.packetsReceived)) =
        some ((delivering none).stack, (delivering none).evt, 1) := by decide +kernel

/-- 95_test_vectors.md E12: a fragment that does not decode, counted once. -/
theorem test_epReceive_marker :
    after (exec .epReceive (input (fresh cfgA) [3, 0, 0, 0, 0]))
      (fun t => (t.code, t.counters.packetsReceived, t.counters.fragmentsInvalid)) = some (.decodeMarker, 0, 1) := by
  decide +kernel

/-- 95_test_vectors.md P3, the continuation: SEQUENCE, ACK_COUNT and RECV cleared, the statistics kept. -/
theorem test_epReset :
    after (exec .epReset { held with sequence := 1, ackCount := 1, stats := { Stats.zero with rtt := fifty } })
      (fun t => (t.sequence, t.ackCount, t.recv, t.stats.rtt)) = some (0, 0, ⟨16, 0, []⟩, fifty) := by decide +kernel

/-- 95_test_vectors.md E17: the list is emptied, the records stay. -/
theorem test_epAckClear :
    after (exec .epAckClear { fresh cfgA with ackCount := 8, acks := [(0, 9)] }) (fun t => (t.ackCount, t.acks)) =
      some (0, [(0, 9)]) := by decide +kernel

/-- 95_test_vectors.md P3: EVT_DONE completes the send. -/
theorem test_evtDone :
    after (step { waiting with host := [.write 4 0x194#32 0#32] })
      (fun t => (t.code, t.res0, t.stack, t.inCallback, t.evt.kind)) = some (.ok, 0, [], false, none) := by decide +kernel

/-- 41_seqbuffer.md R131 law 2 at N = 1 (log 22): with S = 32768 an insert of 65535 is accepted and does not advance S, so
the slot then holds a sequence outside the window 32767 .. 32767. -/
theorem test_window_fails_at_one :
    sbInsert ⟨1, 32768, [(0, some 32767)]⟩ 65535 = some (⟨1, 32768, [(0, some 65535)]⟩, 0) ∧
    ¬ (SeqBuf.newest ⟨1, 32768, [(0, some 65535)]⟩ - 65535).toNat < 1 := by decide +kernel

/-! ## Witnesses -/

theorem mem_of_get {α : Type} {d v : α} {t : List (Nat × α)} {k : Nat} (h : Table.get d t k = v) (hv : v ≠ d) :
    (k, v) ∈ t := by
  induction t with
  | nil => exact absurd h.symm hv
  | cons c t ih =>
    unfold Table.get at h
    split at h
    · next hc => subst hc h; exact List.mem_cons_self
    · exact List.mem_cons_of_mem _ (ih h)

theorem mem_of_tag {B : SeqBuf} {k : Nat} {q : U16} (h : B.tag k = some q) : (k, some q) ∈ B.tags :=
  mem_of_get h (by simp)

theorem witness_DecodeAndEncodeAgree : (Instr.sbFind .frag 65535).wellFormed = true ∧
    decode 0xFFFF0211#32 = .ok (.sbFind .frag 65535) := by decide

theorem witness_StepRunsDecodedCommand :
    (State.reset.withFetchWord 32 0xFFFF0003).host = [.write 4 0#32 0xFFFF0003#32] ∧
    (State.reset.withFetchWord 32 0xFFFF0003).mayIssue = true ∧ waiting.mayIssue = true ∧
    decode 0xFFFF0003#32 = .ok (.seqInc 65535) := by decide +kernel

theorem witness_IllegalWordChangesOnlyCode :
    (State.reset.withFetchWord 32 0x314).host = [.write 4 0#32 0x314#32] ∧
    (State.reset.withFetchWord 32 0x314).mayIssue = true ∧ ¬ legalWord 0x314#32 := by
  refine ⟨by decide +kernel, by decide +kernel, ?_⟩
  unfold legalWord
  decide

theorem witness_ConfigurationGate : (Instr.sbGenack .recv).wellFormed = true ∧ needsConfig (.sbGenack .recv) = true ∧
    State.reset.configured = false ∧ needsConfig (.seqGt 0) = false ∧ Instr.seqGt 0 ≠ .epCreate := by decide

theorem witness_SequenceOrderLaws : 32767 < 32768 ∧ (1#16 - 0#16 ≠ 32768) ∧ (32767#16 - 0#16 ≠ 0 ∧ 32767#16 - 0#16 ≠ 32768) ∧
    (32769#16 - 0#16 ≠ 0 ∧ 32769#16 - 0#16 ≠ 32768) := by decide

theorem witness_SequenceMathCommands : newerThan (32768#16 : U16).toNat (State.reset.arg0.toNat % 65536) ∧
    ¬ newerThan (32769#16 : U16).toNat (State.reset.arg0.toNat % 65536) ∧
    newerThan (State.reset.arg0.toNat % 65536) (32769#16 : U16).toNat ∧
    ¬ newerThan (State.reset.arg0.toNat % 65536) (32768#16 : U16).toNat := by
  unfold newerThan seqDistance
  decide

/-- Stale; an advance that sweeps slot 0 and keeps slot 2; one that sweeps all; no advance. -/
theorem witness_InsertTagsAndSweeps :
    let B : SeqBuf := ⟨4, 4, [(0, some 0), (1, some 1), (2, some 2), (3, some 3)]⟩
    sbStale ⟨4, 5, []⟩ 0 = true ∧ sbStale B 5 = false ∧ gt16 (5 + 1) B.s = true ∧ B.swept 5 0 ∧ ¬ B.swept 5 2 ∧
    (0 ≠ (5#16).toNat % B.n.toNat ∧ 2 ≠ (5#16).toNat % B.n.toNat) ∧
    (sbStale B 7 = false ∧ gt16 (7 + 1) B.s = true ∧ B.swept 7 0) ∧
    sbStale ⟨16, 0, []⟩ 65535 = false ∧ gt16 (65535 + 1) 0 = false := by
  unfold SeqBuf.swept seqDistance
  refine ⟨by decide, by decide, by decide, ⟨0, by decide⟩, ?_, by decide, by decide, by decide, by decide⟩
  have h : ∀ i, i < 2 → ¬ (4 + i) % 65536 % 4 = 2 := by decide
  rintro ⟨i, hi, h'⟩
  exact h i hi h'

theorem witness_SbInsertWritesRecord : held.configured = true ∧ sbStale held.sent 65535 = false ∧
    sbStale held.recv 12 = false ∧ sbStale held.recv 65532 = false ∧ BufSel.recv ≠ .frag ∧
    sbStale (held.buffer .recv) 65531 = true := by decide +kernel

theorem witness_SbFindReportsSlot : held.configured = true ∧ partly.configured = true ∧ waiting.configured = true ∧
    waiting.sent.tag ((0#16).toNat % waiting.sent.n.toNat) = some 0 ∧
    held.recv.tag ((11#16).toNat % held.recv.n.toNat) = some 11 ∧
    partly.frag.tag ((0#16).toNat % partly.frag.n.toNat) = some 0 ∧
    (held.buffer .recv).tag ((21#16).toNat % (held.buffer .recv).n.toNat) ≠ some 21 := by decide +kernel

theorem witness_SbRemoveEmptiesSlot : held.configured = true ∧
    (held.buffer .recv).tag ((5#16).toNat % (held.buffer .recv).n.toNat) = some 5 ∧
    (held.buffer .recv).tag ((6#16).toNat % (held.buffer .recv).n.toNat) ≠ some 6 := by decide +kernel

/-- 95_test_vectors.md S7 and S8: the window of `held` starts at 65532; its last sequence is 11. -/
theorem witness_SbTestInsertReportsStale : held.configured = true ∧
    newerThan (seqDistance (held.buffer .recv).s.toNat ((held.buffer .recv).n.toNat % 65536)) (65531#16).toNat ∧
    ¬ newerThan (seqDistance (held.buffer .recv).s.toNat ((held.buffer .recv).n.toNat % 65536)) (65532#16).toNat ∧
    (held.buffer .recv).n.toNat ≤ 32768 ∧
    seqDistance (11#16).toNat (seqDistance (held.buffer .recv).s.toNat ((held.buffer .recv).n.toNat % 65536)) <
      (held.buffer .recv).n.toNat := by
  unfold newerThan seqDistance
  decide +kernel

theorem witness_SbGenackReportsReceipts : held.configured = true := rfl

theorem witness_SbResetEmptiesBuffer : held.configured = true ∧ 0 < (held.buffer .recv).n.toNat := by decide +kernel

theorem witness_ConsecutiveInsertsKeepLastN : (1 ≤ 1 ∧ 4 * 1 ≤ 65536) ∧ 1 ≤ 16384 ∧ 4 * 16384 ≤ 65536 := by decide

/-- The window law of a buffer, checked over its listed tags. -/
def windowCheck (B : SeqBuf) : Bool :=
  B.tags.all fun c => match c.2 with
    | some q => decide (B.slot q = c.1) && decide ((B.newest - q).toNat < B.n.toNat)
    | none => true

theorem sound_of_windowCheck {B : SeqBuf} (h : windowCheck B = true) : B.ownSlots ∧ (B.exactSize → B.inWindow) := by
  have hc : ∀ k q, B.tag k = some q → B.slot q = k ∧ (B.newest - q).toNat < B.n.toNat := by
    intro k q hk
    have := List.all_eq_true.1 h _ (mem_of_tag hk)
    simpa using this
  exact ⟨fun k q hk => (hc k q hk).1, fun _ k q hk => (hc k q hk).2⟩

theorem windowsSound_of_check {s : State} (h : ∀ b, windowCheck (s.buffer b) = true) : s.windowsSound :=
  fun b => sound_of_windowCheck (h b)

/-- The step is an SB_INSERT of 12 into `held`; RECV's size is one the window law speaks of. -/
theorem witness_WindowInvariantKept : State.windowsSound (held.withFetchWord 32 0x000C0110) ∧ held.recv.exactSize ∧
    ∃ t, step (held.withFetchWord 32 0x000C0110) = .next t ∧ t.recv.s = 13 :=
  ⟨windowsSound_of_check (fun b => by cases b <;> decide +kernel), ⟨by decide, by decide, by decide⟩, _, rfl, by decide +kernel⟩

theorem witness_HeadersRoundTrip : (0 < 1 ∧ 1 ≤ 256) ∧ 255 < 256 ∧ 256 ≤ 256 := by decide

/-- The minimal header 20 64 00 01 with two payload bytes; and, of 95_test_vectors.md §4.1, a non-minimal header and one with
prefix bits 6 and 7 set, each exactly as long as it announces. -/
theorem witness_HdrDecReportsFields :
    let s := input State.reset [0x20, 0x64, 0, 1, 0xAA, 0xBB]
    let m : List Byte := [0x02, 0x64, 0, 0x63, 0, 0xFF]
    let x : List Byte := [0xE0, 5, 0, 0]
    s.arg2.toNat ≤ s.params.ibufBytes ∧
    readBytes s.ibuf 0 s.arg2.toNat = hdrEncode 100 99 0xFFFFFFFF ++ [0xAA, 0xBB] ∧
    (1 ≤ m.length ∧ byteNat m 0 % 2 = 0 ∧ announcedLength (byteNat m 0) = m.length ∧
      headerSeq m = 100 ∧ headerAck m = 99 ∧ headerBits m = 0xFFFFFFFF) ∧
    (1 ≤ x.length ∧ byteNat x 0 % 2 = 0 ∧ announcedLength (byteNat x 0) = x.length ∧
      headerSeq x = 5 ∧ headerAck x = 5 ∧ headerBits x = 0xFFFFFFFF) := by decide +kernel

/-- Lengths 16401 and 0, a marker, and the header 20 64 00 01 cut to one, two and three bytes. -/
theorem witness_HdrDecRejections :
    let a := input State.reset [0x21]
    let b := input State.reset [0x20]
    let c := input State.reset [0x20, 0x64, 0]
    State.reset.params.ibufBytes < (16401#32).toNat ∧ State.reset.arg2 = 0 ∧
    (1 ≤ a.arg2.toNat ∧ (readByte a.ibuf 0).toNat % 2 = 1) ∧
    (1 ≤ b.arg2.toNat ∧ (readByte b.ibuf 0).toNat % 2 = 0 ∧ b.arg2.toNat < announcedLength (readByte b.ibuf 0).toNat) ∧
    c.arg2.toNat ≤ c.params.ibufBytes ∧ (readByte c.ibuf 0).toNat % 2 = 0 ∧
    c.arg2.toNat + 1 = announcedLength (readByte c.ibuf 0).toNat := by decide +kernel

/-- id 255 of 256; then count 0, id 3 of 3, count 257. -/
theorem witness_FhdrEncWritesObuf :
    let s : U32 → U32 → State := fun id count => { State.reset with arg0 := id, arg1 := count }
    ((s 255 256).arg0.toNat < (s 255 256).arg1.toNat ∧ (s 255 256).arg1.toNat ≤ 256) ∧
    (s 0 0).arg1.toNat ≤ (s 0 0).arg0.toNat ∧ (s 3 3).arg1.toNat ≤ (s 3 3).arg0.toNat ∧
    256 < (s 0 257).arg1.toNat := by decide +kernel

theorem witness_FhdrDecReportsFields :
    let s : List Byte → State := input State.reset
    let a := s [1, 0, 0, 255, 255]
    let b := s [0, 0, 0, 0]
    let c := s [3, 0, 0, 0, 0]
    State.reset.params.ibufBytes < (16401#32).toNat ∧
    (a.arg2.toNat ≤ a.params.ibufBytes ∧ 5 ≤ a.arg2.toNat ∧ readByte a.ibuf 0 = 0x01) ∧
    (b.arg2.toNat ≤ b.params.ibufBytes ∧ b.arg2.toNat < 5) ∧
    (c.arg2.toNat ≤ c.params.ibufBytes ∧ 5 ≤ c.arg2.toNat ∧ readByte c.ibuf 0 ≠ 0x01) := by decide +kernel

/-- A short string, a marker (X3, X4 of 95_test_vectors.md §4.2), then one fragment for each clause: X5, X6; fragment 0 with
a header that does not decode (X7) and with one of another sequence (X8); X9, a short non-final one; and, on `partly`, a
stale sequence (65532 is before the window of S = 1, N = 4), a count mismatch (X11) and a repetition of F2. -/
theorem witness_FragmentRejections :
    (partly.configured = true ∧ (input partly f2).arg2.toNat ≤ partly.params.ibufBytes ∧
      readBytes (input partly f2).ibuf 0 (input partly f2).arg2.toNat = f2 ∧
      (fragCore f2 (input partly f2)).1 = .ended .fragDuplicate) ∧
    (fhdrDecode [1, 0, 0, 0] = .short ∧ fhdrDecode [3, 0, 0, 0, 0] = .marker) ∧
    fhdrDecode [1, 5, 0, 0, 0x10, 0, 0, 0, 0] = .fields ⟨5, 0, 17⟩ ∧ partly.cfg.maxFragments.toNat = 16 ∧
    fhdrDecode [1, 5, 0, 2, 1, 0, 0, 0, 0] = .fields ⟨5, 2, 2⟩ ∧
    (fhdrDecode [1, 6, 0, 0, 1, 0x3E, 6, 0] = .fields ⟨6, 0, 2⟩ ∧
      hdrDecode (List.drop 5 [1, 6, 0, 0, 1, 0x3E, 6, 0]) = .short) ∧
    (fhdrDecode [1, 6, 0, 0, 1, 0x20, 7, 0, 0, 0] = .fields ⟨6, 0, 2⟩ ∧
      hdrDecode (List.drop 5 [1, 6, 0, 0, 1, 0x20, 7, 0, 0, 0]) = .fields ⟨7, 7, 0xFFFFFFFF, 4⟩) ∧
    fhdrDecode [1, 6, 0, 1, 1, 0, 0, 0, 0, 0] = .fields ⟨6, 1, 2⟩ ∧ partly.cfg.fragmentSize.toNat = 4 ∧
    fhdrDecode [1, 6, 0, 1, 2, 0, 0, 0] = .fields ⟨6, 1, 3⟩ ∧
    (fhdrDecode [1, 0xFC, 0xFF, 1, 1] = .fields ⟨65532, 1, 2⟩ ∧ sbFind partly.frag 65532 = none ∧
      sbStale partly.frag 65532 = true) ∧
    (fhdrDecode [1, 0, 0, 1, 3, 0, 0, 0, 0] = .fields ⟨0, 1, 4⟩ ∧ sbFind partly.frag 0 = some 0 ∧
      (partly.fragEntry 0).numTotal.toNat ≠ 4) ∧
    (fhdrDecode f2 = .fields ⟨0, 2, 3⟩ ∧ (partly.fragEntry 0).numTotal.toNat = 3 ∧
      (partly.fragEntry 0).received.getLsbD 2 = true) := by decide +kernel

/-- What F1 and F0 carry: no header and the payload from byte 5; the eight-byte header 3E 00 00 01 00 00 00 00 and the
payload from byte 13. -/
theorem f1_carries : FragmentHeader.carries ⟨0, 1, 3⟩ f1 [] 5 := .inl ⟨by decide, rfl, rfl⟩

theorem f0_carries : FragmentHeader.carries ⟨0, 0, 3⟩ f0 [0x3E, 0, 0, 1, 0, 0, 0, 0] 13 :=
  .inr ⟨rfl, ⟨0, 65535, 0, 8⟩, by decide +kernel⟩

/-- F0 as the first fragment of its packet: the header and the first four payload bytes. -/
theorem witness_FragRxOpensReassembly :
    let s := input (fresh cfgC) f0
    let b := readBytes s.ibuf 0 s.arg2.toNat
    b = f0 ∧ FragmentHeader.carries ⟨0, 0, 3⟩ f0 [0x3E, 0, 0, 1, 0, 0, 0, 0] 13 ∧
    s.configured = true ∧ s.arg2.toNat ≤ s.params.ibufBytes ∧ fhdrDecode b = .fields ⟨0, 0, 3⟩ ∧
    3 ≤ s.cfg.maxFragments.toNat ∧ b.length - 13 = s.cfg.fragmentSize.toNat ∧
    sbFind s.frag 0 = none ∧ sbStale s.frag 0 = false :=
  ⟨by decide +kernel, f0_carries, by decide +kernel⟩

/-- F1 after F2: stored in slot 0, the second of three. -/
theorem witness_FragRxStoresFragment :
    let s := input partly f1
    let b := readBytes s.ibuf 0 s.arg2.toNat
    b = f1 ∧ FragmentHeader.carries ⟨0, 1, 3⟩ f1 [] 5 ∧
    s.configured = true ∧ s.arg2.toNat ≤ s.params.ibufBytes ∧ fhdrDecode b = .fields ⟨0, 1, 3⟩ ∧
    3 ≤ s.cfg.maxFragments.toNat ∧ b.length - 5 = s.cfg.fragmentSize.toNat ∧
    sbFind s.frag 0 = some 0 ∧ (s.fragEntry 0).numTotal.toNat = 3 ∧ (s.fragEntry 0).received.getLsbD 1 = false ∧
    (s.fragEntry 0).numReceived + 1 ≠ (s.fragEntry 0).numTotal :=
  ⟨by decide +kernel, f1_carries, by decide +kernel⟩

/-- The state after F2 and F0, with F1 in IBUF. -/
def nearlyComplete : State := input ((after (exec .fragRx (input partly f0)) id).getD State.reset) f1

theorem nearlyComplete_completes : nearlyComplete.configured = true ∧
    nearlyComplete.arg2.toNat ≤ nearlyComplete.params.ibufBytes ∧
    (fragCore (readBytes nearlyComplete.ibuf 0 nearlyComplete.arg2.toNat) nearlyComplete).1 =
      .complete 0 [0x3E, 0, 0, 1, 0, 0, 0, 0, 0, 1, 2, 3, 4, 5, 6, 7, 8, 9] := by decide +kernel

/-- A packet of one fragment: a regular header and two payload bytes. -/
def single : List Byte := [1, 5, 0, 0, 0, 0x3E, 5, 0, 1, 0, 0, 0, 0, 1, 2]

/-- F1 as the last of three fragments, of a packet FRAG holds; and a packet of one fragment, which FRAG does not hold. -/
theorem witness_FragRxCompletesPacket :
    let s := nearlyComplete
    let o := input (fresh cfgC) single
    (fhdrDecode f1 = .fields ⟨0, 1, 3⟩ ∧ FragmentHeader.carries ⟨0, 1, 3⟩ f1 [] 5 ∧
      3 ≤ s.cfg.maxFragments.toNat ∧ f1.length - 5 = s.cfg.fragmentSize.toNat ∧ sbFind s.frag 0 = some 0 ∧
      (s.fragEntry 0).numTotal.toNat = 3 ∧ (s.fragEntry 0).received.getLsbD 1 = false ∧
      (s.fragEntry 0).numReceived + 1 = (s.fragEntry 0).numTotal) ∧
    (fhdrDecode single = .fields ⟨5, 0, 1⟩ ∧
      FragmentHeader.carries ⟨5, 0, 1⟩ single [0x3E, 5, 0, 1, 0, 0, 0, 0] 13 ∧
      1 ≤ o.cfg.maxFragments.toNat ∧ single.length - 13 ≤ o.cfg.fragmentSize.toNat ∧ 0 = 1 - 1 ∧
      sbFind o.frag 5 = none ∧ (∃ B, sbInsert o.frag 5 = some (B, 1)) ∧ (0 : U16) + 1 = BitVec.ofNat 16 1) ∧
    (s.configured = true ∧ s.arg2.toNat ≤ s.params.ibufBytes ∧ sbFind s.frag 0 ≠ none ∧
      ∃ q pkt u, fragCore (readBytes s.ibuf 0 s.arg2.toNat) s = (.complete q pkt, u)) ∧
    (o.configured = true ∧ o.arg2.toNat ≤ o.params.ibufBytes ∧ sbFind o.frag 5 = none ∧
      (fragCore (readBytes o.ibuf 0 o.arg2.toNat) o).1 = .complete 5 [0x3E, 5, 0, 1, 0, 0, 0, 0, 1, 2]) :=
  ⟨⟨by decide +kernel, f1_carries, by decide +kernel⟩,
    ⟨by decide +kernel, .inr ⟨rfl, ⟨5, 4, 0, 8⟩, by decide +kernel⟩, by decide +kernel, by decide +kernel, rfl,
      by decide +kernel, ⟨_, rfl⟩, rfl⟩,
    ⟨nearlyComplete_completes.1, nearlyComplete_completes.2.1, by decide +kernel, _, _, _,
    Prod.ext nearlyComplete_completes.2.2 rfl⟩, by decide +kernel⟩

theorem cfgC_configSound : (fresh cfgC).configSound := by
  unfold State.configSound
  decide +kernel

/-- F2, F0, F1 of a ten-byte packet. -/
theorem witness_FragmentsReassembleInAnyOrder :
    let s := fresh cfgC
    let p : List Byte := [0, 1, 2, 3, 4, 5, 6, 7, 8, 9]
    s.configSound ∧ s.configured = true ∧ 1 ≤ p.length ∧
    ceilDiv p.length s.cfg.fragmentSize.toNat ≤ s.cfg.maxFragments.toNat ∧ sbStale s.frag 0 = false ∧
    sbFind s.frag 0 = none ∧ [2, 0, 1].Perm (List.range (ceilDiv p.length s.cfg.fragmentSize.toNat)) :=
  ⟨cfgC_configSound, by decide +kernel⟩

theorem getLsbD_four {i : Nat} (h : (4#256 : BitVec 256).getLsbD i = true) : i = 2 := by
  by_cases hi : i < 256
  · have : ∀ i, i < 256 → (4#256 : BitVec 256).getLsbD i = true → i = 2 := by decide +kernel
    exact this i hi h
  · rw [BitVec.getLsbD_of_ge _ _ (by omega)] at h
    cases h

theorem partly_reassemblySound : partly.reassemblySound := by
  refine ⟨by unfold State.configSound; decide +kernel, fun k q h => ?_⟩
  have hm := mem_of_tag h
  simp only [partly, List.mem_cons, Prod.mk.injEq, Option.some.injEq, List.not_mem_nil, or_false] at hm
  obtain ⟨rfl, rfl⟩ := hm
  exact ⟨rfl, by decide, by decide, fun i hi => by rw [getLsbD_four hi]; decide, by decide +kernel, rfl, by decide +kernel⟩

/-- The step is FRAG_RX of F1 into `partly`. -/
theorem witness_ReassemblyInvariantKept : State.reassemblySound ((input partly f1).withFetchWord 32 0x30) ∧
    ∃ t, step ((input partly f1).withFetchWord 32 0x30) = .next t ∧ t.code = .fragStored :=
  ⟨partly_reassemblySound, _, rfl, by decide +kernel⟩

/-- 2.0 and 1.0 in binary64, the word of zeros in another format, a value on each side of the overflow bound. -/
theorem witness_NumRoundsOnce : numExact .binary64 two = some 2 ∧ numExact .binary64 one = some 1 ∧ (1 : ℚ) ≠ 0 ∧
    numExact (.other 0) 0 = some 0 ∧ |(1 / 3 : ℚ)| < 2 ^ 1024 - 2 ^ 970 ∧ (2 ^ 1024 - 2 ^ 970 : ℚ) ≤ |(-2 ^ 1024 : ℚ)| ∧
    2 ^ 53 - 1 < 2 ^ 53 :=
  ⟨by decide +kernel, by decide +kernel, by decide +kernel, numExact_zero _, by decide +kernel, by decide +kernel, by decide⟩

/-- Each selection, the two refused ones at the ends of the range, and a NaN operand. -/
theorem witness_StatSmoothSelects :
    let s : U32 → NumWord → State := fun sel raw => { fresh cfgA with arg0 := sel, numin := raw }
    ((s 1 fifty).configured = true ∧ numFinite (s 1 fifty).params.num (s 1 fifty).numin = true ∧
      numFinite (s 1 notANumber).params.num (s 1 notANumber).numin = false) ∧
    ((s 1 fifty).arg0 = 1 ∧ (s 2 fifty).arg0 = 2 ∧ (s 3 fifty).arg0 = 3 ∧ (s 4 fifty).arg0 = 4) ∧
    ((s 0 fifty).arg0 = 0 ∧ 5 ≤ (s 5 fifty).arg0.toNat) ∧
    (numIsNan .binary64 notANumber = true ∧ numIsNan .binary64 fifty = false) := by decide +kernel

/-- 95_test_vectors.md §4.3: (0, 50) snaps; (10, 0) is smoothed; NaN is refused. -/
theorem witness_RttFoldCases :
    let ten : NumWord := 0x4024000000000000#64
    let eps := Params.reference.snapEps
    let num := Params.reference.num
    (numEq num 0 0 = true ∧ numLt num 0 fifty = true) ∧ numAbsLt num (numSub num fifty fifty) eps = true ∧
    ¬ ((numEq num ten 0 = true ∧ numLt num 0 0 = true) ∨ numAbsLt num (numSub num ten 0) eps = true) ∧
    numFinite num fifty = true ∧ numFinite num notANumber = false := by decide +kernel

/-- 95_test_vectors.md P6, shortened: four sent records, times 1.0 and 2.0. -/
def measured : State :=
  { fresh cfgA with
    sent := ⟨8, 8, [(0, some 0), (1, some 1), (2, some 2), (3, some 3)]⟩
    sentRecords := [(0, ⟨one, false, 100⟩), (1, ⟨one, false, 100⟩), (2, ⟨two, false, 100⟩), (3, ⟨two, false, 100⟩)] }

theorem measured_timesFinite : measured.timesFinite :=
  ⟨by decide +kernel,
    fun k => Table.get_of_forall (P := fun r : SentRecord => numFinite .binary64 r.time = true) (by decide +kernel) (by decide +kernel) k,
    fun k => Table.get_of_forall (P := fun r : RecvRecord => numFinite .binary64 r.time = true) (by decide +kernel) (by decide +kernel) k⟩

/-- Two sampled times; and four sent records. -/
theorem witness_StatUpdateRecomputes : ([(two, 1), (one, 2)] : List (NumWord × U32)) ≠ [] ∧
    (∀ x ∈ ([(two, 1), (one, 2)] : List (NumWord × U32)), numFinite .binary64 x.1 = true) ∧ measured.configured = true ∧
    (∀ k, numFinite measured.params.num (measured.sentRecord k).time = true) ∧
    ∀ k, numFinite measured.params.num (measured.recvRecord k).time = true :=
  ⟨List.cons_ne_nil _ _,
    List.forall_mem_cons.2 ⟨(by decide +kernel : numFinite .binary64 two = true),
      List.forall_mem_cons.2 ⟨(by decide +kernel : numFinite .binary64 one = true), List.forall_mem_nil _⟩⟩,
    rfl, measured_timesFinite.2.1, measured_timesFinite.2.2⟩

theorem witness_LossWarmsUpTowardZero :
    let s := fresh cfgA
    s.configured = true ∧ 2 ≤ s.sent.n.toNat ∧ s.sent.n.toNat ≤ 65536 ∧
    (∀ i, i < s.sent.n.toNat / 2 → sbFind s.sent (s.sent.oldest + BitVec.ofNat 16 i) = none) ∧
    (∀ i, i < s.recv.n.toNat / 2 → sbFind s.recv (s.recv.oldest + BitVec.ofNat 16 i) = none) := by decide +kernel

/-- CFG-A, and CFG-A at the bounds of R190: least buffers, `fragment_above` at `max_packet_size`. -/
theorem witness_EpCreateConfigures :
    let least : CfgRegs := ⟨1, 1, 1, 1, 1, 2, 1, 1, 0, 0, 0, 0, 0, 0⟩
    State.reset.configured = false ∧ cfgA.valid State.reset.params ∧ least.valid State.reset.params := by decide +kernel

/-- A payload of `fragment_above` bytes, and the empty one; and a SENT buffer (S = 17) that rejects sequence 0. -/
theorem witness_EpSendRaisesTx :
    let s : State := { fresh cfgA with arg2 := 512 }
    let e : State := fresh cfgA
    (s.configured = true ∧ s.arg2.toNat ≤ s.params.ibufBytes ∧ s.arg2.toNat ≤ s.cfg.maxPacketSize.toNat ∧
      s.arg2.toNat ≤ s.cfg.fragmentAbove.toNat ∧ sbStale s.sent s.sequence = false ∧
      s.cfg.packetHeaderSize.toNat + s.arg2.toNat < 2 ^ 32) ∧
    (e.arg2.toNat = 0 ∧ e.configured = true ∧ sbStale { e.sent with s := 17 } e.sequence = true) := by decide +kernel

/-- The ten bytes of 95_test_vectors.md P4, ready to be sent. -/
def sending : State := input (fresh cfgC) [0, 1, 2, 3, 4, 5, 6, 7, 8, 9]

theorem witness_EpSendRaisesFirstFragment : sending.configSound ∧ sending.configured = true ∧
    sending.arg2.toNat ≤ sending.params.ibufBytes ∧ sending.arg2.toNat ≤ sending.cfg.maxPacketSize.toNat ∧
    sending.cfg.fragmentAbove.toNat < sending.arg2.toNat :=
  ⟨cfgC_configSound, by decide +kernel⟩

/-- The send of ten bytes in three fragments; and the steps after its first and after its last TX event. -/
theorem witness_FragmentedSendTerminates :
    let f : Nat → Frame := fun next => ⟨.sendFragments 0 [0, 1, 2, 3, 4, 5, 6, 7, 8, 9] next 3, ⟨.tx, 0, []⟩⟩
    let s : Nat → State := fun next =>
      { waiting with stack := f next :: waiting.stack, host := [.write 4 0x194#32 0#32] }
    (sending.configSound ∧ sending.stack = [] ∧ ∃ t, exec .epSend sending = .next t ∧ t.depth = 1) ∧
    ((s 1).nextEndsEvent 0 [] ∧ (s 1).inCallback = true ∧ (s 1).stack = f 1 :: waiting.stack ∧ 1 < 3) ∧
    (s 3).nextEndsEvent 0 [] ∧ (s 3).inCallback = true ∧ (s 3).stack = f 3 :: waiting.stack :=
  ⟨⟨cfgC_configSound, rfl, _, rfl, by decide +kernel⟩, ⟨rfl, rfl, rfl, by decide⟩, rfl, rfl, rfl⟩

/-- The send of P3, alone and nested in another send's TX event. -/
theorem witness_SendCompletesAtEventEnd :
    let s := { waiting with host := [.write 4 0x194#32 0#32] }
    let t := { s with stack := s.stack ++ s.stack }
    (s.nextEndsEvent 0 [] ∧ s.inCallback = true ∧ ∃ e, s.stack = ⟨.sendRegular 0, e⟩ :: []) ∧
    t.nextEndsEvent 0 [] ∧ t.inCallback = true ∧ ∃ e f, t.stack = ⟨.sendRegular 0, e⟩ :: f :: [] :=
  ⟨⟨rfl, rfl, _, rfl⟩, rfl, rfl, _, _, rfl⟩

/-- B of 95_test_vectors.md P3, before its receive. -/
def receiving : State := input (fresh cfgA) [0x3E, 0, 0, 1, 0, 0, 0, 0, 0xAA, 0xBB, 0xCC]

theorem witness_EpReceiveRaisesDeliver : receiving.configured = true ∧
    receiving.arg2.toNat ≤ receiving.params.ibufBytes ∧ receiving.arg2.toNat ≤ receiving.cfg.maxPacketSize.toNat ∧
    hdrDecode (readBytes receiving.ibuf 0 receiving.arg2.toNat) = .fields ⟨0, 65535, 0, 8⟩ ∧
    sbStale receiving.recv 0 = false := by decide +kernel

/-- A stored fragment; a completed packet that fits; the same when RECV (S = 17) makes it stale; and, with
`max_packet_size` 17, one that is too large. -/
theorem witness_EpReceiveFragments :
    let s := input partly f1
    let n := nearlyComplete
    let o := { n with recv := { n.recv with s := 17 } }
    let m := { n with cfg := { n.cfg with maxPacketSize := 17 } }
    let pkt : List Byte := [0x3E, 0, 0, 1, 0, 0, 0, 0, 0, 1, 2, 3, 4, 5, 6, 7, 8, 9]
    (s.configured = true ∧ 1 ≤ s.arg2.toNat ∧ s.arg2.toNat ≤ s.cfg.maxPacketSize.toNat ∧
      (readByte s.ibuf 0).getLsbD 0 = true ∧
      (fragCore (readBytes s.ibuf 0 s.arg2.toNat) s).1 = .ended .fragStored) ∧
    (n.configured = true ∧ 1 ≤ n.arg2.toNat ∧ n.arg2.toNat ≤ n.cfg.maxPacketSize.toNat ∧
      (readByte n.ibuf 0).getLsbD 0 = true ∧
      (fragCore (readBytes n.ibuf 0 n.arg2.toNat) n).1 = .complete 0 pkt ∧
      pkt.length ≤ n.cfg.maxPacketSize.toNat ∧ hdrDecode pkt = .fields ⟨0, 65535, 0, 8⟩ ∧
      sbStale (fragCore (readBytes n.ibuf 0 n.arg2.toNat) n).2.recv 0 = false) ∧
    ((fragCore (readBytes o.ibuf 0 o.arg2.toNat) o).1 = .complete 0 pkt ∧
      sbStale (fragCore (readBytes o.ibuf 0 o.arg2.toNat) o).2.recv 0 = true) ∧
    (m.configured = true ∧ 1 ≤ m.arg2.toNat ∧ m.arg2.toNat ≤ m.cfg.maxPacketSize.toNat ∧
      (fragCore (readBytes m.ibuf 0 m.arg2.toNat) m).1 = .complete 0 pkt ∧ m.cfg.maxPacketSize.toNat < pkt.length) := by
  decide +kernel

/-- 95_test_vectors.md E1, E4, E3, E9, E8 and E10, E11, a packet of sequence 65520 that S = 12 makes stale, and
configurations just past bounds of R190 (CFG-C with one register or parameter changed). -/
theorem witness_EndpointRefusals :
    let r := input held [0x20, 0xF0, 0xFF, 0]
    (State.reset.configured = false ∧ State.reset.cfg = CfgRegs.zero ∧ ¬ CfgRegs.zero.valid State.reset.params ∧
      ¬ { cfgC with maxPacketSize := 68 }.valid State.reset.params) ∧
    (let c := cfgC
      let p := State.reset.params
      State.reset.configured = false ∧
      { c with maxPacketSize := 0 }.maxPacketSize.toNat < 1 ∧ p.ibufBytes < { c with maxPacketSize := 16401 }.maxPacketSize.toNat ∧
      256 < { c with maxFragments := 257 }.maxFragments.toNat ∧ p.maxAcks < { c with ackBufferSize := 1025 }.ackBufferSize.toNat ∧
      { c with sentBufferSize := 1 }.sentBufferSize.toNat < 2 ∧
      p.maxSbEntries < { c with receivedBufferSize := 1025 }.receivedBufferSize.toNat ∧
      numFinite p.num { c with rttFactor := notANumber }.rttFactor = false ∧
      p.obufBytes < 9 + c.maxFragments.toNat * { c with fragmentSize := 1025 }.fragmentSize.toNat ∧
      { p with reasmBytes := 72 }.reasmBytes < 9 + c.maxFragments.toNat * c.fragmentSize.toNat ∧
      c.fragmentAbove.toNat < { c with maxPacketSize := 65 }.maxPacketSize.toNat ∧
      c.maxFragments.toNat * c.fragmentSize.toNat < { c with maxPacketSize := 65 }.maxPacketSize.toNat) ∧
    ((fresh cfgA).configured = true ∧ (fresh cfgA).params.ibufBytes < (16401#32).toNat ∧
      (fresh cfgA).cfg.maxPacketSize.toNat < (1025#32).toNat ∧ (1025#32).toNat ≤ (fresh cfgA).params.ibufBytes ∧
      hdrDecode (readBytes (fresh cfgA).ibuf 0 0) = .short) ∧
    (r.configured = true ∧ r.arg2.toNat ≤ r.cfg.maxPacketSize.toNat ∧
      hdrDecode (readBytes r.ibuf 0 r.arg2.toNat) = .fields ⟨65520, 65520, 0xFFFFFFFF, 4⟩ ∧
      sbStale r.recv 65520 = true) := by decide +kernel

/-- Both answers to P3's DELIVER, alone and inside another event; sequence 0 is not stale in a fresh RECV, and is once S is
17. -/
theorem witness_DeliverAnswerRecords :
    let s : U32 → State := fun v => { delivering none with host := [.write 4 0x194#32 v] }
    let t := { s 1 with stack := (s 1).stack ++ waiting.stack }
    ((s 0).nextEndsEvent 0 [] ∧ (s 1).nextEndsEvent 1 [] ∧ t.nextEndsEvent 1 []) ∧
    ((s 1).inCallback = true ∧ (s 1).stack = [⟨.deliver 0 65535 0 11 none, ⟨.deliver, 0, [0xAA, 0xBB, 0xCC]⟩⟩] ∧
      t.inCallback = true ∧ t.stack = ⟨.deliver 0 65535 0 11 none, ⟨.deliver, 0, [0xAA, 0xBB, 0xCC]⟩⟩ :: waiting.stack ∧
      (s 1).cfg.packetHeaderSize.toNat + 11 < 2 ^ 32 ∧ (0#32).toNat % 2 = 0 ∧ (1#32).toNat % 2 = 1 ∧
      sbStale (s 1).recv 0 = false ∧ sbStale { (s 1).recv with s := 17 } 0 = true) :=
  ⟨⟨rfl, rfl, rfl⟩, by decide +kernel⟩

/-- Bit 0 set for a held sequence, the list not full after the walk; and an entry before the walk. -/
theorem witness_AckWalkRecordsAcks :
    let s := { waiting with ackCount := 1 }
    (s.ackWalk 0 1 32).ackCount < s.cfg.ackBufferSize ∧ (1#32).getLsbD 0 = true ∧ sbFind s.sent (0 - 0) = some 0 ∧
    0 < s.ackCount.toNat ∧ (s.sentRecord 0).acked = false ∧ ((s.ackWalk 0 1 32).sentRecord 0).acked = true := by
  decide +kernel

theorem witness_RebuiltPacketEndsReassembly :
    let s : U32 → State := fun v => { delivering (some 0) with host := [.write 4 0x194#32 v] }
    let t := { s 1 with stack := (s 1).stack ++ waiting.stack }
    ((s 0).nextEndsEvent 0 [] ∧ (s 1).nextEndsEvent 1 [] ∧ t.nextEndsEvent 1 []) ∧
    (s 0).inCallback = true ∧ t.inCallback = true ∧ (∃ e, (s 0).stack = ⟨.deliver 0 65535 0 11 (some 0), e⟩ :: []) ∧
    ∃ e, t.stack = ⟨.deliver 0 65535 0 11 (some 0), e⟩ :: waiting.stack :=
  ⟨⟨rfl, rfl, rfl⟩, rfl, rfl, ⟨_, rfl⟩, _, rfl⟩

/-- A and B of 95_test_vectors.md P3. -/
theorem witness_SentPacketIsDelivered :
    let a := input (fresh cfgA) [0xAA, 0xBB, 0xCC]
    let b := receiving
    (a.configured = true ∧ a.arg2.toNat ≤ a.params.ibufBytes ∧ a.arg2.toNat ≤ a.cfg.maxPacketSize.toNat ∧
      a.arg2.toNat ≤ a.cfg.fragmentAbove.toNat) ∧
    after (exec .epSend a) (·.stack) = some waiting.stack ∧
    (∀ f ∈ waiting.stack, b.arg2.toNat = f.event.bytes.length ∧
      readBytes b.ibuf 0 b.arg2.toNat = f.event.bytes) ∧
    (b.configured = true ∧ b.arg2.toNat ≤ b.params.ibufBytes ∧ b.arg2.toNat ≤ b.cfg.maxPacketSize.toNat ∧
      sbStale b.recv a.sequence = false) := by decide +kernel

theorem witness_EpUpdateSetsTime : (fresh cfgA).configured = true ∧
    numFinite (fresh cfgA).params.num { fresh cfgA with numin := two }.numin = true ∧
    numFinite (fresh cfgA).params.num { fresh cfgA with numin := notANumber }.numin = false := by decide +kernel

theorem witness_EpResetAndAckClear : held.configured = true ∧ held.params.resetClearsStats = false ∧
    { held with params := { held.params with resetClearsStats := true } }.params.resetClearsStats = true := by
  decide +kernel

/-- A full stack; a block inside a step; an idle block with an access at each boundary: the last register address, the two
gaps of the map, the word after ACKS, the first and the last read-only registers, the first address of the buffer region,
and the bytes next to each window. -/
theorem witness_HostInterfaceFaults :
    let f : Frame := ⟨.sendRegular 0, ⟨.tx, 0, []⟩⟩
    let full := { waiting with stack := [f, f, f, f] }
    (0 < full.depth ∧ full.inCallback = true ∧ full.params.maxNest ≤ full.depth) ∧
    (0 < { waiting with inCallback := false }.depth ∧ State.reset.inCallback = false) ∧
    (State.reset.insideStep = false ∧ (0x1FFFF#32).toNat < 0x20000 ∧ (1 : Nat) ≠ 4 ∧ (0x1FFFF#32).toNat % 4 ≠ 0) ∧
    ((0x14#32).toNat % 4 = 0 ∧ (0x14#32).toNat ∉ mappedRegisters ∧ (0x12C#32).toNat ∉ mappedRegisters ∧
      0x10000 + 4 * State.reset.params.maxAcks = (0x11000#32).toNat ∧
      (0x4#32).toNat ∈ readOnlyRegisters ∧ (0x190#32).toNat ∈ readOnlyRegisters ∧
      (0x10FFC#32).toNat < 0x10000 + 4 * State.reset.params.maxAcks) ∧
    (0x20000 ≤ (0x20000#32).toNat ∧ (2 : Nat) ≠ 1 ∧ (2 : Nat) ≠ 4 ∧ (0x100001#32).toNat % 4 ≠ 0 ∧
      (∀ a ∈ [0x20000, 0xFFFFF, 0x104010, 0x1FFFFF, 0x204010, 0x2FFFFF, 0x30401E, 0xFFFFFFFF],
        ∀ x ∈ State.reset.byteWindows, a < x.1 ∨ x.1 + x.2.1 ≤ a)) ∧
    State.reset.params.wf ∧
    (0x200000 ≤ (0x200000#32).toNat ∧ (0x20400F#32).toNat + 1 = 0x200000 + State.reset.params.obufBytes ∧
      (0x20400C#32).toNat % 4 = 0 ∧ (0x20400C#32).toNat + 4 = 0x200000 + State.reset.params.obufBytes) ∧
    (0x300000 ≤ (0x300000#32).toNat ∧ (0x30401D#32).toNat + 1 = 0x300000 + State.reset.params.ebufBytes ∧
      (0x304018#32).toNat % 4 = 0 ∧ (0x304018#32).toNat + 4 ≤ 0x300000 + State.reset.params.ebufBytes) := by
  decide +kernel

/-- STATUS inside an event; RES0, the HI word of TIME and the last entry of ACKS; the last word and the last byte of OBUF. -/
theorem witness_ReadsHaveNoSideEffect :
    let s : Nat → U32 → State := fun w a =>
      { waiting with host := [.read w a], res0 := 9, time := two, acks := [(1023, 5)], obuf := [(16399, 6)] }
    (s 4 0x4).host = .read 4 0x4#32 :: [] ∧ (s 4 0x4).insideStep = false ∧ (s 4 0x4).params.wf ∧
    after (step (s 4 0x4)) (·.readData) = some 0x00010300 ∧
    after (step (s 4 0x20)) (·.readData) = some 9 ∧ (0x44, 0x40000000) ∈ (s 4 0x44).registerReads ∧
    after (step (s 4 0x44)) (·.readData) = some 0x40000000 ∧
    1023 < (s 4 0).params.maxAcks ∧ after (step (s 4 0x10FFC)) (·.readData) = some 5 ∧
    16399 < (s 1 0).params.obufBytes ∧ after (step (s 1 0x20400F)) (·.readData) = some 6 ∧
    16396 % 4 = 0 ∧ 16396 + 4 ≤ (s 4 0).params.obufBytes ∧ after (step (s 4 0x20400C)) (·.readData) = some 0x06000000 := by
  decide +kernel

/-- The last configuration register, and the unmapped word between INDEX and RTT_SMOOTHING_FACTOR left out. -/
theorem witness_PlainRegistersHoldWrites :
    State.reset.insideStep = false ∧ State.reset.configured = false ∧ (fresh cfgA).insideStep = false ∧
    (fresh cfgA).configured = true ∧
    (0x144, { cfgA with bandwidthFactor := 0x0000000500000000#64 }) ∈ cfgA.writes 5 ∧
    registerAt (fresh cfgA).params 0x12C = none := by decide +kernel

/-- The first and the last word of IBUF, the last byte of a word, and the last byte of IBUF. -/
theorem witness_StoredWordReadsBytewise : State.reset.insideStep = false ∧ State.reset.host = [] ∧
    0 % 4 = 0 ∧ 16396 % 4 = 0 ∧ 16396 + 4 ≤ State.reset.params.ibufBytes ∧ State.reset.params.ibufBytes ≤ 1048562 ∧
    3 < 4 ∧ 16399 < State.reset.params.ibufBytes := by decide +kernel

/-- An ignored write of a configuration register. -/
theorem witness_ConfigurationIsLocked :
    let s := { fresh cfgA with host := [.write 4 0x100#32 5#32] }
    s.configured = true ∧ after (step s) (·.cfg.maxPacketSize) = some 1024 := by decide +kernel

/-- IBUF, OBUF, TIME and SEQUENCE each change in a step of their owner. -/
theorem witness_OnlyTheirOwnersWrite :
    after (step { State.reset with host := [.write 1 0x100000#32 7#32] }) (·.ibuf) = some [(0, 7)] ∧
    after (step (State.reset.withFetchWord 32 0x00050020)) (fun t => decide (t.obuf ≠ State.reset.obuf)) = some true ∧
    after (step ({ fresh cfgA with numin := one }.withFetchWord 32 0x53)) (·.time) = some one ∧
    after (step ((fresh cfgA).withFetchWord 32 0x51)) (·.sequence) = some 1 := by decide +kernel

/-- Listed bytes of IBUF and REASM. -/
theorem partly_spacesFit : (input partly f1).spacesFit :=
  ⟨by decide +kernel, by decide +kernel, by decide +kernel,
    Table.get_of_forall (P := fun m : Memory => Table.below m Params.reference.reasmBytes) (by decide +kernel) (by decide +kernel),
    by decide +kernel, by decide +kernel⟩

/-- A pending event in EBUF. -/
theorem waiting_spacesFit : waiting.spacesFit :=
  ⟨by decide +kernel, by decide +kernel, by decide +kernel,
    Table.get_of_forall (P := fun m : Memory => Table.below m Params.reference.reasmBytes) (by decide +kernel) (by decide +kernel),
    by decide +kernel, by decide +kernel⟩

/-- An SB_INSERT of 12 into `held`, and FRAG_RX of F1 into `partly`. -/
theorem witness_CanonicalFormKept : held.tablesCanonical ∧
    (∃ t, step (held.withFetchWord 32 0x000C0110) = .next t ∧ t.recv.s = 13) ∧
    (let s := (input partly f1).withFetchWord 32 0x30
     s.reassemblySound ∧ s.spacesFit ∧ ∃ t, step s = .next t ∧ t.code = .fragStored) := by
  refine ⟨?_, ⟨_, rfl, by decide +kernel⟩, partly_reassemblySound, partly_spacesFit, _, rfl, by decide +kernel⟩
  unfold State.tablesCanonical Table.wf
  decide +kernel

theorem waiting_stackSound : waiting.stackSound := by
  refine ⟨by decide, fun _ => rfl, rfl, ?_⟩
  unfold State.shows
  decide +kernel

/-- The step ends the TX event of `waiting`. -/
theorem witness_StackInvariantKept :
    let s := { waiting with host := [.write 4 0x194#32 0#32] }
    s.params.wf ∧ s.stackSound ∧ ∃ t, step s = .next t ∧ t.stack = [] :=
  ⟨by decide, waiting_stackSound, _, rfl, by decide +kernel⟩

theorem held_configSound : held.configSound := by
  unfold State.configSound
  decide +kernel

/-- The step is an SB_INSERT of 12 into `held`. -/
theorem witness_EndpointInvariantKept : held.configSound ∧ held.acksBounded ∧ held.timesFinite ∧
    ∃ t, step (held.withFetchWord 32 0x000C0110) = .next t ∧ t.recv.s = 13 :=
  ⟨held_configSound, by unfold State.acksBounded; decide +kernel,
    ⟨by decide +kernel,
      fun k => Table.get_of_forall (P := fun r : SentRecord => numFinite .binary64 r.time = true) (by decide +kernel) (by decide +kernel) k,
      fun k => Table.get_of_forall (P := fun r : RecvRecord => numFinite .binary64 r.time = true) (by decide +kernel) (by decide +kernel) k⟩,
    _, rfl, by decide +kernel⟩

end Sys2Proof.Machine.Tests
end

section
/-! PROOF. The command word: what decodes is legal, and a CMD write of a word that is not legal (30_encoding.md R88, R100). -/

namespace Sys2Proof

/-! ### The fields of a word that decodes -/

theorem requireNoBuf_eq_ok {buf : BitVec 2} {i j : Instr} (h : requireNoBuf buf i = .ok j) : buf.toNat = 0 := by
  unfold requireNoBuf at h
  split at h
  · next hbuf => exact congrArg BitVec.toNat hbuf
  · cases h

theorem requireBare_eq_ok {buf : BitVec 2} {imm : U16} {i j : Instr} (h : requireBare buf imm i = .ok j) :
    buf.toNat = 0 ∧ imm.toNat = 0 := by
  unfold requireBare at h
  split at h
  · next hbuf =>
    split at h
    · next himm => exact ⟨congrArg BitVec.toNat hbuf, congrArg BitVec.toNat himm⟩
    · cases h
  · cases h

theorem requireBuf_eq_ok {buf : BitVec 2} {f : BufSel → Except IllegalWord Instr} {j : Instr}
    (h : requireBuf buf f = .ok j) : ∃ b : BufSel, b.bits = buf ∧ f b = .ok j := by
  unfold requireBuf at h
  split at h
  · next b hb => exact ⟨b, bits_of_bufOf hb, h⟩
  · cases h

theorem BufSel.bits_toNat_le (b : BufSel) : b.bits.toNat ≤ 2 := by cases b <;> decide

/-- The OPC values of a command are those of its rows in the opcode map. -/
theorem opc_mem_of_rows {opc : Byte} {op : Opcode} {values : List Nat} (hop : (opc, op) ∈ opcodeMap)
    (hrows : ∀ row ∈ opcodeMap, row.2 = op → row.1.toNat ∈ values) : opc.toNat ∈ values :=
  hrows _ hop rfl

/-- A word that decodes has RSV = 0 and its OPC in the opcode map. -/
theorem decode_eq_ok {w : U32} {i : Instr} (h : decode w = .ok i) :
    w.extractLsb' 10 6 = 0 ∧ ∃ op, (w.extractLsb' 0 8, op) ∈ opcodeMap ∧
      decodeFields op (w.extractLsb' 8 2) (w.extractLsb' 16 16) = .ok i := by
  unfold decode at h
  split at h
  · cases h
  · next op hop =>
    split at h
    · next hrsv => exact ⟨hrsv, op, mem_opcodeMap hop, h⟩
    · cases h

end Sys2Proof

namespace Sys2Proof.Machine

/-! ### Legal words -/

/-- `legalWord` on the fields as the decoder extracts them. -/
def legalFields (opc : Byte) (buf : BitVec 2) (imm : U16) : Prop :=
  (opc.toNat ∈ [0x01, 0x02, 0x03, 0x20, 0x22] ∧ buf.toNat = 0) ∨
  (opc.toNat = 0x10 ∧ buf.toNat ≤ 1) ∨
  (opc.toNat ∈ [0x11, 0x12, 0x13] ∧ buf.toNat ≤ 2) ∨
  (opc.toNat ∈ [0x14, 0x15] ∧ buf.toNat ≤ 2 ∧ imm.toNat = 0) ∨
  (opc.toNat ∈ [0x21, 0x23, 0x30, 0x40, 0x41, 0x42, 0x50, 0x51, 0x52, 0x53, 0x54, 0x55] ∧ buf.toNat = 0 ∧ imm.toNat = 0)

theorem legalWord_iff (w : U32) :
    legalWord w ↔ w.extractLsb' 10 6 = 0 ∧
      legalFields (w.extractLsb' 0 8) (w.extractLsb' 8 2) (w.extractLsb' 16 16) := by
  have himm : (w.extractLsb' 16 16).toNat = w.toNat / 65536 := by
    rw [BitVec.extractLsb'_toNat, Nat.shiftRight_eq_div_pow]
    omega
  simp [legalWord, legalFields, himm, BitVec.toNat_eq, Nat.shiftRight_eq_div_pow]

/-- The fields a command decodes from are legal, kind by kind: an IMM operand only, an instance and an IMM operand
(SB_INSERT without FRAG), an instance only, or neither (30_encoding.md R82, R83). -/
theorem legalFields_of_decodeFields {opc : Byte} {op : Opcode} {buf : BitVec 2} {imm : U16} {i : Instr}
    (hop : (opc, op) ∈ opcodeMap) (h : decodeFields op buf imm = .ok i) : legalFields opc buf imm := by
  cases op with
  | seqGt | seqLt | seqInc | hdrEnc | fhdrEnc =>
    exact .inl ⟨opc_mem_of_rows hop (by decide), requireNoBuf_eq_ok h⟩
  | sbInsert =>
    have hopc : opc.toNat = 0x10 := List.mem_singleton.1 (opc_mem_of_rows hop (by decide))
    obtain ⟨b, rfl, hb⟩ := requireBuf_eq_ok h
    cases b with
    | frag => cases hb
    | sent | recv => exact .inr (.inl ⟨hopc, by decide⟩)
  | sbFind | sbRemove | sbTestInsert =>
    obtain ⟨b, rfl, -⟩ := requireBuf_eq_ok h
    exact .inr (.inr (.inl ⟨opc_mem_of_rows hop (by decide), b.bits_toNat_le⟩))
  | sbGenack | sbReset =>
    obtain ⟨b, rfl, hb⟩ := requireBuf_eq_ok h
    split at hb
    · next himm =>
      exact .inr (.inr (.inr (.inl
        ⟨opc_mem_of_rows hop (by decide), b.bits_toNat_le, congrArg BitVec.toNat himm⟩)))
    · cases hb
  | _ => exact .inr (.inr (.inr (.inr ⟨opc_mem_of_rows hop (by decide), requireBare_eq_ok h⟩)))

/-- Every word that decodes is legal (30_encoding.md R88). -/
theorem legalWord_of_decode {w : U32} {i : Instr} (h : decode w = .ok i) : legalWord w := by
  obtain ⟨hrsv, op, hop, hfields⟩ := decode_eq_ok h
  exact (legalWord_iff w).2 ⟨hrsv, legalFields_of_decodeFields hop hfields⟩

/-- A word that is not legal runs nothing (30_encoding.md R88). -/
theorem runWord_of_not_legal {w : U32} (h : ¬ legalWord w) (s : State) : runWord w s = .next (s.finish .illegal) := by
  unfold runWord
  split
  · next i hi => exact absurd (legalWord_of_decode hi) h
  · rfl

/-- A CMD write that may issue a command runs its word (10_state.md R25). -/
theorem step_cmdWrite {s : State} {w : U32} {rest : List HostAccess} (hh : s.host = .write 4 0#32 w :: rest)
    (hm : s.mayIssue = true) : step s = runWord w { s with host := rest } := by
  have hissue : step s = issue w { s with host := rest } := by
    unfold step runNext
    rw [hh]
    exact hostWrite_cmd _ w
  exact hissue.trans (if_pos hm)

/-- Settles O3: the decoder evaluated on each word of R100. -/
theorem assembledExamplesDecode : Obligations.AssembledExamplesDecode := by
  unfold Obligations.AssembledExamplesDecode
  decide

/-- Settles O5: the step runs the word, and a word that is not legal does not decode. -/
theorem illegalWordChangesOnlyCode : Obligations.IllegalWordChangesOnlyCode := by
  intro s w rest hh hm hw
  rw [step_cmdWrite hh hm, runWord_of_not_legal hw]
  rfl

end Sys2Proof.Machine
end

section
/-! PROOF. The order of sequence numbers: both forms of its definition and its laws (40_seqmath.md R110, R114). -/

namespace Sys2Proof.Machine

/-! ### The forward distance -/

theorem seqDistance_of_le {a b : Nat} (h : b ≤ a) (ha : a < 65536) : seqDistance a b = a - b := by
  unfold seqDistance
  omega

theorem seqDistance_of_lt {a b : Nat} (h : a < b) (hb : b < 65536) : seqDistance a b = a + 65536 - b := by
  unfold seqDistance
  omega

/-- On 16-bit words the forward distance is the wrapping difference. -/
theorem seqDistance_toNat (a b : U16) : seqDistance a.toNat b.toNat = (a - b).toNat := by
  have hb := b.isLt
  rw [BitVec.toNat_sub, seqDistance]
  congr 1
  omega

/-! ### The two forms -/

/-- The first form of R110, with the distances taken forward. -/
theorem gt16_iff_seqDistance (a b : U16) : gt16 a b = true ↔
    (b.toNat < a.toNat ∧ seqDistance a.toNat b.toNat ≤ 32768) ∨
    (a.toNat < b.toNat ∧ 32768 < seqDistance b.toNat a.toNat) := by
  rw [gt16_iff]
  exact or_congr
    (and_congr_right fun h => by rw [seqDistance_of_le h.le a.isLt])
    (and_congr_right fun h => by rw [seqDistance_of_le h.le b.isLt])

/-- The second form of R110: below its smaller operand the distance has wrapped. -/
theorem gt16_iff_newerThan (a b : U16) : gt16 a b = true ↔ newerThan a.toNat b.toNat := by
  have ha := a.isLt
  have hb := b.isLt
  rw [gt16_iff, newerThan]
  rcases lt_or_ge a.toNat b.toNat with hlt | hge
  · rw [seqDistance_of_lt hlt hb]
    omega
  · rw [seqDistance_of_le hge ha]
    omega

/-- Settles O7: the two forms on numbers; the converse is the definition of `lt16`. -/
theorem sequenceOrderForms : Obligations.SequenceOrderForms :=
  fun a b => ⟨gt16_iff_seqDistance a b, gt16_iff_newerThan a b, rfl⟩

/-! ### The laws -/

/-- Between different sequence numbers exactly one is the newer. -/
theorem gt16_swap {a b : U16} (h : a ≠ b) : gt16 b a = !gt16 a b := by
  have hne : a.toNat ≠ b.toNat := fun he => h (BitVec.eq_of_toNat_eq he)
  cases hab : gt16 a b with
  | false =>
    rw [gt16_eq_false_iff] at hab
    exact (gt16_iff b a).2 (by omega)
  | true =>
    rw [gt16_iff] at hab
    exact (gt16_eq_false_iff b a).2 (by omega)

/-- Law 1 of R114. -/
theorem gt16_trichotomy (a b : U16) :
    (lt16 a b = true ∧ gt16 a b = false ∧ a ≠ b) ∨ (lt16 a b = false ∧ gt16 a b = true ∧ a ≠ b) ∨
      (lt16 a b = false ∧ gt16 a b = false ∧ a = b) := by
  by_cases h : a = b
  · subst h
    exact .inr (.inr ⟨gt16_self a, gt16_self a, rfl⟩)
  · have hlt : lt16 a b = !gt16 a b := gt16_swap h
    cases hab : gt16 a b with
    | false => exact .inl ⟨by rw [hlt, hab, Bool.not_false], rfl, h⟩
    | true => exact .inr (.inl ⟨by rw [hlt, hab, Bool.not_true], rfl, h⟩)

/-- Law 5 of R114: away from the distances 0 and 32768 the order is a matter of the distance alone. -/
theorem gt16_iff_sub_lt {a b : U16} (h0 : a - b ≠ 0) (hh : a - b ≠ 32768) :
    gt16 a b = true ↔ (a - b).toNat < 32768 := by
  have h0' : (a - b).toNat ≠ 0 := fun he => h0 (BitVec.eq_of_toNat_eq he)
  have hh' : (a - b).toNat ≠ 32768 := fun he => hh (BitVec.eq_of_toNat_eq he)
  rw [gt16_iff_newerThan, newerThan, seqDistance_toNat]
  omega

/-- Law 4 of R114: a shift of both operands keeps their distance, so it keeps the order wherever law 5 decides it. -/
theorem gt16_add_right {a b : U16} (c : U16) (hh : a - b ≠ 32768) : gt16 (a + c) (b + c) = gt16 a b := by
  by_cases h0 : a - b = 0
  · obtain rfl := sub_eq_zero.1 h0
    rw [gt16_self, gt16_self]
  · have hd : a + c - (b + c) = a - b := add_sub_add_right_eq_sub a b c
    rw [Bool.eq_iff_iff, gt16_iff_sub_lt (hd ▸ h0) (hd ▸ hh), gt16_iff_sub_lt h0 hh, hd]

/-- The places of an arc that starts at 0 are numbers that do not wrap. -/
theorem gt16_ofNat_iff {i j : Nat} (hi : i < 32768) (hj : j < 32768) :
    gt16 (BitVec.ofNat 16 i) (BitVec.ofNat 16 j) = true ↔ j < i := by
  rw [gt16_iff, BitVec.toNat_ofNat, BitVec.toNat_ofNat]
  omega

/-- Two places of one arc are not 32768 apart. -/
theorem ofNat_sub_ofNat_ne_half {i j : Nat} (hi : i < 32768) (hj : j < 32768) :
    BitVec.ofNat 16 i - BitVec.ofNat 16 j ≠ 32768 := by
  intro he
  have hn : (BitVec.ofNat 16 i - BitVec.ofNat 16 j).toNat = 32768 := congrArg BitVec.toNat he
  rw [BitVec.toNat_sub, BitVec.toNat_ofNat, BitVec.toNat_ofNat] at hn
  omega

/-- Law 3 of R114: an arc is a shift of the arc that starts at 0, and law 4 keeps its order. -/
theorem gt16_arc_iff (base : U16) {i j : Nat} (hi : i < 32768) (hj : j < 32768) :
    gt16 (base + BitVec.ofNat 16 i) (base + BitVec.ofNat 16 j) = true ↔ j < i := by
  rw [add_comm base, add_comm base, gt16_add_right base (ofNat_sub_ofNat_ne_half hi hj), gt16_ofNat_iff hi hj]

/-- Settles O8: the five laws; the counterexamples of laws 3 and 4 are evaluated. -/
theorem sequenceOrderLaws : Obligations.SequenceOrderLaws :=
  ⟨gt16_trichotomy, gt16_self,
    ⟨fun base _ _ hi hj => gt16_arc_iff base hi hj, by decide⟩,
    ⟨fun _ _ c hh => gt16_add_right c hh, by decide⟩,
    fun _ _ h0 hh => gt16_iff_sub_lt h0 hh⟩

end Sys2Proof.Machine
end

section
/-! PROOF. The round trips of the header codec: an encoded header, whatever follows it, decodes to its fields
(42_header_codec.md R148). -/

namespace Sys2Proof.Machine

/-! ### One field of a regular header, read back at its place -/

/-- A delta that fits one byte survives the cut to a byte and back. -/
theorem setWidth_delta {q ack : U16} (h : deltaSent q ack = true) : ((q - ack).setWidth 8).setWidth 16 = q - ack := by
  have hle : (q - ack).toNat ≤ 255 := of_decide_eq_true h
  apply BitVec.eq_of_toNat_eq
  rw [BitVec.toNat_setWidth, BitVec.toNat_setWidth]
  omega

/-- The ack field in either form: a delta is taken off the sequence again. -/
theorem readAck_of_prefix {q ack : U16} {pre b : List Byte} (hpre : pre.length = 3) (hb : pre ++ ackField q ack <+: b) :
    readAck b (deltaSent q ack) q = some (ack, (pre ++ ackField q ack).length) := by
  obtain ⟨rest, rfl⟩ := hb
  rw [List.append_assoc]
  unfold readAck ackField
  cases hd : deltaSent q ack with
  | true =>
    have hbyte : rd8 (pre ++ (q - ack).setWidth 8 :: rest) 3 = (q - ack).setWidth 8 := hpre ▸ rd8_append pre rest _
    have hlen : ¬ 3 + (rest.length + 1) < 4 := by omega
    simp [hpre, hbyte, hlen, setWidth_delta hd]
  | false =>
    have hword : rd16le (pre ++ (wr16le ack ++ rest)) 3 = ack := hpre ▸ rd16le_wr16le pre rest ack
    have hlen : ¬ 3 + (2 + rest.length) < 5 := by omega
    simp [hpre, hword, hlen]

/-- One ack_bits byte: the next field starts where it ends. -/
theorem readAckByte_of_prefix {bits : U32} {k : Nat} {pre b : List Byte} (hb : pre ++ ackByteStream bits k <+: b) :
    readAckByte b (ackByteSent bits k) pre.length = some (ackByte bits k, (pre ++ ackByteStream bits k).length) := by
  obtain ⟨rest, rfl⟩ := hb
  rw [List.append_assoc, readAckByte_append, List.length_append]

/-! ### A whole header -/

/-- An encoded header as the fields the decoder has read, each appended to those before it. -/
theorem hdrEncode_eq_append (q ack : U16) (bits : U32) :
    hdrEncode q ack bits = headerByte q ack bits :: wr16le q ++ ackField q ack ++ ackByteStream bits 0 ++
      ackByteStream bits 1 ++ ackByteStream bits 2 ++ ackByteStream bits 3 := by
  simp only [hdrEncode, List.cons_append, List.append_assoc]

/-- The string begins with every part of the encoding, so each field is read where the one before it ended. -/
theorem readFields_hdrEncode {q ack : U16} {bits : U32} {b : List Byte} (hb : hdrEncode q ack bits <+: b) :
    readFields b (headerByte q ack bits) q = some ⟨q, ack, bits, (hdrEncode q ack bits).length⟩ := by
  obtain ⟨-, hbit1, hbit2, hbit3, hbit4, hbit5⟩ := headerByte_bits q ack bits
  rw [hdrEncode_eq_append] at hb ⊢
  have hb2 := (List.prefix_append _ _).trans hb
  have hb1 := (List.prefix_append _ _).trans hb2
  have hb0 := (List.prefix_append _ _).trans hb1
  have hack := (List.prefix_append _ _).trans hb0
  simp only [readFields, hbit1, hbit2, hbit3, hbit4, hbit5, readAck_of_prefix rfl hack, readAckByte_of_prefix hb0,
    readAckByte_of_prefix hb1, readAckByte_of_prefix hb2, readAckByte_of_prefix hb, ackBytes_append,
    Option.bind_eq_bind, Option.bind_some]

/-- Laws 1 and 4 of R148: the first three bytes announce a regular header and give its sequence. -/
theorem hdrDecode_hdrEncode_append (q ack : U16) (bits : U32) (tail : List Byte) :
    hdrDecode (hdrEncode q ack bits ++ tail) = .fields ⟨q, ack, bits, (hdrEncode q ack bits).length⟩ := by
  have hfirst : rd8 (hdrEncode q ack bits ++ tail) 0 = headerByte q ack bits := rfl
  have hseq : rd16le (hdrEncode q ack bits ++ tail) 1 = q := by
    rw [hdrEncode, List.cons_append, List.append_assoc]
    exact rd16le_wr16le [headerByte q ack bits] _ q
  have hlen : 3 ≤ (hdrEncode q ack bits ++ tail).length := by
    have := (length_hdrEncode_bounds q ack bits).1
    rw [List.length_append]
    omega
  have hbit : (rd8 (hdrEncode q ack bits ++ tail) 0).getLsbD 0 = false := hfirst ▸ (headerByte_bits q ack bits).1
  rw [hdrDecode_of_regular hlen hbit, hfirst, hseq, readFields_hdrEncode (List.prefix_append _ _)]

/-- Laws 3 and 4 of R148: `id` and `count - 1` are below 256, so each survives its byte. -/
theorem fhdrDecode_fhdrEncode_append (q : U16) {id count : Nat} (tail : List Byte) (hid : id < count)
    (hcount : count ≤ 256) : fhdrDecode (fhdrEncode q id count ++ tail) = .fields ⟨q, id, count⟩ := by
  have hseq : rd16le (fhdrEncode q id count ++ tail) 1 = q := by
    rw [fhdrEncode, List.cons_append, List.append_assoc]
    exact rd16le_wr16le [0x01#8] _ q
  have hidByte : rd8 (fhdrEncode q id count ++ tail) 3 = BitVec.ofNat 8 id := rfl
  have hcountByte : rd8 (fhdrEncode q id count ++ tail) 4 = BitVec.ofNat 8 (count - 1) := rfl
  have hidNat : (BitVec.ofNat 8 id).toNat = id := Nat.mod_eq_of_lt (by omega)
  have hcountNat : (BitVec.ofNat 8 (count - 1)).toNat + 1 = count := by
    rw [BitVec.toNat_ofNat]
    omega
  have hlen : ¬ (fhdrEncode q id count ++ tail).length < 5 := by simp [fhdrEncode, wr16le]
  have hfirst : ¬ rd8 (fhdrEncode q id count ++ tail) 0 ≠ 0x01#8 := fun h => h rfl
  rw [fhdrDecode, if_neg hlen, if_neg hfirst, hseq, hidByte, hcountByte, hidNat, hcountNat]

/-! ### The minimal length -/

/-- DELTA says that the forward distance from the ack to the sequence fits one byte. -/
theorem deltaSent_iff (q ack : U16) : deltaSent q ack = true ↔ seqDistance q.toNat ack.toNat ≤ 255 := by
  rw [seqDistance_toNat, deltaSent, decide_eq_true_iff, BitVec.le_def]
  rfl

theorem ackByte_toNat (bits : U32) (k : Nat) : (ackByte bits k).toNat = bits.toNat / 2 ^ (8 * k) % 256 := by
  rw [ackByte, BitVec.extractLsb'_toNat, Nat.shiftRight_eq_div_pow]

/-- A byte of ack_bits takes a byte of the stream unless it is 0xFF. -/
theorem length_ackByteStream_eq (bits : U32) (k : Nat) :
    (ackByteStream bits k).length = if bits.toNat / 2 ^ (8 * k) % 256 = 255 then 0 else 1 := by
  rw [length_ackByteStream, ackByteSent, ← ackByte_toNat]
  by_cases h : ackByte bits k = 0xFF#8
  · simp [h]
  · have hne : (ackByte bits k).toNat ≠ 255 := fun he => h (BitVec.eq_of_toNat_eq he)
    simp [h, hne]

/-- The ack field takes a second byte when the distance does not fit one. -/
theorem length_ackField_eq (q ack : U16) :
    (ackField q ack).length = 1 + if seqDistance q.toNat ack.toNat ≤ 255 then 0 else 1 := by
  simp only [length_ackField, deltaSent_iff]
  split <;> rfl

/-- Law 2 of R148, field by field; the top byte of ack_bits needs no remainder. -/
theorem length_hdrEncode (q ack : U16) (bits : U32) : (hdrEncode q ack bits).length = headerLength q ack bits := by
  have htop : bits.toNat / 16777216 % 256 = bits.toNat / 16777216 := Nat.mod_eq_of_lt (by have := bits.isLt; omega)
  simp only [hdrEncode, headerLength, List.length_cons, List.length_append, length_wr16le, length_ackField_eq,
    length_ackByteStream_eq, Nat.reduceMul, Nat.reducePow, Nat.div_one, htop]
  omega

/-- Settles O19: a regular header by the fields read back one after another, its length by theirs; a fragment header by
its four fields. -/
theorem headersRoundTrip : Obligations.HeadersRoundTrip :=
  ⟨fun q ack bits tail =>
    ⟨length_hdrEncode q ack bits ▸ hdrDecode_hdrEncode_append q ack bits tail, length_hdrEncode q ack bits⟩,
    fun q _ _ tail hid hcount => fhdrDecode_fhdrEncode_append q tail hid hcount⟩

end Sys2Proof.Machine
end

section
/-! PROOF. Decode and encode are inverse, and the legal words are exactly those that decode (30_encoding.md R80, R87, R88). -/

namespace Sys2Proof

/-! ### What a command decodes from -/

theorem requireNoBuf_inv {buf : BitVec 2} {i j : Instr} (h : requireNoBuf buf i = .ok j) : buf = 0#2 ∧ i = j := by
  unfold requireNoBuf at h
  split at h
  · next hbuf => exact ⟨hbuf, Except.ok.inj h⟩
  · cases h

theorem requireBare_inv {buf : BitVec 2} {imm : U16} {i j : Instr} (h : requireBare buf imm i = .ok j) :
    buf = 0#2 ∧ imm = 0#16 ∧ i = j := by
  unfold requireBare at h
  split at h
  · next hbuf =>
    split at h
    · next himm => exact ⟨hbuf, himm, Except.ok.inj h⟩
    · cases h
  · cases h

@[simp] theorem requireBuf_bits (b : BufSel) (f : BufSel → Except IllegalWord Instr) : requireBuf b.bits f = f b := by
  simp [requireBuf]

/-- The OPC of a command: the opcode map read backwards (30_encoding.md R87). -/
def Opcode.opc (op : Opcode) : Byte := ((opcodeMap.find? fun row => row.2 = op).map Prod.fst).getD 0

theorem eq_opc_of_mem {o : Byte} {op : Opcode} (h : (o, op) ∈ opcodeMap) : o = op.opc := by
  have hall : ∀ row ∈ opcodeMap, row.1 = row.2.opc := by decide
  exact hall _ h

/-- A command that fields decode to is well formed and is encoded from these fields: an IMM operand only, a buffer selector
and an IMM operand, a selector only, or neither (30_encoding.md R82, R83). -/
theorem encode_of_decodeFields {opc : Byte} {op : Opcode} {buf : BitVec 2} {imm : U16} {i : Instr}
    (hop : (opc, op) ∈ opcodeMap) (h : decodeFields op buf imm = .ok i) :
    encode i = commandWord imm buf opc ∧ i.wellFormed = true := by
  cases op with
  | seqGt | seqLt | seqInc | hdrEnc | fhdrEnc =>
    obtain ⟨rfl, rfl⟩ := requireNoBuf_inv h
    obtain rfl := eq_opc_of_mem hop
    exact ⟨rfl, rfl⟩
  | sbInsert =>
    obtain ⟨b, rfl, hb⟩ := requireBuf_eq_ok h
    obtain rfl := eq_opc_of_mem hop
    cases b with
    | frag => cases hb
    | sent | recv => cases hb; exact ⟨rfl, rfl⟩
  | sbFind | sbRemove | sbTestInsert =>
    obtain ⟨b, rfl, hb⟩ := requireBuf_eq_ok h
    obtain rfl := eq_opc_of_mem hop
    cases hb
    exact ⟨rfl, rfl⟩
  | sbGenack | sbReset =>
    obtain ⟨b, rfl, hb⟩ := requireBuf_eq_ok h
    obtain rfl := eq_opc_of_mem hop
    split at hb
    · next himm => cases hb; subst himm; exact ⟨rfl, rfl⟩
    · cases hb
  | _ =>
    obtain ⟨rfl, rfl, rfl⟩ := requireBare_inv h
    obtain rfl := eq_opc_of_mem hop
    exact ⟨rfl, rfl⟩

/-- A well-formed command is decoded from its own encoding. -/
theorem decode_encode {i : Instr} (h : i.wellFormed = true) : decode (encode i) = .ok i := by
  cases i with
  | sbInsert b q =>
    cases b with
    | frag => cases h
    | sent | recv => simp only [encode, decode_commandWord]; rfl
  | sbFind b q | sbRemove b q | sbTestInsert b q | sbGenack b | sbReset b =>
    simp only [encode, decode_commandWord]
    cases b <;> rfl
  | _ => simp only [encode, decode_commandWord]; rfl

/-- A word is the encoding of what it decodes to. -/
theorem encode_of_decode {w : U32} {i : Instr} (h : decode w = .ok i) : encode i = w ∧ i.wellFormed = true := by
  obtain ⟨hrsv, op, hop, hfields⟩ := decode_eq_ok h
  obtain ⟨hw, hwf⟩ := encode_of_decodeFields hop hfields
  exact ⟨hw.trans (commandWord_fields hrsv), hwf⟩

end Sys2Proof

namespace Sys2Proof.Machine

/-- Settles O1: one direction by the command, the other by the row of the opcode map. -/
theorem decodeAndEncodeAgree : Obligations.DecodeAndEncodeAgree :=
  ⟨fun _ h => decode_encode h, fun _ _ h => encode_of_decode h⟩

/-! ### Every legal word decodes -/

theorem BufSel.exists_bits {buf : BitVec 2} (h : buf.toNat ≤ 2) : ∃ b : BufSel, b.bits = buf := by
  have hcases : buf = 0#2 ∨ buf = 1#2 ∨ buf = 2#2 := by bv_omega
  rcases hcases with rfl | rfl | rfl
  · exact ⟨.sent, rfl⟩
  · exact ⟨.recv, rfl⟩
  · exact ⟨.frag, rfl⟩

theorem eq_ofNat_of_toNat {o : Byte} {n : Nat} (h : o.toNat = n) : o = BitVec.ofNat 8 n := by
  rw [← h, BitVec.ofNat_toNat, BitVec.setWidth_eq]

/-- A well-formed command is encoded from given legal fields, and so these fields decode. -/
theorem decode_of_encode {i : Instr} {imm : U16} {buf : BitVec 2} {opc : Byte} (h : encode i = commandWord imm buf opc)
    (hwf : i.wellFormed = true) : ∃ i, decode (commandWord imm buf opc) = .ok i :=
  ⟨i, h ▸ decode_encode hwf⟩

/-- Legal fields decode, row by row of the opcode map. -/
theorem decode_of_legalFields {imm : U16} {buf : BitVec 2} {opc : Byte} (h : legalFields opc buf imm) :
    ∃ i, decode (commandWord imm buf opc) = .ok i := by
  simp only [legalFields, List.mem_cons, List.not_mem_nil, or_false] at h
  rcases h with ⟨ho, hb⟩ | ⟨ho, hb⟩ | ⟨ho, hb⟩ | ⟨ho, hb, hi⟩ | ⟨ho, hb, hi⟩
  · obtain rfl : buf = 0#2 := BitVec.eq_of_toNat_eq hb
    rcases ho with ho | ho | ho | ho | ho <;> obtain rfl := eq_ofNat_of_toNat ho
    · exact decode_of_encode (i := .seqGt imm) rfl rfl
    · exact decode_of_encode (i := .seqLt imm) rfl rfl
    · exact decode_of_encode (i := .seqInc imm) rfl rfl
    · exact decode_of_encode (i := .hdrEnc imm) rfl rfl
    · exact decode_of_encode (i := .fhdrEnc imm) rfl rfl
  · obtain rfl := eq_ofNat_of_toNat ho
    obtain ⟨b, rfl⟩ := BufSel.exists_bits (hb.trans (by decide))
    cases b with
    | frag => exact absurd hb (by decide)
    | sent => exact decode_of_encode (i := .sbInsert .sent imm) rfl rfl
    | recv => exact decode_of_encode (i := .sbInsert .recv imm) rfl rfl
  · obtain ⟨b, rfl⟩ := BufSel.exists_bits hb
    rcases ho with ho | ho | ho <;> obtain rfl := eq_ofNat_of_toNat ho
    · exact decode_of_encode (i := .sbFind b imm) rfl rfl
    · exact decode_of_encode (i := .sbRemove b imm) rfl rfl
    · exact decode_of_encode (i := .sbTestInsert b imm) rfl rfl
  · obtain ⟨b, rfl⟩ := BufSel.exists_bits hb
    obtain rfl : imm = 0#16 := BitVec.eq_of_toNat_eq hi
    rcases ho with ho | ho <;> obtain rfl := eq_ofNat_of_toNat ho
    · exact decode_of_encode (i := .sbGenack b) rfl rfl
    · exact decode_of_encode (i := .sbReset b) rfl rfl
  · obtain rfl : buf = 0#2 := BitVec.eq_of_toNat_eq hb
    obtain rfl : imm = 0#16 := BitVec.eq_of_toNat_eq hi
    rcases ho with ho | ho | ho | ho | ho | ho | ho | ho | ho | ho | ho | ho <;>
      obtain rfl := eq_ofNat_of_toNat ho <;> exact ⟨_, rfl⟩

/-- Settles O2: a word that decodes is legal, and legal fields decode. -/
theorem legalWordsExactly : Obligations.LegalWordsExactly := by
  intro w
  constructor
  · rintro ⟨i, h⟩
    exact legalWord_of_decode h
  · intro h
    obtain ⟨hrsv, hfields⟩ := (legalWord_iff w).1 h
    rw [← commandWord_fields hrsv]
    exact decode_of_legalFields hfields

/-- Settles O4: the step runs the word, and a word that decodes runs its command. -/
theorem stepRunsDecodedCommand : Obligations.StepRunsDecodedCommand := by
  intro s w rest i hh hm hi
  rw [step_cmdWrite hh hm]
  simp only [runWord, hi]

end Sys2Proof.Machine
end

section
/-! PROOF. What a command does while the block is not configured, and the induction for invariants that need to know it:
before EP_CREATE only headers are coded (45_endpoint.md R191). -/

namespace Sys2Proof.Machine

/-- A command that touches nothing but OBUF (a header at most), the result registers and the result code. -/
def State.codesHeader (s t : State) : Prop :=
  ∃ (out : List Byte) (r0 r1 r2 r3 : U32) (x : NumWord) (c : ResultCode), out.length ≤ 9 ∧
    t = { s.writeObuf out with res0 := r0, res1 := r1, res2 := r2, res3 := r3, resn := x, code := c }

theorem codesHeader_finish (s : State) (c : ResultCode) : s.codesHeader (s.finish c) :=
  ⟨[], s.res0, s.res1, s.res2, s.res3, s.resn, c, by decide, rfl⟩

theorem codesHeader_results (s : State) (r0 r1 r2 r3 : U32) :
    s.codesHeader ({ s with res0 := r0, res1 := r1, res2 := r2, res3 := r3 }.finish .ok) :=
  ⟨[], r0, r1, r2, r3, s.resn, .ok, by decide, rfl⟩

theorem codesHeader_output (s : State) {out : List Byte} (h : out.length ≤ 9) (r0 : U32) :
    s.codesHeader ({ s.writeObuf out with res0 := r0 }.finish .ok) :=
  ⟨out, r0, s.res1, s.res2, s.res3, s.resn, .ok, h, rfl⟩

theorem codesHeader_gated {s : State} (h : s.configured = false) (run : State → State) : s.codesHeader (s.gated run) := by
  rw [State.gated_of_unconfigured h]
  exact codesHeader_finish s _

theorem codesHeader_withInput (s : State) {run : List Byte → State → State} (h : ∀ b, s.codesHeader (run b s)) :
    s.codesHeader (s.withInput run) := by
  unfold State.withInput
  split
  · exact h _
  · exact codesHeader_finish s _

theorem codesHeader_runHdrDec (s : State) (b : List Byte) : s.codesHeader (runHdrDec b s) := by
  unfold runHdrDec
  split
  · exact codesHeader_finish s _
  · exact codesHeader_finish s _
  · exact codesHeader_results s _ _ _ _

theorem codesHeader_runFhdrDec (s : State) (b : List Byte) : s.codesHeader (runFhdrDec b s) := by
  unfold runFhdrDec
  split
  · exact codesHeader_finish s _
  · exact codesHeader_finish s _
  · exact codesHeader_results s _ _ _ s.res3

/-- While the block is not configured a command codes a header at most, or is the EP_CREATE that configures it. -/
theorem exec_of_unconfigured {i : Instr} {s t : State} (hc : s.configured = false) (h : exec i s = .next t) :
    s.codesHeader t ∨ (s.cfg.valid s.params ∧ t = s.created.finish .ok) := by
  cases i with
  | epCreate =>
    injection h with h
    subst h
    rw [if_neg (by simp [hc])]
    split
    · next hv => exact .inr ⟨hv, rfl⟩
    · exact .inl (codesHeader_finish s _)
  | seqGt a | seqLt a | seqInc n => injection h with h; subst h; exact .inl (codesHeader_results s _ s.res1 s.res2 s.res3)
  | hdrEnc q => injection h with h; subst h; exact .inl (codesHeader_output s (length_hdrEncode_bounds _ _ _).2 _)
  | hdrDec => injection h with h; subst h; exact .inl (codesHeader_withInput s fun b => codesHeader_runHdrDec s b)
  | fhdrDec => injection h with h; subst h; exact .inl (codesHeader_withInput s fun b => codesHeader_runFhdrDec s b)
  | fhdrEnc q =>
    injection h with h
    subst h
    split
    · exact .inl (codesHeader_output s (by simp [fhdrEncode]) _)
    · exact .inl (codesHeader_finish s _)
  | sbInsert b q =>
    injection h with h
    subst h
    split
    · exact .inl (codesHeader_finish s _)
    · exact .inl (codesHeader_gated hc _)
  | _ => injection h with h; subst h; exact .inl (codesHeader_gated hc _)

/-- A chain of updates from a configured state keeps what each update of a configured state keeps. -/
theorem Updates.preserves_configured {P : State → Prop} {s t : State} (h : Updates s t)
    (hP : ∀ a b, a.configured = true → Update a b → P a → P b) (hc : s.configured = true) (hs : P s) :
    t.configured = true ∧ P t := by
  induction h with
  | refl => exact ⟨hc, hs⟩
  | tail _ hu ih => exact ⟨hu.frame.2.2.2.2.2.2.2.2.2.2.2.2.2 ih.1, hP _ _ ih.1 hu ih.2⟩

/-- The induction of `step_preserves`, for a property that allows commands in progress only on a configured block: its
updates and events then happen on a configured block, and before that a command codes a header or is EP_CREATE. -/
theorem step_preserves_configured (P : State → Prop)
    (hstack : ∀ s, P s → s.stack ≠ [] → s.configured = true)
    (hread : ∀ s h v, P s → P { s with host := h, readData := v })
    (hoperand : ∀ s a0 a1 a2 n, P s → P { s with arg0 := a0, arg1 := a1, arg2 := a2, numin := n })
    (hconfig : ∀ s c, s.configured = false → P s → P { s with cfg := c })
    (hinput : ∀ s width off v, (s.params.wf → off + (if width = 4 then 4 else 1) ≤ s.params.ibufBytes) →
      P s → P { s with ibuf := bufferStore s.ibuf width off v })
    (hheader : ∀ s t, s.codesHeader t → P s → P t)
    (hcreate : ∀ s, s.configured = false → s.cfg.valid s.params → P s → P (s.created.finish .ok))
    (hupdate : ∀ s t, s.configured = true → Update s t → P s → P t)
    (hemit : ∀ s e p, s.configured = true → s.raises e → P s → P (s.emit e p))
    (hend : ∀ s f rest, s.stack = f :: rest → P s → P (s.endEvent f rest))
    (hrestore : ∀ s, P s → P s.restoreEnclosing)
    {s t : State} (hs : P s) (h : step s = .next t) : P t := by
  rcases step_cases h with ⟨_, rfl⟩ | ⟨x, rest, hh, hcase⟩
  · exact hs
  have h0 : P { s with host := rest } := hread s rest s.readData hs
  generalize ({ s with host := rest } : State) = s0 at hcase h0
  cases hcase with
  | read v hx ht => subst ht; exact hread s0 s0.host v h0
  | operand a0 a1 a2 num ht => subst ht; exact hoperand _ a0 a1 a2 num h0
  | config c ht =>
    subst ht
    unfold State.writeCfg
    split
    · exact h0
    · next hcf => exact hconfig _ c (by simpa using hcf) h0
  | input width off a v hx hlo hhi hfit ht => subst ht; exact hinput _ width off v hfit h0
  | command w hx hm ht =>
    rcases runWord_eq_next ht with ⟨i, -, hi⟩ | ⟨-, rfl⟩
    · cases hc : s0.configured with
      | false =>
        rcases exec_of_unconfigured hc hi with ht | ⟨hv, rfl⟩
        · exact hheader _ _ ht h0
        · exact hcreate _ hc hv h0
      | true =>
        obtain ⟨t', he, hen⟩ := exec_ends i s0
        rw [he] at hi
        cases hi
        rcases hen with hu | ⟨u, e, p, hu, hr, rfl⟩
        · exact (hu.preserves_configured hupdate hc h0).2
        · obtain ⟨hcu, hPu⟩ := hu.preserves_configured hupdate hc h0
          exact hemit _ _ _ hcu hr hPu
    · exact hheader _ _ (codesHeader_finish _ _) h0
  | answer v hx hcb ht =>
    obtain ⟨f, r, hst, rfl⟩ := resume_eq_next ht
    have hc : s0.configured = true := hstack _ h0 (by rw [hst]; exact List.cons_ne_nil _ _)
    have h1 := hend _ f r hst h0
    obtain ⟨u, hu, hcc⟩ :=
      continueCommand_cases (s0.endEvent f r) f.phase (v.getLsbD 0)
    obtain ⟨hcu, hPu⟩ := hu.preserves_configured hupdate hc h1
    rcases hcc with hcc | ⟨e, p', he, hcc⟩
    · rw [hcc]; exact hrestore _ hPu
    · rw [hcc]; exact hemit _ _ _ hcu he hPu

end Sys2Proof.Machine
end

section
/-! PROOF. The configuration stays validated and locked, ACK_COUNT within its list and every time finite
(10_state.md R26, R27, R32, R33; 45_endpoint.md R203, R206). -/

namespace Sys2Proof.Machine

/-! ### Capacities -/

/-- An update of a configured block keeps the three capacities. -/
theorem Update.capacities {s t : State} (h : Update s t) (hc : s.configured = true) :
    t.sent.n = s.sent.n ∧ t.recv.n = s.recv.n ∧ t.frag.n = s.frag.n := by
  cases h with
  | sentInsert q B k size n h => exact ⟨(sbInsert_eq_some h).2.2.1, rfl, rfl⟩
  | recvInsert q B k size n h => exact ⟨rfl, (sbInsert_eq_some h).2.2.1, rfl⟩
  | fragCreate h B k hi => exact ⟨rfl, rfl, (sbInsert_eq_some hi).2.2.1⟩
  | remove b q => cases b <;> simp [State.setBuffer, State.buffer]
  | reset b => cases b <;> simp [State.setBuffer, State.buffer]
  | create hn => rw [hc] at hn; cases hn
  | _ => exact ⟨rfl, rfl, rfl⟩

@[simp] theorem State.restoreEnclosing_nil {s : State} (h : s.stack = []) : s.restoreEnclosing = s := by
  simp only [State.restoreEnclosing, h]

theorem State.restoreEnclosing_cons {s : State} {f : Frame} {fs : List Frame} (h : s.stack = f :: fs) :
    s.restoreEnclosing = s.showEvent f.event := by
  simp only [State.restoreEnclosing, h]

/-- What holds after showing any event holds after the enclosing one is shown. -/
theorem State.restoreEnclosing_induction {P : State → Prop} {s : State} (h : P s) (hshow : ∀ e, P (s.showEvent e)) :
    P s.restoreEnclosing := by
  cases hs : s.stack with
  | nil => rw [State.restoreEnclosing_nil hs]; exact h
  | cons f fs => rw [State.restoreEnclosing_cons hs]; exact hshow _

/-- `t` has the configuration, the parameters and the capacities of the configured block `s`. -/
def State.sameConfig (s t : State) : Prop :=
  t.configured = true ∧ t.cfg = s.cfg ∧ t.params = s.params ∧
    t.sent.n = s.sent.n ∧ t.recv.n = s.recv.n ∧ t.frag.n = s.frag.n

theorem sameConfig_update {s a b : State} (hu : Update a b) (h : s.sameConfig a) : s.sameConfig b := by
  obtain ⟨hc, hcfg, hp, h1, h2, h3⟩ := h
  obtain ⟨p, -, -, -, -, -, -, cfg, -, -, -, -, -, conf⟩ := hu.frame
  obtain ⟨k1, k2, k3⟩ := hu.capacities hc
  exact ⟨conf hc, cfg.trans hcfg, p.trans hp, k1.trans h1, k2.trans h2, k3.trans h3⟩

/-- Settles O54: every update of a configured block keeps its configuration. -/
theorem configurationIsLocked : Obligations.ConfigurationIsLocked := by
  intro s t hc hstep
  exact step_preserves s.sameConfig
    (hread := fun _ _ _ h => h) (hoperand := fun _ _ _ _ _ h => h)
    (hconfig := fun _ _ hn h => absurd h.1 (by simp [hn]))
    (hinput := fun _ _ _ _ _ h => h)
    (hupdate := fun _ _ hu h => sameConfig_update hu h)
    (hemit := fun _ _ _ _ h => h) (hend := fun _ _ _ _ h => h)
    (hrestore := fun _ h => State.restoreEnclosing_induction h fun _ => h)
    ⟨hc, rfl, rfl, rfl, rfl, rfl⟩ hstep

/-! ### The configuration -/

theorem configSound_of_configured {s : State} (hc : s.configured = true) : s.configSound ↔
    s.params.wf ∧ s.cfg.valid s.params ∧ s.sent.n = s.cfg.sentBufferSize ∧ s.recv.n = s.cfg.receivedBufferSize ∧
      s.frag.n = s.cfg.reassemblyBufferSize := by
  unfold State.configSound
  rw [if_pos hc]

theorem configSound_of_unconfigured {s : State} (hc : s.configured = false) : s.configSound ↔
    s.params.wf ∧ s.sent = SeqBuf.zero ∧ s.recv = SeqBuf.zero ∧ s.frag = SeqBuf.zero ∧ s.ackCount = 0 ∧
      s.stack = [] := by
  unfold State.configSound
  rw [if_neg (by simp [hc])]

theorem configured_of_stack {s : State} (h : s.configSound) (hs : s.stack ≠ []) : s.configured = true := by
  by_contra hc
  exact hs ((configSound_of_unconfigured (by simpa using hc)).1 h).2.2.2.2.2

theorem configSound_congr {s t : State} (hc : s.configured = true) (h : s.configSound) (ht : s.sameConfig t) :
    t.configSound := by
  obtain ⟨hct, hcfg, hp, h1, h2, h3⟩ := ht
  rw [configSound_of_configured hc] at h
  rw [configSound_of_configured hct, hp, hcfg, h1, h2, h3]
  exact h

theorem configSound_update {s t : State} (hc : s.configured = true) (hu : Update s t) (h : s.configSound) :
    t.configSound :=
  configSound_congr hc h (sameConfig_update hu ⟨hc, rfl, rfl, rfl, rfl, rfl⟩)

theorem configSound_config {s : State} (c : CfgRegs) (hc : s.configured = false) (h : s.configSound) :
    State.configSound { s with cfg := c } :=
  (configSound_of_unconfigured (s := { s with cfg := c }) hc).2 ((configSound_of_unconfigured hc).1 h)

theorem configSound_created {s : State} (hv : s.cfg.valid s.params) (h : s.configSound) :
    (s.created.finish .ok).configSound :=
  (configSound_of_configured rfl).2 ⟨h.1, hv, rfl, rfl, rfl⟩

theorem configSound_header {s t : State} (ht : s.codesHeader t) (h : s.configSound) : t.configSound := by
  obtain ⟨out, r0, r1, r2, r3, x, c, -, rfl⟩ := ht
  exact h

theorem configSound_emit {s : State} (e : Event) (p : Phase) (hc : s.configured = true) (h : s.configSound) :
    (s.emit e p).configSound :=
  configSound_congr hc h ⟨hc, rfl, rfl, rfl, rfl, rfl⟩

theorem configSound_endEvent {s : State} {f : Frame} {rest : List Frame} (hst : s.stack = f :: rest)
    (h : s.configSound) : (s.endEvent f rest).configSound :=
  have hc := configured_of_stack h (by rw [hst]; exact List.cons_ne_nil _ _)
  configSound_congr hc h ⟨hc, rfl, rfl, rfl, rfl, rfl⟩

theorem configSound_restore {s : State} (h : s.configSound) : s.restoreEnclosing.configSound :=
  State.restoreEnclosing_induction h fun _ => h

/-! ### The ack list -/

theorem acksBounded_of_configured {s : State} (hc : s.configured = true) :
    s.acksBounded ↔ s.ackCount.toNat ≤ s.cfg.ackBufferSize.toNat := by
  unfold State.acksBounded
  rw [if_pos hc]

theorem acksBounded_of_unconfigured {s : State} (hc : s.configured = false) : s.acksBounded ↔ s.ackCount = 0 := by
  unfold State.acksBounded
  rw [if_neg (by simp [hc])]

/-- One more ack still fits a list that was not full. -/
theorem succ_ackCount_le {n m : U32} (h : n < m) : (n + 1).toNat ≤ m.toNat := by
  have hlt : n.toNat < m.toNat := h
  have hm := m.isLt
  rw [BitVec.toNat_add_of_lt] <;> simp <;> omega

theorem acksBounded_update {s t : State} (hc : s.configured = true) (hu : Update s t) (h : s.acksBounded) :
    t.acksBounded := by
  have ht : t.configured = true := hu.frame.2.2.2.2.2.2.2.2.2.2.2.2.2 hc
  rw [acksBounded_of_configured hc] at h
  rw [acksBounded_of_configured ht]
  cases hu with
  | ackClear => exact Nat.zero_le _
  | ackRecord q k hf ha hn => exact succ_ackCount_le hn
  | create hn => rw [hc] at hn; cases hn
  | remove b q => cases b <;> exact h
  | reset b => cases b <;> exact h
  | _ => exact h

/-! ### Times -/

theorem timesFinite_setSentRecord {s : State} (k : Nat) {r : SentRecord} (h : s.timesFinite)
    (hr : numFinite s.params.num r.time = true) : (s.setSentRecord k r).timesFinite := by
  obtain ⟨htime, hsent, hrecv⟩ := h
  refine ⟨htime, fun j => ?_, hrecv⟩
  rw [State.sentRecord_setSentRecord]
  split
  · exact hr
  · exact hsent j

theorem timesFinite_setRecvRecord {s : State} (k : Nat) {r : RecvRecord} (h : s.timesFinite)
    (hr : numFinite s.params.num r.time = true) : (s.setRecvRecord k r).timesFinite := by
  obtain ⟨htime, hsent, hrecv⟩ := h
  refine ⟨htime, hsent, fun j => ?_⟩
  rw [State.recvRecord_setRecvRecord]
  split
  · exact hr
  · exact hrecv j

theorem timesFinite_update {s t : State} (hu : Update s t) (h : s.timesFinite) : t.timesFinite := by
  cases hu with
  | sentInsert q B k size n hi => exact timesFinite_setSentRecord k h h.1
  | recvInsert q B k size n hi => exact timesFinite_setRecvRecord k h h.1
  | ackRecord q k hf ha hn =>
    have hr := timesFinite_setSentRecord k (r := { s.sentRecord k with acked := true }) h (h.2.1 k)
    exact ⟨hr.1, hr.2.1, hr.2.2⟩
  | create hc hv => exact ⟨numFinite_zero _, h.2⟩
  | clear => exact ⟨numFinite_zero _, h.2⟩
  | setTime x hx => exact ⟨hx, h.2⟩
  | remove b q => cases b <;> exact h
  | reset b => cases b <;> exact h
  | _ => exact h

/-- The configuration is sound, the ack list bounded and every time finite. -/
def State.endpointSound (s : State) : Prop := s.configSound ∧ s.acksBounded ∧ s.timesFinite

theorem endpointSound_config {s : State} (c : CfgRegs) (hc : s.configured = false) (h : s.endpointSound) :
    State.endpointSound { s with cfg := c } := by
  obtain ⟨hcfg, hack, htime⟩ := h
  rw [acksBounded_of_unconfigured hc] at hack
  exact ⟨configSound_config c hc hcfg, (acksBounded_of_unconfigured (s := { s with cfg := c }) hc).2 hack, htime⟩

theorem endpointSound_header {s t : State} (ht : s.codesHeader t) (h : s.endpointSound) : t.endpointSound := by
  obtain ⟨out, r0, r1, r2, r3, x, c, -, rfl⟩ := ht
  exact h

/-- Settles O59: each update of a configured block keeps the three parts; EP_CREATE starts them. -/
theorem endpointInvariantKept : Obligations.EndpointInvariantKept := by
  intro s t hcfg hack htime hstep
  exact step_preserves_configured State.endpointSound
    (hstack := fun _ h => configured_of_stack h.1)
    (hread := fun _ _ _ h => h) (hoperand := fun _ _ _ _ _ h => h)
    (hconfig := fun _ c hc h => endpointSound_config c hc h)
    (hinput := fun _ _ _ _ _ h => h)
    (hheader := fun _ _ ht h => endpointSound_header ht h)
    (hcreate := fun _ hc hv h =>
      ⟨configSound_created hv h.1, (acksBounded_of_configured rfl).2 (Nat.zero_le _),
        timesFinite_update (.finish _ _) (timesFinite_update (.create _ hc hv) h.2.2)⟩)
    (hupdate := fun _ _ hc hu h =>
      ⟨configSound_update hc hu h.1, acksBounded_update hc hu h.2.1, timesFinite_update hu h.2.2⟩)
    (hemit := fun _ e p hc _ h => ⟨configSound_emit e p hc h.1, h.2⟩)
    (hend := fun _ _ _ hst h => ⟨configSound_endEvent hst h.1, h.2⟩)
    (hrestore := fun _ h => State.restoreEnclosing_induction h fun _ => h)
    ⟨hcfg, hack, htime⟩ hstep

end Sys2Proof.Machine
end

section
/-! PROOF. The command stack stays sound: every nesting shows its own event, every return the enclosing one
(10_state.md R25, R39; 60_exceptions.md R230). -/

namespace Sys2Proof.Machine

theorem stackSound_of_idle {s : State} (hst : s.stack = []) (hcb : s.inCallback = false) (hk : s.evt.kind = none) :
    s.stackSound := by
  unfold State.stackSound State.depth
  rw [hst]
  exact ⟨Nat.zero_le _, fun h => absurd rfl h, hcb, hk⟩

theorem stackSound_of_shown {s : State} {f : Frame} {fs : List Frame} (hst : s.stack = f :: fs)
    (hd : fs.length < s.params.maxNest) (hc : s.configured = true) (hcb : s.inCallback = true)
    (hs : s.shows f.event) : s.stackSound := by
  unfold State.stackSound State.depth
  rw [hst]
  exact ⟨hd, fun _ => hc, hcb, hs⟩

theorem idle_of_stackSound {s : State} (h : s.stackSound) (hst : s.stack = []) :
    s.inCallback = false ∧ s.evt.kind = none := by
  unfold State.stackSound at h
  rw [hst] at h
  exact h.2.2

theorem shown_of_stackSound {s : State} {f : Frame} {fs : List Frame} (h : s.stackSound) (hst : s.stack = f :: fs) :
    fs.length < s.params.maxNest ∧ s.configured = true ∧ s.inCallback = true ∧ s.shows f.event := by
  unfold State.stackSound State.depth at h
  rw [hst] at h
  exact ⟨h.1, h.2.1 (List.cons_ne_nil _ _), h.2.2⟩

/-- What a state shows depends on the event registers, EBUF and the configuration alone. -/
theorem State.shows_congr {s t : State} {e : Event} (h : s.shows e) (hevt : t.evt = s.evt) (hebuf : t.ebuf = s.ebuf)
    (hcfg : t.cfg = s.cfg) : t.shows e := by
  unfold State.shows
  rw [hevt, hebuf, hcfg]
  exact h

/-- A chain of updates changes nothing of the stack and of what the host sees. -/
theorem stackSound_updates {s t : State} (hu : Updates s t) (h : s.stackSound) : t.stackSound := by
  obtain ⟨hp, -, -, -, -, hcb, hst, hcfg, -, hebuf, hevt, -, -, hconf⟩ := hu.frame
  cases hs : s.stack with
  | nil =>
    obtain ⟨h1, h2⟩ := idle_of_stackSound h hs
    exact stackSound_of_idle (hst.trans hs) (hcb.trans h1) (hevt ▸ h2)
  | cons f fs =>
    obtain ⟨h1, h2, h3, h4⟩ := shown_of_stackSound h hs
    exact stackSound_of_shown (hst.trans hs) (hp ▸ h1) (hconf h2) (hcb.trans h3) (State.shows_congr h4 hevt hebuf hcfg)

theorem stackSound_config {s : State} (c : CfgRegs) (h : s.stackSound) : (s.writeCfg c).stackSound := by
  unfold State.writeCfg
  split
  · exact h
  · next hc =>
    by_cases hs : s.stack = []
    · obtain ⟨h1, h2⟩ := idle_of_stackSound h hs
      exact stackSound_of_idle (s := { s with cfg := c }) hs h1 h2
    · exact absurd (h.2.1 hs) hc

/-- A command that may be issued finds a free place on the stack. -/
theorem depth_lt_of_mayIssue {s : State} (hp : s.params.wf) (h : s.mayIssue = true) :
    s.stack.length < s.params.maxNest := by
  obtain ⟨-, -, -, -, -, -, -, -, -, hn, -⟩ := hp
  rcases Bool.or_eq_true_iff.1 h with h0 | h1
  · have hlen : s.stack.length = 0 := of_decide_eq_true h0
    omega
  · exact of_decide_eq_true (Bool.and_eq_true_iff.1 h1).2

theorem stackSound_emit {s : State} (e : Event) (p : Phase) (hc : s.configured = true)
    (hd : s.stack.length < s.params.maxNest) : (s.emit e p).stackSound :=
  stackSound_of_shown rfl hd hc rfl (State.shows_emit s e p)

/-- A command keeps the stack sound: it completes, or waits at the one event it raises. -/
theorem stackSound_exec {i : Instr} {s t : State} (hp : s.params.wf) (hm : s.mayIssue = true) (h : s.stackSound)
    (he : exec i s = .next t) : t.stackSound := by
  cases hc : s.configured with
  | false =>
    rcases exec_of_unconfigured hc he with ⟨out, r0, r1, r2, r3, x, c, -, rfl⟩ | ⟨hv, rfl⟩
    · exact h
    · exact stackSound_updates ((Update.create s hc hv).single.finish .ok) h
  | true =>
    obtain ⟨t', ht, hen⟩ := exec_ends i s
    obtain rfl : t' = t := Host.Outcome.next.inj (ht.symm.trans he)
    rcases hen with hu | ⟨u, e, p, hu, -, rfl⟩
    · exact stackSound_updates hu h
    · obtain ⟨hpu, -, -, -, -, -, hst, -, -, -, -, -, -, hconf⟩ := hu.frame
      exact stackSound_emit e p (hconf hc) (by rw [hst, hpu]; exact depth_lt_of_mayIssue hp hm)

/-- With its innermost event ended, a stack is sound again once the enclosing event is shown. -/
theorem stackSound_restore {s : State} (hd : s.stack.length ≤ s.params.maxNest)
    (hc : s.configured = true) (hcb : s.inCallback = false) (hk : s.evt.kind = none) :
    s.restoreEnclosing.stackSound := by
  cases hs : s.stack with
  | nil => rw [State.restoreEnclosing_nil hs]; exact stackSound_of_idle hs hcb hk
  | cons f fs =>
    rw [State.restoreEnclosing_cons hs]
    rw [hs] at hd
    exact stackSound_of_shown hs hd hc rfl (State.shows_showEvent s f.event)

theorem stackSound_resume {v : U32} {s t : State} (h : s.stackSound) (hr : resume v s = .next t) : t.stackSound := by
  obtain ⟨f, fs, hst, rfl⟩ := resume_eq_next hr
  obtain ⟨hd, hc, -, -⟩ := shown_of_stackSound h hst
  obtain ⟨u, hu, hend⟩ := continueCommand_cases (s.endEvent f fs) f.phase (v.getLsbD 0)
  obtain ⟨hp, -, -, -, -, hcb, hstu, -, -, -, hevt, -, -, hconf⟩ := hu.frame
  have hdu : u.stack.length < u.params.maxNest := by rw [hstu, hp]; exact hd
  rcases hend with hend | ⟨e, p', -, hend⟩ <;> rw [hend]
  · exact stackSound_restore hdu.le (hconf hc) hcb (by rw [hevt]; rfl)
  · exact stackSound_emit e p' (hconf hc) hdu

/-- Settles O58: by the access the step performs; a CMD write finds room on the stack, an EVT_DONE write takes the
innermost entry off it. -/
theorem stackInvariantKept : Obligations.StackInvariantKept := by
  intro s t hp h hstep
  rcases step_cases hstep with ⟨-, rfl⟩ | ⟨x, rest, -, hcase⟩
  · exact h
  have h0 : State.stackSound { s with host := rest } := h
  have hp0 : State.params { s with host := rest } = s.params := rfl
  generalize ({ s with host := rest } : State) = s0 at hcase h0 hp0
  cases hcase with
  | read v hx ht => subst ht; exact h0
  | operand a0 a1 a2 num ht => subst ht; exact h0
  | config c ht => subst ht; exact stackSound_config c h0
  | input width off a v hx hlo hhi hfit ht => subst ht; exact h0
  | command w hx hm ht =>
    rcases runWord_eq_next ht with ⟨i, -, hi⟩ | ⟨-, rfl⟩
    · exact stackSound_exec (hp0 ▸ hp) hm h0 hi
    · exact h0
  | answer v hx hcb ht => exact stackSound_resume h0 ht

end Sys2Proof.Machine
end

section
/-! PROOF. Every tagged sequence stays in its own slot and in the window (41_seqbuffer.md R121 to R123, R131 law 2). -/

namespace Sys2Proof.Machine

/-- Law 2 of R131 for one buffer. -/
def SeqBuf.windowSound (B : SeqBuf) : Prop := B.ownSlots ∧ (B.exactSize → B.inWindow)

/-! ### Own slots -/

/-- A buffer that only lost tags keeps its tags in their own slots. -/
theorem ownSlots_of_tags {B B' : SeqBuf} (hn : B'.n = B.n) (ht : ∀ k q, B'.tag k = some q → B.tag k = some q)
    (h : B.ownSlots) : B'.ownSlots :=
  fun k q hk => (SeqBuf.slot_congr hn q).trans (h k q (ht k q hk))

theorem ownSlots_insert {B B' : SeqBuf} {q : U16} {k : Nat} (hi : sbInsert B q = some (B', k)) (h : B.ownSlots) :
    B'.ownSlots := by
  obtain ⟨-, hk, hn, -, htag, hother, -⟩ := sbInsert_eq_some hi
  intro j p hp
  rw [SeqBuf.slot_congr hn]
  by_cases hj : j = k
  · obtain rfl : p = q := by rw [hj, htag] at hp; exact (Option.some.inj hp).symm
    exact (hj.trans hk).symm
  · rw [hother j hj] at hp
    exact h j p (sbAdvance_tag_eq_some hp).1

/-! ### The window -/

/-- The place of a sequence below the newest one, on numbers. -/
theorem newest_sub_toNat (B : SeqBuf) (q : U16) :
    (B.newest - q).toNat = (B.s.toNat + 65535 + (65536 - q.toNat)) % 65536 := by
  have hq := q.isLt
  have hs := B.s.isLt
  have h1 : (1 : U16).toNat = 1 := rfl
  simp only [SeqBuf.newest, BitVec.toNat_sub, h1]
  omega

/-- The number of sequences from S to `q`, less one. -/
theorem sub_newestField_toNat (B : SeqBuf) (q : U16) : (q - B.s).toNat = (q.toNat + (65536 - B.s.toNat)) % 65536 := by
  rw [BitVec.toNat_sub]
  omega

/-- A sequence that is neither stale nor newer than S lies in the window. -/
theorem inWindow_of_not_stale {B : SeqBuf} {q : U16} (hsize : B.exactSize) (hst : sbStale B q = false)
    (hg : gt16 (q + 1) B.s = false) : (B.newest - q).toNat < B.n.toNat := by
  obtain ⟨h2, hle, -⟩ := hsize
  have hq := q.isLt
  have hs := B.s.isLt
  have hst' : gt16 B.oldest q = false := hst
  rw [gt16_eq_false_iff] at hst' hg
  have hold : B.oldest.toNat = (B.s.toNat + (65536 - B.n.toNat)) % 65536 := by
    simp only [SeqBuf.oldest, lowHalf, BitVec.toNat_sub, BitVec.toNat_setWidth]
    omega
  have hq1 : (q + 1).toNat = (q.toNat + 1) % 65536 := by rw [BitVec.toNat_add]; rfl
  rw [hold] at hst'
  rw [hq1] at hg
  rw [newest_sub_toNat]
  omega

/-- A slot that an advance does not sweep holds a sequence of the new window: the swept positions are those of the
sequences that leave it, one capacity further on. -/
theorem inWindow_of_not_swept {B : SeqBuf} {q p : U16} {j : Nat} (hsize : B.exactSize) (hslot : B.slot p = j)
    (hw : (B.newest - p).toNat < B.n.toNat)
    (hns : ¬ (if B.n.toNat ≤ (q - B.s).toNat + 1 then j < B.n.toNat
        else ∃ i, i < (q - B.s).toNat + 1 ∧ B.slot (B.s + BitVec.ofNat 16 i) = j)) :
    (q - p).toNat < B.n.toNat := by
  obtain ⟨h2, hle, hdvd⟩ := hsize
  have hq := q.isLt
  have hp := p.isLt
  have hs := B.s.isLt
  have hjlt : j < B.n.toNat := hslot ▸ B.slot_lt p (by omega)
  rw [newest_sub_toNat] at hw
  rw [sub_newestField_toNat] at hns
  split at hns
  · exact absurd hjlt hns
  · next hc =>
    by_contra hout
    rw [BitVec.toNat_sub] at hout
    refine hns ⟨B.n.toNat - 1 - (B.s.toNat + 65535 + (65536 - p.toNat)) % 65536, by omega, ?_⟩
    rw [← hslot, SeqBuf.slot, SeqBuf.slot, BitVec.toNat_add, BitVec.toNat_ofNat]
    have he : (B.s.toNat + (B.n.toNat - 1 - (B.s.toNat + 65535 + (65536 - p.toNat)) % 65536) % 2 ^ 16) % 2 ^ 16 =
        (p.toNat + B.n.toNat) % 65536 := by omega
    rw [he, Nat.mod_mod_of_dvd _ hdvd, Nat.add_mod_right]

theorem inWindow_insert {B B' : SeqBuf} {q : U16} {k : Nat} (hi : sbInsert B q = some (B', k)) (hown : B.ownSlots)
    (hsize : B.exactSize) (hw : B.inWindow) : B'.inWindow := by
  obtain ⟨hst, -, hn, hs, htag, hother, -⟩ := sbInsert_eq_some hi
  intro j p hp
  rw [hn]
  cases hg : gt16 (q + 1) B.s with
  | false =>
    rw [hg, if_neg Bool.false_ne_true] at hs
    have hnew : B'.newest = B.newest := by rw [SeqBuf.newest, SeqBuf.newest, hs]
    rw [hnew]
    by_cases hj : j = k
    · obtain rfl : p = q := by rw [hj, htag] at hp; exact (Option.some.inj hp).symm
      exact inWindow_of_not_stale hsize hst hg
    · rw [hother j hj] at hp
      exact hw j p (sbAdvance_tag_eq_some hp).1
  | true =>
    rw [hg, if_pos rfl] at hs
    have hnew : B'.newest = q := by rw [SeqBuf.newest, hs, add_sub_cancel_right]
    rw [hnew]
    by_cases hj : j = k
    · obtain rfl : p = q := by rw [hj, htag] at hp; exact (Option.some.inj hp).symm
      rw [sub_self]
      exact lt_of_lt_of_le Nat.zero_lt_two hsize.1
    · rw [hother j hj] at hp
      obtain ⟨hpB, hns⟩ := sbAdvance_tag_eq_some hp
      exact inWindow_of_not_swept hsize (hown j p hpB) (hw j p hpB) (hns hg)

theorem exactSize_congr {A B : SeqBuf} (h : A.n = B.n) : A.exactSize ↔ B.exactSize := by
  unfold SeqBuf.exactSize
  rw [h]

/-! ### One buffer -/

theorem windowSound_insert {B B' : SeqBuf} {q : U16} {k : Nat} (hi : sbInsert B q = some (B', k)) (h : B.windowSound) :
    B'.windowSound :=
  ⟨ownSlots_insert hi h.1, fun hsize =>
    have hsize : B.exactSize := (exactSize_congr (sbInsert_eq_some hi).2.2.1).1 hsize
    inWindow_insert hi h.1 hsize (h.2 hsize)⟩

theorem windowSound_removed {B : SeqBuf} (q : U16) (h : B.windowSound) : (sbRemoved B q).windowSound := by
  have htag : ∀ j p, (sbRemoved B q).tag j = some p → B.tag j = some p := by
    intro j p hp
    rw [sbRemoved_tag] at hp
    split at hp
    · cases hp
    · exact hp
  refine ⟨ownSlots_of_tags (sbRemoved_n B q) htag h.1, fun hsize j p hp => ?_⟩
  have hin := h.2 ((exactSize_congr (sbRemoved_n B q)).1 hsize) j p (htag j p hp)
  rw [SeqBuf.newest, sbRemoved_s, sbRemoved_n]
  exact hin

/-- After a reset no slot below the capacity holds a tag, and no tag stands elsewhere. -/
theorem windowSound_reset {B : SeqBuf} (h : B.windowSound) : (sbReset B).windowSound := by
  have htag : ∀ j p, (sbReset B).tag j = some p → ¬ j < B.n.toNat ∧ B.tag j = some p := by
    intro j p hp
    rw [sbReset_tag] at hp
    split at hp
    · cases hp
    · next hj => exact ⟨hj, hp⟩
  refine ⟨ownSlots_of_tags (sbReset_n B) (fun j p hp => (htag j p hp).2) h.1, fun hsize j p hp => ?_⟩
  obtain ⟨hj, hpB⟩ := htag j p hp
  have hpos : 0 < B.n.toNat := lt_of_lt_of_le Nat.zero_lt_two hsize.1
  exact absurd (h.1 j p hpB ▸ B.slot_lt p hpos) hj

theorem windowSound_empty (n : U32) (s : U16) : SeqBuf.windowSound ⟨n, s, []⟩ := by
  have htag : ∀ k, SeqBuf.tag ⟨n, s, []⟩ k = none := fun k => rfl
  exact ⟨fun k q h => (by rw [htag] at h; cases h), fun _ k q h => (by rw [htag] at h; cases h)⟩

/-! ### The block -/

theorem windowsSound_setBuffer {s : State} (b : BufSel) {B : SeqBuf} (h : s.windowsSound) (hB : B.windowSound) :
    (s.setBuffer b B).windowsSound := by
  intro c
  by_cases hc : c = b
  · rw [hc, State.buffer_setBuffer]
    exact hB
  · rw [State.buffer_setBuffer_ne s b c B hc]
    exact h c

theorem windowsSound_update {s t : State} (hu : Update s t) (h : s.windowsSound) : t.windowsSound := by
  cases hu with
  | sentInsert q B k size n hi => exact windowsSound_setBuffer (s := s) .sent h (windowSound_insert hi (h .sent))
  | recvInsert q B k size n hi => exact windowsSound_setBuffer (s := s) .recv h (windowSound_insert hi (h .recv))
  | fragCreate hd B k hi => exact windowsSound_setBuffer (s := s) .frag h (windowSound_insert hi (h .frag))
  | remove b q => exact windowsSound_setBuffer b h (windowSound_removed q (h b))
  | reset b => exact windowsSound_setBuffer b h (windowSound_reset (h b))
  | create hc hv => intro b; cases b <;> exact windowSound_empty _ _
  | _ => exact h

/-- Settles O18: each insert moves the window forward past the slots it sweeps; nothing else adds a tag. -/
theorem windowInvariantKept : Obligations.WindowInvariantKept := by
  intro s t h hstep
  exact step_preserves State.windowsSound
    (hread := fun _ _ _ h => h) (hoperand := fun _ _ _ _ _ h => h) (hconfig := fun _ _ _ h => h)
    (hinput := fun _ _ _ _ _ h => h) (hupdate := fun _ _ hu h => windowsSound_update hu h)
    (hemit := fun _ _ _ _ h => h) (hend := fun _ _ _ _ h => h)
    (hrestore := fun _ h => State.restoreEnclosing_induction h fun _ => h)
    h hstep

end Sys2Proof.Machine
end

section
/-! PROOF. Every partial reassembly stays consistent (10_state.md R36, 43_reassembler.md R164 to R166). -/

namespace Sys2Proof.Machine

/-! ### The bitmap -/

/-- The bitmap of a stored fragment: its own bit and the bits before. -/
theorem getLsbD_received (r : BitVec 256) {id : Nat} (hid : id < 256) (i : Nat) :
    (r ||| (1#256 <<< id)).getLsbD i = (r.getLsbD i || decide (i = id)) := by
  rw [BitVec.getLsbD_or, BitVec.getLsbD_shiftLeft, BitVec.getLsbD_one]
  by_cases h : i = id
  · subst h; simp [hid]
  · have hne : ¬ (¬ i < id ∧ i - id = 0) := by omega
    simp only [h, decide_false, Bool.or_false]
    by_cases hlt : i < id
    · simp [hlt]
    · have : i - id ≠ 0 := by omega
      simp [this]

theorem bitsBelow_le (r : BitVec 256) (n : Nat) : bitsBelow r n ≤ n := by
  induction n with
  | zero => exact Nat.le_refl 0
  | succ n ih => unfold bitsBelow; split <;> omega

theorem bitsBelow_zero (n : Nat) : bitsBelow 0#256 n = 0 := by
  induction n with
  | zero => rfl
  | succ n ih => simp [bitsBelow, ih]

/-- Setting one clear bit counts one more. -/
theorem bitsBelow_received {r : BitVec 256} {id : Nat} (hid : id < 256) (hr : r.getLsbD id = false) (n : Nat) :
    bitsBelow (r ||| (1#256 <<< id)) n = bitsBelow r n + if id < n then 1 else 0 := by
  induction n with
  | zero => rfl
  | succ n ih =>
    rw [bitsBelow, bitsBelow, ih, getLsbD_received r hid]
    by_cases h : n = id
    · subst h; simp [hr]
    · have : (id < n + 1) ↔ id < n := by omega
      simp only [h, decide_false, Bool.or_false, this]
      omega

/-! ### One entry -/

/-- The entry a first fragment creates is consistent. -/
theorem FragEntry.sound_fresh {h : FragmentHeader} {mf fs : Nat} (h1 : 1 ≤ h.count) (h2 : h.count ≤ mf)
    (h3 : h.count ≤ 256) : (FragEntry.fresh h).sound h.seq mf fs := by
  have hn : (FragEntry.fresh h).numTotal.toNat = h.count := by
    rw [FragEntry.fresh, BitVec.toNat_ofNat]
    omega
  have hbit : ∀ i, (FragEntry.fresh h).received.getLsbD i = false := fun i => BitVec.getLsbD_zero
  have hcount : bitsBelow (FragEntry.fresh h).received 256 = 0 := bitsBelow_zero 256
  refine ⟨rfl, by rwa [hn], by rwa [hn], fun i hi => ?_, hcount.symm, ?_, ?_⟩
  · rw [hbit] at hi; cases hi
  · rw [hbit, if_neg Bool.false_ne_true]; rfl
  · rw [hbit, if_neg Bool.false_ne_true]; rfl

/-- What the store of a fragment writes into its entry. -/
theorem FragEntry.store_headerBytes (e : FragEntry) (h : FragmentHeader) (hdr : Option (List Byte)) (fs len : Nat)
    (hn : h.id ≠ 0 → hdr = none) (hs : h.id = 0 → ∃ hh, hdr = some hh) :
    (e.store h (hdr.map List.length) fs len).headerBytes =
      if h.id = 0 then BitVec.ofNat 8 (hdr.getD []).length else e.headerBytes := by
  by_cases h0 : h.id = 0
  · obtain ⟨hh, rfl⟩ := hs h0
    rw [if_pos h0]
    rfl
  · rw [if_neg h0, hn h0]
    rfl

/-- A fragment of a consistent entry that is not yet held keeps it consistent. -/
theorem FragEntry.sound_store {e : FragEntry} {q : U16} {mf fs len : Nat} {h : FragmentHeader}
    {hdr : Option (List Byte)} (he : e.sound q mf fs) (ht : e.numTotal.toNat = h.count)
    (hr : e.received.getLsbD h.id = false) (hid : h.id < h.count) (h3 : h.count ≤ 256) (hle : len ≤ fs)
    (hn : h.id ≠ 0 → hdr = none) (hs : h.id = 0 → ∃ hh, hdr = some hh ∧ 4 ≤ hh.length ∧ hh.length ≤ 9)
    (hfit : mf * fs < 2 ^ 32) : (e.store h (hdr.map List.length) fs len).sound q mf fs := by
  obtain ⟨hseq, hpos, hmf, hbits, hcount, hhb, hpb⟩ := he
  have hid256 : h.id < 256 := by omega
  have hbit : ∀ i, (e.store h (hdr.map List.length) fs len).received.getLsbD i =
      (e.received.getLsbD i || decide (i = h.id)) := getLsbD_received e.received hid256
  refine ⟨hseq, hpos, hmf, fun i hi => ?_, ?_, ?_, ?_⟩
  · rw [hbit] at hi
    rcases Bool.or_eq_true_iff.1 hi with hi | hi
    · exact hbits i hi
    · rw [of_decide_eq_true hi]; exact ht ▸ hid
  · have hle256 := bitsBelow_le e.received 256
    have hsum := bitsBelow_received hid256 hr 256
    rw [if_pos hid256] at hsum
    refine Eq.trans ?_ hsum.symm
    have h1 : (1 : U16).toNat = 1 := rfl
    show (e.numReceived + 1).toNat = _
    rw [BitVec.toNat_add, h1]
    omega
  · rw [hbit, FragEntry.store_headerBytes e h hdr fs len hn fun h0 => (hs h0).imp fun _ hh => hh.1]
    by_cases h0 : h.id = 0
    · obtain ⟨hh, rfl, hlo, hhi⟩ := hs h0
      have hlen : (BitVec.ofNat 8 hh.length).toNat = hh.length := by rw [BitVec.toNat_ofNat]; omega
      rw [if_pos h0, if_pos (by simp [h0]), Option.getD_some, hlen]
      exact ⟨hlo, hhi⟩
    · have hne : decide (0 = h.id) = false := decide_eq_false fun hz => h0 hz.symm
      rw [if_neg h0, hne, Bool.or_false]
      exact hhb
  · show if (e.store h (hdr.map List.length) fs len).received.getLsbD (e.numTotal.toNat - 1) then _ else _
    rw [hbit, ht]
    show if (e.received.getLsbD (h.count - 1) || decide (h.count - 1 = h.id)) = true then
        (e.numTotal.toNat - 1) * fs ≤ (if h.id = h.count - 1 then BitVec.ofNat 32 ((h.count - 1) * fs + len)
          else e.packetBytes).toNat ∧
        (if h.id = h.count - 1 then BitVec.ofNat 32 ((h.count - 1) * fs + len)
          else e.packetBytes).toNat ≤ e.numTotal.toNat * fs
      else (if h.id = h.count - 1 then BitVec.ofNat 32 ((h.count - 1) * fs + len) else e.packetBytes) = 0
    rw [ht] at hpb hmf ⊢
    by_cases hl : h.id = h.count - 1
    · have hmul : (h.count - 1) * fs + fs = h.count * fs := by
        rw [← Nat.succ_mul, Nat.succ_eq_add_one, Nat.sub_add_cancel (by omega)]
      have hmono : h.count * fs ≤ mf * fs := Nat.mul_le_mul_right fs hmf
      have hval : (BitVec.ofNat 32 ((h.count - 1) * fs + len)).toNat = (h.count - 1) * fs + len := by
        rw [BitVec.toNat_ofNat]
        exact Nat.mod_eq_of_lt (by omega)
      rw [if_pos hl, if_pos (by simp [hl]), hval]
      omega
    · have hne : decide (h.count - 1 = h.id) = false := decide_eq_false fun hz => hl hz.symm
      rw [if_neg hl, hne, Bool.or_false]
      exact hpb

/-! ### The block -/

theorem SeqBuf.tag_zero (k : Nat) : SeqBuf.zero.tag k = none := rfl

theorem frag_tag_of_unconfigured {s : State} (h : s.configSound) (hc : s.configured = false) (k : Nat) :
    s.frag.tag k = none := by
  rw [((configSound_of_unconfigured hc).1 h).2.2.2.1]
  exact SeqBuf.tag_zero k

/-- What a configured packet can hold at most fits OBUF and REASM, and 32 bits. -/
theorem fragment_bounds {s : State} (h : s.configSound) (hc : s.configured = true) :
    9 + s.cfg.maxFragments.toNat * s.cfg.fragmentSize.toNat ≤ s.params.obufBytes ∧
    9 + s.cfg.maxFragments.toNat * s.cfg.fragmentSize.toNat ≤ s.params.reasmBytes ∧
    s.cfg.maxFragments.toNat * s.cfg.fragmentSize.toNat < 2 ^ 32 := by
  obtain ⟨⟨-, -, -, -, -, -, -, hob, -⟩, ⟨-, -, -, -, -, -, -, -, hfit, -⟩, -⟩ := (configSound_of_configured hc).1 h
  have h1 := le_min_iff.1 hfit
  exact ⟨h1.1, h1.2, by omega⟩

/-- The reassemblies of `t` are those of `s`, or some of them. -/
theorem reassemblySound_of_fewer {s t : State} (ht : t.configSound) (h : s.reassemblySound)
    (htag : ∀ k q, t.frag.tag k = some q → s.frag.tag k = some q) (hentry : t.fragEntries = s.fragEntries)
    (hcfg : t.cfg = s.cfg) : t.reassemblySound := by
  refine ⟨ht, fun k q hk => ?_⟩
  have he : t.fragEntry k = s.fragEntry k := by unfold State.fragEntry; rw [hentry]
  rw [he, hcfg]
  exact h.2 k q (htag k q hk)

theorem reassemblySound_update {s t : State} (hc : s.configured = true) (hu : Update s t) (h : s.reassemblySound) :
    t.reassemblySound := by
  have ht := configSound_update hc hu h.1
  cases hu with
  | fragCreate hd B k hi h1 h2 h3 =>
    obtain ⟨-, -, -, -, htag, hother, -⟩ := sbInsert_eq_some hi
    refine ⟨ht, fun j q hj => ?_⟩
    rw [State.fragEntry_setFragEntry]
    have hj : B.tag j = some q := hj
    by_cases hjk : j = k
    · obtain rfl : q = hd.seq := by rw [hjk, htag] at hj; exact (Option.some.inj hj).symm
      rw [if_pos hjk]
      exact FragEntry.sound_fresh h1 h2 h3
    · rw [if_neg hjk]
      rw [hother j hjk] at hj
      exact h.2 j q (sbAdvance_tag_eq_some hj).1
  | fragStore hd k hdr payload hf htot hr hid h3 hle hsz hn hs =>
    refine ⟨ht, fun j q hj => ?_⟩
    rw [State.fragEntry_setFragEntry]
    by_cases hjk : j = k
    · rw [if_pos hjk]
      rw [hjk] at hj
      exact FragEntry.sound_store (h.2 k q hj) htot hr hid h3 hle hn hs (fragment_bounds h.1 hc).2.2
    · rw [if_neg hjk]
      exact h.2 j q hj
  | remove b q =>
    cases b with
    | frag =>
      refine reassemblySound_of_fewer ht h (fun k p hk => ?_) rfl rfl
      have hk : (sbRemoved s.frag q).tag k = some p := hk
      rw [sbRemoved_tag] at hk
      split at hk
      · cases hk
      · exact hk
    | sent | recv => exact ⟨ht, h.2⟩
  | reset b =>
    cases b with
    | frag =>
      refine reassemblySound_of_fewer ht h (fun k p hk => ?_) rfl rfl
      have hk : (sbReset s.frag).tag k = some p := hk
      rw [sbReset_tag] at hk
      split at hk
      · cases hk
      · exact hk
    | sent | recv => exact ⟨ht, h.2⟩
  | create hn => rw [hc] at hn; cases hn
  | _ => exact ⟨ht, h.2⟩

theorem reassemblySound_config {s : State} (c : CfgRegs) (hc : s.configured = false) (h : s.reassemblySound) :
    State.reassemblySound { s with cfg := c } := by
  refine ⟨configSound_config c hc h.1, fun k q hk => ?_⟩
  have hk : s.frag.tag k = some q := hk
  rw [frag_tag_of_unconfigured h.1 hc] at hk
  cases hk

theorem reassemblySound_header {s t : State} (ht : s.codesHeader t) (h : s.reassemblySound) : t.reassemblySound := by
  obtain ⟨out, r0, r1, r2, r3, x, c, -, rfl⟩ := ht
  exact h

theorem reassemblySound_created {s : State} (hv : s.cfg.valid s.params) (h : s.reassemblySound) :
    (s.created.finish .ok).reassemblySound := by
  refine ⟨configSound_created hv h.1, fun k q hk => ?_⟩
  have hk : (none : Option U16) = some q := hk
  cases hk

theorem reassemblySound_emit {s : State} (e : Event) (p : Phase) (hc : s.configured = true) (h : s.reassemblySound) :
    (s.emit e p).reassemblySound := ⟨configSound_emit e p hc h.1, h.2⟩

theorem reassemblySound_endEvent {s : State} {f : Frame} {rest : List Frame} (hst : s.stack = f :: rest)
    (h : s.reassemblySound) : (s.endEvent f rest).reassemblySound := ⟨configSound_endEvent hst h.1, h.2⟩

/-- Settles O30: each update of a configured block keeps every entry consistent. -/
theorem reassemblyInvariantKept : Obligations.ReassemblyInvariantKept := by
  intro s t h hstep
  exact step_preserves_configured State.reassemblySound
    (hstack := fun _ h => configured_of_stack h.1)
    (hread := fun _ _ _ h => h) (hoperand := fun _ _ _ _ _ h => h)
    (hconfig := fun _ c hc h => reassemblySound_config c hc h)
    (hinput := fun _ _ _ _ _ h => h)
    (hheader := fun _ _ ht h => reassemblySound_header ht h)
    (hcreate := fun _ _ hv h => reassemblySound_created hv h)
    (hupdate := fun _ _ hc hu h => reassemblySound_update hc hu h)
    (hemit := fun _ e p hc _ h => reassemblySound_emit e p hc h)
    (hend := fun _ _ _ hst h => reassemblySound_endEvent hst h)
    (hrestore := fun _ h => State.restoreEnclosing_induction h fun _ => h)
    h hstep

end Sys2Proof.Machine
end

section
/-! PROOF. The byte spaces and tables stay canonical, and what is written stays inside its space (20_memory.md R60, R66;
10_state.md R32; 43_reassembler.md R164, R168). -/

namespace Sys2Proof.Machine

/-! ### The canonical form, part by part -/

/-- The byte buffers of the host's address space are canonical. -/
def State.buffersCanonical (s : State) : Prop := Memory.wf s.ibuf ∧ Memory.wf s.obuf ∧ Memory.wf s.ebuf

/-- The tags of the three buffers are canonical. -/
def State.tagsCanonical (s : State) : Prop :=
  Table.wf none s.sent.tags ∧ Table.wf none s.recv.tags ∧ Table.wf none s.frag.tags

/-- ACKS, the slot payloads and REASM are canonical. -/
def State.payloadsCanonical (s : State) : Prop :=
  Table.wf 0#16 s.acks ∧ Table.wf SentRecord.zero s.sentRecords ∧ Table.wf RecvRecord.zero s.recvRecords ∧
  Table.wf FragEntry.zero s.fragEntries ∧ Table.wf ([] : Memory) s.reasm ∧ ∀ c ∈ s.reasm, Memory.wf c.2

theorem tablesCanonical_iff (s : State) :
    s.tablesCanonical ↔ s.buffersCanonical ∧ s.tagsCanonical ∧ s.payloadsCanonical := by
  unfold State.tablesCanonical State.buffersCanonical State.tagsCanonical State.payloadsCanonical
  tauto

theorem tagsCanonical_setBuffer {s : State} (b : BufSel) {B : SeqBuf} (h : s.tagsCanonical)
    (hB : Table.wf none B.tags) : (s.setBuffer b B).tagsCanonical := by
  obtain ⟨hsent, hrecv, hfrag⟩ := h
  cases b with
  | sent => exact ⟨hB, hrecv, hfrag⟩
  | recv => exact ⟨hsent, hB, hfrag⟩
  | frag => exact ⟨hsent, hrecv, hB⟩

theorem tagsCanonical_buffer {s : State} (b : BufSel) (h : s.tagsCanonical) : Table.wf none (s.buffer b).tags := by
  obtain ⟨hsent, hrecv, hfrag⟩ := h
  cases b with
  | sent => exact hsent
  | recv => exact hrecv
  | frag => exact hfrag

theorem reasmSpace_wf {s : State} (h : s.payloadsCanonical) (k : Nat) : Memory.wf (s.reasmSpace k) := by
  obtain ⟨-, -, -, -, -, hmem⟩ := h
  exact Table.get_of_forall (P := Memory.wf) Memory.wf_nil hmem k

theorem payloadsCanonical_setFragEntry {s : State} (k : Nat) (e : FragEntry) {m : Memory} (h : s.payloadsCanonical)
    (hm : Memory.wf m) : (s.setFragEntry k e m).payloadsCanonical := by
  obtain ⟨hacks, hsent, hrecv, hfrag, hreasm, hmem⟩ := h
  refine ⟨hacks, hsent, hrecv, Table.wf_set k e hfrag, Table.wf_set k m hreasm, fun c hc => ?_⟩
  rcases Table.mem_set hc with rfl | hc
  · exact hm
  · exact hmem c hc

theorem buffersCanonical_update {s t : State} (hu : Update s t) (h : s.buffersCanonical) : t.buffersCanonical := by
  obtain ⟨hib, hob, heb⟩ := h
  cases hu with
  | output out ho => exact ⟨hib, Memory.wf_writeBytes 0 out hob, heb⟩
  | remove b q => cases b <;> exact ⟨hib, hob, heb⟩
  | reset b => cases b <;> exact ⟨hib, hob, heb⟩
  | _ => exact ⟨hib, hob, heb⟩

theorem tagsCanonical_update {s t : State} (hu : Update s t) (h : s.tagsCanonical) : t.tagsCanonical := by
  cases hu with
  | sentInsert q B k size n hi => exact tagsCanonical_setBuffer (s := s) .sent h (sbInsert_wf h.1 hi)
  | recvInsert q B k size n hi => exact tagsCanonical_setBuffer (s := s) .recv h (sbInsert_wf h.2.1 hi)
  | fragCreate hd B k hi => exact tagsCanonical_setBuffer (s := s) .frag h (sbInsert_wf h.2.2 hi)
  | remove b q => exact tagsCanonical_setBuffer b h (sbRemoved_wf q (tagsCanonical_buffer b h))
  | reset b => exact tagsCanonical_setBuffer b h (sbReset_wf (tagsCanonical_buffer b h))
  | create hc hv => exact ⟨Table.wf_nil _, Table.wf_nil _, Table.wf_nil _⟩
  | _ => exact h

theorem payloadsCanonical_update {s t : State} (hu : Update s t) (h : s.payloadsCanonical) : t.payloadsCanonical := by
  have hspace := reasmSpace_wf h
  cases hu with
  | fragCreate hd B k hi => exact payloadsCanonical_setFragEntry (s := s) k _ h Memory.wf_nil
  | fragStore hd k hdr payload =>
    exact payloadsCanonical_setFragEntry k _ h (Memory.wf_fragData hd hdr _ payload (hspace k))
  | sentInsert q B k size n hi => exact ⟨h.1, Table.wf_set k _ h.2.1, h.2.2⟩
  | recvInsert q B k size n hi => exact ⟨h.1, h.2.1, Table.wf_set k _ h.2.2.1, h.2.2.2⟩
  | ackRecord q k hf ha hn => exact ⟨Table.wf_set _ q h.1, Table.wf_set k _ h.2.1, h.2.2⟩
  | remove b q => cases b <;> exact h
  | reset b => cases b <;> exact h
  | _ => exact h

theorem tablesCanonical_update {s t : State} (hu : Update s t) (h : s.tablesCanonical) : t.tablesCanonical := by
  obtain ⟨hb, ht, hp⟩ := (tablesCanonical_iff s).1 h
  exact (tablesCanonical_iff t).2 ⟨buffersCanonical_update hu hb, tagsCanonical_update hu ht, payloadsCanonical_update hu hp⟩

/-- Only EBUF has changed, and by writes of byte strings. -/
theorem tablesCanonical_ebuf {s t : State} (bs : List Byte) (h : s.tablesCanonical)
    (ht : State.tablesCanonical { s with ebuf := writeBytes s.ebuf 0 bs } → t.tablesCanonical) : t.tablesCanonical := by
  obtain ⟨hib, hob, heb, hrest⟩ := h
  exact ht ⟨hib, hob, Memory.wf_writeBytes 0 bs heb, hrest⟩

theorem tablesCanonical_step {s t : State} (h : s.tablesCanonical) (hstep : step s = .next t) : t.tablesCanonical :=
  step_preserves State.tablesCanonical
    (hread := fun _ _ _ h => h) (hoperand := fun _ _ _ _ _ h => h) (hconfig := fun _ _ _ h => h)
    (hinput := fun _ width off v _ h => ⟨Memory.wf_bufferStore width off v h.1, h.2⟩)
    (hupdate := fun _ _ hu h => tablesCanonical_update hu h)
    (hemit := fun _ e _ _ h => tablesCanonical_ebuf e.bytes h id)
    (hend := fun s f _ _ h =>
      tablesCanonical_ebuf ((List.range f.event.bytes.length).map (Config.ebufResidue s.freeCount)) h id)
    (hrestore := fun _ h => State.restoreEnclosing_induction h fun e => tablesCanonical_ebuf e.bytes h id)
    h hstep

/-! ### The sizes -/

theorem ebufBytes_bounds (p : Params) : p.ibufBytes + 14 ≤ p.ebufBytes ∧ p.obufBytes + 14 ≤ p.ebufBytes := by
  unfold Params.ebufBytes
  omega

/-- A packet rebuilt from a consistent reassembly fits OBUF (43_reassembler.md R168). -/
theorem length_of_rebuilds {s : State} {b : List Byte} (hc : s.configured = true) (h : s.reassemblySound)
    (hb : s.rebuilds b) : b.length ≤ s.params.obufBytes := by
  obtain ⟨k, q, hk, hlen⟩ := hb
  obtain ⟨-, -, hmf, -, -, hhb, hpb⟩ := h.2 k q hk
  have hfit := (fragment_bounds h.1 hc).1
  have hmono : (s.fragEntry k).numTotal.toNat * s.cfg.fragmentSize.toNat ≤
      s.cfg.maxFragments.toNat * s.cfg.fragmentSize.toNat := Nat.mul_le_mul_right _ hmf
  have hhdr : (s.fragEntry k).headerBytes.toNat ≤ 9 := by
    split at hhb
    · exact hhb.2
    · rw [hhb]; decide
  have hpkt : (s.fragEntry k).packetBytes.toNat ≤ (s.fragEntry k).numTotal.toNat * s.cfg.fragmentSize.toNat := by
    split at hpb
    · exact hpb.2
    · rw [hpb]; exact Nat.zero_le _
  omega

theorem length_of_builds {s : State} {out : List Byte} (hc : s.configured = true) (h : s.reassemblySound)
    (ho : s.builds out) : out.length ≤ s.params.obufBytes := by
  obtain ⟨-, -, -, -, -, -, h9, -⟩ := h.1.1
  rcases ho with ho | ho
  · omega
  · exact length_of_rebuilds hc h ho

/-- Every event string fits EBUF (20_memory.md R60). -/
theorem length_of_raises {s : State} {e : Event} (hc : s.configured = true) (h : s.reassemblySound)
    (he : s.raises e) : e.bytes.length ≤ s.params.ebufBytes := by
  obtain ⟨hi, ho⟩ := ebufBytes_bounds s.params
  rcases he with he | he | he
  · omega
  · obtain ⟨-, ⟨-, hmf, -⟩, -⟩ := (configSound_of_configured hc).1 h.1
    have hfit := (fragment_bounds h.1 hc).1
    have : 1 * s.cfg.fragmentSize.toNat ≤ s.cfg.maxFragments.toNat * s.cfg.fragmentSize.toNat :=
      Nat.mul_le_mul_right _ hmf.1
    omega
  · exact (length_of_rebuilds hc h he).trans (by omega)

/-- A fragment is written inside REASM: its header before offset 9, its payload before the end of the last part. -/
theorem below_fragData {m : Memory} {h : FragmentHeader} {hdr : Option (List Byte)} {fs n : Nat} {payload : List Byte}
    (hm : Table.below m n) (hid : h.id < h.count) (hle : payload.length ≤ fs) (hfit : 9 + h.count * fs ≤ n)
    (hh : ∀ hh, hdr = some hh → hh.length ≤ 9) : Table.below (fragData m h hdr fs payload) n := by
  have hmul : (h.id + 1) * fs ≤ h.count * fs := Nat.mul_le_mul_right fs hid
  rw [Nat.succ_mul] at hmul
  have hpart : 9 + h.id * fs + payload.length ≤ n := by omega
  cases hdr with
  | none => exact Memory.below_writeBytes payload hm hpart
  | some x =>
    have hx := hh x rfl
    exact Memory.below_writeBytes payload (Memory.below_writeBytes x hm (by omega)) hpart

theorem below_bufferStore {m : Memory} {width off n : Nat} (v : U32) (hm : Table.below m n)
    (hfit : off + (if width = 4 then 4 else 1) ≤ n) : Table.below (bufferStore m width off v) n := by
  unfold bufferStore
  split
  · next hw => rw [if_pos hw] at hfit; exact Memory.below_writeBytes _ hm hfit
  · next hw => rw [if_neg hw] at hfit; exact Table.below_set hm hfit

/-- A byte string no longer than its space is written inside it. -/
theorem below_writeBytes_zero {m : Memory} {n : Nat} {bs : List Byte} (hm : Table.below m n) (hb : bs.length ≤ n) :
    Table.below (writeBytes m 0 bs) n :=
  Memory.below_writeBytes bs hm ((Nat.zero_add _).symm ▸ hb)

theorem spacesFit_setFragEntry {s : State} (k : Nat) (e : FragEntry) {m : Memory} (h : s.spacesFit)
    (hm : Table.below m s.params.reasmBytes) : (s.setFragEntry k e m).spacesFit := by
  obtain ⟨hib, hob, heb, hreasm, hacks, hst⟩ := h
  refine ⟨hib, hob, heb, fun j => ?_, hacks, hst⟩
  rw [State.reasmSpace_setFragEntry]
  split
  · exact hm
  · exact hreasm j

theorem spacesFit_update {s t : State} (hc : s.configured = true) (hu : Update s t) (hr : s.reassemblySound)
    (h : s.spacesFit) : t.spacesFit := by
  have hall := h
  obtain ⟨hib, hob, heb, hreasm, hacks, hst⟩ := h
  cases hu with
  | output out ho =>
    exact ⟨hib, below_writeBytes_zero hob (length_of_builds hc hr ho), heb, hreasm, hacks, hst⟩
  | ackRecord q k hf ha hn =>
    obtain ⟨-, ⟨-, -, -, hack, -⟩, -⟩ := (configSound_of_configured hc).1 hr.1
    have hlt : s.ackCount.toNat < s.cfg.ackBufferSize.toNat := hn
    exact ⟨hib, hob, heb, hreasm, Table.below_set hacks (lt_of_lt_of_le hlt hack.2), hst⟩
  | fragCreate hd B k hi => exact spacesFit_setFragEntry (s := s) k (FragEntry.fresh hd) hall fun c hmem => (by cases hmem)
  | fragStore hd k hdr payload hf htot hbit hid h3 hle hsz hn hs =>
    have hmf : hd.count ≤ s.cfg.maxFragments.toNat := htot ▸ (hr.2 k hd.seq hf).2.2.1
    have hfit := (fragment_bounds hr.1 hc).2.1
    have hmono : hd.count * s.cfg.fragmentSize.toNat ≤ s.cfg.maxFragments.toNat * s.cfg.fragmentSize.toNat :=
      Nat.mul_le_mul_right _ hmf
    refine spacesFit_setFragEntry k _ hall (below_fragData (hreasm k) hid hle (by omega) fun hh hhdr => ?_)
    by_cases h0 : hd.id = 0
    · obtain ⟨x, hx, -, h9⟩ := hs h0
      obtain rfl : x = hh := Option.some.inj (hx.symm.trans hhdr)
      exact h9
    · rw [hn h0] at hhdr
      cases hhdr
  | remove b q => cases b <;> exact hall
  | reset b => cases b <;> exact hall
  | _ => exact hall

theorem spacesFit_header {s t : State} (ht : s.codesHeader t) (hp : s.params.wf) (h : s.spacesFit) : t.spacesFit := by
  obtain ⟨out, r0, r1, r2, r3, x, c, hout, rfl⟩ := ht
  obtain ⟨hib, hob, hrest⟩ := h
  obtain ⟨-, -, -, -, -, -, h9, -⟩ := hp
  exact ⟨hib, below_writeBytes_zero hob (hout.trans h9), hrest⟩

/-- An event string that fits EBUF is written inside it. -/
theorem spacesFit_ebuf {s : State} (bs : List Byte) (h : s.spacesFit) (hb : bs.length ≤ s.params.ebufBytes) :
    State.spacesFit { s with ebuf := writeBytes s.ebuf 0 bs } := by
  obtain ⟨hib, hob, heb, hrest⟩ := h
  exact ⟨hib, hob, below_writeBytes_zero heb hb, hrest⟩

theorem spacesFit_emit {s : State} {e : Event} (p : Phase) (h : s.spacesFit) (he : e.bytes.length ≤ s.params.ebufBytes) :
    (s.emit e p).spacesFit := by
  obtain ⟨hib, hob, heb, hreasm, hacks, hst⟩ := spacesFit_ebuf e.bytes h he
  refine ⟨hib, hob, heb, hreasm, hacks, fun f hf => ?_⟩
  rcases List.mem_cons.1 hf with rfl | hf
  · exact he
  · exact hst f hf

theorem spacesFit_endEvent {s : State} {f : Frame} {rest : List Frame} (hst : s.stack = f :: rest) (h : s.spacesFit) :
    (s.endEvent f rest).spacesFit := by
  have hf : ∀ g ∈ f :: rest, g.event.bytes.length ≤ s.params.ebufBytes := hst ▸ h.2.2.2.2.2
  obtain ⟨hib, hob, heb, hreasm, hacks, -⟩ :=
    spacesFit_ebuf ((List.range f.event.bytes.length).map (Config.ebufResidue s.freeCount)) h
      (by rw [List.length_map, List.length_range]; exact hf f List.mem_cons_self)
  exact ⟨hib, hob, heb, hreasm, hacks, fun g hg => hf g (List.mem_cons_of_mem f hg)⟩

theorem spacesFit_restore {s : State} (h : s.spacesFit) : s.restoreEnclosing.spacesFit := by
  cases hs : s.stack with
  | nil => rw [State.restoreEnclosing_nil hs]; exact h
  | cons f fs =>
    rw [State.restoreEnclosing_cons hs]
    exact spacesFit_ebuf f.event.bytes h (h.2.2.2.2.2 f (by rw [hs]; exact List.mem_cons_self))

theorem spacesFit_step {s t : State} (hr : s.reassemblySound) (hf : s.spacesFit) (hstep : step s = .next t) :
    t.spacesFit :=
  (step_preserves_configured (fun s => s.reassemblySound ∧ s.spacesFit)
    (hstack := fun _ h => configured_of_stack h.1.1)
    (hread := fun _ _ _ h => h) (hoperand := fun _ _ _ _ _ h => h)
    (hconfig := fun _ c hc h => ⟨reassemblySound_config c hc h.1, h.2⟩)
    (hinput := fun _ _ _ v hfit h =>
      ⟨h.1, below_bufferStore v h.2.1 (hfit h.1.1.1), h.2.2⟩)
    (hheader := fun _ _ ht h => ⟨reassemblySound_header ht h.1, spacesFit_header ht h.1.1.1 h.2⟩)
    (hcreate := fun _ _ hv h => ⟨reassemblySound_created hv h.1, h.2⟩)
    (hupdate := fun _ _ hc hu h => ⟨reassemblySound_update hc hu h.1, spacesFit_update hc hu h.1 h.2⟩)
    (hemit := fun _ e p hc he h =>
      ⟨reassemblySound_emit e p hc h.1, spacesFit_emit p h.2 (length_of_raises hc h.1 he)⟩)
    (hend := fun _ _ _ hst h => ⟨reassemblySound_endEvent hst h.1, spacesFit_endEvent hst h.2⟩)
    (hrestore := fun _ h => ⟨State.restoreEnclosing_induction h.1 fun _ => h.1, spacesFit_restore h.2⟩)
    ⟨hr, hf⟩ hstep).2

/-- Settles O57: both parts by the updates a step is made of. -/
theorem canonicalFormKept : Obligations.CanonicalFormKept :=
  ⟨fun _ _ h hstep => tablesCanonical_step h hstep, fun _ _ hr hf hstep => spacesFit_step hr hf hstep⟩

end Sys2Proof.Machine
end

section
/-! PROOF. The SequenceMath and SequenceBuffer commands (40_seqmath.md R111 to R113, 41_seqbuffer.md R120 to R131). -/

namespace Sys2Proof.Machine

/-! ### SequenceMath -/

theorem argHalf_toNat (s : State) : s.argHalf.toNat = s.arg0.toNat % 65536 := by
  simp [State.argHalf, lowHalf, BitVec.toNat_setWidth]

theorem exec_seqGt (x : U16) (s : State) :
    exec (.seqGt x) s = .next { s with res0 := boolWord (gt16 x s.argHalf), code := .ok } := rfl

theorem exec_seqLt (x : U16) (s : State) :
    exec (.seqLt x) s = .next { s with res0 := boolWord (gt16 s.argHalf x), code := .ok } := rfl

theorem exec_seqInc (x : U16) (s : State) :
    exec (.seqInc x) s = .next { s with res0 := word (inc16 x s.argHalf), code := .ok } := rfl

theorem boolWord_gt16_of_newer {a b : U16} (h : newerThan a.toNat b.toNat) : boolWord (gt16 a b) = 1 := by
  rw [(gt16_iff_newerThan a b).2 h]
  rfl

theorem boolWord_gt16_of_not_newer {a b : U16} (h : ¬ newerThan a.toNat b.toNat) : boolWord (gt16 a b) = 0 := by
  rw [Bool.eq_false_iff.2 (mt (gt16_iff_newerThan a b).1 h)]
  rfl

theorem word_eq_ofNat (q : U16) : word q = BitVec.ofNat 32 q.toNat := by
  apply BitVec.eq_of_toNat_eq
  have := q.isLt
  rw [word, BitVec.toNat_setWidth, BitVec.toNat_ofNat]

/-- Settles O9: the commands are their equations, and the order is the one on numbers. -/
theorem sequenceMathCommands : Obligations.SequenceMathCommands := by
  intro s x
  rw [← argHalf_toNat, exec_seqGt, exec_seqLt, exec_seqInc]
  refine ⟨fun h => ?_, fun h => ?_, fun h => ?_, fun h => ?_, ?_⟩
  · rw [boolWord_gt16_of_newer h]
  · rw [boolWord_gt16_of_not_newer h]
  · rw [boolWord_gt16_of_newer h]
  · rw [boolWord_gt16_of_not_newer h]
  · rw [word_eq_ofNat, inc16, BitVec.toNat_add, argHalf_toNat, Nat.add_mod_mod]

/-! ### Insert -/

theorem slot_add_ofNat (B : SeqBuf) (p : U16) {i : Nat} (hi : i < 65536) :
    B.slot (p + BitVec.ofNat 16 i) = (p.toNat + i) % 65536 % B.n.toNat := by
  rw [SeqBuf.slot, BitVec.toNat_add, BitVec.toNat_ofNat, Nat.mod_eq_of_lt (show i < 2 ^ 16 from hi)]

/-- The slots an advance empties are those of `swept`. -/
theorem swept_iff (B : SeqBuf) (q : U16) (k : Nat) : B.swept q k ↔
    (if B.n.toNat ≤ (q - B.s).toNat + 1 then k < B.n.toNat
      else ∃ i, i < (q - B.s).toNat + 1 ∧ B.slot (B.s + BitVec.ofNat 16 i) = k) := by
  have hd := (q - B.s).isLt
  unfold SeqBuf.swept
  simp only [seqDistance_toNat]
  split
  · rfl
  · refine exists_congr fun i => and_congr_right fun hi => ?_
    rw [slot_add_ofNat B B.s (by omega)]

/-- Settles O10: the tags are those of the advance, with the sequence's own slot set. -/
theorem insertTagsAndSweeps : Obligations.InsertTagsAndSweeps := by
  intro B q
  refine ⟨sbInsert_of_stale, fun hst => ?_⟩
  have hi := sbInsert_of_not_stale hst
  obtain ⟨-, -, hn, hs, htag, hother, -⟩ := sbInsert_eq_some hi
  refine ⟨_, hi, hn, fun hg => ?_, fun hg => ?_, htag, fun k hk => ⟨fun hsw => ?_, fun hns => ?_⟩⟩
  · rw [hs, if_pos hg]
  · rw [hs, hg]; rfl
  · rw [swept_iff] at hsw
    rw [hother k hk, sbAdvance_tag, if_pos hsw]
  · rw [swept_iff] at hns
    rw [hother k hk, sbAdvance_tag, if_neg hns]

/-- SB_INSERT of a legal buffer selector on a configured block. -/
theorem exec_sbInsert_of_configured {b : BufSel} (hb : b ≠ .frag) (q : U16) {s : State} (hc : s.configured = true) :
    exec (.sbInsert b q) s = .next (runSbInsert b q s) := by
  show Host.Outcome.next (if b = .frag then s.finish .illegal else s.gated (runSbInsert b q)) = _
  rw [if_neg hb, State.gated_of_configured hc]

theorem runSbInsert_of_not_stale {b : BufSel} {q : U16} {s : State} (h : sbStale (s.buffer b) q = false) :
    runSbInsert b q s =
      { (s.setBuffer b ((sbAdvance (s.buffer b) q).setTag ((s.buffer b).slot q) (some q))).fillSlot b
          ((s.buffer b).slot q) with
        res0 := BitVec.ofNat 32 ((s.buffer b).slot q), code := .ok } := by
  unfold runSbInsert
  rw [sbInsert_of_not_stale h]
  rfl

theorem runSbInsert_of_stale {b : BufSel} {q : U16} {s : State} (h : sbStale (s.buffer b) q = true) :
    runSbInsert b q s = s.finish .stale := by
  unfold runSbInsert
  rw [sbInsert_of_stale h]

/-- Settles O11: the two instances by the record each writes, then the stale sequence. -/
theorem sbInsertWritesRecord : Obligations.SbInsertWritesRecord := by
  intro s q hc
  refine ⟨fun hst => ?_, fun hst => ?_, fun b hb hst => ?_⟩
  · refine ⟨_, exec_sbInsert_of_configured (by decide) q hc, ?_⟩
    rw [runSbInsert_of_not_stale (b := .sent) hst]
    exact ⟨sbInsert_of_not_stale hst, Table.get_set_same .., fun k hk => Table.get_set_ne _ _ _ hk, rfl⟩
  · refine ⟨_, exec_sbInsert_of_configured (by decide) q hc, ?_⟩
    rw [runSbInsert_of_not_stale (b := .recv) hst]
    exact ⟨sbInsert_of_not_stale hst, Table.get_set_same .., fun k hk => Table.get_set_ne _ _ _ hk, rfl⟩
  · rw [exec_sbInsert_of_configured hb q hc, runSbInsert_of_stale hst]
    rfl

/-! ### Find, remove, test -/

theorem exec_sbFind_of_configured (b : BufSel) (q : U16) {s : State} (hc : s.configured = true) :
    exec (.sbFind b q) s = .next (runSbFind b q s) :=
  congrArg Host.Outcome.next (State.gated_of_configured hc _)

theorem runSbFind_of_some {b : BufSel} {q : U16} {s : State} {k : Nat} (h : sbFind (s.buffer b) q = some k) :
    runSbFind b q s = (s.reportSlot b k).finish .ok := by
  unfold runSbFind
  rw [h]

theorem runSbFind_of_none {b : BufSel} {q : U16} {s : State} (h : sbFind (s.buffer b) q = none) :
    runSbFind b q s = s.finish .notFound := by
  unfold runSbFind
  rw [h]

theorem sbFind_of_tag {B : SeqBuf} {q : U16} (h : B.tag (B.slot q) = some q) : sbFind B q = some (B.slot q) :=
  sbFind_eq_some.2 ⟨rfl, h⟩

/-- Settles O12: the record of the slot found, per buffer, or NOT_FOUND. -/
theorem sbFindReportsSlot : Obligations.SbFindReportsSlot := by
  intro s q hc
  refine ⟨fun ht => ?_, fun ht => ?_, fun ht => ?_, fun b ht => ?_⟩ <;> rw [exec_sbFind_of_configured _ q hc]
  · rw [runSbFind_of_some (b := .sent) (sbFind_of_tag ht)]; rfl
  · rw [runSbFind_of_some (b := .recv) (sbFind_of_tag ht)]; rfl
  · rw [runSbFind_of_some (b := .frag) (sbFind_of_tag ht)]; rfl
  · rw [runSbFind_of_none (sbFind_eq_none.2 ht)]; rfl

theorem exec_sbRemove_of_configured (b : BufSel) (q : U16) {s : State} (hc : s.configured = true) :
    exec (.sbRemove b q) s = .next (runSbRemove b q s) :=
  congrArg Host.Outcome.next (State.gated_of_configured hc _)

theorem runSbRemove_of_tag {b : BufSel} {q : U16} {s : State}
    (h : (s.buffer b).tag ((s.buffer b).slot q) = some q) :
    runSbRemove b q s = (s.setBuffer b (sbEvict (s.buffer b) ((s.buffer b).slot q))).finish .ok := by
  unfold runSbRemove sbRemove
  rw [if_pos h]

theorem runSbRemove_of_not_tag {b : BufSel} {q : U16} {s : State}
    (h : (s.buffer b).tag ((s.buffer b).slot q) ≠ some q) : runSbRemove b q s = s.finish .notFound := by
  unfold runSbRemove sbRemove
  rw [if_neg h]

@[simp] theorem State.finish_buffer (s : State) (c : ResultCode) (b : BufSel) :
    (s.finish c).buffer b = s.buffer b := by cases b <;> rfl

/-- Settles O13: the eviction of the one slot, and its frame. -/
theorem sbRemoveEmptiesSlot : Obligations.SbRemoveEmptiesSlot := by
  intro s b q hc
  refine ⟨fun ht => ?_, fun ht => ?_⟩ <;> rw [exec_sbRemove_of_configured b q hc]
  · refine ⟨_, rfl, ?_⟩
    rw [runSbRemove_of_tag ht, State.finish_buffer, State.buffer_setBuffer]
    exact ⟨rfl, rfl, (sbEvict_tag ..).trans (if_pos rfl), fun k hk => (sbEvict_tag ..).trans (if_neg hk), rfl⟩
  · rw [runSbRemove_of_not_tag ht]; rfl

theorem exec_sbTestInsert_of_configured (b : BufSel) (q : U16) {s : State} (hc : s.configured = true) :
    exec (.sbTestInsert b q) s = .next { s with res0 := boolWord (gt16 (s.buffer b).oldest q), code := .ok } :=
  congrArg Host.Outcome.next (State.gated_of_configured hc _)

theorem oldest_toNat (B : SeqBuf) : B.oldest.toNat = seqDistance B.s.toNat (B.n.toNat % 65536) := by
  have hn : (lowHalf B.n).toNat = B.n.toNat % 65536 := by simp [lowHalf, BitVec.toNat_setWidth]
  rw [SeqBuf.oldest, ← seqDistance_toNat, hn]

/-- No sequence less than 32768 ahead of another is older than it. -/
theorem not_newerThan_of_near {a b : U16} (h : seqDistance b.toNat a.toNat < 32768) :
    ¬ newerThan a.toNat b.toNat := by
  have ha := a.isLt
  have hb := b.isLt
  unfold newerThan
  unfold seqDistance at h ⊢
  omega

/-- Settles O14: the answer is the comparison with the oldest sequence of the window. -/
theorem sbTestInsertReportsStale : Obligations.SbTestInsertReportsStale := by
  intro s b q hc
  simp only [exec_sbTestInsert_of_configured b q hc, ← oldest_toNat]
  refine ⟨fun h => ?_, fun h => ?_, fun hn hd => ?_⟩
  · rw [boolWord_gt16_of_newer h]
  · rw [boolWord_gt16_of_not_newer h]
  · rw [boolWord_gt16_of_not_newer (not_newerThan_of_near (lt_of_lt_of_le hd hn))]

/-! ### Generate acks -/

/-- Bit `i` of ack_bits says whether the sequence `i` before the ack is held. -/
theorem getLsbD_sbAckBits (B : SeqBuf) (ack : U16) {n : Nat} (hn : n ≤ 32) (i : Nat) :
    (sbAckBits B ack n).getLsbD i = (decide (i < n) && (sbFind B (ack - BitVec.ofNat 16 i)).isSome) := by
  induction n with
  | zero => simp [sbAckBits]
  | succ n ih =>
    have hbit : (boolWord (sbFind B (ack - BitVec.ofNat 16 n)).isSome <<< n).getLsbD i =
        (decide (i = n) && (sbFind B (ack - BitVec.ofNat 16 i)).isSome) := by
      rw [BitVec.getLsbD_shiftLeft]
      by_cases h : i = n
      · subst h
        have hlt : i < 32 := hn
        cases (sbFind B (ack - BitVec.ofNat 16 i)).isSome <;> simp [boolWord, hlt]
      · cases (sbFind B (ack - BitVec.ofNat 16 n)).isSome with
        | false => simp [boolWord, h]
        | true =>
          have hne : i < n ∨ i - n ≠ 0 := by omega
          rcases hne with hne | hne <;> simp [boolWord, h, hne, BitVec.getLsbD_one]
    rw [sbAckBits, BitVec.getLsbD_or, ih (by omega), hbit, ← Bool.and_or_distrib_right]
    congr 1
    rw [← Bool.decide_or, decide_eq_decide]
    omega

theorem exec_sbGenack_of_configured (b : BufSel) {s : State} (hc : s.configured = true) :
    exec (.sbGenack b) s = .next { s with
      res0 := word (s.buffer b).newest, res1 := sbAckBits (s.buffer b) (s.buffer b).newest 32, code := .ok } :=
  congrArg Host.Outcome.next (State.gated_of_configured hc _)

/-- Settles O15: the bits one by one. -/
theorem sbGenackReportsReceipts : Obligations.SbGenackReportsReceipts := by
  intro s b hc
  refine ⟨_, exec_sbGenack_of_configured b hc, fun i hi => ?_⟩
  rw [getLsbD_sbAckBits _ _ (Nat.le_refl 32), decide_eq_true hi, Bool.true_and, Option.isSome_iff_exists]
  constructor
  · rintro ⟨k, hk⟩
    obtain ⟨rfl, ht⟩ := sbFind_eq_some.1 hk
    exact ht
  · exact fun ht => ⟨_, sbFind_of_tag ht⟩

/-! ### Reset -/

theorem exec_sbReset_of_configured (b : BufSel) {s : State} (hc : s.configured = true) :
    exec (.sbReset b) s = .next ((s.setBuffer b (sbReset (s.buffer b))).finish .ok) :=
  congrArg Host.Outcome.next (State.gated_of_configured hc _)

theorem sbFind_sbReset {B : SeqBuf} (hn : 0 < B.n.toNat) (q : U16) : sbFind (sbReset B) q = none := by
  rw [sbFind_eq_none, sbReset_tag, if_pos (show (sbReset B).slot q < B.n.toNat from B.slot_lt q hn)]
  exact (Option.some_ne_none q).symm

/-- After a reset no sequence is acked. -/
theorem sbGenack_sbReset {B : SeqBuf} (hn : 0 < B.n.toNat) : sbGenack (sbReset B) = (65535, 0) := by
  have hbits : sbAckBits (sbReset B) (sbReset B).newest 32 = 0 := by
    refine BitVec.eq_of_getLsbD_eq fun i _ => ?_
    rw [getLsbD_sbAckBits _ _ (Nat.le_refl 32), sbFind_sbReset hn, Option.isSome_none, Bool.and_false]
    exact BitVec.getLsbD_zero.symm
  rw [sbGenack, hbits]
  rfl

/-- Settles O16: the buffer after the reset. -/
theorem sbResetEmptiesBuffer : Obligations.SbResetEmptiesBuffer := by
  intro s b hc hn
  refine ⟨_, exec_sbReset_of_configured b hc, ?_⟩
  rw [State.finish_buffer, State.buffer_setBuffer]
  exact ⟨rfl, rfl, fun k hk => by rw [sbReset_tag, if_pos hk], sbFind_sbReset hn, sbGenack_sbReset hn, rfl⟩

/-! ### Consecutive inserts -/

/-- What consecutive inserts of 0 to `m - 1` into a buffer of capacity `n` leave: S is `m`, and of these sequences exactly
the last `n` stand in their slots. -/
def SeqBuf.holdsLast (B : SeqBuf) (n m : Nat) : Prop :=
  B.n.toNat = n ∧ B.s = BitVec.ofNat 16 m ∧
    ∀ j, j < m → (B.tag (j % n) = some (BitVec.ofNat 16 j) ↔ m ≤ j + n)

/-- The newest sequence of a small buffer is never stale, and its insert advances by one. -/
theorem insert_at_s {B : SeqBuf} (hle : B.n.toNat ≤ 16384) : sbStale B B.s = false ∧ gt16 (B.s + 1) B.s = true := by
  have hs := B.s.isLt
  constructor
  · show gt16 B.oldest B.s = false
    rw [gt16_eq_false_iff, oldest_toNat]
    unfold seqDistance
    omega
  · have h1 : (B.s + 1).toNat = (B.s.toNat + 1) % 65536 := by rw [BitVec.toNat_add]; rfl
    rw [gt16_iff, h1]
    omega

/-- The insert of S itself sweeps its own slot alone. -/
theorem tag_insert_at_s {B B' : SeqBuf} {k : Nat} (hpos : 0 < B.n.toNat) (hi : sbInsert B B.s = some (B', k)) {j : Nat}
    (hj : j ≠ B.slot B.s) (hlt : j < B.n.toNat) : B'.tag j = B.tag j := by
  obtain ⟨-, hk, -, -, -, hother, -⟩ := sbInsert_eq_some hi
  rw [hother j (hk ▸ hj), sbAdvance_tag, if_neg]
  rintro ⟨-, hsw⟩
  rw [sub_self, show (0 : U16).toNat = 0 from rfl, Nat.zero_add] at hsw
  split at hsw
  · have hslot := B.slot_lt B.s hpos
    omega
  · obtain ⟨i, hi0, hslot⟩ := hsw
    obtain rfl : i = 0 := by omega
    exact hj (hslot ▸ by rw [show BitVec.ofNat 16 0 = 0 from rfl, add_zero])

theorem holdsLast_insert {B : SeqBuf} {n m : Nat} (h : B.holdsLast n m) (hpos : 1 ≤ n) (hle : n ≤ 16384)
    (hm : m < 65536) : (((sbInsert B (BitVec.ofNat 16 m)).map Prod.fst).getD B).holdsLast n (m + 1) := by
  obtain ⟨rfl, hs, htags⟩ := h
  rw [← hs]
  obtain ⟨hst, hg⟩ := insert_at_s hle
  have hi := sbInsert_of_not_stale hst
  obtain ⟨-, -, hn, hs', htag, -, -⟩ := sbInsert_eq_some hi
  have hslot : B.slot B.s = m % B.n.toNat := by
    rw [SeqBuf.slot, hs, BitVec.toNat_ofNat, Nat.mod_eq_of_lt (show m < 2 ^ 16 from hm)]
  have hother := fun j => tag_insert_at_s (j := j) hpos hi
  rw [hi, Option.map_some, Option.getD_some]
  generalize (sbAdvance B B.s).setTag (B.slot B.s) (some B.s) = B' at *
  refine ⟨congrArg BitVec.toNat hn, ?_, fun j hj => ?_⟩
  · rw [hs', if_pos hg, hs]
    exact (BitVec.ofNat_add m 1).symm
  · rw [hslot] at htag hother
    by_cases hjm : j = m
    · rw [hjm, htag, hs]
      exact ⟨fun _ => by omega, fun _ => rfl⟩
    · by_cases hmod : j % B.n.toNat = m % B.n.toNat
      · have hgap : B.n.toNat ≤ m - j := by
          refine Nat.le_of_dvd (by omega) ?_
          exact (Nat.modEq_iff_dvd' (by omega)).1 hmod
        have hne : BitVec.ofNat 16 m ≠ BitVec.ofNat 16 j := by
          intro he
          have hn := congrArg BitVec.toNat he
          simp only [BitVec.toNat_ofNat] at hn
          omega
        rw [hmod, htag, hs]
        exact ⟨fun he => absurd (Option.some.inj he) hne, fun hge => by omega⟩
      · have hne : m ≠ j + B.n.toNat := fun he => hmod (by rw [he, Nat.add_mod_right])
        rw [hother _ hmod (Nat.mod_lt _ hpos), htags j (by omega)]
        omega

theorem holdsLast_foldl {n : Nat} (hpos : 1 ≤ n) (hle : n ≤ 16384) {m : Nat} (hm : m ≤ 65536) :
    ((List.range m).foldl (fun (B : SeqBuf) q => ((sbInsert B (BitVec.ofNat 16 q)).map Prod.fst).getD B)
      ⟨BitVec.ofNat 32 n, 0, []⟩).holdsLast n m := by
  induction m with
  | zero =>
    refine ⟨?_, rfl, fun j hj => absurd hj (Nat.not_lt_zero j)⟩
    show (BitVec.ofNat 32 n).toNat = n
    rw [BitVec.toNat_ofNat]
    omega
  | succ m ih =>
    rw [List.range_succ, List.foldl_append]
    exact holdsLast_insert (ih (by omega)) hpos hle (by omega)

/-- Settles O17: the invariant of consecutive inserts, after 4N of them. -/
theorem consecutiveInsertsKeepLastN : Obligations.ConsecutiveInsertsKeepLastN := by
  intro n hpos h4
  obtain ⟨hn, hs, htags⟩ := holdsLast_foldl hpos (show n ≤ 16384 by omega) h4
  refine ⟨hs, fun q hq => ?_⟩
  have hslot : ∀ B : SeqBuf, B.n.toNat = n → B.slot (BitVec.ofNat 16 q) = q % n := by
    intro B hB
    rw [SeqBuf.slot, hB, BitVec.toNat_ofNat, Nat.mod_eq_of_lt (show q < 2 ^ 16 by omega)]
  rw [Option.isSome_iff_ne_none, ne_eq, sbFind_eq_none, hslot _ hn, not_not, htags q hq]
  omega

end Sys2Proof.Machine
end

section
/-! PROOF. The header codec's commands: HDR_ENC and HDR_DEC by the layout on numbers, FHDR_ENC and FHDR_DEC
(30_encoding.md R90 to R97, 42_header_codec.md R140 to R149). -/

namespace Sys2Proof.Machine

/-! ### HDR_ENC -/

theorem headerByte_toNat (q ack : U16) (bits : U32) : (headerByte q ack bits).toNat =
    2 * (ackByteSent bits 0).toNat + 4 * (ackByteSent bits 1).toNat + 8 * (ackByteSent bits 2).toNat +
      16 * (ackByteSent bits 3).toNat + 32 * (deltaSent q ack).toNat := by
  unfold headerByte
  cases ackByteSent bits 0 <;> cases ackByteSent bits 1 <;> cases ackByteSent bits 2 <;> cases ackByteSent bits 3 <;>
    cases deltaSent q ack <;> rfl

theorem wr16le_map_toNat (v : U16) : (wr16le v).map BitVec.toNat = [v.toNat % 256, v.toNat / 256] := by
  have h1 : (v.extractLsb' 0 8).toNat = v.toNat % 256 := by rw [BitVec.extractLsb'_toNat]; rfl
  have h2 : (v.extractLsb' 8 8).toNat = v.toNat / 256 := by
    have := v.isLt
    rw [BitVec.extractLsb'_toNat, Nat.shiftRight_eq_div_pow]
    omega
  rw [wr16le, List.map_cons, List.map_cons, List.map_nil, h1, h2]

theorem ackField_map_toNat (q ack : U16) : (ackField q ack).map BitVec.toNat =
    if seqDistance q.toNat ack.toNat ≤ 255 then [seqDistance q.toNat ack.toNat]
    else [ack.toNat % 256, ack.toNat / 256] := by
  unfold ackField
  by_cases h : seqDistance q.toNat ack.toNat ≤ 255
  · rw [if_pos ((deltaSent_iff q ack).2 h), if_pos h, List.map_cons, List.map_nil, BitVec.toNat_setWidth,
      ← seqDistance_toNat, Nat.mod_eq_of_lt (by omega)]
  · rw [if_neg (mt (deltaSent_iff q ack).1 h), if_neg h, wr16le_map_toNat]

/-- Byte `k` of ack_bits is in the stream unless it is 255. -/
theorem ackByteSent_iff (bits : U32) (k : Nat) : ackByteSent bits k = true ↔ bits.toNat / 256 ^ k % 256 ≠ 255 := by
  have hpow : 2 ^ (8 * k) = 256 ^ k := by rw [pow_mul]; rfl
  rw [← hpow, ← ackByte_toNat, ackByteSent, decide_eq_true_iff, not_iff_not]
  exact ⟨fun h => by rw [h]; rfl, fun h => BitVec.eq_of_toNat_eq h⟩

theorem ackByteSent_toNat (bits : U32) (k : Nat) :
    (ackByteSent bits k).toNat = if bits.toNat / 256 ^ k % 256 = 255 then 0 else 1 := by
  by_cases h : bits.toNat / 256 ^ k % 256 = 255
  · rw [if_pos h, Bool.eq_false_iff.2 (mt (ackByteSent_iff bits k).1 (not_not.2 h))]; rfl
  · rw [if_neg h, (ackByteSent_iff bits k).2 h]; rfl

theorem deltaSent_toNat (q ack : U16) :
    32 * (deltaSent q ack).toNat = if seqDistance q.toNat ack.toNat ≤ 255 then 32 else 0 := by
  by_cases h : seqDistance q.toNat ack.toNat ≤ 255
  · rw [if_pos h, (deltaSent_iff q ack).2 h]; rfl
  · rw [if_neg h, Bool.eq_false_iff.2 (mt (deltaSent_iff q ack).1 h)]; rfl

theorem ackByteStream_map_toNat (bits : U32) (k : Nat) : (ackByteStream bits k).map BitVec.toNat =
    [bits.toNat / 256 ^ k % 256].filter (fun x => x ≠ 255) := by
  have hpow : 2 ^ (8 * k) = 256 ^ k := by rw [pow_mul]; rfl
  unfold ackByteStream
  by_cases h : bits.toNat / 256 ^ k % 256 = 255
  · rw [if_neg (mt (ackByteSent_iff bits k).1 (not_not.2 h)), List.map_nil, List.filter_cons_of_neg (by simp [h])]
    rfl
  · rw [if_pos ((ackByteSent_iff bits k).2 h), List.filter_cons_of_pos (by simp [h]), List.map_cons, ackByte_toNat, hpow]
    rfl

/-- The encoder's bytes are the layout of R90 and R91. -/
theorem hdrEncode_map_toNat (q ack : U16) (bits : U32) :
    (hdrEncode q ack bits).map BitVec.toNat = headerLayout q ack bits := by
  have hbytes : ((List.range 4).map fun k => bits.toNat / 256 ^ k % 256) =
      [bits.toNat / 256 ^ 0 % 256] ++ ([bits.toNat / 256 ^ 1 % 256] ++ ([bits.toNat / 256 ^ 2 % 256] ++
        [bits.toNat / 256 ^ 3 % 256])) := rfl
  simp only [hdrEncode, headerLayout, hbytes, List.filter_append, List.map_cons, List.map_append, headerByte_toNat,
    deltaSent_toNat, ackByteSent_toNat, wr16le_map_toNat, ackField_map_toNat, ackByteStream_map_toNat]
  simp only [List.cons_append, List.nil_append]

theorem exec_hdrEnc (q : U16) (s : State) : exec (.hdrEnc q) s = .next { s with
    obuf := writeBytes s.obuf 0 (hdrEncode q s.argHalf s.arg1)
    res0 := BitVec.ofNat 32 (hdrEncode q s.argHalf s.arg1).length, code := .ok } := rfl

/-- Settles O20: the bytes written are the layout's. -/
theorem hdrEncWritesObuf : Obligations.HdrEncWritesObuf := by
  intro s q
  have hlen := length_hdrEncode q s.argHalf s.arg1
  refine ⟨_, exec_hdrEnc q s, ?_, fun p hp => ?_, fun p hp => ?_, ?_⟩
  · rw [← hdrEncode_map_toNat, List.length_map, hlen]
  · show (readByte (writeBytes s.obuf 0 (hdrEncode q s.argHalf s.arg1)) p).toNat = _
    rw [readByte_writeBytes, if_pos (by omega), Nat.sub_zero, ← hdrEncode_map_toNat]
    exact (List.getD_map _ (0 : Byte) BitVec.toNat).symm
  · show readByte (writeBytes s.obuf 0 (hdrEncode q s.argHalf s.arg1)) p = _
    rw [readByte_writeBytes, if_neg (by omega)]
  · rw [hlen]

/-! ### HDR_DEC: what the first byte announces -/

theorem byteNat_eq (b : List Byte) (p : Nat) : byteNat b p = (rd8 b p).toNat := rfl

/-- A bit of the first byte as a number. -/
theorem getLsbD_iff (x : Byte) (i : Nat) : x.getLsbD i = true ↔ x.toNat / 2 ^ i % 2 = 1 := by
  rw [BitVec.getLsbD, Nat.testBit_eq_decide_div_mod_eq, decide_eq_true_iff]

/-- DELTA of the first byte as a number. -/
theorem getLsbD_delta_iff (x : Byte) : x.getLsbD 5 = true ↔ x.toNat / 32 % 2 = 1 := getLsbD_iff x 5

theorem ackByteOffset_zero (x : Nat) : ackByteOffset x 0 = if x / 32 % 2 = 1 then 4 else 5 := by
  unfold ackByteOffset
  split <;> rfl

theorem ackByteOffset_succ (x k : Nat) : ackByteOffset x (k + 1) = ackByteOffset x k + x / 2 ^ (k + 1) % 2 := by
  simp only [ackByteOffset, List.range_succ, List.map_append, List.sum_append, List.map_cons, List.map_nil,
    List.sum_cons, List.sum_nil]
  omega

/-- The ack_bits byte `k` the decoder reads: 0xFF when it is absent (30_encoding.md R91). -/
def decodedAckByte (b : List Byte) (k : Nat) : Byte :=
  if (rd8 b 0).getLsbD (k + 1) then rd8 b (ackByteOffset (byteNat b 0) k) else 0xFF#8

/-- The ack the decoder reads. -/
def decodedAck (b : List Byte) : U16 :=
  if (rd8 b 0).getLsbD 5 then rd16le b 1 - (rd8 b 3).setWidth 16 else rd16le b 3

theorem readAck_of_le {b : List Byte} (h : ackByteOffset (byteNat b 0) 0 ≤ b.length) :
    readAck b ((rd8 b 0).getLsbD 5) (rd16le b 1) = some (decodedAck b, ackByteOffset (byteNat b 0) 0) := by
  have hbit := getLsbD_delta_iff (rd8 b 0)
  rw [ackByteOffset_zero] at h ⊢
  rw [byteNat_eq] at h ⊢
  unfold readAck decodedAck
  cases hd : (rd8 b 0).getLsbD 5 with
  | true =>
    have hx := hbit.1 hd
    rw [if_pos hx] at h
    rw [if_pos rfl, if_neg (by omega), if_pos rfl, if_pos hx]
  | false =>
    have hx := mt hbit.2 (by rw [hd]; exact Bool.false_ne_true)
    rw [if_neg hx] at h
    rw [if_neg Bool.false_ne_true, if_neg (by omega), if_neg Bool.false_ne_true, if_neg hx]

theorem readAck_of_lt {b : List Byte} (h : b.length < ackByteOffset (byteNat b 0) 0) :
    readAck b ((rd8 b 0).getLsbD 5) (rd16le b 1) = none := by
  have hbit := getLsbD_delta_iff (rd8 b 0)
  rw [ackByteOffset_zero, byteNat_eq] at h
  unfold readAck
  cases hd : (rd8 b 0).getLsbD 5 with
  | true => rw [if_pos (hbit.1 hd)] at h; rw [if_pos rfl, if_pos h]
  | false =>
    rw [if_neg (mt hbit.2 (by rw [hd]; exact Bool.false_ne_true))] at h
    rw [if_neg Bool.false_ne_true, if_pos h]

theorem readAckByte_of_le {b : List Byte} {k : Nat} (h : ackByteOffset (byteNat b 0) (k + 1) ≤ b.length) :
    readAckByte b ((rd8 b 0).getLsbD (k + 1)) (ackByteOffset (byteNat b 0) k) =
      some (decodedAckByte b k, ackByteOffset (byteNat b 0) (k + 1)) := by
  have hbit := getLsbD_iff (rd8 b 0) (k + 1)
  rw [ackByteOffset_succ] at h ⊢
  unfold readAckByte decodedAckByte
  rw [byteNat_eq] at h ⊢
  cases hd : (rd8 b 0).getLsbD (k + 1) with
  | true =>
    have hx := hbit.1 hd
    rw [hx] at h ⊢
    rw [if_pos rfl, if_neg (by omega), if_pos rfl]
  | false =>
    have hx : (rd8 b 0).toNat / 2 ^ (k + 1) % 2 = 0 := by
      have := mt hbit.2 (by rw [hd]; exact Bool.false_ne_true)
      omega
    rw [if_neg Bool.false_ne_true, if_neg Bool.false_ne_true, hx, Nat.add_zero]

/-- An ack_bits byte is missing only when the string ends before it. -/
theorem readAckByte_eq_none {b : List Byte} {k : Nat} (hle : ackByteOffset (byteNat b 0) k ≤ b.length)
    (h : b.length < ackByteOffset (byteNat b 0) (k + 1)) :
    readAckByte b ((rd8 b 0).getLsbD (k + 1)) (ackByteOffset (byteNat b 0) k) = none := by
  have hbit := getLsbD_iff (rd8 b 0) (k + 1)
  rw [ackByteOffset_succ] at h
  unfold readAckByte
  rw [byteNat_eq] at h hle ⊢
  cases hd : (rd8 b 0).getLsbD (k + 1) with
  | true => rw [if_pos rfl, if_pos (by rw [hbit.1 hd] at h; exact h)]
  | false =>
    have := mt hbit.2 (by rw [hd]; exact Bool.false_ne_true)
    omega

theorem ackByteOffset_mono (x : Nat) {j k : Nat} (h : j ≤ k) : ackByteOffset x j ≤ ackByteOffset x k := by
  induction k, h using Nat.le_induction with
  | base => exact Nat.le_refl _
  | succ k _ ih => exact ih.trans (by rw [ackByteOffset_succ]; exact Nat.le_add_right _ _)

/-- A string as long as its first byte announces has all its fields. -/
theorem readFields_of_le {b : List Byte} (h : announcedLength (byteNat b 0) ≤ b.length) :
    readFields b (rd8 b 0) (rd16le b 1) = some ⟨rd16le b 1, decodedAck b,
      decodedAckByte b 3 ++ (decodedAckByte b 2 ++ (decodedAckByte b 1 ++ decodedAckByte b 0)),
      announcedLength (byteNat b 0)⟩ := by
  have hle : ∀ k, k ≤ 4 → ackByteOffset (byteNat b 0) k ≤ b.length := fun k hk => (ackByteOffset_mono _ hk).trans h
  simp only [readFields, readAck_of_le (hle 0 (by decide)), readAckByte_of_le (hle 1 (by decide)),
    readAckByte_of_le (hle 2 (by decide)), readAckByte_of_le (hle 3 (by decide)), readAckByte_of_le (hle 4 (by decide)),
    Option.bind_eq_bind, Option.bind_some]
  rfl

/-- A shorter string lacks the first field that it does not reach. -/
theorem readFields_of_lt {b : List Byte} (h : b.length < announcedLength (byteNat b 0)) :
    readFields b (rd8 b 0) (rd16le b 1) = none := by
  unfold readFields
  by_cases h0 : ackByteOffset (byteNat b 0) 0 ≤ b.length
  · rw [readAck_of_le h0]
    by_cases h1 : ackByteOffset (byteNat b 0) 1 ≤ b.length
    · simp only [Option.bind_eq_bind, Option.bind_some, readAckByte_of_le h1]
      by_cases h2 : ackByteOffset (byteNat b 0) 2 ≤ b.length
      · simp only [Option.bind_some, readAckByte_of_le h2]
        by_cases h3 : ackByteOffset (byteNat b 0) 3 ≤ b.length
        · simp only [Option.bind_some, readAckByte_of_le h3, readAckByte_eq_none h3 h, Option.bind_none]
        · simp only [readAckByte_eq_none h2 (not_le.1 h3), Option.bind_none]
      · simp only [readAckByte_eq_none h1 (not_le.1 h2), Option.bind_none]
    · simp only [Option.bind_eq_bind, Option.bind_some, readAckByte_eq_none h0 (not_le.1 h1), Option.bind_none]
  · rw [readAck_of_lt (not_le.1 h0)]
    rfl

theorem announcedLength_ge (x : Nat) : 4 ≤ announcedLength x := by
  have h := ackByteOffset_mono x (show 0 ≤ 4 by decide)
  rw [ackByteOffset_zero] at h
  unfold announcedLength
  split at h <;> omega

/-- Bit 0 of the first byte. -/
theorem getLsbD_zero_iff (x : Byte) : x.getLsbD 0 = true ↔ x.toNat % 2 = 1 := by
  rw [getLsbD_iff, pow_zero, Nat.div_one]

theorem getLsbD_zero_eq_false {x : Byte} (h : x.toNat % 2 = 0) : x.getLsbD 0 = false := by
  rw [Bool.eq_false_iff, ne_eq, getLsbD_zero_iff]
  omega

theorem hdrDecode_of_announced {b : List Byte} (heven : byteNat b 0 % 2 = 0)
    (h : announcedLength (byteNat b 0) ≤ b.length) :
    hdrDecode b = .fields ⟨rd16le b 1, decodedAck b,
      decodedAckByte b 3 ++ (decodedAckByte b 2 ++ (decodedAckByte b 1 ++ decodedAckByte b 0)),
      announcedLength (byteNat b 0)⟩ := by
  have h4 := announcedLength_ge (byteNat b 0)
  rw [hdrDecode_of_regular (by omega) (getLsbD_zero_eq_false heven), readFields_of_le h]

/-- A header cut short, at whatever field. -/
theorem hdrDecode_of_cut {b : List Byte} (heven : byteNat b 0 % 2 = 0) (h : b.length < announcedLength (byteNat b 0)) :
    hdrDecode b = .short := by
  by_cases h3 : 3 ≤ b.length
  · rw [hdrDecode_of_regular h3 (getLsbD_zero_eq_false heven), readFields_of_lt h]
  · have hfirst : (rd8 b 0).getLsbD 0 = false := getLsbD_zero_eq_false heven
    unfold hdrDecode
    rw [hfirst, if_neg Bool.false_ne_true, if_pos (not_le.1 h3)]
    split <;> rfl

theorem hdrDecode_of_odd {b : List Byte} (h1 : 1 ≤ b.length) (hodd : byteNat b 0 % 2 = 1) : hdrDecode b = .marker := by
  have hfirst : (rd8 b 0).getLsbD 0 = true := (getLsbD_zero_iff _).2 hodd
  unfold hdrDecode
  rw [if_neg (by omega), if_pos hfirst]

/-! ### The fields as numbers -/

theorem rd16le_toNat (b : List Byte) (p : Nat) : (rd16le b p).toNat = byteNat b p + 256 * byteNat b (p + 1) := by
  rw [rd16le, toNat_append, byteNat_eq, byteNat_eq]
  omega

theorem decodedAck_toNat (b : List Byte) : (decodedAck b).toNat = headerAck b := by
  have hbit := getLsbD_delta_iff (rd8 b 0)
  have hsmall : ((rd8 b 3).setWidth 16).toNat = byteNat b 3 := by
    have := (rd8 b 3).isLt
    rw [BitVec.toNat_setWidth, byteNat_eq]
    omega
  unfold decodedAck headerAck headerSeq
  rw [byteNat_eq b 0]
  by_cases h : (rd8 b 0).getLsbD 5 = true
  · rw [if_pos h, if_pos (hbit.1 h), ← seqDistance_toNat, hsmall, rd16le_toNat]
  · rw [if_neg h, if_neg (mt hbit.2 h), rd16le_toNat]

theorem decodedAckByte_toNat (b : List Byte) (k : Nat) : (decodedAckByte b k).toNat =
    if byteNat b 0 / 2 ^ (k + 1) % 2 = 1 then byteNat b (ackByteOffset (byteNat b 0) k) else 255 := by
  have hbit := getLsbD_iff (rd8 b 0) (k + 1)
  unfold decodedAckByte
  rw [byteNat_eq b 0]
  by_cases h : (rd8 b 0).getLsbD (k + 1) = true
  · rw [if_pos h, if_pos (hbit.1 h)]
    rfl
  · rw [if_neg h, if_neg (mt hbit.2 h)]
    rfl

/-- Four bytes put together, as a number. -/
theorem toNat_append_four (x0 x1 x2 x3 : Byte) :
    (x3 ++ (x2 ++ (x1 ++ x0)) : BitVec 32).toNat =
      x0.toNat + 256 * x1.toNat + 256 ^ 2 * x2.toNat + 256 ^ 3 * x3.toNat := by
  have h1 : (x1 ++ x0).toNat = x1.toNat * 2 ^ 8 + x0.toNat := toNat_append _ _
  have h2 : (x2 ++ (x1 ++ x0)).toNat = x2.toNat * 2 ^ (8 + 8) + (x1 ++ x0).toNat := toNat_append _ _
  have h3 : (x3 ++ (x2 ++ (x1 ++ x0))).toNat = x3.toNat * 2 ^ (8 + (8 + 8)) + (x2 ++ (x1 ++ x0)).toNat :=
    toNat_append _ _
  refine h3.trans ?_
  rw [h2, h1]
  omega

theorem decodedBits_toNat (b : List Byte) :
    (decodedAckByte b 3 ++ (decodedAckByte b 2 ++ (decodedAckByte b 1 ++ decodedAckByte b 0)) : BitVec 32).toNat =
      headerBits b := by
  have hsum : headerBits b = 256 ^ 0 * (decodedAckByte b 0).toNat + (256 ^ 1 * (decodedAckByte b 1).toNat +
      (256 ^ 2 * (decodedAckByte b 2).toNat + (256 ^ 3 * (decodedAckByte b 3).toNat + 0))) := by
    simp only [decodedAckByte_toNat]
    rfl
  rw [toNat_append_four, hsum]
  omega

theorem ofNat_toNat_32 (w : U32) : BitVec.ofNat 32 w.toNat = w := by rw [BitVec.ofNat_toNat, BitVec.setWidth_eq]

/-- HDR_DEC of a string within IBUF. -/
theorem exec_hdrDec_of_le {s : State} (h : s.arg2.toNat ≤ s.params.ibufBytes) :
    exec .hdrDec s = .next (runHdrDec (readBytes s.ibuf 0 s.arg2.toNat) s) :=
  congrArg Host.Outcome.next (State.withInput_of_le h _)

theorem runHdrDec_of_fields {b : List Byte} {h : RegularHeader} (hd : hdrDecode b = .fields h) (s : State) :
    runHdrDec b s = { s with
      res0 := word h.seq, res1 := word h.ack, res2 := h.bits, res3 := BitVec.ofNat 32 h.length, code := .ok } := by
  unfold runHdrDec
  rw [hd]
  rfl

theorem runHdrDec_of_short {b : List Byte} (hd : hdrDecode b = .short) (s : State) :
    runHdrDec b s = { s with code := .decodeShort } := by
  unfold runHdrDec
  rw [hd]
  rfl

theorem runHdrDec_of_marker {b : List Byte} (hd : hdrDecode b = .marker) (s : State) :
    runHdrDec b s = { s with code := .decodeMarker } := by
  unfold runHdrDec
  rw [hd]
  rfl

/-- Settles O21: the announced fields as numbers; the encoder's own bytes by the round trip. -/
theorem hdrDecReportsFields : Obligations.HdrDecReportsFields := by
  intro s hle
  refine ⟨fun _ heven hlen => ?_, fun q ack bits tail hb => ?_⟩ <;> rw [exec_hdrDec_of_le hle]
  · rw [runHdrDec_of_fields (hdrDecode_of_announced heven hlen), word_eq_ofNat, word_eq_ofNat, decodedAck_toNat,
      rd16le_toNat, ← decodedBits_toNat, ofNat_toNat_32]
    rfl
  · rw [hb, runHdrDec_of_fields (hdrDecode_hdrEncode_append q ack bits tail), length_hdrEncode]
    rfl

theorem byteNat_readBytes {m : Memory} {n p : Nat} (h : p < n) : byteNat (readBytes m 0 n) p = (readByte m p).toNat := by
  rw [byteNat_eq, rd8_readBytes m n p h]

/-- Settles O22: the length check, then the first byte, then the announced length. -/
theorem hdrDecRejections : Obligations.HdrDecRejections := by
  intro s
  refine ⟨fun hlt => congrArg Host.Outcome.next (State.withInput_of_lt hlt _), fun hle => ?_⟩
  rw [exec_hdrDec_of_le hle]
  refine ⟨fun h0 => ?_, fun h1 hodd => ?_, fun h1 heven hcut => ?_⟩
  · rw [runHdrDec_of_short (by rw [h0]; rfl)]
  · rw [runHdrDec_of_marker (hdrDecode_of_odd (by rw [length_readBytes]; exact h1) _)]
    rw [byteNat_readBytes h1]
    exact hodd
  · rw [← byteNat_readBytes h1] at heven hcut
    rw [runHdrDec_of_short (hdrDecode_of_cut heven (by rw [length_readBytes]; exact hcut))]

/-! ### The fragment header -/

theorem wr16le_eq_ofNat (q : U16) : wr16le q = [BitVec.ofNat 8 q.toNat, BitVec.ofNat 8 (q.toNat / 256)] := by
  have h := wr16le_map_toNat q
  apply (List.map_injective_iff.2 fun _ _ he => BitVec.eq_of_toNat_eq he : Function.Injective (List.map BitVec.toNat))
  have hq := q.isLt
  have h2 : (BitVec.ofNat 8 (q.toNat / 256)).toNat = q.toNat / 256 := by rw [BitVec.toNat_ofNat]; omega
  rw [h, List.map_cons, List.map_cons, List.map_nil, h2, BitVec.toNat_ofNat]

theorem fragOperandsLegal_iff (id count : Nat) : fragOperandsLegal id count = true ↔ id < count ∧ count ≤ 256 := by
  simp only [fragOperandsLegal, Bool.and_eq_true, decide_eq_true_eq]
  omega

theorem exec_fhdrEnc_of_legal (q : U16) {s : State} (h : s.arg0.toNat < s.arg1.toNat) (h256 : s.arg1.toNat ≤ 256) :
    exec (.fhdrEnc q) s = .next { s with
      obuf := writeBytes s.obuf 0 (fhdrEncode q s.arg0.toNat s.arg1.toNat), res0 := 5, code := .ok } :=
  congrArg Host.Outcome.next (if_pos ((fragOperandsLegal_iff _ _).2 ⟨h, h256⟩))

/-- Settles O23: the five bytes, or the operand check. -/
theorem fhdrEncWritesObuf : Obligations.FhdrEncWritesObuf := by
  intro s q
  refine ⟨fun hlt h256 => ⟨_, exec_fhdrEnc_of_legal q hlt h256, ?_, fun p hp => ?_, rfl⟩, fun hbad => ?_⟩
  · refine (readBytes_writeBytes s.obuf 0 (fhdrEncode q s.arg0.toNat s.arg1.toNat)).trans ?_
    rw [fhdrEncode, wr16le_eq_ofNat]
    rfl
  · show readByte (writeBytes s.obuf 0 (fhdrEncode q s.arg0.toNat s.arg1.toNat)) p = _
    rw [readByte_writeBytes, if_neg]
    have hlen : (fhdrEncode q s.arg0.toNat s.arg1.toNat).length = 5 := rfl
    omega
  · refine congrArg Host.Outcome.next (if_neg ?_)
    rw [fragOperandsLegal_iff]
    omega

theorem exec_fhdrDec_of_le {s : State} (h : s.arg2.toNat ≤ s.params.ibufBytes) :
    exec .fhdrDec s = .next (runFhdrDec (readBytes s.ibuf 0 s.arg2.toNat) s) :=
  congrArg Host.Outcome.next (State.withInput_of_le h _)

theorem ofNat_add_one_8 (x : Byte) : x.toNat + 1 < 2 ^ 32 := by
  have := x.isLt
  omega

/-- Settles O24: the length check, then the first byte, then the fields. -/
theorem fhdrDecReportsFields : Obligations.FhdrDecReportsFields := by
  intro s
  refine ⟨fun hlt => congrArg Host.Outcome.next (State.withInput_of_lt hlt _), fun hle => ?_⟩
  rw [exec_fhdrDec_of_le hle]
  have hread : ∀ p, p < s.arg2.toNat → rd8 (readBytes s.ibuf 0 s.arg2.toNat) p = readByte s.ibuf p :=
    fun p hp => rd8_readBytes s.ibuf _ p hp
  unfold runFhdrDec fhdrDecode
  rw [length_readBytes]
  refine ⟨fun h5 h1 => ?_, fun h5 => ?_, fun h5 h1 => ?_⟩
  · rw [if_neg (by omega), if_neg (by rw [hread 0 (by omega)]; exact not_not.2 h1), hread 3 (by omega),
      hread 4 (by omega)]
    simp only [State.reportFragment, word_eq_ofNat, rd16le_toNat]
    rw [byteNat_readBytes (by omega), byteNat_readBytes (by omega)]
    rfl
  · rw [if_pos h5]
    rfl
  · rw [if_neg (by omega), if_pos (by rw [hread 0 (by omega)]; exact h1)]
    rfl

end Sys2Proof.Machine
end

section
/-! PROOF. The configuration gate, EP_CREATE, the commands on statistics and the resets, and the power-on state
(44_smoother.md R180 to R182, R187; 45_endpoint.md R190, R191, R206 to R208; 70_reset_and_hazards.md R245). -/

namespace Sys2Proof.Machine

/-! ### The gate -/

theorem exec_of_gated {i : Instr} {s : State} (hwf : i.wellFormed = true) (hn : needsConfig i = true)
    (hc : s.configured = false) : exec i s = .next (s.finish .notConfigured) := by
  have hgate : ∀ run, Host.Outcome.next (s.gated run) = (.next (s.finish .notConfigured) :
      Host.Outcome State Fault Refusal) := fun run => congrArg _ (State.gated_of_unconfigured hc run)
  cases i with
  | sbInsert b q =>
    cases b with
    | frag => cases hwf
    | sent | recv => exact hgate _
  | seqGt _ | seqLt _ | seqInc _ | hdrEnc _ | hdrDec | fhdrEnc _ | fhdrDec | epCreate => cases hn
  | _ => exact hgate _

/-- CONFIGURED replaced: what a pure command neither reads nor writes. -/
def State.withConfigured (s : State) (c : Bool) : State := { s with configured := c }

theorem withInput_withConfigured {s : State} {c : Bool} {run : List Byte → State → State}
    (h : ∀ b, run b (s.withConfigured c) = (run b s).withConfigured c) :
    (s.withConfigured c).withInput run = (s.withInput run).withConfigured c := by
  have hin : (s.withConfigured c).latchInput = s.latchInput := rfl
  unfold State.withInput
  rw [hin]
  cases s.latchInput with
  | none => rfl
  | some b => exact h b

theorem exec_withConfigured {i : Instr} (s : State) (c : Bool) (hn : needsConfig i = false) (hi : i ≠ .epCreate) :
    exec i (s.withConfigured c) = mapNext (fun t => t.withConfigured c) (exec i s) := by
  cases i with
  | seqGt _ | seqLt _ | seqInc _ | hdrEnc _ => rfl
  | hdrDec =>
    refine congrArg Host.Outcome.next (withInput_withConfigured fun b => ?_)
    unfold runHdrDec
    cases hdrDecode b <;> rfl
  | fhdrDec =>
    refine congrArg Host.Outcome.next (withInput_withConfigured fun b => ?_)
    unfold runFhdrDec
    cases fhdrDecode b <;> rfl
  | fhdrEnc q =>
    refine congrArg Host.Outcome.next ?_
    show (if fragOperandsLegal s.arg0.toNat s.arg1.toNat then _ else _) =
      State.withConfigured (if fragOperandsLegal s.arg0.toNat s.arg1.toNat then _ else _) c
    split <;> rfl
  | epCreate => exact absurd rfl hi
  | _ => cases hn

/-- Settles O6: the gate comes first; a pure command does not look at it. -/
theorem configurationGate : Obligations.ConfigurationGate :=
  ⟨fun _ _ hwf hn hc => exec_of_gated hwf hn hc, fun _ s c hn hi => exec_withConfigured s c hn hi⟩

/-! ### EP_CREATE -/

theorem ceilDiv_le_iff {p q m : Nat} (hq : 1 ≤ q) : ceilDiv p q ≤ m ↔ p ≤ m * q := by
  rw [ceilDiv, ← Nat.lt_succ_iff, Nat.div_lt_iff_lt_mul hq, Nat.succ_mul]
  omega

theorem exec_epCreate_of_valid {s : State} (hc : s.configured = false) (hv : s.cfg.valid s.params) :
    exec .epCreate s = .next (s.created.finish .ok) :=
  congrArg Host.Outcome.next ((if_neg (by simp [hc])).trans (if_pos hv))

theorem exec_epCreate_of_invalid {s : State} (hc : s.configured = false) (hv : ¬ s.cfg.valid s.params) :
    exec .epCreate s = .next { s with code := .configInvalid } :=
  congrArg Host.Outcome.next ((if_neg (by simp [hc])).trans (if_neg hv))

/-- Settles O36: the bounds of R190 are the validation. -/
theorem epCreateConfigures : Obligations.EpCreateConfigures := by
  intro s hc h1 h2 h3 h4 h5 h6 h7 h8 h9 h10 h11 h12 h13 hr hl hb hob hrm hpkt
  exact exec_epCreate_of_valid hc ⟨⟨h1, h2⟩, ⟨h3, h4⟩, h5, ⟨h6, h7⟩, ⟨h8, h9⟩, ⟨h10, h11⟩, ⟨h12, h13⟩, ⟨hr, hl, hb⟩,
    le_min hob hrm, hpkt.imp_right (ceilDiv_le_iff h5).2⟩

/-! ### STAT_SMOOTH and RTT_FOLD -/

theorem exec_statSmooth_of_configured {s : State} (hc : s.configured = true) :
    exec .statSmooth s = .next (runStatSmooth s) := congrArg Host.Outcome.next (State.gated_of_configured hc _)

/-- With a finite raw value only the selected register can hold a NaN. -/
theorem smooth_of_finite {num : NumFormat} {raw : NumWord} (h : numFinite num raw = true) (eps v f : NumWord) :
    smooth num eps v raw f =
      if numIsNan num v = false ∧ numLtAbs num eps (numSub num v raw) = true then
        numAdd num v (numMul num (numSub num raw v) f)
      else raw := by
  unfold smooth
  simp only [numIsNan_of_finite h, true_and]

theorem runStatSmooth_of_finite {s : State} (h : numFinite s.params.num s.numin = true) {st : Stats}
    (hsel : s.smoothSelected s.arg0 s.numin = some st) : runStatSmooth s = { s with stats := st, code := .ok } := by
  unfold runStatSmooth
  rw [if_pos h, hsel]
  rfl

theorem runStatSmooth_of_none {s : State} (h : numFinite s.params.num s.numin = true)
    (hsel : s.smoothSelected s.arg0 s.numin = none) : runStatSmooth s = { s with code := .badOperand } := by
  unfold runStatSmooth
  rw [if_pos h, hsel]
  rfl

theorem smoothSelected_eq_none {s : State} {sel : U32} (raw : NumWord) (h : sel = 0 ∨ 5 ≤ sel.toNat) :
    s.smoothSelected sel raw = none := by
  have hne : ∀ k, 1 ≤ k → k ≤ 4 → sel ≠ BitVec.ofNat 32 k := by
    intro k hlo hhi he
    have hn := congrArg BitVec.toNat he
    rw [BitVec.toNat_ofNat] at hn
    rcases h with rfl | h
    · have : (0 : U32).toNat = 0 := rfl
      omega
    · omega
  unfold State.smoothSelected
  simp only [hne 1 (by decide) (by decide), hne 2 (by decide) (by decide), hne 3 (by decide) (by decide),
    hne 4 (by decide) (by decide), if_false]

/-- Settles O32: each selection, with the smoothing rule written out. -/
theorem statSmoothSelects : Obligations.StatSmoothSelects := by
  intro s hc
  rw [exec_statSmooth_of_configured hc]
  refine ⟨fun hf => ?_, fun hf => ?_⟩
  · have hsmooth := smooth_of_finite hf s.params.snapEps
    refine ⟨fun h => ?_, fun h => ?_, fun h => ?_, fun h => ?_, fun h => ?_⟩
    · rw [runStatSmooth_of_finite hf (by rw [h]; rfl), hsmooth]
    · rw [runStatSmooth_of_finite hf (by rw [h]; rfl), hsmooth]
    · rw [runStatSmooth_of_finite hf (by rw [h]; rfl), hsmooth]
    · rw [runStatSmooth_of_finite hf (by rw [h]; rfl), hsmooth]
    · rw [runStatSmooth_of_none hf (smoothSelected_eq_none _ h)]
  · unfold runStatSmooth
    rw [hf]
    rfl

theorem exec_rttFold_of_configured {s : State} (hc : s.configured = true) :
    exec .rttFold s = .next (runRttFold s) := congrArg Host.Outcome.next (State.gated_of_configured hc _)

theorem runRttFold_of_finite {s : State} (h : numFinite s.params.num s.numin = true) :
    runRttFold s = { s with code := .ok, stats := { s.stats with
      rtt := rttNext s.params.num s.params.snapEps s.cfg.rttFactor s.stats.rtt s.numin } } := if_pos h

theorem rttNext_snap_iff (num : NumFormat) (eps rtt sample : NumWord) :
    ((numEq num rtt 0 && numLt num 0 sample) || numAbsLt num (numSub num rtt sample) eps) = true ↔
      (numEq num rtt 0 = true ∧ numLt num 0 sample = true) ∨ numAbsLt num (numSub num rtt sample) eps = true := by
  rw [Bool.or_eq_true, Bool.and_eq_true]

/-- Settles O33: the two branches of R181. -/
theorem rttFoldCases : Obligations.RttFoldCases := by
  intro s hc
  rw [exec_rttFold_of_configured hc]
  refine ⟨fun hf => ?_, fun hf => ?_⟩
  · rw [runRttFold_of_finite hf]
    unfold rttNext
    refine ⟨fun hs => ?_, fun hs => ?_⟩
    · rw [if_pos ((rttNext_snap_iff ..).2 hs)]
    · rw [if_neg (mt (rttNext_snap_iff ..).1 hs)]
  · unfold runRttFold
    rw [hf]
    rfl

/-! ### EP_UPDATE and the resets -/

theorem exec_statUpdate_of_configured {s : State} (hc : s.configured = true) :
    exec .statUpdate s = .next (s.statUpdate.finish .ok) := congrArg Host.Outcome.next (State.gated_of_configured hc _)

theorem exec_epUpdate_of_finite {s : State} (hc : s.configured = true) (hf : numFinite s.params.num s.numin = true) :
    exec .epUpdate s = .next ((State.statUpdate { s with time := s.numin }).finish .ok) :=
  congrArg Host.Outcome.next ((State.gated_of_configured hc _).trans (if_pos hf))

/-- Settles O48: STAT_UPDATE at the new TIME. -/
theorem epUpdateSetsTime : Obligations.EpUpdateSetsTime := by
  intro s hc
  refine ⟨fun hf => ?_, fun hf => ?_⟩
  · rw [exec_epUpdate_of_finite hc hf]
    exact ⟨(exec_statUpdate_of_configured (s := { s with time := s.numin }) hc).symm, _, rfl, rfl, rfl, rfl, rfl⟩
  · refine congrArg Host.Outcome.next ((State.gated_of_configured hc _).trans (if_neg ?_))
    rw [hf]
    exact Bool.false_ne_true

theorem sbReset_resets (B : SeqBuf) :
    (sbReset B).s = 0 ∧ (sbReset B).n = B.n ∧ ∀ k, k < B.n.toNat → (sbReset B).tag k = none :=
  ⟨rfl, rfl, fun k hk => (sbReset_tag B k).trans (if_pos hk)⟩

/-- The part of EP_RESET that happens whatever RESET_CLEARS_STATS is (45_endpoint.md R208). -/
def State.buffersReset (s : State) : State :=
  { s with sequence := 0, ackCount := 0, sent := sbReset s.sent, recv := sbReset s.recv, frag := sbReset s.frag }

theorem exec_epReset_of_configured {s : State} (hc : s.configured = true) :
    exec .epReset s = .next (s.buffersReset.clearStats.finish .ok) :=
  congrArg Host.Outcome.next (State.gated_of_configured hc _)

theorem clearStats_of_false {s : State} (h : s.params.resetClearsStats = false) : s.clearStats = s :=
  if_neg (by rw [h]; exact Bool.false_ne_true)

theorem clearStats_of_true {s : State} (h : s.params.resetClearsStats = true) :
    s.clearStats = { s with counters := Counters.zero, stats := Stats.zero, time := 0 } := if_pos h

/-- Settles O49: the three buffers are reset one by one; the statistics as the parameter says. -/
theorem epResetAndAckClear : Obligations.EpResetAndAckClear := by
  intro s hc
  refine ⟨congrArg Host.Outcome.next (State.gated_of_configured hc _), _, exec_epReset_of_configured hc, ?_⟩
  cases hclear : s.params.resetClearsStats with
  | false =>
    rw [clearStats_of_false (s := s.buffersReset) hclear]
    refine ⟨fun b => ?_, fun _ => rfl, nofun⟩
    cases b <;> exact sbReset_resets _
  | true =>
    rw [clearStats_of_true (s := s.buffersReset) hclear]
    refine ⟨fun b => ?_, nofun, fun _ => rfl⟩
    cases b <;> exact sbReset_resets _

/-! ### Power-on reset -/

theorem reset_configSound : State.reset.configSound :=
  (configSound_of_unconfigured rfl).2 ⟨by decide, rfl, rfl, rfl, rfl, rfl⟩

theorem reset_tablesCanonical : State.reset.tablesCanonical :=
  ⟨reset_memory_wf.1, reset_memory_wf.2.1, reset_memory_wf.2.2, Table.wf_nil _, Table.wf_nil _, Table.wf_nil _,
    Table.wf_nil _, Table.wf_nil _, Table.wf_nil _, Table.wf_nil _, Table.wf_nil _, fun _ h => nomatch h⟩

theorem below_nil {α : Type} (n : Nat) : Table.below ([] : List (Nat × α)) n := fun _ h => nomatch h

theorem reset_spacesFit : State.reset.spacesFit :=
  ⟨below_nil _, below_nil _, below_nil _, fun _ => below_nil _, below_nil _, fun _ h => nomatch h⟩

theorem reset_reassemblySound : State.reset.reassemblySound :=
  ⟨reset_configSound, fun k q h => absurd h (by rw [frag_tag_of_unconfigured reset_configSound rfl]; exact nofun)⟩

theorem reset_windowsSound : State.reset.windowsSound := by
  intro b
  cases b <;> exact windowSound_empty _ _

/-- Settles O60: the fields are read off the reset state; each invariant holds of its empty tables. -/
theorem resetStateIsSound : Obligations.ResetStateIsSound :=
  ⟨fun b => by cases b <;> rfl, readByte_nil, readByte_nil, readByte_nil, fun _ => readByte_nil, fun _ => rfl, by decide, rfl, rfl,
    rfl, rfl, rfl, rfl, rfl, rfl, rfl, rfl, fun _ => ⟨rfl, rfl, rfl⟩, reset_tablesCanonical,
    stackSound_of_idle rfl rfl rfl, reset_reassemblySound, (acksBounded_of_unconfigured rfl).2 rfl,
    ⟨numFinite_zero _, fun _ => numFinite_zero _, fun _ => numFinite_zero _⟩, reset_windowsSound, reset_spacesFit⟩

end Sys2Proof.Machine
end

section
/-! PROOF. Host events: the EVT_DONE write, the completion of a suspended command, and the records of a send and of a
receive (45_endpoint.md R192 to R202; 60_exceptions.md R228 to R230). -/

namespace Sys2Proof.Machine

/-! ### The EVT_DONE write -/

/-- The EVT_DONE write takes the innermost command off the stack and continues it (20_memory.md R66). -/
theorem step_evtDone {s : State} {f : Frame} {below : List Frame} {v : U32} {rest : List HostAccess}
    (hh : s.nextEndsEvent v rest) (hcb : s.inCallback = true) (hst : s.stack = f :: below) :
    step s = .next ((State.endEvent { s with host := rest } f below).continueCommand f.phase (v.getLsbD 0)) := by
  have hwrite : step s = writeEvtDone v { s with host := rest } := by
    unfold step runNext
    rw [show s.host = .write 4 0x194#32 v :: rest from hh]
    exact hostWrite_evtDone _ v
  rw [hwrite]
  refine (if_pos (c := s.inCallback = true) hcb).trans ?_
  simp only [resume, hst]

/-- Bit 0 of the answer as a number. -/
theorem answer_bit_of_even {v : U32} (h : v.toNat % 2 = 0) : v.getLsbD 0 = false := by
  rw [BitVec.getLsbD, Nat.testBit_zero, decide_eq_false_iff_not]
  omega

theorem answer_bit_of_odd {v : U32} (h : v.toNat % 2 = 1) : v.getLsbD 0 = true := by
  rw [BitVec.getLsbD, Nat.testBit_zero, decide_eq_true_iff]
  exact h

/-- A completion either shows the enclosing event or leaves the state. -/
theorem State.restoreEnclosing_cases (u : State) : u.restoreEnclosing = u ∨ ∃ e, u.restoreEnclosing = u.showEvent e := by
  cases hs : u.stack with
  | nil => exact .inl (State.restoreEnclosing_nil hs)
  | cons f fs => exact .inr ⟨_, State.restoreEnclosing_cons hs⟩

/-- Showing the enclosing event touches IN_CALLBACK, the event registers and EBUF alone. -/
theorem State.restoreEnclosing_eq (u : State) : u.restoreEnclosing =
    { u with inCallback := u.restoreEnclosing.inCallback, evt := u.restoreEnclosing.evt,
             ebuf := u.restoreEnclosing.ebuf, freeCount := u.restoreEnclosing.freeCount } := by
  rcases u.restoreEnclosing_cases with h | ⟨e, h⟩
  · rw [h]
  · rw [h]; rfl

/-- After the completion the host sees the enclosing event, or none. -/
theorem eventEnded_restore {s u : State} {below : List Frame} (hst : u.stack = below) (hcb : u.inCallback = false)
    (hevt : u.evt = { s.evt with kind := none }) : s.eventEnded u.restoreEnclosing below := by
  refine ⟨fun hb => ?_, fun f fs hb => ?_⟩
  · rw [State.restoreEnclosing_nil (hst.trans hb)]
    exact ⟨hcb, hevt⟩
  · rw [State.restoreEnclosing_cons (hst.trans hb)]
    exact ⟨rfl, State.shows_showEvent u f.event⟩

/-- Settles O40: the send has only to report its sequence. -/
theorem sendCompletesAtEventEnd : Obligations.SendCompletesAtEventEnd := by
  intro s q e below v rest hh hcb hst
  exact ⟨_, step_evtDone hh hcb hst, eventEnded_restore rfl rfl rfl, State.restoreEnclosing_eq _⟩

/-! ### The record of a send -/

theorem accountedSize_fst {s : State} {n : Nat} (h : s.cfg.packetHeaderSize.toNat + n < 2 ^ 32) :
    (s.accountedSize n).1 = BitVec.ofNat 32 (s.cfg.packetHeaderSize.toNat + n) := by
  unfold State.accountedSize
  simp only [h, if_true]

theorem recordSend_of_stale {s : State} {q : U16} (h : sbStale s.sent q = true) (n : Nat) : s.recordSend q n = s := by
  unfold State.recordSend
  rw [sbInsert_of_stale h]

theorem recordSend_of_not_stale {s : State} {q : U16} (h : sbStale s.sent q = false) (n : Nat) :
    s.recordSend q n = State.setSentRecord
      { s with sent := (sbAdvance s.sent q).setTag (s.sent.slot q) (some q), freeCount := (s.accountedSize n).2 }
      (s.sent.slot q) ⟨s.time, false, (s.accountedSize n).1⟩ := by
  unfold State.recordSend
  rw [sbInsert_of_not_stale h]

theorem recordSend_eq (s : State) (q : U16) (n : Nat) : s.recordSend q n =
    { s with sent := (s.recordSend q n).sent, sentRecords := (s.recordSend q n).sentRecords,
             freeCount := (s.recordSend q n).freeCount } := by
  cases h : sbStale s.sent q with
  | true => rw [recordSend_of_stale h]
  | false => rw [recordSend_of_not_stale h]; rfl

/-- The allocation advances SEQUENCE, counts the send and records it. -/
theorem allocate_eq (s : State) (n : Nat) : s.allocate n =
    { s with sequence := s.sequence + 1, sent := (s.allocate n).sent, sentRecords := (s.allocate n).sentRecords,
             freeCount := (s.allocate n).freeCount,
             counters := { s.counters with packetsSent := s.counters.packetsSent + 1 } } := by
  unfold State.allocate
  rw [recordSend_eq]
  rfl

theorem sendRecorded_allocate {s t : State} {n : Nat} (hs : t.sent = (s.allocate n).sent)
    (hr : t.sentRecords = (s.allocate n).sentRecords) : s.sendRecorded t n := by
  have hrec : ∀ k, t.sentRecord k = (s.allocate n).sentRecord k := fun k => by
    unfold State.sentRecord
    rw [hr]
  refine ⟨fun hst => ?_, fun hst => ?_⟩
  · have ha : State.recordSend { s with sequence := s.sequence + 1 } s.sequence n = { s with sequence := s.sequence + 1 } :=
      recordSend_of_stale (s := { s with sequence := s.sequence + 1 }) hst n
    unfold State.allocate at hs hr
    rw [ha] at hs hr
    exact ⟨hs, hr⟩
  · have ha := recordSend_of_not_stale (s := { s with sequence := s.sequence + 1 }) hst n
    unfold State.allocate at hs hrec
    rw [ha] at hs hrec
    have hslot := (hrec (s.sent.slot s.sequence)).trans ((State.sentRecord_setSentRecord ..).trans (if_pos rfl))
    refine ⟨?_, ?_, ?_, fun hfit => ?_, fun j hj => ?_⟩
    · rw [hs]; exact sbInsert_of_not_stale hst
    · exact congrArg SentRecord.time hslot
    · exact congrArg SentRecord.acked hslot
    · exact (congrArg SentRecord.size hslot).trans (accountedSize_fst (s := { s with sequence := s.sequence + 1 }) hfit)
    · exact (hrec j).trans ((State.sentRecord_setSentRecord ..).trans (if_neg hj))

/-! ### EP_SEND -/

theorem exec_epSend_of_le {s : State} (hc : s.configured = true) (h : s.arg2.toNat ≤ s.params.ibufBytes) :
    exec .epSend s = .next (runEpSend (readBytes s.ibuf 0 s.arg2.toNat) s) :=
  congrArg Host.Outcome.next ((State.gated_of_configured hc _).trans (State.withInput_of_le h _))

theorem runEpSend_of_le {s : State} {p : List Byte} (h : p.length ≤ s.cfg.maxPacketSize.toNat) :
    runEpSend p s = (s.allocate p.length).transmit s.sequence s.sendHeader p := if_neg (by omega)

theorem transmit_of_le {s : State} {p : List Byte} (h : p.length ≤ s.cfg.fragmentAbove.toNat) (q : U16)
    (hdr : List Byte) : s.transmit q hdr p = s.emit ⟨.tx, q, hdr ++ p⟩ (.sendRegular q) := if_pos h

/-- Bytes of EBUF past an event's byte string keep their values when the event is shown. -/
theorem readByte_writeBytes_past {m : Memory} {bs : List Byte} {p : Nat} (h : bs.length ≤ p) :
    readByte (writeBytes m 0 bs) p = readByte m p := by
  rw [readByte_writeBytes, if_neg (by omega)]

theorem allocate_ebuf (s : State) (n : Nat) : (s.allocate n).ebuf = s.ebuf := (updates_allocate s n).frame.2.2.2.2.2.2.2.2.2.1

theorem allocate_cfg (s : State) (n : Nat) : (s.allocate n).cfg = s.cfg := (updates_allocate s n).frame.2.2.2.2.2.2.2.1

/-- What a regular send does. -/
theorem exec_epSend_regular {s : State} (hc : s.configured = true) (h : s.arg2.toNat ≤ s.params.ibufBytes)
    (hmax : s.arg2.toNat ≤ s.cfg.maxPacketSize.toNat) (habove : s.arg2.toNat ≤ s.cfg.fragmentAbove.toNat) :
    exec .epSend s = .next ((s.allocate s.arg2.toNat).emit
      ⟨.tx, s.sequence, s.sendHeader ++ readBytes s.ibuf 0 s.arg2.toNat⟩ (.sendRegular s.sequence)) := by
  rw [exec_epSend_of_le hc h, runEpSend_of_le (by rw [length_readBytes]; exact hmax), length_readBytes,
    transmit_of_le (by rw [length_readBytes, allocate_cfg]; exact habove)]

/-- Settles O37: allocate, then the one event. -/
theorem epSendRaisesTx : Obligations.EpSendRaisesTx := by
  intro s hc h hmax habove
  refine ⟨_, exec_epSend_regular hc h hmax habove, State.shows_emit _ _ _, fun p hp => ?_,
    sendRecorded_allocate rfl rfl, ?_⟩
  · exact (readByte_writeBytes_past hp).trans (by rw [allocate_ebuf])
  · have ha := allocate_eq s s.arg2.toNat
    generalize s.allocate s.arg2.toNat = u at ha ⊢
    rw [ha]
    rfl

/-! ### Fragmented sends -/

theorem transmit_of_lt {s : State} {p : List Byte} (h : s.cfg.fragmentAbove.toNat < p.length) (q : U16)
    (hdr : List Byte) (hpos : 1 ≤ ceilDiv p.length s.cfg.fragmentSize.toNat) : s.transmit q hdr p =
      s.sendFragment q hdr p 0 (ceilDiv p.length s.cfg.fragmentSize.toNat) :=
  (if_neg (by omega)).trans (if_neg (by omega))

theorem ceilDiv_pos {p q : Nat} (hp : 1 ≤ p) (hq : 1 ≤ q) : 1 ≤ ceilDiv p q := by
  by_contra h
  have := (ceilDiv_le_iff (p := p) (m := 0) hq).1 (by omega)
  omega

/-- The number of fragments of a payload that is fragmented (45_endpoint.md R190, R196). -/
theorem fragment_count_bounds {s : State} {n : Nat} (hs : s.configSound) (hc : s.configured = true)
    (hmax : n ≤ s.cfg.maxPacketSize.toNat) (habove : s.cfg.fragmentAbove.toNat < n) :
    1 ≤ ceilDiv n s.cfg.fragmentSize.toNat ∧ ceilDiv n s.cfg.fragmentSize.toNat ≤ s.cfg.maxFragments.toNat := by
  obtain ⟨-, ⟨-, -, hfs, -, -, -, -, -, -, hpkt⟩, -⟩ := (configSound_of_configured hc).1 hs
  refine ⟨ceilDiv_pos (by omega) hfs, ?_⟩
  rcases hpkt with hpkt | hpkt
  · omega
  · exact (ceilDiv_le_iff hfs).2 (hmax.trans ((ceilDiv_le_iff hfs).1 hpkt))

theorem exec_epSend_fragmented {s : State} (hs : s.configSound) (hc : s.configured = true)
    (h : s.arg2.toNat ≤ s.params.ibufBytes) (hmax : s.arg2.toNat ≤ s.cfg.maxPacketSize.toNat)
    (habove : s.cfg.fragmentAbove.toNat < s.arg2.toNat) :
    exec .epSend s = .next ((s.allocate s.arg2.toNat).sendFragment s.sequence s.sendHeader
      (readBytes s.ibuf 0 s.arg2.toNat) 0 (ceilDiv s.arg2.toNat s.cfg.fragmentSize.toNat)) := by
  have hpos := (fragment_count_bounds hs hc hmax habove).1
  have hlen : (readBytes s.ibuf 0 s.arg2.toNat).length = s.arg2.toNat := length_readBytes _ _ _
  rw [exec_epSend_of_le hc h, runEpSend_of_le (hlen.le.trans hmax), hlen,
    transmit_of_lt (by rw [hlen, allocate_cfg]; exact habove) _ _ (by rw [hlen, allocate_cfg]; exact hpos), hlen,
    allocate_cfg]

theorem sendFragment_zero (u : State) (q : U16) (hdr p : List Byte) (total : Nat) :
    u.sendFragment q hdr p 0 total = (u.count .fragmentsSent).emit
      ⟨.tx, q, fhdrEncode q 0 total ++ (hdr ++ p.take u.cfg.fragmentSize.toNat)⟩ (.sendFragments q p 1 total) := by
  unfold State.sendFragment fragmentPart
  rw [Nat.zero_mul, List.drop_zero]

/-- Settles O38: allocate, then the event of fragment 0. -/
theorem epSendRaisesFirstFragment : Obligations.EpSendRaisesFirstFragment := by
  intro s hs hc h hmax habove p fs total first
  have htotal : total = ceilDiv s.arg2.toNat fs := congrArg (ceilDiv · fs) (length_readBytes ..)
  have hexec := exec_epSend_fragmented hs hc h hmax habove
  rw [sendFragment_zero, allocate_cfg, ← htotal] at hexec
  obtain ⟨h1, h2⟩ := fragment_count_bounds hs hc hmax habove
  refine ⟨htotal ▸ h1, htotal ▸ h2, _, hexec, State.shows_emit _ _ _, fun a ha => ?_,
    sendRecorded_allocate (by rw [State.emit_sent, State.count_sent])
      (by rw [State.emit_sentRecords, State.count_sentRecords]), ?_⟩
  · exact (readByte_writeBytes_past ha).trans (by rw [State.count_ebuf, allocate_ebuf])
  · have ha := allocate_eq s s.arg2.toNat
    generalize s.allocate s.arg2.toNat = u at ha ⊢
    rw [ha]
    rfl

/-- The state in which the event of fragment `next` of a suspended send waits. -/
def State.nextFragment (s : State) (q : U16) (p : List Byte) (next total : Nat) : State :=
  (s.count .fragmentsSent).emit
    ⟨.tx, q, fhdrEncode q next total ++ (p.drop (next * s.cfg.fragmentSize.toNat)).take s.cfg.fragmentSize.toNat⟩
    (.sendFragments q p (next + 1) total)

theorem sendFragment_nil (s : State) (q : U16) (p : List Byte) (next total : Nat) :
    s.sendFragment q [] p next total = s.nextFragment q p next total := by
  unfold State.sendFragment State.nextFragment fragmentPart
  rw [List.nil_append]

/-- An EVT_DONE write at a fragmented send with fragments left raises the next one. -/
theorem step_sendFragments_of_lt {s : State} {q : U16} {p : List Byte} {next total : Nat} {e : Event}
    {below : List Frame} {v : U32} {rest : List HostAccess} (hh : s.nextEndsEvent v rest) (hcb : s.inCallback = true)
    (hst : s.stack = ⟨.sendFragments q p next total, e⟩ :: below) (hlt : next < total) :
    step s = .next ((State.endEvent { s with host := rest } ⟨.sendFragments q p next total, e⟩ below).nextFragment
      q p next total) := by
  rw [step_evtDone hh hcb hst, ← sendFragment_nil]
  exact congrArg Host.Outcome.next (if_pos hlt)

/-- After the last fragment it completes. -/
theorem step_sendFragments_of_eq {s : State} {q : U16} {p : List Byte} {total : Nat} {e : Event}
    {below : List Frame} {v : U32} {rest : List HostAccess} (hh : s.nextEndsEvent v rest) (hcb : s.inCallback = true)
    (hst : s.stack = ⟨.sendFragments q p total total, e⟩ :: below) :
    step s = .next (((State.endEvent { s with host := rest } ⟨.sendFragments q p total total, e⟩ below).finishSend
      q).restoreEnclosing) := by
  rw [step_evtDone hh hcb hst]
  exact congrArg Host.Outcome.next (if_neg (Nat.lt_irrefl total))

/-- The block waits at the event of fragment `next - 1` of `total`, with nothing below, and has counted `sent` of them. -/
def State.waitsFragment (s : State) (q : U16) (p : List Byte) (next total : Nat) (sent : U64) : Prop :=
  s.inCallback = true ∧ (∃ e, s.stack = [⟨.sendFragments q p next total, e⟩]) ∧ s.counters.fragmentsSent = sent

theorem run_succ_of_next {M : Host.Core} {s t : M.State} (h : M.step s = .next t) (k : Nat) :
    M.run (k + 1) s = M.run k t := by
  simp only [Host.Core.run, h]

/-- With `k` fragments left the send completes after `k + 1` event ends. -/
theorem run_waitsFragment {q : U16} {p : List Byte} {total : Nat} : ∀ (k next : Nat) (s : State) (sent : U64),
    next + k = total → s.waitsFragment q p next total sent →
    s.host = List.replicate (k + 1) (.write 4 0x194#32 0#32) →
    ∃ u, Sys2Proof.core.run (k + 1) s = .next u ∧ u.code = .ok ∧ u.stack = [] ∧ u.inCallback = false ∧
      u.res0 = q.setWidth 32 ∧ u.host = [] ∧ u.counters.fragmentsSent = sent + BitVec.ofNat 64 k := by
  intro k
  induction k with
  | zero =>
    intro next s sent hk hw hh
    obtain ⟨hcb, ⟨e, hst⟩, hsent⟩ := hw
    obtain rfl : next = total := hk
    refine ⟨_, run_succ_of_next (step_sendFragments_of_eq hh hcb hst) 0, ?_⟩
    rw [State.restoreEnclosing_nil rfl]
    exact ⟨rfl, rfl, rfl, rfl, rfl, hsent.trans (add_zero sent).symm⟩
  | succ k ih =>
    intro next s sent hk hw hh
    obtain ⟨hcb, ⟨e, hst⟩, hsent⟩ := hw
    have hstep := step_sendFragments_of_lt hh hcb hst (by omega)
    obtain ⟨u, hrun, h1, h2, h3, h4, h5, h6⟩ := ih (next + 1) _ (sent + 1) (by omega)
      (⟨rfl, ⟨_, rfl⟩, congrArg (· + 1) hsent⟩ : State.waitsFragment (State.nextFragment (State.endEvent
        { s with host := List.replicate (k + 1) (.write 4 0x194#32 0#32) } ⟨.sendFragments q p next total, e⟩ [])
        q p next total) q p (next + 1) total (sent + 1)) rfl
    refine ⟨u, (run_succ_of_next hstep _).trans hrun, h1, h2, h3, h4, h5, ?_⟩
    rw [h6, add_assoc, Nat.add_comm k 1, BitVec.ofNat_add]
    rfl

/-- Raising the next fragment counts it and shows its event. -/
theorem nextFragment_eq {s : State} (hcb : s.inCallback = true) (q : U16) (p : List Byte) (next total : Nat) (e : Event)
    (below : List Frame) (rest : List HostAccess) :
    ∃ t, t = (State.endEvent { s with host := rest } ⟨.sendFragments q p next total, e⟩ below).nextFragment
      q p next total ∧ t = { s with
        host := rest
        stack := ⟨.sendFragments q p (next + 1) total, ⟨.tx, q, fhdrEncode q next total ++
          (p.drop (next * s.cfg.fragmentSize.toNat)).take s.cfg.fragmentSize.toNat⟩⟩ :: below
        counters := { s.counters with fragmentsSent := s.counters.fragmentsSent + 1 }
        evt := t.evt, ebuf := t.ebuf, freeCount := t.freeCount } := by
  refine ⟨_, rfl, ?_⟩
  rw [hcb]
  rfl

/-- Settles O39: one event end at a time, then all of them. -/
theorem fragmentedSendTerminates : Obligations.FragmentedSendTerminates := by
  refine ⟨fun s q p next total e below v rest hh hcb hst => ⟨fun hlt => ?_, fun heq => ?_⟩, ?_⟩
  · obtain ⟨t, ht, hframe⟩ := nextFragment_eq hcb q p next total e below rest
    refine ⟨t, (step_sendFragments_of_lt hh hcb hst hlt).trans (congrArg _ ht.symm), ?_, fun a hx he => ?_, hframe⟩
    · rw [ht]
      exact State.shows_emit _ _ _
    rw [ht]
    refine (readByte_writeBytes_past hx).trans (readByte_writeBytes_past ?_)
    rw [List.length_map, List.length_range]
    exact he
  · subst heq
    exact ⟨_, step_sendFragments_of_eq hh hcb hst, eventEnded_restore rfl rfl rfl, State.restoreEnclosing_eq _⟩
  · intro s t hs hc hst h hmax habove hexec
    obtain ⟨hpos, -⟩ := fragment_count_bounds hs hc hmax habove
    rw [exec_epSend_fragmented hs hc h hmax habove] at hexec
    obtain rfl := Host.Outcome.next.inj hexec
    have ha := allocate_eq s s.arg2.toNat
    generalize s.allocate s.arg2.toNat = u at ha ⊢
    generalize ceilDiv s.arg2.toNat s.cfg.fragmentSize.toNat = total at hpos ⊢
    obtain ⟨k, rfl⟩ : ∃ k, total = k + 1 := ⟨total - 1, by omega⟩
    have hst' : u.stack = [] := by rw [ha]; exact hst
    have hsent : u.counters.fragmentsSent = s.counters.fragmentsSent := by rw [ha]
    obtain ⟨w, hrun, h1, h2, h3, h4, h5, h6⟩ := run_waitsFragment (q := s.sequence)
      (p := readBytes s.ibuf 0 s.arg2.toNat) (total := k + 1) k 1
      { u.sendFragment s.sequence s.sendHeader (readBytes s.ibuf 0 s.arg2.toNat) 0 (k + 1) with
        host := List.replicate (k + 1) (.write 4 0x194#32 0#32) } (s.counters.fragmentsSent + 1) (by omega)
      ⟨rfl, ⟨_, congrArg (List.cons _) hst'⟩, congrArg (· + 1) hsent⟩ rfl
    refine ⟨w, hrun, h1, h2, h3, h4, h5, ?_⟩
    rw [h6, add_assoc, Nat.add_comm k 1, BitVec.ofNat_add]
    rfl

end Sys2Proof.Machine
end

section
/-! PROOF. EP_RECEIVE up to its host event, and the endpoint commands that end without one (45_endpoint.md R190 to R204). -/

namespace Sys2Proof.Machine

/-! ### The gates -/

theorem exec_epReceive_of_le {s : State} (hc : s.configured = true) (h : s.arg2.toNat ≤ s.params.ibufBytes) :
    exec .epReceive s = .next (runEpReceive (readBytes s.ibuf 0 s.arg2.toNat) s) :=
  congrArg Host.Outcome.next ((State.gated_of_configured hc _).trans (State.withInput_of_le h _))

theorem exec_fragRx_of_le {s : State} (hc : s.configured = true) (h : s.arg2.toNat ≤ s.params.ibufBytes) :
    exec .fragRx s = .next (runFragRx (readBytes s.ibuf 0 s.arg2.toNat) s) :=
  congrArg Host.Outcome.next ((State.gated_of_configured hc _).trans (State.withInput_of_le h _))

theorem gated_withInput_of_lt {s : State} (hc : s.configured = true) (h : s.params.ibufBytes < s.arg2.toNat)
    (run : List Byte → State → State) :
    (s.gated fun s => s.withInput run) = { s with code := .badLength } :=
  (State.gated_of_configured hc _).trans (State.withInput_of_lt h _)

/-! ### The regular path -/

theorem regularPath_of_short {s : State} {b : List Byte} (h : hdrDecode b = .short) (rebuilt : Option U16) :
    s.regularPath b rebuilt = ((s.count .packetsReceived).count .packetsInvalid).endReceive rebuilt .decodeShort := by
  unfold State.regularPath
  rw [h]

theorem regularPath_of_stale {s : State} {b : List Byte} {h : RegularHeader} (hd : hdrDecode b = .fields h)
    (hst : sbStale s.recv h.seq = true) (rebuilt : Option U16) :
    s.regularPath b rebuilt =
      ({ s.count .packetsReceived with res0 := word h.seq }.count .packetsStale).endReceive rebuilt .stale := by
  unfold State.regularPath
  rw [hd]
  exact if_pos hst

theorem regularPath_of_fresh {s : State} {b : List Byte} {h : RegularHeader} (hd : hdrDecode b = .fields h)
    (hst : sbStale s.recv h.seq = false) (rebuilt : Option U16) :
    s.regularPath b rebuilt = ({ s.count .packetsReceived with res0 := word h.seq } : State).emit
      ⟨.deliver, h.seq, b.drop h.length⟩ (.deliver h.seq h.ack h.bits b.length rebuilt) := by
  unfold State.regularPath
  rw [hd]
  exact if_neg (by rw [show sbStale (s.count .packetsReceived).recv h.seq = false from hst]; exact Bool.false_ne_true)

theorem isFragmentPacket_of_short {b : List Byte} (h : hdrDecode b = .short) : isFragmentPacket b = false := by
  unfold isFragmentPacket
  by_cases hlen : b.length < 1
  · rw [decide_eq_false (by omega), Bool.false_and]
  · cases hbit : (rd8 b 0).getLsbD 0 with
    | false => rw [Bool.and_false]
    | true =>
      unfold hdrDecode at h
      rw [if_neg hlen, if_pos hbit] at h
      cases h

theorem runEpReceive_of_regular {s : State} {b : List Byte} (h : b.length ≤ s.cfg.maxPacketSize.toNat)
    (hreg : isFragmentPacket b = false) : runEpReceive b s = s.regularPath b none :=
  (State.checkSize_of_le h none _).trans (if_neg (by rw [hreg]; exact Bool.false_ne_true))

theorem runEpReceive_of_fragment {s : State} {b : List Byte} (h : b.length ≤ s.cfg.maxPacketSize.toNat)
    (hfrag : isFragmentPacket b = true) : runEpReceive b s = s.fragmentPath b :=
  (State.checkSize_of_le h none _).trans (if_pos hfrag)

/-- EP_RECEIVE of a regular packet that fits. -/
theorem exec_epReceive_of_regular {s : State} (hc : s.configured = true) (h : s.arg2.toNat ≤ s.params.ibufBytes)
    (hmax : s.arg2.toNat ≤ s.cfg.maxPacketSize.toNat)
    (hreg : isFragmentPacket (readBytes s.ibuf 0 s.arg2.toNat) = false) :
    exec .epReceive s = .next (s.regularPath (readBytes s.ibuf 0 s.arg2.toNat) none) :=
  (exec_epReceive_of_le hc h).trans
    (congrArg Host.Outcome.next (runEpReceive_of_regular ((length_readBytes ..).le.trans hmax) hreg))

/-- Settles O41: the regular path up to the event. -/
theorem epReceiveRaisesDeliver : Obligations.EpReceiveRaisesDeliver := by
  intro s h hc hlen hmax hd hst e
  have hexec := exec_epReceive_of_regular hc hlen hmax (not_isFragmentPacket hd)
  rw [regularPath_of_fresh hd hst, length_readBytes] at hexec
  exact ⟨_, hexec, State.shows_emit _ _ _, fun p hp => readByte_writeBytes_past hp, rfl⟩

/-- Settles O47: B decodes the header that A has encoded. -/
theorem sentPacketIsDelivered : Obligations.SentPacketIsDelivered := by
  intro a a' b f below hca ha hamax haabove hsend hstack hcb hlen hb hbmax hread hst
  rw [exec_epSend_regular hca ha hamax haabove] at hsend
  obtain rfl := Host.Outcome.next.inj hsend
  obtain rfl : _ = f := (List.cons.inj hstack).1
  have hd := (congrArg hdrDecode hread).trans (hdrDecode_hdrEncode_append a.sequence (sbGenack a.recv).1
    (sbGenack a.recv).2 (readBytes a.ibuf 0 a.arg2.toNat))
  have hexec := exec_epReceive_of_regular hcb hb hbmax (not_isFragmentPacket hd)
  rw [regularPath_of_fresh hd hst, hread] at hexec
  refine ⟨_, hexec, ?_, rfl⟩
  have hdrop := List.drop_left (l₁ := a.sendHeader) (l₂ := readBytes a.ibuf 0 a.arg2.toNat)
  exact (congrArg (State.shows _) (congrArg (Event.mk .deliver a.sequence) hdrop)).mp (State.shows_emit _ _ _)

/-! ### The fragment path -/

theorem fragmentPath_of_ended {s u : State} {b : List Byte} {c : ResultCode} (h : fragCore b s = (.ended c, u)) :
    s.fragmentPath b = u.finish c := by
  unfold State.fragmentPath
  rw [h]

theorem fragmentPath_of_complete {s u : State} {b pkt : List Byte} {q : U16} (h : fragCore b s = (.complete q pkt, u)) :
    s.fragmentPath b = u.checkSize pkt (some q) fun s => s.regularPath pkt (some q) := by
  unfold State.fragmentPath
  rw [h]

theorem sbFind_sbRemoved (B : SeqBuf) (q : U16) : sbFind (sbRemoved B q) q = none := by
  have hslot : (sbRemoved B q).slot q = B.slot q := by
    unfold SeqBuf.slot
    rw [sbRemoved_n]
  rw [sbFind_eq_none, hslot, sbRemoved_tag]
  by_cases h : B.tag (B.slot q) = some q
  · rw [if_pos ⟨rfl, h⟩]
    exact (Option.some_ne_none q).symm
  · rwa [if_neg fun h' => h h'.2]

theorem sbRemoved_tag_ne {B : SeqBuf} {q : U16} {k : Nat} (h : k ≠ B.slot q) : (sbRemoved B q).tag k = B.tag k := by
  rw [sbRemoved_tag, if_neg fun h' => h h'.1]

/-- EP_RECEIVE of a fragment packet that fits. -/
theorem exec_epReceive_of_fragment {s : State} (hc : s.configured = true) (h : s.arg2.toNat ≤ s.params.ibufBytes)
    (hpos : 1 ≤ s.arg2.toNat) (hmax : s.arg2.toNat ≤ s.cfg.maxPacketSize.toNat)
    (hbit : (readByte s.ibuf 0).getLsbD 0 = true) :
    exec .epReceive s = .next (s.fragmentPath (readBytes s.ibuf 0 s.arg2.toNat)) := by
  have hlen : (readBytes s.ibuf 0 s.arg2.toNat).length = s.arg2.toNat := length_readBytes ..
  refine (exec_epReceive_of_le hc h).trans
    (congrArg Host.Outcome.next (runEpReceive_of_fragment (hlen.le.trans hmax) ?_))
  unfold isFragmentPacket
  rw [decide_eq_true (hlen.ge.trans' hpos), Bool.true_and, rd8_readBytes _ _ _ hpos]
  exact hbit

/-- Settles O42: the outcome of `frag_core`, and the second pass of a completed packet. -/
theorem epReceiveFragments : Obligations.EpReceiveFragments := by
  intro s u hc hlen hpos hmax hbit
  have hexec := exec_epReceive_of_fragment hc hlen hpos hmax hbit
  refine ⟨fun c hcore => hexec.trans (congrArg _ (fragmentPath_of_ended hcore)), fun q pkt hcore => ?_⟩
  rw [fragmentPath_of_complete hcore] at hexec
  refine ⟨fun hlarge => ?_, fun h hfit hd => ⟨fun hst => ?_, fun hst => ?_⟩⟩
  · rw [State.checkSize_of_lt hlarge] at hexec
    exact ⟨_, hexec, ⟨sbRemoved_n _ _, sbRemoved_s _ _, sbFind_sbRemoved _ _, fun k hk => sbRemoved_tag_ne hk⟩, rfl⟩
  · rw [State.checkSize_of_le hfit, regularPath_of_stale hd hst] at hexec
    exact ⟨_, hexec, ⟨sbRemoved_n _ _, sbRemoved_s _ _, sbFind_sbRemoved _ _, fun k hk => sbRemoved_tag_ne hk⟩, rfl⟩
  · rw [State.checkSize_of_le hfit, regularPath_of_fresh hd hst] at hexec
    exact ⟨_, hexec, State.shows_emit _ _ _, fun p hp => readByte_writeBytes_past hp, rfl⟩

/-! ### Refusals -/

/-- A configuration that breaks a bound of R190, the bounds as numbers, is not valid. -/
theorem CfgRegs.valid_bounds {c : CfgRegs} {p : Params} (h : c.valid p) :
    ¬ (c.maxPacketSize.toNat < 1 ∨ p.ibufBytes < c.maxPacketSize.toNat ∨
        c.maxFragments.toNat < 1 ∨ 256 < c.maxFragments.toNat ∨ c.fragmentSize.toNat < 1 ∨
        c.ackBufferSize.toNat < 1 ∨ p.maxAcks < c.ackBufferSize.toNat ∨
        c.sentBufferSize.toNat < 2 ∨ p.maxSbEntries < c.sentBufferSize.toNat ∨
        c.receivedBufferSize.toNat < 1 ∨ p.maxSbEntries < c.receivedBufferSize.toNat ∨
        c.reassemblyBufferSize.toNat < 1 ∨ p.maxSbEntries < c.reassemblyBufferSize.toNat ∨
        numFinite p.num c.rttFactor = false ∨ numFinite p.num c.lossFactor = false ∨
        numFinite p.num c.bandwidthFactor = false ∨
        p.obufBytes < 9 + c.maxFragments.toNat * c.fragmentSize.toNat ∨
        p.reasmBytes < 9 + c.maxFragments.toNat * c.fragmentSize.toNat ∨
        (c.fragmentAbove.toNat < c.maxPacketSize.toNat ∧
          c.maxFragments.toNat * c.fragmentSize.toNat < c.maxPacketSize.toNat)) := by
  obtain ⟨hmps, hmf, hfs, hack, hsent, hrecv, hreasm, ⟨hr, hl, hb⟩, hspace, hpkt⟩ := h
  rw [ceilDiv_le_iff hfs] at hpkt
  rw [Nat.le_min] at hspace
  simp only [hr, hl, hb, Bool.true_eq_false, false_or]
  generalize c.maxFragments.toNat * c.fragmentSize.toNat = area at *
  omega

/-- Settles O43: each gate or check in turn. -/
theorem endpointRefusals : Obligations.EndpointRefusals := by
  intro s
  refine ⟨fun hc hv => exec_epCreate_of_invalid hc hv,
    fun hc hbad => exec_epCreate_of_invalid hc fun hv => CfgRegs.valid_bounds hv hbad,
    fun hc hz => exec_epCreate_of_invalid hc fun hv => CfgRegs.valid_bounds hv (.inl (by rw [hz]; decide)),
    fun hc => congrArg Host.Outcome.next (if_pos hc),
    fun hc h => ⟨congrArg _ (gated_withInput_of_lt hc h _), congrArg _ (gated_withInput_of_lt hc h _),
      congrArg _ (gated_withInput_of_lt hc h _)⟩,
    fun hc h hlarge => ?_, fun hc h hmax => ⟨fun hd => ?_, fun hdr hd hst => ?_⟩⟩
  · have hlen : (readBytes s.ibuf 0 s.arg2.toNat).length = s.arg2.toNat := length_readBytes ..
    exact ⟨(exec_epSend_of_le hc h).trans (congrArg _ (if_pos (hlen.ge.trans_lt' hlarge))),
      (exec_epReceive_of_le hc h).trans (congrArg _ (State.checkSize_of_lt (hlen.ge.trans_lt' hlarge) none _))⟩
  · exact (exec_epReceive_of_regular hc h hmax (isFragmentPacket_of_short hd)).trans
      (congrArg _ (regularPath_of_short hd none))
  · exact (exec_epReceive_of_regular hc h hmax (not_isFragmentPacket hd)).trans
      (congrArg _ (regularPath_of_stale hd hst none))

end Sys2Proof.Machine
end

section
/-! PROOF. The answer to DELIVER: the record of the packet and the ack walk (45_endpoint.md R201 to R204). -/

namespace Sys2Proof.Machine

/-! ### One sequence of the walk -/

/-- What the ack walk reads and writes comes from `s`, everything else from `x`. -/
def State.walkedAs (x s : State) : State :=
  { x with
    sent := s.sent, cfg := s.cfg, params := s.params, time := s.time
    acks := s.acks, ackCount := s.ackCount, sentRecords := s.sentRecords, counters := s.counters, stats := s.stats }

/-- A marked sequence is passed over, or it is held, not acked, and there is room to record it. -/
theorem ackOne_cases (s : State) (q : U16) :
    (s.ackOne q = s ∧ ∀ k, sbFind s.sent q = some k →
      (s.sentRecord k).acked = false → s.cfg.ackBufferSize ≤ s.ackCount) ∨
    ∃ k, sbFind s.sent q = some k ∧ (s.sentRecord k).acked = false ∧ s.ackCount < s.cfg.ackBufferSize ∧
      s.ackOne q = s.recordAck q k := by
  unfold State.ackOne
  cases hf : sbFind s.sent q with
  | none => exact .inl ⟨rfl, nofun⟩
  | some k =>
    by_cases h : (s.sentRecord k).acked = false ∧ s.ackCount < s.cfg.ackBufferSize
    · exact .inr ⟨k, rfl, h.1, h.2, if_pos h⟩
    · refine .inl ⟨if_neg h, fun j hj hacked => ?_⟩
      obtain rfl := Option.some.inj hj
      exact BitVec.not_lt.1 fun hlt => h ⟨hacked, hlt⟩

theorem ackOne_walkedAs (x s : State) (q : U16) : (x.walkedAs s).ackOne q = x.walkedAs (s.ackOne q) := by
  unfold State.ackOne
  rw [show (x.walkedAs s).sent = s.sent from rfl]
  cases sbFind s.sent q with
  | none => rfl
  | some k =>
    exact (apply_ite x.walkedAs ((s.sentRecord k).acked = false ∧ s.ackCount < s.cfg.ackBufferSize)
      (s.recordAck q k) s).symm

/-- Recording an ack changes ACKS, ACK_COUNT, one record, one counter and RTT. -/
theorem ackOne_eq (s : State) (q : U16) : s.ackOne q =
    { s with
      acks := (s.ackOne q).acks, ackCount := (s.ackOne q).ackCount, sentRecords := (s.ackOne q).sentRecords
      counters := { s.counters with packetsAcked := (s.ackOne q).counters.packetsAcked }
      stats := { s.stats with rtt := (s.ackOne q).stats.rtt } } := by
  rcases ackOne_cases s q with ⟨h, -⟩ | ⟨k, -, -, -, h⟩
  · rw [h]
  · rw [h]; rfl

/-! ### The walk -/

theorem ackWalk_succ_of_clear {s : State} {ack : U16} {bits : U32} {i : Nat} (h : bits.getLsbD i = false) :
    s.ackWalk ack bits (i + 1) = s.ackWalk ack bits i :=
  if_neg (by rw [h]; exact Bool.false_ne_true)

theorem ackWalk_succ_of_set {s : State} {ack : U16} {bits : U32} {i : Nat} (h : bits.getLsbD i = true) :
    s.ackWalk ack bits (i + 1) = (s.ackWalk ack bits i).ackOne (ack - BitVec.ofNat 16 i) :=
  if_pos h

theorem ackWalk_walkedAs (x s : State) (ack : U16) (bits : U32) (n : Nat) :
    (x.walkedAs s).ackWalk ack bits n = x.walkedAs (s.ackWalk ack bits n) := by
  induction n with
  | zero => rfl
  | succ n ih =>
    cases h : bits.getLsbD n with
    | false => rw [ackWalk_succ_of_clear h, ackWalk_succ_of_clear h, ih]
    | true => rw [ackWalk_succ_of_set h, ackWalk_succ_of_set h, ih, ackOne_walkedAs]

/-- What the whole walk changes. -/
theorem ackWalk_eq (s : State) (ack : U16) (bits : U32) (n : Nat) : s.ackWalk ack bits n =
    { s with
      acks := (s.ackWalk ack bits n).acks, ackCount := (s.ackWalk ack bits n).ackCount
      sentRecords := (s.ackWalk ack bits n).sentRecords
      counters := { s.counters with packetsAcked := (s.ackWalk ack bits n).counters.packetsAcked }
      stats := { s.stats with rtt := (s.ackWalk ack bits n).stats.rtt } } := by
  induction n with
  | zero => rfl
  | succ n ih =>
    cases h : bits.getLsbD n with
    | false => rwa [ackWalk_succ_of_clear h]
    | true =>
      rw [ackWalk_succ_of_set h]
      have hone := ackOne_eq (s.ackWalk ack bits n) (ack - BitVec.ofNat 16 n)
      generalize (s.ackWalk ack bits n).ackOne (ack - BitVec.ofNat 16 n) = w at hone ⊢
      generalize s.ackWalk ack bits n = u at hone ih
      rw [hone, ih]

/-- The walk in a state that has what it reads from `s`. -/
theorem ackWalk_of_walkedAs {x s : State} (h : x = x.walkedAs s) (ack : U16) (bits : U32) (n : Nat) :
    x.ackWalk ack bits n = { x with
      acks := (s.ackWalk ack bits n).acks, ackCount := (s.ackWalk ack bits n).ackCount
      sentRecords := (s.ackWalk ack bits n).sentRecords, counters := (s.ackWalk ack bits n).counters
      stats := (s.ackWalk ack bits n).stats } := by
  have hwalk := congrArg (fun y => State.ackWalk y ack bits n) h
  have hkeep := ackWalk_eq s ack bits n
  refine hwalk.trans ((ackWalk_walkedAs x s ack bits n).trans ?_)
  generalize s.ackWalk ack bits n = w at hkeep ⊢
  rw [h, hkeep]
  rfl

/-! ### The record of a receive -/

theorem recordReceive_of_stale {s : State} {q : U16} (h : sbStale s.recv q = true) (n : Nat) : s.recordReceive q n = s := by
  unfold State.recordReceive
  rw [sbInsert_of_stale h]

theorem recordReceive_of_not_stale {s : State} {q : U16} (h : sbStale s.recv q = false) (n : Nat) :
    s.recordReceive q n = State.setRecvRecord
      { s with recv := (sbAdvance s.recv q).setTag (s.recv.slot q) (some q), freeCount := (s.accountedSize n).2 }
      (s.recv.slot q) ⟨s.time, (s.accountedSize n).1⟩ := by
  unfold State.recordReceive
  rw [sbInsert_of_not_stale h]

theorem recordReceive_eq (s : State) (q : U16) (n : Nat) : s.recordReceive q n =
    { s with recv := (s.recordReceive q n).recv, recvRecords := (s.recordReceive q n).recvRecords,
             freeCount := (s.recordReceive q n).freeCount } := by
  cases h : sbStale s.recv q with
  | true => rw [recordReceive_of_stale h]
  | false => rw [recordReceive_of_not_stale h]; rfl

/-- `u` has from `s` what the record of a receive is made of. -/
def State.receivesAs (u s : State) : Prop :=
  u.recv = s.recv ∧ u.recvRecords = s.recvRecords ∧ u.time = s.time ∧ u.cfg = s.cfg

theorem receiveRecorded_of_receivesAs {s t u : State} {q : U16} {n : Nat} (hu : u.receivesAs s)
    (hs : t.recv = (u.recordReceive q n).recv) (hr : t.recvRecords = (u.recordReceive q n).recvRecords) :
    s.receiveRecorded t q n := by
  obtain ⟨hurecv, hurecords, hutime, hucfg⟩ := hu
  have hrec : ∀ k, t.recvRecord k = (u.recordReceive q n).recvRecord k := fun k => by
    unfold State.recvRecord
    rw [hr]
  have hold : ∀ k, u.recvRecord k = s.recvRecord k := fun k => by
    unfold State.recvRecord
    rw [hurecords]
  unfold State.receiveRecorded
  rw [← hurecv, ← hutime, ← hucfg, ← hurecords]
  refine ⟨fun hst => ?_, fun hst => ?_⟩
  · rw [recordReceive_of_stale hst] at hs hr
    exact ⟨hs, hr⟩
  · rw [recordReceive_of_not_stale hst] at hs hrec
    have hslot := (hrec (u.recv.slot q)).trans ((State.recvRecord_setRecvRecord ..).trans (if_pos rfl))
    refine ⟨?_, ?_, fun hfit => ?_, fun j hj => ?_⟩
    · rw [hs]; exact sbInsert_of_not_stale hst
    · exact congrArg RecvRecord.time hslot
    · exact (congrArg RecvRecord.size hslot).trans (accountedSize_fst hfit)
    · exact ((hrec j).trans ((State.recvRecord_setRecvRecord ..).trans (if_neg hj))).trans (hold j)

/-! ### The answer -/

/-- An accepted packet: its record, then the walk, whatever event has just ended. -/
theorem ackWalk_recordReceive {s u : State} (h : u = u.walkedAs s) (q ack : U16) (bits : U32) (n : Nat) :
    (u.recordReceive q n).ackWalk ack bits 32 = { u with
      recv := (u.recordReceive q n).recv, recvRecords := (u.recordReceive q n).recvRecords
      freeCount := (u.recordReceive q n).freeCount
      acks := (s.ackWalk ack bits 32).acks, ackCount := (s.ackWalk ack bits 32).ackCount
      sentRecords := (s.ackWalk ack bits 32).sentRecords, counters := (s.ackWalk ack bits 32).counters
      stats := (s.ackWalk ack bits 32).stats } := by
  have hrec := recordReceive_eq u q n
  have hwalked : u.recordReceive q n = (u.recordReceive q n).walkedAs s := by
    generalize u.recordReceive q n = r at hrec ⊢
    rw [hrec, h]
    rfl
  rw [ackWalk_of_walkedAs hwalked ack bits 32]
  generalize u.recordReceive q n = r at hrec ⊢
  rw [hrec]

theorem answered_true (u : State) (q ack : U16) (bits : U32) (n : Nat) (rebuilt : Option U16) :
    u.answered q ack bits n rebuilt true =
      ((u.recordReceive q n).ackWalk ack bits 32).endReceive rebuilt .ok := rfl

/-- The state of the innermost command's end after an accepted packet. -/
theorem step_deliver_accepted {s : State} {q ack : U16} {bits : U32} {n : Nat} {rebuilt : Option U16} {e : Event}
    {below : List Frame} {v : U32} {rest : List HostAccess} (hh : s.nextEndsEvent v rest) (hcb : s.inCallback = true)
    (hst : s.stack = ⟨.deliver q ack bits n rebuilt, e⟩ :: below) (hv : v.toNat % 2 = 1) :
    let u := State.endEvent { s with host := rest } ⟨.deliver q ack bits n rebuilt, e⟩ below
    step s = .next (({ u with
      recv := (u.recordReceive q n).recv, recvRecords := (u.recordReceive q n).recvRecords
      freeCount := (u.recordReceive q n).freeCount
      acks := (s.ackWalk ack bits 32).acks, ackCount := (s.ackWalk ack bits 32).ackCount
      sentRecords := (s.ackWalk ack bits 32).sentRecords, counters := (s.ackWalk ack bits 32).counters
      stats := (s.ackWalk ack bits 32).stats } : State).endReceive rebuilt .ok).restoreEnclosing := by
  intro u
  rw [step_evtDone hh hcb hst, answer_bit_of_odd hv, ← ackWalk_recordReceive (s := s) (u := u) rfl]
  rfl

theorem step_deliver_rejected {s : State} {q ack : U16} {bits : U32} {n : Nat} {rebuilt : Option U16} {e : Event}
    {below : List Frame} {v : U32} {rest : List HostAccess} (hh : s.nextEndsEvent v rest) (hcb : s.inCallback = true)
    (hst : s.stack = ⟨.deliver q ack bits n rebuilt, e⟩ :: below) (hv : v.toNat % 2 = 0) :
    step s = .next (((State.endEvent { s with host := rest } ⟨.deliver q ack bits n rebuilt, e⟩ below).endReceive
      rebuilt .appRejected).restoreEnclosing) := by
  rw [step_evtDone hh hcb hst, answer_bit_of_even hv]
  rfl

theorem not_odd_of_even {n : Nat} {p : Prop} (h : n % 2 = 0) : n % 2 = 1 → p := fun h' => by omega

/-- Settles O44: the packet and the acks are recorded as far as the answer says. -/
theorem deliverAnswerRecords : Obligations.DeliverAnswerRecords := by
  intro s q ack bits n e below v rest hh hcb hst
  rcases Nat.mod_two_eq_zero_or_one v.toNat with hv | hv
  · exact ⟨_, step_deliver_rejected hh hcb hst hv, eventEnded_restore rfl rfl rfl,
      fun _ => State.restoreEnclosing_eq _, not_odd_of_even hv⟩
  · refine ⟨_, step_deliver_accepted hh hcb hst hv, eventEnded_restore rfl rfl rfl,
      fun h => by omega, fun _ => ?_⟩
    rw [State.restoreEnclosing_eq]
    exact ⟨receiveRecorded_of_receivesAs
      (u := State.endEvent { s with host := rest } ⟨.deliver q ack bits n none, e⟩ below) ⟨rfl, rfl, rfl, rfl⟩ rfl rfl,
      ⟨rfl, rfl, rfl, rfl, rfl⟩, rfl⟩

/-- Settles O46: as O44, and the reassembly is removed. -/
theorem rebuiltPacketEndsReassembly : Obligations.RebuiltPacketEndsReassembly := by
  intro s q ack bits n r e below v rest hh hcb hst
  rcases Nat.mod_two_eq_zero_or_one v.toNat with hv | hv
  · refine ⟨_, step_deliver_rejected hh hcb hst hv, eventEnded_restore rfl rfl rfl, ?_⟩
    rw [State.restoreEnclosing_eq]
    exact ⟨sbFind_sbRemoved _ _, fun k hk => sbRemoved_tag_ne hk, sbRemoved_n _ _, sbRemoved_s _ _, fun _ => rfl, not_odd_of_even hv⟩
  · refine ⟨_, step_deliver_accepted hh hcb hst hv, eventEnded_restore rfl rfl rfl, ?_⟩
    rw [State.restoreEnclosing_eq]
    exact ⟨sbFind_sbRemoved _ _, fun k hk => sbRemoved_tag_ne hk, sbRemoved_n _ _, sbRemoved_s _ _, fun h => by omega, fun _ =>
      ⟨receiveRecorded_of_receivesAs
        (u := State.endEvent { s with host := rest } ⟨.deliver q ack bits n (some r), e⟩ below) ⟨rfl, rfl, rfl, rfl⟩
        rfl rfl, ⟨rfl, rfl, rfl, rfl, rfl⟩, rfl⟩⟩

end Sys2Proof.Machine
end

section
/-! PROOF. What the ack walk records, by induction on the bits walked (45_endpoint.md R203). -/

namespace Sys2Proof.Machine

/-- The bits of `bits` below `n`. -/
def firstBits (bits : U32) (n : Nat) : U32 := bits &&& BitVec.ofNat 32 (2 ^ n - 1)

theorem getLsbD_firstBits (bits : U32) (n i : Nat) :
    (firstBits bits n).getLsbD i = (bits.getLsbD i && decide (i < n)) := by
  unfold firstBits
  rw [BitVec.getLsbD_and, BitVec.getLsbD_ofNat, Nat.testBit_two_pow_sub_one]
  by_cases h : i < 32
  · rw [decide_eq_true h, Bool.true_and]
  · rw [BitVec.getLsbD_of_ge _ _ (by omega), Bool.false_and, Bool.false_and]

theorem getLsbD_firstBits_iff {bits : U32} {n i : Nat} :
    (firstBits bits n).getLsbD i = true ↔ bits.getLsbD i = true ∧ i < n := by
  rw [getLsbD_firstBits, Bool.and_eq_true, decide_eq_true_iff]

theorem firstBits_zero (bits : U32) : firstBits bits 0 = 0#32 := BitVec.and_zero

theorem firstBits_32 (bits : U32) : firstBits bits 32 = bits := by
  refine BitVec.eq_of_getLsbD_eq fun i hi => ?_
  rw [getLsbD_firstBits, decide_eq_true hi, Bool.and_true]

theorem firstBits_succ_of_clear {bits : U32} {n : Nat} (h : bits.getLsbD n = false) :
    firstBits bits (n + 1) = firstBits bits n := by
  refine BitVec.eq_of_getLsbD_eq fun i hi => ?_
  rw [getLsbD_firstBits, getLsbD_firstBits]
  rcases Nat.lt_trichotomy i n with hlt | rfl | hgt
  · rw [decide_eq_true hlt, decide_eq_true (by omega)]
  · rw [h, Bool.false_and, Bool.false_and]
  · rw [decide_eq_false (by omega), decide_eq_false (by omega)]

/-- Two of the 32 sequences up to an ack differ. -/
theorem sub_ofNat_inj {ack : U16} {i j : Nat} (hi : i < 32) (hj : j < 32)
    (h : ack - BitVec.ofNat 16 i = ack - BitVec.ofNat 16 j) : i = j := by
  have h' := congrArg BitVec.toNat h
  rw [BitVec.toNat_sub, BitVec.toNat_sub, BitVec.toNat_ofNat, BitVec.toNat_ofNat] at h'
  have := ack.isLt
  omega

/-- Two sequences found in one slot are equal. -/
theorem sbFind_inj {B : SeqBuf} {p q : U16} {k : Nat} (hp : sbFind B p = some k) (hq : sbFind B q = some k) : p = q := by
  obtain ⟨-, hp⟩ := sbFind_eq_some.1 hp
  obtain ⟨-, hq⟩ := sbFind_eq_some.1 hq
  exact Option.some.inj (hp.symm.trans hq)

/-- The first `n` bits of the walk, from `s` to `t`, have recorded `marked` and counted it. -/
def State.walkedTo (s t : State) (ack : U16) (bits : U32) (n : Nat) (marked : List Nat) : Prop :=
  s.walkMarks t ack (firstBits bits n) marked ∧
    t.counters.packetsAcked = s.counters.packetsAcked + BitVec.ofNat 64 marked.length

theorem walkedTo_zero (s : State) (ack : U16) (bits : U32) : s.walkedTo s ack bits 0 [] := by
  refine ⟨⟨List.Pairwise.nil, nofun, fun i hi => ?_, rfl, fun j hj => absurd hj (Nat.not_lt_zero j), fun _ _ => rfl,
    fun k => ⟨rfl, .inl, ?_⟩, rfl⟩, (BitVec.add_zero _).symm⟩
  · obtain ⟨-, hbit, -⟩ := hi
    rw [firstBits_zero, BitVec.getLsbD_zero] at hbit
    cases hbit
  · rintro (h | ⟨i, hi, -⟩)
    · exact h
    · cases hi

theorem walkedTo_succ_of_clear {s t : State} {ack : U16} {bits : U32} {n : Nat} {marked : List Nat}
    (h : s.walkedTo t ack bits n marked) (hbit : bits.getLsbD n = false) : s.walkedTo t ack bits (n + 1) marked := by
  unfold State.walkedTo
  rwa [firstBits_succ_of_clear hbit]

theorem succ_bits {bits : U32} {n i : Nat} (h : (firstBits bits (n + 1)).getLsbD i = true) :
    i = n ∨ (firstBits bits n).getLsbD i = true := by
  obtain ⟨hbit, hi⟩ := getLsbD_firstBits_iff.1 h
  rcases Nat.lt_succ_iff_lt_or_eq.1 hi with hlt | heq
  · exact .inr (getLsbD_firstBits_iff.2 ⟨hbit, hlt⟩)
  · exact .inl heq

theorem bits_succ {bits : U32} {n i : Nat} (h : (firstBits bits n).getLsbD i = true) :
    (firstBits bits (n + 1)).getLsbD i = true := by
  obtain ⟨hbit, hi⟩ := getLsbD_firstBits_iff.1 h
  exact getLsbD_firstBits_iff.2 ⟨hbit, hi.trans n.lt_succ_self⟩

/-- A record that was not acked before the walk is not acked before its own bit. -/
theorem walkedTo_acked {s t : State} {ack : U16} {bits : U32} {n : Nat} {marked : List Nat} {k : Nat}
    (h : s.walkedTo t ack bits n marked) (hn : n < 32) (hfind : sbFind s.sent (ack - BitVec.ofNat 16 n) = some k) :
    (t.sentRecord k).acked = (s.sentRecord k).acked := by
  obtain ⟨⟨-, hfresh, -, -, -, -, hrec, -⟩, -⟩ := h
  rw [Bool.eq_iff_iff, (hrec k).2]
  refine ⟨?_, .inl⟩
  rintro (hs | ⟨i, hi, hik⟩)
  · exact hs
  · obtain ⟨hi32, hbit, -⟩ := hfresh i hi
    have := sub_ofNat_inj hi32 hn (sbFind_inj hik hfind)
    have := (getLsbD_firstBits_iff.1 hbit).2
    omega

/-- A bit whose sequence is passed over. -/
theorem walkedTo_succ_of_passed {s t : State} {ack : U16} {bits : U32} {n : Nat} {marked : List Nat}
    (h : s.walkedTo t ack bits n marked)
    (hpass : ∀ k, sbFind s.sent (ack - BitVec.ofNat 16 n) = some k → (s.sentRecord k).acked = false →
      s.cfg.ackBufferSize ≤ t.ackCount) : s.walkedTo t ack bits (n + 1) marked := by
  obtain ⟨⟨hsorted, hfresh, hfull, hrest⟩, hcount⟩ := h
  refine ⟨⟨hsorted, fun i hi => ?_, fun i hi hnot => ?_, hrest⟩, hcount⟩
  · obtain ⟨hi32, hbit, hheld⟩ := hfresh i hi
    exact ⟨hi32, bits_succ hbit, hheld⟩
  · obtain ⟨hi32, hbit, hheld⟩ := hi
    rcases succ_bits hbit with rfl | hbit
    · obtain ⟨k, hk, hacked⟩ := hheld
      refine ⟨hpass k hk hacked, fun j hj => ?_⟩
      obtain ⟨-, hjbit, -⟩ := hfresh j hj
      exact (getLsbD_firstBits_iff.1 hjbit).2
    · exact hfull i ⟨hi32, hbit, hheld⟩ hnot

/-- What recording one ack does to each field the walk writes. -/
theorem sentRecord_recordAck (t : State) (q : U16) (k j : Nat) :
    (t.recordAck q k).sentRecord j = if j = k then { t.sentRecord k with acked := true } else t.sentRecord j :=
  State.sentRecord_setSentRecord ..

theorem ackEntry_recordAck (t : State) (q : U16) (k j : Nat) :
    (t.recordAck q k).ackEntry j = if j = t.ackCount.toNat then q else t.ackEntry j := Table.get_set ..

theorem ackCount_recordAck {t : State} (h : t.ackCount < t.cfg.ackBufferSize) (q : U16) (k : Nat) :
    (t.recordAck q k).ackCount.toNat = t.ackCount.toNat + 1 := by
  have hlt : t.ackCount.toNat < t.cfg.ackBufferSize.toNat := h
  have := t.cfg.ackBufferSize.isLt
  rw [show (t.recordAck q k).ackCount = t.ackCount + 1 from rfl, BitVec.toNat_add]
  exact Nat.mod_eq_of_lt (by rw [show BitVec.toNat (1 : U32) = 1 from rfl]; omega)

/-- A bit whose sequence is recorded. -/
theorem walkedTo_succ_of_recorded {s t : State} {ack : U16} {bits : U32} {n k : Nat} {marked : List Nat}
    (h : s.walkedTo t ack bits n marked) (hn : n < 32) (hbit : bits.getLsbD n = true)
    (hkeep : t.cfg = s.cfg ∧ t.params = s.params ∧ t.time = s.time)
    (hfind : sbFind s.sent (ack - BitVec.ofNat 16 n) = some k) (hacked : (s.sentRecord k).acked = false)
    (hroom : t.ackCount < s.cfg.ackBufferSize) :
    s.walkedTo (t.recordAck (ack - BitVec.ofNat 16 n) k) ack bits (n + 1) (marked ++ [n]) := by
  obtain ⟨hcfg, hparams, htime⟩ := hkeep
  obtain ⟨⟨hsorted, hfresh, hfull, hcount, hentry, hold, hrec, hrtt⟩, hsum⟩ := h
  have hroom' : t.ackCount < t.cfg.ackBufferSize := by rw [hcfg]; exact hroom
  have hcount' := (ackCount_recordAck hroom' (ack - BitVec.ofNat 16 n) k).trans (congrArg (· + 1) hcount)
  have hbelow : ∀ i ∈ marked, i < n := fun i hi => (getLsbD_firstBits_iff.1 (hfresh i hi).2.1).2
  have hslot : k = (ack - BitVec.ofNat 16 n).toNat % s.sent.n.toNat := (sbFind_eq_some.1 hfind).1
  refine ⟨⟨?_, fun i hi => ?_, fun i hi hnot => ?_, ?_, fun j hj => ?_, fun j hj => ?_, fun j => ⟨?_, ?_⟩, ?_⟩, ?_⟩
  · refine List.pairwise_append.2 ⟨hsorted, List.pairwise_singleton _ _, fun i hi j hj => ?_⟩
    rw [List.mem_singleton.1 hj]
    exact hbelow i hi
  · rcases List.mem_append.1 hi with hi | hi
    · obtain ⟨hi32, hib, hheld⟩ := hfresh i hi
      exact ⟨hi32, bits_succ hib, hheld⟩
    · obtain rfl := List.mem_singleton.1 hi
      exact ⟨hn, getLsbD_firstBits_iff.2 ⟨hbit, i.lt_succ_self⟩, k, hfind, hacked⟩
  · obtain ⟨hi32, hib, hheld⟩ := hi
    rcases succ_bits hib with rfl | hib
    · exact absurd (List.mem_append_right _ (List.mem_singleton_self i)) hnot
    · have hsize := (hfull i ⟨hi32, hib, hheld⟩ fun hm => hnot (List.mem_append_left _ hm)).1
      exact absurd hroom (BitVec.not_lt.2 hsize)
  · rw [hcount', List.length_append, List.length_singleton, Nat.add_assoc]
  · rw [List.length_append, List.length_singleton] at hj
    rw [ackEntry_recordAck, hcount]
    rcases Nat.lt_succ_iff_lt_or_eq.1 hj with hlt | rfl
    · rw [if_neg (by omega), hentry j hlt, List.getD_append _ _ _ _ hlt]
    · rw [if_pos rfl, List.getD_append_right _ _ _ _ (Nat.le_refl _), Nat.sub_self]
      rfl
  · rw [hcount'] at hj
    rw [ackEntry_recordAck, hcount, if_neg (by omega)]
    exact hold j (by omega)
  · rw [sentRecord_recordAck]
    by_cases hjk : j = k
    · rw [if_pos hjk, hjk]
      exact congrArg (fun r : SentRecord => { r with acked := true }) (hrec k).1
    · rw [if_neg hjk]
      exact (hrec j).1
  · rw [sentRecord_recordAck]
    by_cases hjk : j = k
    · subst hjk
      rw [if_pos rfl]
      exact ⟨fun _ => .inr ⟨n, List.mem_append_right _ (List.mem_singleton_self n), hfind⟩, fun _ => rfl⟩
    · rw [if_neg hjk, (hrec j).2]
      refine or_congr_right ⟨fun ⟨i, hi, hij⟩ => ⟨i, List.mem_append_left _ hi, hij⟩, fun ⟨i, hi, hij⟩ => ?_⟩
      rcases List.mem_append.1 hi with hi | hi
      · exact ⟨i, hi, hij⟩
      · obtain rfl := List.mem_singleton.1 hi
        exact absurd (Option.some.inj (hij.symm.trans hfind)) hjk
  · have hsent : (t.sentRecord k).time = (s.sentRecord k).time := by rw [(hrec k).1]
    have hstep : (t.recordAck (ack - BitVec.ofNat 16 n) k).stats.rtt = rttNext t.params.num t.params.snapEps
      t.cfg.rttFactor t.stats.rtt (rttSample t.params.num t.time (t.sentRecord k).time) := rfl
    rw [hstep, List.foldl_append, ← hrtt, hsent, hparams, hcfg, htime, hslot]
    rfl
  · have hstep : (t.recordAck (ack - BitVec.ofNat 16 n) k).counters.packetsAcked = t.counters.packetsAcked + 1 := rfl
    rw [hstep, hsum, List.length_append, List.length_singleton, BitVec.ofNat_add, BitVec.add_assoc]
    rfl

theorem ackWalk_keeps (s : State) (ack : U16) (bits : U32) (n : Nat) :
    (s.ackWalk ack bits n).sent = s.sent ∧ (s.ackWalk ack bits n).cfg = s.cfg ∧
      (s.ackWalk ack bits n).params = s.params ∧ (s.ackWalk ack bits n).time = s.time := by
  rw [ackWalk_eq]
  exact ⟨rfl, rfl, rfl, rfl⟩

/-- The walk of the first `n` bits records what it should. -/
theorem ackWalk_walkedTo (s : State) (ack : U16) (bits : U32) {n : Nat} (hn : n ≤ 32) :
    ∃ marked, s.walkedTo (s.ackWalk ack bits n) ack bits n marked := by
  induction n with
  | zero => exact ⟨[], walkedTo_zero s ack bits⟩
  | succ n ih =>
    obtain ⟨marked, h⟩ := ih (by omega)
    obtain ⟨hsent, hcfg, hparams, htime⟩ := ackWalk_keeps s ack bits n
    cases hbit : bits.getLsbD n with
    | false =>
      rw [ackWalk_succ_of_clear hbit]
      exact ⟨marked, walkedTo_succ_of_clear h hbit⟩
    | true =>
      rw [ackWalk_succ_of_set hbit]
      rcases ackOne_cases (s.ackWalk ack bits n) (ack - BitVec.ofNat 16 n) with
        ⟨heq, hpass⟩ | ⟨k, hfind, hacked, hroom, heq⟩
      · rw [heq]
        rw [hsent, hcfg] at hpass
        exact ⟨marked, walkedTo_succ_of_passed h fun k hk hacked =>
          hpass k hk ((walkedTo_acked h (by omega) hk).trans hacked)⟩
      · rw [heq]
        rw [hsent] at hfind
        rw [hcfg] at hroom
        exact ⟨_, walkedTo_succ_of_recorded h (by omega) hbit
          ⟨hcfg, hparams, htime⟩ hfind
          ((walkedTo_acked h (by omega) hfind).symm.trans hacked) hroom⟩

/-- Settles O45: the walk of all 32 bits. -/
theorem ackWalkRecordsAcks : Obligations.AckWalkRecordsAcks := by
  intro s ack bits t
  obtain ⟨marked, hmarks, hsum⟩ := ackWalk_walkedTo s ack bits (Nat.le_refl 32)
  rw [firstBits_32] at hmarks
  refine ⟨⟨marked, hmarks⟩, ?_⟩
  obtain ⟨-, -, -, hcount, -⟩ := hmarks
  have hdiff : (t.ackCount - s.ackCount).setWidth 64 = BitVec.ofNat 64 marked.length := by
    have := (s.ackWalk ack bits 32).ackCount.isLt
    have hlen : (t.ackCount - s.ackCount).toNat = marked.length := by
      rw [BitVec.toNat_sub, show t.ackCount.toNat = s.ackCount.toNat + marked.length from hcount]
      omega
    apply BitVec.eq_of_toNat_eq
    rw [BitVec.toNat_setWidth, BitVec.toNat_ofNat, hlen]
  rw [hdiff, ← hsum]
  exact ackWalk_eq s ack bits 32

end Sys2Proof.Machine
end

section
/-! PROOF. A suspended command reads neither the operand registers nor IBUF (10_state.md R39). -/

namespace Sys2Proof.Machine

/-- The state with the operand registers and IBUF of `y`. -/
def State.operandsFrom (t y : State) : State :=
  { t with arg0 := y.arg0, arg1 := y.arg1, arg2 := y.arg2, numin := y.numin, ibuf := y.ibuf }

theorem restoreEnclosing_operandsFrom (s y : State) :
    (s.operandsFrom y).restoreEnclosing = s.restoreEnclosing.operandsFrom y := by
  cases hs : s.stack with
  | nil => rw [State.restoreEnclosing_nil hs, State.restoreEnclosing_nil (s := s.operandsFrom y) hs]
  | cons f fs =>
    rw [State.restoreEnclosing_cons hs, State.restoreEnclosing_cons (s := s.operandsFrom y) hs]
    rfl

theorem recordReceive_operandsFrom (s y : State) (q : U16) (n : Nat) :
    (s.operandsFrom y).recordReceive q n = (s.recordReceive q n).operandsFrom y := by
  cases h : sbStale s.recv q with
  | true => rw [recordReceive_of_stale h, recordReceive_of_stale (s := s.operandsFrom y) h]
  | false =>
    rw [recordReceive_of_not_stale h, recordReceive_of_not_stale (s := s.operandsFrom y) h]
    rfl

theorem ackWalk_operandsFrom (s y : State) (ack : U16) (bits : U32) (n : Nat) :
    (s.operandsFrom y).ackWalk ack bits n = (s.ackWalk ack bits n).operandsFrom y := by
  have hwalk := ackWalk_of_walkedAs (x := s) (s := s) rfl ack bits n
  rw [ackWalk_of_walkedAs (x := s.operandsFrom y) (s := s) rfl]
  generalize s.ackWalk ack bits n = w at hwalk ⊢
  rw [hwalk]
  rfl

theorem endReceive_operandsFrom (s y : State) (rebuilt : Option U16) (c : ResultCode) :
    (s.operandsFrom y).endReceive rebuilt c = (s.endReceive rebuilt c).operandsFrom y := by
  cases rebuilt with
  | none => rfl
  | some q => rfl

theorem answered_operandsFrom (s y : State) (q ack : U16) (bits : U32) (n : Nat) (rebuilt : Option U16) (a : Bool) :
    (s.operandsFrom y).answered q ack bits n rebuilt a = (s.answered q ack bits n rebuilt a).operandsFrom y := by
  cases a with
  | false => exact endReceive_operandsFrom s y rebuilt .appRejected
  | true =>
    rw [answered_true, answered_true, recordReceive_operandsFrom, ackWalk_operandsFrom, endReceive_operandsFrom]

theorem continueCommand_sendFragments_of_lt (s : State) {q : U16} {p : List Byte} {next total : Nat} {a : Bool}
    (h : next < total) :
    s.continueCommand (.sendFragments q p next total) a = s.sendFragment q [] p next total := if_pos h

theorem continueCommand_sendFragments_of_not_lt (s : State) {q : U16} {p : List Byte} {next total : Nat} {a : Bool}
    (h : ¬ next < total) :
    s.continueCommand (.sendFragments q p next total) a = (s.finishSend q).restoreEnclosing := if_neg h

/-- Where a suspended command goes on is the same for any operands and IBUF. -/
theorem continueCommand_operandsFrom (s y : State) (p : Phase) (a : Bool) :
    (s.operandsFrom y).continueCommand p a = (s.continueCommand p a).operandsFrom y := by
  cases p with
  | sendRegular q => exact restoreEnclosing_operandsFrom (s.finishSend q) y
  | sendFragments q payload next total =>
    by_cases h : next < total
    · rw [continueCommand_sendFragments_of_lt s h, continueCommand_sendFragments_of_lt (s.operandsFrom y) h]
      rfl
    · rw [continueCommand_sendFragments_of_not_lt s h, continueCommand_sendFragments_of_not_lt (s.operandsFrom y) h]
      exact restoreEnclosing_operandsFrom (s.finishSend q) y
  | deliver q ack bits n rebuilt =>
    exact (congrArg State.restoreEnclosing (answered_operandsFrom s y q ack bits n rebuilt a)).trans
      (restoreEnclosing_operandsFrom (s.answered q ack bits n rebuilt a) y)

/-- Settles O56: the frame taken off the stack is the same, and so is what it does. -/
theorem suspendedCommandsAreLatched : Obligations.SuspendedCommandsAreLatched := by
  intro s v a0 a1 a2 x m
  have h : ∀ y, resume v (s.operandsFrom y) = mapNext (State.operandsFrom · y) (resume v s) := fun y => by
    unfold resume
    rw [show (s.operandsFrom y).stack = s.stack from rfl]
    cases s.stack with
    | nil => rfl
    | cons f rest => exact congrArg Host.Outcome.next (continueCommand_operandsFrom (s.endEvent f rest) y f.phase _)
  exact h { s with arg0 := a0, arg1 := a1, arg2 := a2, numin := x, ibuf := m }

end Sys2Proof.Machine
end

section
/-! PROOF. `frag_core`, one equation per branch, and FRAG_RX (43_reassembler.md R160 to R168). -/

namespace Sys2Proof.Machine

/-! ### The rejections -/

theorem fragCore_of_short {b : List Byte} (h : fhdrDecode b = .short) (s : State) :
    fragCore b s = fragInvalid .decodeShort s := by
  unfold fragCore
  rw [h]

theorem fragCore_of_marker {b : List Byte} (h : fhdrDecode b = .marker) (s : State) :
    fragCore b s = fragInvalid .decodeMarker s := by
  unfold fragCore
  rw [h]

theorem fragCore_of_fields {b : List Byte} {h : FragmentHeader} (hd : fhdrDecode b = .fields h) (s : State) :
    fragCore b s = fragAccept b h (s.reportFragment h) := by
  unfold fragCore
  rw [hd]

theorem fragAccept_of_badCount {b : List Byte} {h : FragmentHeader} {s : State}
    (hc : s.cfg.maxFragments.toNat < h.count) : fragAccept b h s = fragInvalid .fragBadCount s := if_pos hc

theorem fragAccept_of_badId {b : List Byte} {h : FragmentHeader} {s : State}
    (hc : h.count ≤ s.cfg.maxFragments.toNat) (hid : h.count ≤ h.id) : fragAccept b h s = fragInvalid .fragBadId s :=
  (if_neg (by omega)).trans (if_pos hid)

theorem fragAccept_of_badHeader {b : List Byte} {h : FragmentHeader} {s : State} {c : ResultCode}
    (hc : h.count ≤ s.cfg.maxFragments.toNat) (hid : h.id < h.count) (he : fragEmbedded b h = .error c) :
    fragAccept b h s = fragInvalid c s := by
  unfold fragAccept
  rw [if_neg (by omega), if_neg (by omega), he]

theorem fragAccept_of_tooBig {b : List Byte} {h : FragmentHeader} {s : State} {emb : Option RegularHeader} {off : Nat}
    (hc : h.count ≤ s.cfg.maxFragments.toNat) (hid : h.id < h.count) (he : fragEmbedded b h = .ok (emb, off))
    (hlen : s.cfg.fragmentSize.toNat < b.length - off) : fragAccept b h s = fragInvalid .fragTooBig s := by
  unfold fragAccept
  rw [if_neg (by omega), if_neg (by omega), he]
  exact if_pos (by rwa [List.length_drop])

theorem fragAccept_of_badSize {b : List Byte} {h : FragmentHeader} {s : State} {emb : Option RegularHeader} {off : Nat}
    (hc : h.count ≤ s.cfg.maxFragments.toNat) (hid : h.id < h.count) (he : fragEmbedded b h = .ok (emb, off))
    (hlen : b.length - off < s.cfg.fragmentSize.toNat) (hlast : h.id ≠ h.count - 1) :
    fragAccept b h s = fragInvalid .fragBadSize s := by
  unfold fragAccept
  rw [if_neg (by omega), if_neg (by omega), he]
  exact (if_neg (by rw [List.length_drop]; omega)).trans (if_pos ⟨hlast, by rw [List.length_drop]; omega⟩)

/-! ### What a fragment carries -/

/-- The embedded header as the store takes it: of fragment 0 only. -/
def FragmentHeader.headerPart (h : FragmentHeader) (hdr : List Byte) : Option (List Byte) :=
  if h.id = 0 then some hdr else none

theorem fragEmbedded_of_carries {h : FragmentHeader} {b hdr : List Byte} {off : Nat} (hc : h.carries b hdr off) :
    ∃ emb, fragEmbedded b h = .ok (emb, off) ∧ fragHeaderBytes h emb = h.headerPart hdr := by
  rcases hc with ⟨hid, rfl, rfl⟩ | ⟨hid, e, he, hseq, rfl, rfl⟩
  · exact ⟨none, if_neg (by omega), (if_neg (by omega)).symm⟩
  · refine ⟨some e, ?_, (if_pos hid).symm⟩
    unfold fragEmbedded
    rw [if_pos hid, he]
    exact if_neg (not_not.2 hseq)

theorem carries_header {h : FragmentHeader} {b hdr : List Byte} {off : Nat} (hc : h.carries b hdr off) :
    hdr.length ≤ 9 ∧ (h.id ≠ 0 → hdr = []) := by
  rcases hc with ⟨hid, rfl, rfl⟩ | ⟨hid, e, -, -, rfl, -⟩
  · exact ⟨Nat.zero_le 9, fun _ => rfl⟩
  · exact ⟨(length_hdrEncode_bounds _ _ _).2, fun h0 => absurd hid h0⟩

theorem fragEmbedded_of_not_fields {h : FragmentHeader} {b : List Byte} (hid : h.id = 0)
    (hd : ∀ e, hdrDecode (b.drop 5) ≠ .fields e) : fragEmbedded b h = .error .fragBadHeader := by
  unfold fragEmbedded
  rw [if_pos hid]
  cases he : hdrDecode (b.drop 5) with
  | short => rfl
  | marker => rfl
  | fields e => exact absurd he (hd e)

theorem fragEmbedded_of_ne {h : FragmentHeader} {b : List Byte} {e : RegularHeader} (hid : h.id = 0)
    (hd : hdrDecode (b.drop 5) = .fields e) (hseq : e.seq ≠ h.seq) : fragEmbedded b h = .error .fragSeqMismatch := by
  unfold fragEmbedded
  rw [if_pos hid, hd]
  exact if_pos hseq

/-- Fragment `b` of header `h` passes every check before the lookup: `hdr` and the bytes from `off` on are to be stored. -/
def State.fits (s : State) (h : FragmentHeader) (b hdr : List Byte) (off : Nat) : Prop :=
  h.count ≤ s.cfg.maxFragments.toNat ∧ h.id < h.count ∧ h.carries b hdr off ∧
    b.length - off ≤ s.cfg.fragmentSize.toNat ∧ (h.id = h.count - 1 ∨ b.length - off = s.cfg.fragmentSize.toNat)

/-! ### The lookup -/

theorem fragAccept_of_fits_error {s : State} {h : FragmentHeader} {b hdr : List Byte} {off : Nat} {c : ResultCode}
    (hf : s.fits h b hdr off) (hs : fragSlot h s = .error c) : fragAccept b h s = fragInvalid c s := by
  obtain ⟨hc, hid, hcarries, hlen, hlast⟩ := hf
  obtain ⟨emb, he, -⟩ := fragEmbedded_of_carries hcarries
  unfold fragAccept
  rw [if_neg (by omega), if_neg (by omega), he]
  simp only [List.length_drop, hs]
  rw [if_neg (by omega), if_neg (by omega)]

theorem fragAccept_of_fits_ok {s u : State} {h : FragmentHeader} {b hdr : List Byte} {off k : Nat}
    (hf : s.fits h b hdr off) (hs : fragSlot h s = .ok (k, u)) :
    ∃ emb, fragHeaderBytes h emb = h.headerPart hdr ∧ fragAccept b h s = fragStore h emb (b.drop off) k u := by
  obtain ⟨hc, hid, hcarries, hlen, hlast⟩ := hf
  obtain ⟨emb, he, hhdr⟩ := fragEmbedded_of_carries hcarries
  refine ⟨emb, hhdr, ?_⟩
  unfold fragAccept
  rw [if_neg (by omega), if_neg (by omega), he]
  simp only [List.length_drop, hs]
  rw [if_neg (by omega), if_neg (by omega)]

theorem fragCore_of_fits_error {s : State} {h : FragmentHeader} {b hdr : List Byte} {off : Nat} {c : ResultCode}
    (hd : fhdrDecode b = .fields h) (hf : s.fits h b hdr off) (hs : fragSlot h (s.reportFragment h) = .error c) :
    fragCore b s = fragInvalid c (s.reportFragment h) :=
  (fragCore_of_fields hd s).trans (fragAccept_of_fits_error (s := s.reportFragment h) hf hs)

theorem fragCore_of_fits_ok {s u : State} {h : FragmentHeader} {b hdr : List Byte} {off k : Nat}
    (hd : fhdrDecode b = .fields h) (hf : s.fits h b hdr off) (hs : fragSlot h (s.reportFragment h) = .ok (k, u)) :
    ∃ emb, fragHeaderBytes h emb = h.headerPart hdr ∧ fragCore b s = fragStore h emb (b.drop off) k u := by
  rw [fragCore_of_fields hd]
  exact fragAccept_of_fits_ok (s := s.reportFragment h) hf hs

theorem fragSlot_of_held {h : FragmentHeader} {s : State} {k : Nat} (hfind : sbFind s.frag h.seq = some k)
    (ht : (s.fragEntry k).numTotal.toNat = h.count) : fragSlot h s = .ok (k, s) := by
  unfold fragSlot
  rw [hfind]
  exact if_neg (not_not.2 ht)

theorem fragSlot_of_mismatch {h : FragmentHeader} {s : State} {k : Nat} (hfind : sbFind s.frag h.seq = some k)
    (ht : (s.fragEntry k).numTotal.toNat ≠ h.count) : fragSlot h s = .error .fragCountMismatch := by
  unfold fragSlot
  rw [hfind]
  exact if_pos ht

theorem fragSlot_of_stale {h : FragmentHeader} {s : State} (hfind : sbFind s.frag h.seq = none)
    (hst : sbStale s.frag h.seq = true) : fragSlot h s = .error .fragStale := by
  unfold fragSlot
  rw [hfind, sbInsert_of_stale hst]

/-- The entry of a new packet, in the slot the insert tags, with a zeroed REASM. -/
def State.opened (s : State) (h : FragmentHeader) (B : SeqBuf) (k : Nat) : State :=
  State.setFragEntry { s with frag := B } k (FragEntry.fresh h) []

theorem fragSlot_of_new {h : FragmentHeader} {s : State} {B : SeqBuf} {k : Nat} (hfind : sbFind s.frag h.seq = none)
    (hi : sbInsert s.frag h.seq = some (B, k)) : fragSlot h s = .ok (k, s.opened h B k) := by
  unfold fragSlot
  rw [hfind, hi]
  rfl

theorem fragEntry_opened (s : State) (h : FragmentHeader) (B : SeqBuf) (k j : Nat) :
    (s.opened h B k).fragEntry j = if j = k then FragEntry.fresh h else s.fragEntry j :=
  State.fragEntry_setFragEntry ..

theorem reasmSpace_opened (s : State) (h : FragmentHeader) (B : SeqBuf) (k j : Nat) :
    (s.opened h B k).reasmSpace j = if j = k then [] else s.reasmSpace j :=
  State.reasmSpace_setFragEntry ..

/-! ### The store -/

/-- The entry with one more fragment. -/
def FragEntry.withFragment (e : FragEntry) (h : FragmentHeader) (hdr : List Byte) (fs len : Nat) : FragEntry :=
  { e with
    received := e.received ||| (1#256 <<< h.id)
    numReceived := e.numReceived + 1
    headerBytes := if h.id = 0 then BitVec.ofNat 8 hdr.length else e.headerBytes
    packetBytes := if h.id = h.count - 1 then BitVec.ofNat 32 ((h.count - 1) * fs + len) else e.packetBytes }

/-- The bytes with one more fragment. -/
def withFragmentBytes (m : Memory) (h : FragmentHeader) (hdr : List Byte) (fs : Nat) (payload : List Byte) : Memory :=
  writeBytes (writeBytes m (9 - hdr.length) hdr) (9 + h.id * fs) payload

/-- The state with one more fragment in slot `k`. -/
def State.withFragment (s : State) (h : FragmentHeader) (hdr payload : List Byte) (k : Nat) : State :=
  (s.count .fragmentsReceived).setFragEntry k
    ((s.fragEntry k).withFragment h hdr s.cfg.fragmentSize.toNat payload.length)
    (withFragmentBytes (s.reasmSpace k) h hdr s.cfg.fragmentSize.toNat payload)

theorem fragEntry_withFragment (s : State) (h : FragmentHeader) (hdr payload : List Byte) (k j : Nat) :
    (s.withFragment h hdr payload k).fragEntry j =
      if j = k then (s.fragEntry k).withFragment h hdr s.cfg.fragmentSize.toNat payload.length else s.fragEntry j :=
  State.fragEntry_setFragEntry ..

theorem reasmSpace_withFragment (s : State) (h : FragmentHeader) (hdr payload : List Byte) (k j : Nat) :
    (s.withFragment h hdr payload k).reasmSpace j =
      if j = k then withFragmentBytes (s.reasmSpace k) h hdr s.cfg.fragmentSize.toNat payload else s.reasmSpace j :=
  State.reasmSpace_setFragEntry ..

theorem store_eq_withFragment {h : FragmentHeader} {hdr : List Byte} (e : FragEntry) (fs len : Nat) :
    e.store h ((h.headerPart hdr).map List.length) fs len = e.withFragment h hdr fs len := by
  unfold FragEntry.store FragEntry.withFragment FragmentHeader.headerPart
  by_cases h0 : h.id = 0
  · simp only [if_pos h0, Option.map_some]
  · simp only [if_neg h0, Option.map_none]

theorem fragData_eq_withFragmentBytes {h : FragmentHeader} {hdr : List Byte} (hnil : h.id ≠ 0 → hdr = []) (m : Memory)
    (fs : Nat) (payload : List Byte) :
    fragData m h (h.headerPart hdr) fs payload = withFragmentBytes m h hdr fs payload := by
  unfold fragData withFragmentBytes FragmentHeader.headerPart
  by_cases h0 : h.id = 0
  · rw [if_pos h0]
  · rw [if_neg h0, hnil h0]
    rfl

/-- What the store of a new fragment does and answers. -/
theorem fragStore_of_new {s : State} {h : FragmentHeader} {emb : Option RegularHeader} {hdr payload : List Byte} {k : Nat}
    (hhdr : fragHeaderBytes h emb = h.headerPart hdr) (hnil : h.id ≠ 0 → hdr = [])
    (hbit : (s.fragEntry k).received.getLsbD h.id = false) :
    fragStore h emb payload k s =
      (if (s.fragEntry k).numReceived + 1 = (s.fragEntry k).numTotal then
        .complete h.seq (rebuiltPacket ((s.withFragment h hdr payload k).fragEntry k)
          ((s.withFragment h hdr payload k).reasmSpace k))
      else .ended .fragStored, s.withFragment h hdr payload k) := by
  unfold fragStore
  rw [if_neg (by rw [hbit]; exact Bool.false_ne_true), hhdr]
  simp only [store_eq_withFragment, fragData_eq_withFragmentBytes hnil]
  rw [fragEntry_withFragment, if_pos rfl, reasmSpace_withFragment, if_pos rfl]
  by_cases hfull : (s.fragEntry k).numReceived + 1 = (s.fragEntry k).numTotal
  · rw [if_pos hfull]
    exact if_pos hfull
  · rw [if_neg hfull]
    exact if_neg hfull

theorem fragStore_of_duplicate {s : State} {h : FragmentHeader} {k : Nat}
    (hbit : (s.fragEntry k).received.getLsbD h.id = true) (emb : Option RegularHeader) (payload : List Byte) :
    fragStore h emb payload k s = (.ended .fragDuplicate, s) := if_pos hbit

/-! ### The bytes of a stored fragment -/

section Bytes

variable (m : Memory) (h : FragmentHeader) {hdr : List Byte} (hlen : hdr.length ≤ 9) (fs : Nat) (payload : List Byte)

include hlen

theorem readByte_withFragment_header {p : Nat} (hp : p < hdr.length) :
    readByte (withFragmentBytes m h hdr fs payload) (9 - hdr.length + p) = hdr.getD p 0 := by
  unfold withFragmentBytes
  rw [readByte_writeBytes, if_neg (by omega), readByte_writeBytes, if_pos (by omega), Nat.add_sub_cancel_left]

theorem readByte_withFragment_other {a : Nat} (h1 : a < 9 - hdr.length ∨ 9 ≤ a)
    (h2 : a < 9 + h.id * fs ∨ 9 + h.id * fs + payload.length ≤ a) :
    readByte (withFragmentBytes m h hdr fs payload) a = readByte m a := by
  unfold withFragmentBytes
  rw [readByte_writeBytes, if_neg (by omega), readByte_writeBytes, if_neg (by omega)]

omit hlen in
theorem readByte_withFragment_payload {p : Nat} (hp : p < payload.length) :
    readByte (withFragmentBytes m h hdr fs payload) (9 + h.id * fs + p) = payload.getD p 0 := by
  unfold withFragmentBytes
  rw [readByte_writeBytes, if_pos (by omega), Nat.add_sub_cancel_left]

end Bytes

theorem getD_drop (b : List Byte) (off p : Nat) : (b.drop off).getD p 0 = b.getD (off + p) 0 := by
  rw [List.getD_eq_getElem?_getD, List.getD_eq_getElem?_getD, List.getElem?_drop]

/-! ### FRAG_RX -/

theorem runFragRx_of_ended {s u : State} {b : List Byte} {c : ResultCode} (h : fragCore b s = (.ended c, u)) :
    runFragRx b s = u.finish c := by
  unfold runFragRx
  rw [h]

theorem exec_fragRx_of_ended {s u : State} {c : ResultCode} (hc : s.configured = true)
    (hlen : s.arg2.toNat ≤ s.params.ibufBytes)
    (h : fragCore (readBytes s.ibuf 0 s.arg2.toNat) s = (.ended c, u)) : exec .fragRx s = .next (u.finish c) :=
  (exec_fragRx_of_le hc hlen).trans (congrArg _ (runFragRx_of_ended h))

/-- Settles O25: each check in turn. -/
theorem fragmentRejections : Obligations.FragmentRejections := by
  intro s b bad
  refine ⟨fun c u hc hlen hb h => exec_fragRx_of_ended hc hlen (hb ▸ h), fun h => fragCore_of_short h s,
    fun h => fragCore_of_marker h s, ?_⟩
  intro h hd seen
  have hcore : fragCore b s = fragAccept b h seen := fragCore_of_fields hd s
  refine ⟨fun hc => hcore.trans (fragAccept_of_badCount hc), fun hc hid => hcore.trans (fragAccept_of_badId hc hid),
    fun hc hid => ⟨fun he => ?_, fun e he hne => ?_⟩, fun hdr off hc hid hcarries => ⟨fun hlen => ?_, fun hlen hlast => ?_,
      fun hlen hlast => ⟨fun hfind hst => ?_, fun k hfind => ⟨fun ht => ?_, fun ht hbit => ?_⟩⟩⟩⟩
  · have := FragmentHeader.bounds hd
    exact hcore.trans (fragAccept_of_badHeader hc (by omega) (fragEmbedded_of_not_fields hid he))
  · have := FragmentHeader.bounds hd
    exact hcore.trans (fragAccept_of_badHeader hc (by omega) (fragEmbedded_of_ne hid he hne))
  · obtain ⟨emb, hemb, -⟩ := fragEmbedded_of_carries hcarries
    exact hcore.trans (fragAccept_of_tooBig hc hid hemb hlen)
  · obtain ⟨emb, hemb, -⟩ := fragEmbedded_of_carries hcarries
    exact hcore.trans (fragAccept_of_badSize hc hid hemb hlen hlast)
  · exact fragCore_of_fits_error hd ⟨hc, hid, hcarries, hlen, hlast⟩ (fragSlot_of_stale hfind hst)
  · exact fragCore_of_fits_error hd ⟨hc, hid, hcarries, hlen, hlast⟩ (fragSlot_of_mismatch hfind ht)
  · obtain ⟨emb, -, hstore⟩ := fragCore_of_fits_ok hd ⟨hc, hid, hcarries, hlen, hlast⟩
      (fragSlot_of_held (s := s.reportFragment h) hfind ht)
    exact hstore.trans (fragStore_of_duplicate (s := s.reportFragment h) hbit _ _)

end Sys2Proof.Machine
end

section
/-! PROOF. What FRAG_RX stores and rebuilds (43_reassembler.md R164 to R168). -/

namespace Sys2Proof.Machine

/-- A fragment that passes every check is stored in its slot, or completes its packet there. -/
theorem fragCore_stores {s u : State} {h : FragmentHeader} {b hdr : List Byte} {off k : Nat}
    (hd : fhdrDecode b = .fields h) (hf : s.fits h b hdr off) (hs : fragSlot h (s.reportFragment h) = .ok (k, u))
    (hbit : (u.fragEntry k).received.getLsbD h.id = false) :
    fragCore b s =
      (if (u.fragEntry k).numReceived + 1 = (u.fragEntry k).numTotal then
        .complete h.seq (rebuiltPacket ((u.withFragment h hdr (b.drop off) k).fragEntry k)
          ((u.withFragment h hdr (b.drop off) k).reasmSpace k))
      else .ended .fragStored, u.withFragment h hdr (b.drop off) k) := by
  obtain ⟨emb, hhdr, hcore⟩ := fragCore_of_fits_ok hd hf hs
  exact hcore.trans (fragStore_of_new hhdr (carries_header hf.2.2.1).2 hbit)

theorem fresh_received (h : FragmentHeader) (i : Nat) : (FragEntry.fresh h).received.getLsbD i = false :=
  BitVec.getLsbD_zero

/-- Where the bytes of a stored fragment are. -/
theorem withFragment_bytes (u : State) (h : FragmentHeader) {hdr : List Byte} (hlen : hdr.length ≤ 9) (b : List Byte)
    (off k : Nat) :
    let m := (u.withFragment h hdr (b.drop off) k).reasmSpace k
    let fs := u.cfg.fragmentSize.toNat
    (∀ p, p < hdr.length → readByte m (9 - hdr.length + p) = hdr.getD p 0) ∧
    (∀ p, p < b.length - off → readByte m (9 + h.id * fs + p) = b.getD (off + p) 0) ∧
    ∀ a, a < 9 - hdr.length ∨ 9 ≤ a → a < 9 + h.id * fs ∨ 9 + h.id * fs + (b.length - off) ≤ a →
      readByte m a = readByte (u.reasmSpace k) a := by
  simp only [reasmSpace_withFragment, if_true]
  refine ⟨fun p hp => readByte_withFragment_header _ _ hlen _ _ hp, fun p hp => ?_, fun a h1 h2 => ?_⟩
  · rw [readByte_withFragment_payload _ _ _ _ (by rwa [List.length_drop]), getD_drop]
  · exact readByte_withFragment_other _ _ hlen _ _ h1 (by rwa [List.length_drop])

theorem withFragment_other (u : State) (h : FragmentHeader) (hdr payload : List Byte) {k j : Nat} (hj : j ≠ k) :
    (u.withFragment h hdr payload k).fragEntry j = u.fragEntry j ∧
      (u.withFragment h hdr payload k).reasmSpace j = u.reasmSpace j := by
  rw [fragEntry_withFragment, if_neg hj, reasmSpace_withFragment, if_neg hj]
  exact ⟨rfl, rfl⟩

theorem opened_other (s : State) (h : FragmentHeader) (B : SeqBuf) {k j : Nat} (hj : j ≠ k) :
    (s.opened h B k).fragEntry j = s.fragEntry j ∧ (s.opened h B k).reasmSpace j = s.reasmSpace j := by
  rw [fragEntry_opened, if_neg hj, reasmSpace_opened, if_neg hj]
  exact ⟨rfl, rfl⟩

/-! ### Storing -/

/-- A packet of at least two fragments is not complete with its first. -/
theorem fresh_not_full {h : FragmentHeader} (h2 : 2 ≤ h.count) (hmax : h.count ≤ 256) :
    (FragEntry.fresh h).numReceived + 1 ≠ (FragEntry.fresh h).numTotal := by
  intro heq
  have heq : (1 : Nat) = h.count % 2 ^ 16 := (congrArg BitVec.toNat heq).trans (BitVec.toNat_ofNat _ _)
  omega

theorem withFragment_fresh {h : FragmentHeader} {hdr : List Byte} (hnil : h.id ≠ 0 → hdr = []) (fs len : Nat) :
    (FragEntry.fresh h).withFragment h hdr fs len = ⟨h.seq, BitVec.ofNat 16 h.count, 1, 1#256 <<< h.id,
      BitVec.ofNat 8 hdr.length, if h.id = h.count - 1 then BitVec.ofNat 32 ((h.count - 1) * fs + len) else 0⟩ := by
  have hbits : (FragEntry.fresh h).received ||| (1#256 <<< h.id) = 1#256 <<< h.id := BitVec.zero_or
  have hlen : (if h.id = 0 then BitVec.ofNat 8 hdr.length else (FragEntry.fresh h).headerBytes) =
      BitVec.ofNat 8 hdr.length := by
    by_cases h0 : h.id = 0
    · exact if_pos h0
    · rw [if_neg h0, hnil h0]
      rfl
  unfold FragEntry.withFragment
  rw [hbits, hlen]
  rfl

/-- Settles O26: the entry is opened, then the fragment stored in it. -/
theorem fragRxOpensReassembly : Obligations.FragRxOpensReassembly := by
  intro s h hdr off b fs k hc hlen hd hcount hid h2 hcarries hsize hlast hfind hst
  have hi : sbInsert s.frag h.seq = some ((sbAdvance s.frag h.seq).setTag k (some h.seq), k) :=
    sbInsert_of_not_stale hst
  generalize (sbAdvance s.frag h.seq).setTag k (some h.seq) = B at hi
  have hs : fragSlot h (s.reportFragment h) = .ok (k, (s.reportFragment h).opened h B k) := fragSlot_of_new hfind hi
  have hentry : ((s.reportFragment h).opened h B k).fragEntry k = FragEntry.fresh h :=
    (fragEntry_opened ..).trans (if_pos rfl)
  have hspace : ((s.reportFragment h).opened h B k).reasmSpace k = [] := (reasmSpace_opened ..).trans (if_pos rfl)
  obtain ⟨h9, hnil⟩ := carries_header hcarries
  have hcore := fragCore_stores hd ⟨hcount, hid, hcarries, hsize, hlast⟩ hs
    ((congrArg (fun e => e.received.getLsbD h.id) hentry).trans (fresh_received h h.id))
  rw [hentry, if_neg (fresh_not_full h2 (FragmentHeader.bounds hd).2.1)] at hcore
  obtain ⟨hbh, hbp, hbo⟩ := withFragment_bytes ((s.reportFragment h).opened h B k) h h9 b off k
  refine ⟨_, exec_fragRx_of_ended hc hlen hcore, hi, ?_, hbh, hbp, fun a h1 h2 => ?_, fun j hj => ?_, rfl⟩
  · refine ((fragEntry_withFragment ..).trans (if_pos rfl)).trans ?_
    rw [hentry, withFragment_fresh hnil, List.length_drop]
    rfl
  · refine (hbo a h1 h2).trans ?_
    rw [hspace]
    exact readByte_nil a
  · have hother := withFragment_other ((s.reportFragment h).opened h B k) h hdr (b.drop off) hj
    have hopened := opened_other (s.reportFragment h) h B hj
    exact ⟨hother.1.trans hopened.1, hother.2.trans hopened.2⟩

/-- Settles O27: the fragment is stored in the held entry. -/
theorem fragRxStoresFragment : Obligations.FragRxStoresFragment := by
  intro s h hdr off k b fs hc hlen hd hcount hid hcarries hsize hlast hfind ht hbit hfull
  have hs : fragSlot h (s.reportFragment h) = .ok (k, s.reportFragment h) := fragSlot_of_held hfind ht
  obtain ⟨h9, hnil⟩ := carries_header hcarries
  have hcore := fragCore_stores hd ⟨hcount, hid, hcarries, hsize, hlast⟩ hs hbit
  rw [if_neg (show ¬ ((s.reportFragment h).fragEntry k).numReceived + 1 =
    ((s.reportFragment h).fragEntry k).numTotal from hfull)] at hcore
  obtain ⟨hbh, hbp, hbo⟩ := withFragment_bytes (s.reportFragment h) h h9 b off k
  have hentry : ((s.reportFragment h).withFragment h hdr (b.drop off) k).fragEntry k =
      (s.fragEntry k).withFragment h hdr fs (b.drop off).length := (fragEntry_withFragment ..).trans (if_pos rfl)
  have hid256 : h.id < 256 := by
    have := (FragmentHeader.bounds hd).2.2
    omega
  rw [List.length_drop] at hentry
  have hfields : ∀ t : FragEntry, t = (s.fragEntry k).withFragment h hdr fs (b.length - off) →
      t.numReceived = (s.fragEntry k).numReceived + 1 ∧
      (∀ i, i < 256 → (t.received.getLsbD i = true ↔ i = h.id ∨ (s.fragEntry k).received.getLsbD i = true)) ∧
      (h.id = h.count - 1 → t.packetBytes = BitVec.ofNat 32 ((h.count - 1) * fs + (b.length - off))) ∧
      (h.id ≠ h.count - 1 → t.packetBytes = (s.fragEntry k).packetBytes) ∧
      (h.id = 0 → t.headerBytes = BitVec.ofNat 8 hdr.length) ∧
      (h.id ≠ 0 → t.headerBytes = (s.fragEntry k).headerBytes) ∧
      t.sequence = (s.fragEntry k).sequence ∧ t.numTotal = (s.fragEntry k).numTotal := by
    rintro t rfl
    refine ⟨rfl, fun i _ => ?_, fun h => if_pos h, fun h => if_neg h, fun h => if_pos h, fun h => if_neg h, rfl, rfl⟩
    rw [show ((s.fragEntry k).withFragment h hdr fs (b.length - off)).received =
      (s.fragEntry k).received ||| (1#256 <<< h.id) from rfl, getLsbD_received _ hid256, Bool.or_eq_true,
      decide_eq_true_iff, or_comm]
  obtain ⟨f1, f2, f3, f4, f5, f6, f7, f8⟩ := hfields _ hentry
  exact ⟨_, exec_fragRx_of_ended hc hlen hcore, f1, f2, f3, f4, f5, f6, f7, f8, hbh, hbp, hbo,
    fun j hj => withFragment_other (s.reportFragment h) h hdr (b.drop off) hj, rfl⟩

/-! ### Completing -/

/-- The slot of a fragment, held or new: what the entry and the bytes are before the store. -/
theorem fragSlot_of_either {s : State} {h : FragmentHeader} {k : Nat} {e₀ : FragEntry} {m₀ : Memory}
    (hslot : (sbFind s.frag h.seq = some k ∧ (s.fragEntry k).numTotal.toNat = h.count ∧
        (s.fragEntry k).received.getLsbD h.id = false ∧ e₀ = s.fragEntry k ∧ m₀ = s.reasmSpace k) ∨
      (sbFind s.frag h.seq = none ∧ (∃ B, sbInsert s.frag h.seq = some (B, k)) ∧
        e₀ = ⟨h.seq, BitVec.ofNat 16 h.count, 0, 0, 0, 0⟩ ∧ m₀ = [])) :
    ∃ u, fragSlot h (s.reportFragment h) = .ok (k, u) ∧ u.fragEntry k = e₀ ∧ u.reasmSpace k = m₀ ∧
      e₀.received.getLsbD h.id = false ∧ u.cfg = s.cfg := by
  rcases hslot with ⟨hfind, ht, hbit, rfl, rfl⟩ | ⟨hfind, ⟨B, hi⟩, rfl, rfl⟩
  · exact ⟨_, fragSlot_of_held (s := s.reportFragment h) hfind ht, rfl, rfl, hbit, rfl⟩
  · exact ⟨_, fragSlot_of_new (s := s.reportFragment h) hfind hi, (fragEntry_opened ..).trans (if_pos rfl),
      (reasmSpace_opened ..).trans (if_pos rfl), fresh_received h h.id, rfl⟩

/-- What is known of a state in which `frag_core` completes a packet. -/
def State.completes (s u : State) (b : List Byte) (q : U16) : Prop :=
  ∃ (h : FragmentHeader) (k : Nat) (v : State) (e : FragEntry) (m : Memory), fhdrDecode b = .fields h ∧ q = h.seq ∧
    fragSlot h (s.reportFragment h) = .ok (k, v) ∧ u = (v.count .fragmentsReceived).setFragEntry k e m

theorem completes_of_fragStore {s v u : State} {b pkt : List Byte} {q : U16} {h : FragmentHeader} {k : Nat}
    {emb : Option RegularHeader} {payload : List Byte} (hd : fhdrDecode b = .fields h)
    (hs : fragSlot h (s.reportFragment h) = .ok (k, v)) (he : fragStore h emb payload k v = (.complete q pkt, u)) :
    s.completes u b q := by
  unfold fragStore at he
  split at he
  · cases he
  · simp only at he
    split at he
    · cases he
      exact ⟨h, k, v, _, _, hd, rfl, hs, rfl⟩
    · cases he

theorem completes_of_fragCore {s u : State} {b pkt : List Byte} {q : U16} (he : fragCore b s = (.complete q pkt, u)) :
    s.completes u b q := by
  cases hd : fhdrDecode b with
  | short => rw [fragCore_of_short hd] at he; cases he
  | marker => rw [fragCore_of_marker hd] at he; cases he
  | fields h =>
    rw [fragCore_of_fields hd] at he
    unfold fragAccept at he
    split at he
    · cases he
    split at he
    · cases he
    split at he
    · cases he
    · simp only at he
      split at he
      · cases he
      split at he
      · cases he
      split at he
      · cases he
      · next hs => exact completes_of_fragStore hd hs he

theorem runFragRx_of_complete {s u : State} {b pkt : List Byte} {q : U16} (h : fragCore b s = (.complete q pkt, u)) :
    runFragRx b s =
      ({ u.writeObuf pkt with res3 := BitVec.ofNat 32 pkt.length }.dropReassembly q).finish .fragComplete := by
  unfold runFragRx
  rw [h]

/-- A fragment is stored in its packet's own slot, held or newly opened. -/
theorem fragSlot_cases {h : FragmentHeader} {s v : State} {k : Nat} (hs : fragSlot h s = .ok (k, v)) :
    k = s.frag.slot h.seq ∧ ((sbFind s.frag h.seq ≠ none ∧ v = s) ∨
      (sbFind s.frag h.seq = none ∧ ∃ B, sbInsert s.frag h.seq = some (B, k) ∧ v = s.opened h B k)) := by
  unfold fragSlot at hs
  split at hs
  · next k' hk =>
    split at hs
    · cases hs
    · cases hs
      exact ⟨(sbFind_eq_some.1 hk).1, .inl ⟨by rw [hk]; exact Option.some_ne_none _, rfl⟩⟩
  · next hnone =>
    split at hs
    · cases hs
    · next B k' hi =>
      cases hs
      exact ⟨(sbInsert_eq_some hi).2.1, .inr ⟨hnone, B, hi, rfl⟩⟩

/-- The removal of a sequence just inserted empties its slot and leaves the rest as the insert did. -/
theorem sbRemoved_of_sbInsert {F B : SeqBuf} {q : U16} {k : Nat} (hi : sbInsert F q = some (B, k)) :
    (sbRemoved B q).n = B.n ∧ (sbRemoved B q).s = B.s ∧ ∀ j, j ≠ k → (sbRemoved B q).tag j = B.tag j := by
  obtain ⟨-, hk, hn, -⟩ := sbInsert_eq_some hi
  refine ⟨sbRemoved_n B q, sbRemoved_s B q, fun j hj => sbRemoved_tag_ne ?_⟩
  have hslot : B.slot q = k := by
    unfold SeqBuf.slot
    rw [hn, hk]
    rfl
  rwa [hslot]

/-- Settles O28: the completing fragment, and the end of its reassembly. -/
theorem fragRxCompletesPacket : Obligations.FragRxCompletesPacket := by
  constructor
  · intro s h b hdr off k e₀ m₀ fs hd hcount hid hcarries hsize hlast hslot hfull
    obtain ⟨v, hs, hentry, hspace, hbit, hcfg⟩ := fragSlot_of_either hslot
    obtain ⟨h9, hnil⟩ := carries_header hcarries
    have hcore := fragCore_stores hd ⟨hcount, hid, hcarries, hsize, hlast⟩ hs (by rw [hentry]; exact hbit)
    rw [hentry, if_pos hfull] at hcore
    obtain ⟨hbh, hbp, hbo⟩ := withFragment_bytes v h h9 b off k
    rw [hcfg] at hbp hbo
    rw [hspace] at hbo
    have hstored : (v.withFragment h hdr (b.drop off) k).fragEntry k = e₀.withFragment h hdr fs (b.length - off) := by
      rw [fragEntry_withFragment, if_pos rfl, hentry, hcfg, List.length_drop]
    exact ⟨_, hcore, congrArg FragEntry.headerBytes hstored, congrArg FragEntry.packetBytes hstored, hbh, hbp, hbo⟩
  · intro s u q pkt hc hlen hcore
    obtain ⟨h, k, v, e, m, hd, rfl, hs, rfl⟩ := completes_of_fragCore hcore
    have hexec := (exec_fragRx_of_le hc hlen).trans (congrArg _ (runFragRx_of_complete hcore))
    obtain ⟨hk, hcases⟩ := fragSlot_cases hs
    have hother : ∀ (t : State), t.fragEntries = Table.set FragEntry.zero v.fragEntries k e →
        t.reasm = Table.set ([] : Memory) v.reasm k m → ∀ j, j ≠ k →
        t.fragEntry j = v.fragEntry j ∧ t.reasmSpace j = v.reasmSpace j := fun t he hm j hj => by
      unfold State.fragEntry State.reasmSpace
      rw [he, hm]
      exact ⟨Table.get_set_ne _ _ _ hj, Table.get_set_ne _ _ _ hj⟩
    refine ⟨_, h, hexec, readBytes_writeBytes _ _ _, fun p hp => ?_, hd, rfl, sbFind_sbRemoved _ _, ?_⟩
    · refine (readByte_writeBytes_past hp).trans ?_
      rcases hcases with ⟨-, rfl⟩ | ⟨-, B, -, rfl⟩
      · rfl
      · rfl
    rcases hcases with ⟨hheld, rfl⟩ | ⟨hnone, B, hi, rfl⟩
    · refine ⟨fun _ => ⟨sbRemoved_n _ _, sbRemoved_s _ _, fun j hj => sbRemoved_tag_ne hj⟩,
        fun h' => absurd h' hheld, fun j hj => hother _ rfl rfl j (by rw [hk]; exact hj), rfl⟩
    · have hk' : k = h.seq.toNat % s.frag.n.toNat := hk
      have hi' : sbInsert s.frag h.seq = some (B, h.seq.toNat % s.frag.n.toNat) := hk' ▸ hi
      obtain ⟨hn, hs', htag⟩ := sbRemoved_of_sbInsert hi'
      refine ⟨fun h' => absurd hnone h', fun _ => ⟨B, hi', hn, hs', htag⟩, fun j hj => ?_, rfl⟩
      rw [← hk'] at hj
      obtain ⟨hentry, hspace⟩ := opened_other (s.reportFragment h) h B hj
      rw [← show (s.reportFragment h).fragEntry j = s.fragEntry j from rfl,
        ← show (s.reportFragment h).reasmSpace j = s.reasmSpace j from rfl, ← hentry, ← hspace]
      exact hother _ rfl rfl j hj

end Sys2Proof.Machine
end

section
/-! PROOF. The fragments of one packet rebuild it in any order (43_reassembler.md R169). -/

namespace Sys2Proof.Machine

/-! ### The fragments of a packet -/

theorem le_ceilDiv_mul {p q : Nat} (hq : 1 ≤ q) : p ≤ ceilDiv p q * q := (ceilDiv_le_iff hq).1 (Nat.le_refl _)

/-- Every fragment but the last is whole, and the last is what is left. -/
theorem fragmentPart_length {fs j : Nat} {p : List Byte} (hfs : 1 ≤ fs) (hj : j < ceilDiv p.length fs) :
    j * fs < p.length ∧ (fragmentPart fs p j).length = min fs (p.length - j * fs) ∧
      (j ≠ ceilDiv p.length fs - 1 → (j + 1) * fs ≤ p.length) := by
  have hlt : j * fs < p.length := by
    by_contra h
    exact absurd ((ceilDiv_le_iff hfs).2 (Nat.le_of_not_lt h)) (by omega)
  refine ⟨hlt, by rw [fragmentPart, List.length_take, List.length_drop], fun hne => ?_⟩
  by_contra h
  exact absurd ((ceilDiv_le_iff hfs).2 (Nat.le_of_not_le h)) (by omega)

theorem getD_fragmentPart {fs j i : Nat} {p : List Byte} (hi : i < fs) :
    (fragmentPart fs p j).getD i 0 = p.getD (j * fs + i) 0 := by
  unfold fragmentPart
  rw [List.getD_eq_getElem?_getD, List.getElem?_take_of_lt hi, ← List.getD_eq_getElem?_getD, getD_drop]

theorem drop_fhdrEncode (q : U16) (id count : Nat) (tail : List Byte) : (fhdrEncode q id count ++ tail).drop 5 = tail := rfl

section Packet

variable {q ack : U16} {bits : U32} {p : List Byte} {fs : Nat}

/-- The header a fragment of the packet carries. -/
def carriedHeader (hdr : List Byte) (j : Nat) : List Byte := if j = 0 then hdr else []

theorem fhdrDecode_fragmentOf {hdr : List Byte} {j : Nat} (hj : j < ceilDiv p.length fs)
    (hmax : ceilDiv p.length fs ≤ 256) :
    fhdrDecode (fragmentOf fs q hdr p j) = .fields ⟨q, j, ceilDiv p.length fs⟩ :=
  fhdrDecode_fhdrEncode_append q _ hj hmax

theorem drop_fragmentOf (q : U16) (hdr p : List Byte) (fs j : Nat) :
    (fragmentOf fs q hdr p j).drop (5 + (carriedHeader hdr j).length) = fragmentPart fs p j := by
  unfold fragmentOf
  rw [← List.drop_drop, drop_fhdrEncode]
  exact List.drop_left

theorem carries_fragmentOf (j total : Nat) : FragmentHeader.carries ⟨q, j, total⟩
    (fragmentOf fs q (hdrEncode q ack bits) p j) (carriedHeader (hdrEncode q ack bits) j)
    (5 + (carriedHeader (hdrEncode q ack bits) j).length) := by
  by_cases h0 : j = 0
  · subst h0
    refine .inr ⟨rfl, ⟨q, ack, bits, (hdrEncode q ack bits).length⟩, ?_, rfl, rfl, rfl⟩
    unfold fragmentOf
    rw [drop_fhdrEncode, if_pos rfl]
    exact hdrDecode_hdrEncode_append q ack bits _
  · refine .inl ⟨Nat.pos_of_ne_zero h0, if_neg h0, ?_⟩
    rw [carriedHeader, if_neg h0]
    rfl

theorem length_drop_fragmentOf (q : U16) (hdr p : List Byte) (fs j : Nat) :
    (fragmentOf fs q hdr p j).length - (5 + (carriedHeader hdr j).length) = (fragmentPart fs p j).length := by
  rw [← List.length_drop, drop_fragmentOf]

/-- Every fragment of the packet passes the checks. -/
theorem fits_fragmentOf {s : State} {j : Nat} (hfs : 1 ≤ s.cfg.fragmentSize.toNat)
    (hmax : ceilDiv p.length s.cfg.fragmentSize.toNat ≤ s.cfg.maxFragments.toNat)
    (hj : j < ceilDiv p.length s.cfg.fragmentSize.toNat) :
    s.fits ⟨q, j, ceilDiv p.length s.cfg.fragmentSize.toNat⟩
      (fragmentOf s.cfg.fragmentSize.toNat q (hdrEncode q ack bits) p j) (carriedHeader (hdrEncode q ack bits) j)
      (5 + (carriedHeader (hdrEncode q ack bits) j).length) := by
  obtain ⟨-, hlen, hwhole⟩ := fragmentPart_length hfs hj
  refine ⟨hmax, hj, carries_fragmentOf _ _, ?_, ?_⟩
  · rw [length_drop_fragmentOf, hlen]
    exact Nat.min_le_left _ _
  · by_cases hlast : j = ceilDiv p.length s.cfg.fragmentSize.toNat - 1
    · exact .inl hlast
    · refine .inr ?_
      have := hwhole hlast
      rw [Nat.succ_mul] at this
      rw [length_drop_fragmentOf, hlen]
      omega

end Packet

/-! ### What is held after some of them -/

/-- Slot `k` of `s` holds exactly the fragments `done` of the packet (hdr, p) of sequence `q`. -/
def State.holds (s : State) (k : Nat) (q : U16) (hdr p : List Byte) (done : List Nat) : Prop :=
  let fs := s.cfg.fragmentSize.toNat
  let total := ceilDiv p.length fs
  sbFind s.frag q = some k ∧ (s.fragEntry k).numTotal.toNat = total ∧
  (s.fragEntry k).numReceived.toNat = done.length ∧
  (∀ i, i < 256 → ((s.fragEntry k).received.getLsbD i = true ↔ i ∈ done)) ∧
  (0 ∈ done → (s.fragEntry k).headerBytes.toNat = hdr.length ∧
    ∀ i, i < hdr.length → readByte (s.reasmSpace k) (9 - hdr.length + i) = hdr.getD i 0) ∧
  (total - 1 ∈ done → (s.fragEntry k).packetBytes.toNat = p.length) ∧
  ∀ j ∈ done, ∀ i, i < (fragmentPart fs p j).length →
    readByte (s.reasmSpace k) (9 + j * fs + i) = (fragmentPart fs p j).getD i 0

/-- Two fragments have no payload byte in common. -/
theorem parts_disjoint {j j' fs len len' i : Nat} (hne : j ≠ j') (hlen : len ≤ fs) (hlen' : len' ≤ fs) (hi : i < len') :
    9 + j' * fs + i < 9 + j * fs ∨ 9 + j * fs + len ≤ 9 + j' * fs + i := by
  rcases Nat.lt_or_gt_of_ne hne with h | h
  · have := Nat.mul_le_mul_right fs (Nat.succ_le_of_lt h)
    rw [Nat.succ_mul] at this
    omega
  · have := Nat.mul_le_mul_right fs (Nat.succ_le_of_lt h)
    rw [Nat.succ_mul] at this
    omega

theorem length_fragmentPart_le (fs : Nat) (p : List Byte) (j : Nat) : (fragmentPart fs p j).length ≤ fs :=
  List.length_take_le _ _

/-- One more fragment. -/
theorem holds_withFragment {s : State} {k j : Nat} {q : U16} {hdr p : List Byte} {done : List Nat}
    (h : s.holds k q hdr p done) (hhdr : hdr.length ≤ 9) (hfs : 1 ≤ s.cfg.fragmentSize.toNat)
    (hj : j < ceilDiv p.length s.cfg.fragmentSize.toNat) (hmax : ceilDiv p.length s.cfg.fragmentSize.toNat ≤ 256)
    (hp : p.length < 2 ^ 32) (hnew : j ∉ done) (hlen : done.length < 256) :
    (s.withFragment ⟨q, j, ceilDiv p.length s.cfg.fragmentSize.toNat⟩ (carriedHeader hdr j)
      (fragmentPart s.cfg.fragmentSize.toNat p j) k).holds k q hdr p (j :: done) := by
  obtain ⟨hfind, htotal, hcount, hbits, hheader, hlast, hparts⟩ := h
  have hc9 : (carriedHeader hdr j).length ≤ 9 := by
    unfold carriedHeader
    split
    · exact hhdr
    · exact Nat.zero_le 9
  unfold State.holds
  rw [fragEntry_withFragment, if_pos rfl, reasmSpace_withFragment, if_pos rfl]
  refine ⟨hfind, htotal, ?_, fun i hi => ?_, fun h0 => ?_, fun hl => ?_, fun j' hj' i hi => ?_⟩
  · have hsum : ((s.fragEntry k).numReceived + 1).toNat = done.length + 1 := by
      rw [BitVec.toNat_add, hcount]
      exact Nat.mod_eq_of_lt (by rw [show BitVec.toNat (1 : U16) = 1 from rfl]; omega)
    exact hsum
  · have hbit := getLsbD_received (s.fragEntry k).received (id := j) (by omega) i
    refine (Bool.eq_iff_iff.1 hbit).trans ?_
    rw [Bool.or_eq_true, decide_eq_true_iff, hbits i hi, List.mem_cons, or_comm]
  · by_cases hj0 : j = 0
    · subst hj0
      refine ⟨?_, fun i hi => readByte_withFragment_header _ _ hc9 _ _ hi⟩
      have hmod : (BitVec.ofNat 8 hdr.length).toNat = hdr.length := by
        rw [BitVec.toNat_ofNat]
        exact Nat.mod_eq_of_lt (by omega)
      exact hmod
    · obtain ⟨hhb, hbytes⟩ := hheader ((List.mem_cons.1 h0).resolve_left (Ne.symm hj0))
      refine ⟨(congrArg BitVec.toNat (if_neg hj0)).trans hhb, fun i hi => ?_⟩
      have hnil : carriedHeader hdr j = [] := if_neg hj0
      have hl : (carriedHeader hdr j).length = 0 := congrArg List.length hnil
      refine (readByte_withFragment_other _ _ hc9 _ _ (by omega) (by omega)).trans (hbytes i hi)
  · by_cases hjl : j = ceilDiv p.length s.cfg.fragmentSize.toNat - 1
    · obtain ⟨hlt, hplen, -⟩ := fragmentPart_length hfs hj
      have hle := le_ceilDiv_mul (p := p.length) hfs
      have hsucc : ceilDiv p.length s.cfg.fragmentSize.toNat = j + 1 := by omega
      rw [hsucc, Nat.succ_mul] at hle
      have hval : (ceilDiv p.length s.cfg.fragmentSize.toNat - 1) * s.cfg.fragmentSize.toNat +
          (fragmentPart s.cfg.fragmentSize.toNat p j).length = p.length := by
        rw [← hjl, hplen]
        omega
      refine (congrArg BitVec.toNat (if_pos hjl)).trans ?_
      rw [hval, BitVec.toNat_ofNat]
      exact Nat.mod_eq_of_lt hp
    · exact (congrArg BitVec.toNat (if_neg hjl)).trans
        (hlast ((List.mem_cons.1 hl).resolve_left (Ne.symm hjl)))
  · by_cases hjj : j' = j
    · subst hjj
      exact readByte_withFragment_payload _ _ _ _ hi
    · refine (readByte_withFragment_other _ _ hc9 _ _ (by omega) ?_).trans
        (hparts j' ((List.mem_cons.1 hj').resolve_left hjj) i hi)
      exact parts_disjoint (Ne.symm hjj) (length_fragmentPart_le _ _ _) (length_fragmentPart_le _ _ _) hi

/-- With every fragment held, the rebuilt packet is the packet. -/
theorem rebuiltPacket_of_holds {s : State} {k : Nat} {q : U16} {hdr p : List Byte} {done : List Nat}
    (h : s.holds k q hdr p done) (hfs : 1 ≤ s.cfg.fragmentSize.toNat) (hhdr : hdr.length ≤ 9) (hp : 1 ≤ p.length)
    (hall : ∀ j, j < ceilDiv p.length s.cfg.fragmentSize.toNat → j ∈ done) :
    rebuiltPacket (s.fragEntry k) (s.reasmSpace k) = hdr ++ p := by
  have hpos := ceilDiv_pos hp hfs
  obtain ⟨-, -, -, -, hheader, hlast, hparts⟩ := h
  obtain ⟨hhb, hbytes⟩ := hheader (hall 0 hpos)
  have hpb := hlast (hall _ (by omega))
  unfold rebuiltPacket
  rw [hhb, hpb, readBytes_append, readBytes_eq hbytes, Nat.sub_add_cancel hhdr]
  refine congrArg (hdr ++ ·) (readBytes_eq fun i hi => ?_)
  have hdiv : i / s.cfg.fragmentSize.toNat < ceilDiv p.length s.cfg.fragmentSize.toNat :=
    Nat.div_lt_of_lt_mul ((Nat.mul_comm _ _ ▸ hi.trans_le (le_ceilDiv_mul hfs)))
  have hmod := Nat.mod_lt i hfs
  have hsplit := Nat.div_add_mod i s.cfg.fragmentSize.toNat
  rw [Nat.mul_comm] at hsplit
  have hbyte := hparts _ (hall _ hdiv) (i % s.cfg.fragmentSize.toNat) (by
    rw [(fragmentPart_length hfs hdiv).2.1]
    omega)
  rw [getD_fragmentPart hmod, Nat.add_assoc, hsplit] at hbyte
  exact hbyte

/-! ### One fragment after the other -/

/-- The next fragment of the packet will be looked up in a state that holds exactly `done`. -/
def State.readyFor (s : State) (q : U16) (hdr p : List Byte) (done : List Nat) : Prop :=
  ∀ j, ∃ k u, fragSlot ⟨q, j, ceilDiv p.length s.cfg.fragmentSize.toNat⟩
      (s.reportFragment ⟨q, j, ceilDiv p.length s.cfg.fragmentSize.toNat⟩) = .ok (k, u) ∧
    u.holds k q hdr p done ∧ u.cfg = s.cfg

theorem readyFor_of_holds {s : State} {k : Nat} {q : U16} {hdr p : List Byte} {done : List Nat}
    (h : s.holds k q hdr p done) : s.readyFor q hdr p done :=
  fun _ => ⟨k, _, fragSlot_of_held (s := s.reportFragment _) h.1 h.2.1, h, rfl⟩

theorem readyFor_nil {s : State} {q : U16} {hdr p : List Byte} (hfind : sbFind s.frag q = none)
    (hst : sbStale s.frag q = false) (hmax : ceilDiv p.length s.cfg.fragmentSize.toNat ≤ 256) :
    s.readyFor q hdr p [] := by
  intro j
  have hi := sbInsert_of_not_stale hst
  obtain ⟨-, -, hn, -, htag, -, -⟩ := sbInsert_eq_some hi
  generalize (sbAdvance s.frag q).setTag (s.frag.slot q) (some q) = B at hi hn htag
  refine ⟨s.frag.slot q, _, fragSlot_of_new (s := s.reportFragment _) hfind hi, ?_, rfl⟩
  have hslot : B.slot q = s.frag.slot q := by
    unfold SeqBuf.slot
    rw [hn]
  have hfresh := (fragEntry_opened (s.reportFragment ⟨q, j, ceilDiv p.length s.cfg.fragmentSize.toNat⟩)
    ⟨q, j, ceilDiv p.length s.cfg.fragmentSize.toNat⟩ B (s.frag.slot q) (s.frag.slot q)).trans (if_pos rfl)
  unfold State.holds
  rw [hfresh]
  refine ⟨sbFind_eq_some.2 ⟨hslot.symm, htag⟩, ?_, rfl, fun i _ => ?_, nofun, nofun, nofun⟩
  · refine (BitVec.toNat_ofNat ..).trans (Nat.mod_eq_of_lt ?_)
    exact hmax.trans_lt (by decide)
  · rw [fresh_received]
    exact ⟨nofun, nofun⟩

/-- What one more fragment answers, and what it leaves. -/
theorem fragCore_of_readyFor {s : State} {q ack : U16} {bits : U32} {p : List Byte} {done : List Nat} {j : Nat}
    (h : s.readyFor q (hdrEncode q ack bits) p done) (hfs : 1 ≤ s.cfg.fragmentSize.toNat)
    (hmf : ceilDiv p.length s.cfg.fragmentSize.toNat ≤ s.cfg.maxFragments.toNat)
    (hmax : ceilDiv p.length s.cfg.fragmentSize.toNat ≤ 256) (hp : p.length < 2 ^ 32)
    (hj : j < ceilDiv p.length s.cfg.fragmentSize.toNat) (hnew : j ∉ done) (hlen : done.length < 256) :
    ∃ k u, u.holds k q (hdrEncode q ack bits) p (j :: done) ∧ u.cfg = s.cfg ∧
      fragCore (fragmentOf s.cfg.fragmentSize.toNat q (hdrEncode q ack bits) p j) s =
        (if done.length + 1 = ceilDiv p.length s.cfg.fragmentSize.toNat then
          .complete q (rebuiltPacket (u.fragEntry k) (u.reasmSpace k)) else .ended .fragStored, u) := by
  obtain ⟨k, v, hs, hv, hcfg⟩ := h j
  have hbit : (v.fragEntry k).received.getLsbD j = false := by
    rw [Bool.eq_false_iff, ne_eq, hv.2.2.2.1 j (by omega)]
    exact hnew
  have hcore := fragCore_stores (fhdrDecode_fragmentOf hj hmax)
    (fits_fragmentOf (q := q) (ack := ack) (bits := bits) hfs hmf hj) hs hbit
  rw [drop_fragmentOf] at hcore
  rw [← hcfg] at hfs hmax hj
  have hholds := holds_withFragment hv (length_hdrEncode_bounds q ack bits).2 hfs hj hmax hp hnew hlen
  rw [hcfg] at hholds
  refine ⟨k, _, hholds, hcfg, hcore.trans ?_⟩
  have hfull : (v.fragEntry k).numReceived + 1 = (v.fragEntry k).numTotal ↔
      done.length + 1 = ceilDiv p.length s.cfg.fragmentSize.toNat := by
    obtain ⟨-, htotal, hcount, -⟩ := hv
    rw [hcfg] at htotal
    rw [← BitVec.toNat_inj, BitVec.toNat_add, htotal, hcount, show BitVec.toNat (1 : U16) = 1 from rfl,
      Nat.mod_eq_of_lt (by omega)]
  simp only [hfull]

/-- The rest of the fragments, in any order. -/
theorem feedFragments_of_readyFor {q ack : U16} {bits : U32} {p : List Byte} {fs : Nat} (hp1 : 1 ≤ p.length)
    (hp : p.length < 2 ^ 32) (hfs : 1 ≤ fs) (hmax : ceilDiv p.length fs ≤ 256) :
    ∀ (order done : List Nat) (s : State), s.cfg.fragmentSize.toNat = fs →
      ceilDiv p.length fs ≤ s.cfg.maxFragments.toNat → s.readyFor q (hdrEncode q ack bits) p done →
      (order ++ done).Perm (List.range (ceilDiv p.length fs)) → order ≠ [] →
      (feedFragments (order.map (fragmentOf fs q (hdrEncode q ack bits) p)) s).1 =
        List.replicate (order.length - 1) (.ended .fragStored) ++ [.complete q (hdrEncode q ack bits ++ p)] := by
  intro order
  induction order with
  | nil => exact fun _ _ _ _ _ _ hne => absurd rfl hne
  | cons j rest ih =>
    rintro done s rfl hmf hready hperm -
    have hmem : j ∈ List.range (ceilDiv p.length s.cfg.fragmentSize.toNat) :=
      hperm.mem_iff.1 (List.mem_cons_self ..)
    have hlen := hperm.length_eq
    rw [List.length_range, List.length_append, List.length_cons] at hlen
    have hnodup := hperm.nodup_iff.2 List.nodup_range
    rw [List.cons_append, List.nodup_cons] at hnodup
    have hnew : j ∉ done := fun h => hnodup.1 (List.mem_append_right _ h)
    obtain ⟨k, u, hholds, hcfg, hcore⟩ := fragCore_of_readyFor hready hfs hmf hmax hp (List.mem_range.1 hmem) hnew
      (by omega)
    have hperm' : (rest ++ j :: done).Perm (List.range (ceilDiv p.length s.cfg.fragmentSize.toNat)) :=
      List.perm_middle.trans hperm
    rw [List.map_cons, feedFragments, hcore]
    cases rest with
    | nil =>
      have hall : ∀ i, i < ceilDiv p.length u.cfg.fragmentSize.toNat → i ∈ j :: done := fun i hi => by
        rw [hcfg] at hi
        exact hperm'.mem_iff.2 (List.mem_range.2 hi)
      rw [if_pos (by rw [List.length_nil] at hlen; omega), rebuiltPacket_of_holds hholds (by rw [hcfg]; exact hfs)
        (length_hdrEncode_bounds q ack bits).2 hp1 hall]
      rfl
    | cons i rest =>
      rw [List.length_cons] at hlen
      rw [if_neg (by omega)]
      have hnext := ih (j :: done) u (by rw [hcfg]) (by rw [hcfg]; exact hmf) (readyFor_of_holds hholds) hperm'
        (List.cons_ne_nil _ _)
      refine (congrArg (List.cons _) hnext).trans ?_
      rw [← List.cons_append]
      rfl

/-- Settles O29: nothing is held at first. -/
theorem fragmentsReassembleInAnyOrder : Obligations.FragmentsReassembleInAnyOrder := by
  intro s q ack bits p order fs total hs hc hp hmf hst hfind hperm
  obtain ⟨-, ⟨-, ⟨-, hmf256⟩, hfs, -⟩, -⟩ := (configSound_of_configured hc).1 hs
  have hfit := (fragment_bounds hs hc).2.2
  have hmul : total * fs ≤ s.cfg.maxFragments.toNat * fs := Nat.mul_le_mul_right fs hmf
  have hlen : p.length < 2 ^ 32 := ((le_ceilDiv_mul hfs).trans hmul).trans_lt hfit
  have hmax : total ≤ 256 := hmf.trans hmf256
  have hpos : 1 ≤ total := ceilDiv_pos hp hfs
  have horder : order.length = total := by rw [hperm.length_eq, List.length_range]
  have hfeed := feedFragments_of_readyFor (q := q) (ack := ack) (bits := bits) hp hlen hfs hmax order [] s rfl hmf
    (readyFor_nil hfind hst hmax) (by rw [List.append_nil]; exact hperm)
    (fun h => by rw [h, List.length_nil] at horder; omega)
  rw [horder] at hfeed
  exact hfeed

end Sys2Proof.Machine
end

section
/-! PROOF. The host interface: what a host access reaches, reads, writes and is refused (20_memory.md R60 to R67;
60_exceptions.md R226). -/

namespace Sys2Proof.Machine

/-! ### The access of a step -/

theorem step_read {s : State} {width : Nat} {a : U32} {rest : List HostAccess} (h : s.host = .read width a :: rest) :
    step s = hostRead width a.toNat { s with host := rest } := by
  unfold step runNext
  rw [h]
  rfl

theorem step_write {s : State} {width : Nat} {a v : U32} {rest : List HostAccess}
    (h : s.host = .write width a v :: rest) : step s = hostWrite width a.toNat v { s with host := rest } := by
  unfold step runNext
  rw [h]
  rfl

theorem hostRead_eq_next {width a : Nat} {s t : State} (h : hostRead width a s = .next t) : ∃ v, t = s.answerRead v := by
  unfold hostRead at h
  split at h
  · cases h
  split at h
  · split at h
    · cases h
    · split at h
      · cases h
      · cases h; exact ⟨_, rfl⟩
  · split at h
    · cases h
    · cases h; exact ⟨_, rfl⟩

/-! ### The register region -/

/-- Every listed register stands at a word address below ACKS. -/
theorem lookup_aligned {a : Nat} {r : HostReg} (h : registerMap.lookup a = some r) :
    a % 4 = 0 ∧ a < acksBase ∧ a ∈ mappedRegisters := by
  obtain ⟨l₁, l₂, he, -⟩ := List.lookup_eq_some_iff.1 h
  have hmem : (a, r) ∈ registerMap := by rw [he]; exact List.mem_append_right _ (List.mem_cons_self ..)
  have hall : ∀ x ∈ registerMap, x.1 % 4 = 0 ∧ x.1 < acksBase ∧ x.1 ∈ mappedRegisters := by decide
  exact hall _ hmem

theorem toNat_address {a : Nat} (h : a < 2 ^ 32) : (BitVec.ofNat 32 a).toNat = a := by
  rw [BitVec.toNat_ofNat]
  exact Nat.mod_eq_of_lt h

/-- A write of a listed register outside a step. -/
theorem step_write_register {s : State} {v : U32} {rest : List HostAccess} {a : Nat} {r : HostReg}
    (hin : s.insideStep = false) (hl : registerMap.lookup a = some r)
    (hh : s.host = .write 4 (BitVec.ofNat 32 a) v :: rest) : step s = writeReg r v { s with host := rest } := by
  obtain ⟨h4, hlt, -⟩ := lookup_aligned hl
  rw [step_write hh, toNat_address (hlt.trans (by decide))]
  exact hostWrite_register _ v hl h4 hlt (.inl hin)

theorem hostRead_of_readReg {s : State} {w : U32} {a : Nat} {r : HostReg} (hin : s.insideStep = false)
    (hl : registerMap.lookup a = some r) (hr : s.readReg r = some w) : hostRead 4 a s = .next (s.answerRead w) := by
  obtain ⟨h4, hlt, -⟩ := lookup_aligned hl
  rw [hostRead_register s hl h4 hlt hin, hr]

/-- A read of a listed register outside a step. -/
theorem step_read_register {s : State} {w : U32} {rest : List HostAccess} {a : Nat} {r : HostReg}
    (hin : s.insideStep = false) (hl : registerMap.lookup a = some r) (hr : s.readReg r = some w)
    (hh : s.host = .read 4 (BitVec.ofNat 32 a) :: rest) :
    step s = .next (State.answerRead { s with host := rest } w) := by
  obtain ⟨h4, hlt, -⟩ := lookup_aligned hl
  rw [step_read hh, toNat_address (hlt.trans (by decide))]
  exact hostRead_of_readReg (s := { s with host := rest }) hin hl hr

/-! ### 64-bit registers -/

theorem toNat_extractLsb (x : BitVec 64) (k : Nat) : (x.extractLsb' k 32).toNat = x.toNat / 2 ^ k % 2 ^ 32 := by
  rw [BitVec.extractLsb'_toNat, Nat.shiftRight_eq_div_pow]

theorem halfOf_lo (x : BitVec 64) : (halfOf x .lo).toNat = lowWord x := by
  rw [halfOf, toNat_extractLsb, pow_zero, Nat.div_one, lowWord]

theorem halfOf_hi (x : BitVec 64) : (halfOf x .hi).toNat = highWord x := by
  have := x.isLt
  rw [halfOf, toNat_extractLsb, highWord]
  omega

theorem withHalf_lo (x : BitVec 64) (v : U32) : withHalf x .lo v = setLowWord x v := by
  have hx := x.isLt
  have hv := v.isLt
  apply BitVec.eq_of_toNat_eq
  rw [withHalf, setLowWord, toNat_append, toNat_extractLsb, BitVec.toNat_ofNat]
  omega

theorem withHalf_hi (x : BitVec 64) (v : U32) : withHalf x .hi v = setHighWord x v := by
  have hx := x.isLt
  have hv := v.isLt
  apply BitVec.eq_of_toNat_eq
  rw [withHalf, setHighWord, toNat_append, toNat_extractLsb, BitVec.toNat_ofNat]
  omega

/-! ### Operand and configuration registers -/

section Writes

variable {s : State} {v : U32} {rest : List HostAccess} (hin : s.insideStep = false)

include hin

/-- A 32-bit configuration register written. -/
theorem step_write_cfg {a : Nat} {f : CfgField} (hl : registerMap.lookup a = some (.cfg f)) :
    (s.configured = false → s.host = .write 4 (BitVec.ofNat 32 a) v :: rest →
      step s = .next { s with host := rest, cfg := s.cfg.put f v }) ∧
    (s.configured = true → s.host = .write 4 (BitVec.ofNat 32 a) v :: rest → step s = .next { s with host := rest }) :=
  ⟨fun hc hh => (step_write_register hin hl hh).trans
      (congrArg Host.Outcome.next (if_neg (by rw [hc]; exact Bool.false_ne_true))),
    fun hc hh => (step_write_register hin hl hh).trans (congrArg Host.Outcome.next (if_pos hc))⟩

/-- One word of a NUM configuration register written. -/
theorem step_write_cfgNum {a : Nat} {f : CfgNumField} {h : Half} (hl : registerMap.lookup a = some (.cfgNum f h)) :
    (s.configured = false → s.host = .write 4 (BitVec.ofNat 32 a) v :: rest →
      step s = .next { s with host := rest, cfg := s.cfg.putNum f (withHalf (s.cfg.getNum f) h v) }) ∧
    (s.configured = true → s.host = .write 4 (BitVec.ofNat 32 a) v :: rest → step s = .next { s with host := rest }) :=
  ⟨fun hc hh => (step_write_register hin hl hh).trans
      (congrArg Host.Outcome.next (if_neg (by rw [hc]; exact Bool.false_ne_true))),
    fun hc hh => (step_write_register hin hl hh).trans (congrArg Host.Outcome.next (if_pos hc))⟩

end Writes

/-- Settles O52: each register at its place in the map. -/
theorem plainRegistersHoldWrites : Obligations.PlainRegistersHoldWrites := by
  intro s v rest hin after written
  refine ⟨fun hh => step_write_register hin (r := .arg0) rfl hh, fun hh => step_write_register hin (r := .arg1) rfl hh,
    fun hh => step_write_register hin (r := .arg2) rfl hh, fun hh => ?_, fun hh => ?_, ?_⟩
  · rw [← withHalf_lo]
    exact step_write_register hin (r := .numin .lo) rfl hh
  · rw [← withHalf_hi]
    exact step_write_register hin (r := .numin .hi) rfl hh
  · unfold CfgRegs.writes
    simp only [List.forall_mem_cons, ← withHalf_lo, ← withHalf_hi]
    exact ⟨step_write_cfg hin (f := .maxPacketSize) rfl, step_write_cfg hin (f := .fragmentAbove) rfl,
      step_write_cfg hin (f := .maxFragments) rfl, step_write_cfg hin (f := .fragmentSize) rfl,
      step_write_cfg hin (f := .ackBufferSize) rfl, step_write_cfg hin (f := .sentBufferSize) rfl,
      step_write_cfg hin (f := .receivedBufferSize) rfl, step_write_cfg hin (f := .reassemblyBufferSize) rfl,
      step_write_cfg hin (f := .packetHeaderSize) rfl, step_write_cfg hin (f := .context) rfl,
      step_write_cfg hin (f := .index) rfl, step_write_cfgNum hin (f := .rttFactor) (h := .lo) rfl,
      step_write_cfgNum hin (f := .rttFactor) (h := .hi) rfl, step_write_cfgNum hin (f := .lossFactor) (h := .lo) rfl,
      step_write_cfgNum hin (f := .lossFactor) (h := .hi) rfl,
      step_write_cfgNum hin (f := .bandwidthFactor) (h := .lo) rfl,
      step_write_cfgNum hin (f := .bandwidthFactor) (h := .hi) rfl, nofun⟩

end Sys2Proof.Machine
end

section
/-! PROOF. What the host reads, the byte buffers, and the host-interface faults (20_memory.md R60 to R67;
60_exceptions.md R226). -/

namespace Sys2Proof.Machine

/-! ### The byte buffers -/

/-- The first address of a buffer's window. -/
def HostBuffer.base : HostBuffer → Nat
  | .ibuf => ibufBase
  | .obuf => obufBase
  | .ebuf => ebufBase

/-- The size of a buffer. -/
def HostBuffer.size (p : Params) : HostBuffer → Nat
  | .ibuf => p.ibufBytes
  | .obuf => p.obufBytes
  | .ebuf => p.ebufBytes

theorem bufferAt_ibuf {p : Params} {off : Nat} (h : off < p.ibufBytes) : bufferAt p (ibufBase + off) = some (.ibuf, off) := by
  unfold bufferAt
  rw [if_pos (by omega), Nat.add_sub_cancel_left]

theorem bufferAt_obuf {p : Params} {off : Nat} (hi : p.ibufBytes ≤ 1048562) (h : off < p.obufBytes) :
    bufferAt p (obufBase + off) = some (.obuf, off) := by
  unfold bufferAt
  rw [if_neg (by unfold obufBase ibufBase; omega), if_pos (by omega), Nat.add_sub_cancel_left]

theorem bufferAt_ebuf {p : Params} {off : Nat} (hi : p.ibufBytes ≤ 1048562) (ho : p.obufBytes ≤ 1048562)
    (h : off < p.ebufBytes) : bufferAt p (ebufBase + off) = some (.ebuf, off) := by
  unfold bufferAt
  rw [if_neg (by unfold ebufBase ibufBase; omega), if_neg (by unfold ebufBase obufBase; omega), if_pos (by omega),
    Nat.add_sub_cancel_left]

/-- The windows of the buffers do not overlap. -/
theorem bufferAt_of_lt {p : Params} (hp : p.wf) {b : HostBuffer} {off : Nat} (h : off < b.size p) :
    bufferAt p (b.base + off) = some (b, off) := by
  obtain ⟨-, -, -, -, -, hi, -, ho, -⟩ := hp
  cases b with
  | ibuf => exact bufferAt_ibuf h
  | obuf => exact bufferAt_obuf hi h
  | ebuf => exact bufferAt_ebuf hi ho h

/-- An aligned access whose first and last byte are mapped. -/
theorem reachBuffer_of_mapped {p : Params} {w a : Nat} {x y : HostBuffer × Nat} (hw : w = 1 ∨ (w = 4 ∧ a % 4 = 0))
    (hx : bufferAt p a = some x) (hy : bufferAt p (a + w - 1) = some y) : reachBuffer p w a = .ok x := by
  unfold reachBuffer
  rw [if_neg (by omega), if_neg (by rcases hw with rfl | ⟨rfl, h⟩ <;> omega), hx, hy]

theorem base_bounds (b : HostBuffer) : 0x20000 ≤ b.base ∧ b.base ≤ ebufBase ∧ b.base % 4 = 0 := by
  cases b <;> decide

/-- An access inside a buffer. -/
theorem reachBuffer_of_fits {p : Params} (hp : p.wf) {b : HostBuffer} {w off : Nat} (hw : w = 1 ∨ (w = 4 ∧ off % 4 = 0))
    (h : off + w ≤ b.size p) : reachBuffer p w (b.base + off) = .ok (b, off) := by
  obtain ⟨-, -, hbase⟩ := base_bounds b
  have hlast : b.base + off + w - 1 = b.base + (off + w - 1) := by omega
  exact reachBuffer_of_mapped (hw.imp_right fun ⟨h4, hoff⟩ => ⟨h4, by omega⟩) (bufferAt_of_lt hp (by omega))
    (hlast ▸ bufferAt_of_lt hp (by omega))

theorem inRegisterRegion_of_le {a : Nat} (h : 0x20000 ≤ a) : inRegisterRegion a = false :=
  decide_eq_false (Nat.not_lt.2 h)

theorem hostRead_buffer {s : State} {w a off : Nat} {b : HostBuffer} (hin : s.insideStep = false) (ha : 0x20000 ≤ a)
    (hr : reachBuffer s.params w a = .ok (b, off)) :
    hostRead w a s = .next (s.answerRead (bufferValue (s.hostBuffer b) w off)) := by
  unfold hostRead
  rw [hin, inRegisterRegion_of_le ha, hr]
  rfl

theorem hostWrite_ibuf {s : State} {w a off : Nat} (hin : s.insideStep = false) (ha : 0x20000 ≤ a)
    (hr : reachBuffer s.params w a = .ok (.ibuf, off)) (v : U32) :
    hostWrite w a v s = .next { s with ibuf := bufferStore s.ibuf w off v } := by
  unfold hostWrite
  rw [hin, inRegisterRegion_of_le ha, hr]
  rfl

theorem hostWrite_readOnly {s : State} {w a off : Nat} {b : HostBuffer} (hin : s.insideStep = false) (ha : 0x20000 ≤ a)
    (hr : reachBuffer s.params w a = .ok (b, off)) (hb : b ≠ .ibuf) (v : U32) :
    hostWrite w a v s = .fault .readOnly := by
  unfold hostWrite
  rw [hin, inRegisterRegion_of_le ha, hr]
  cases b with
  | ibuf => exact absurd rfl hb
  | obuf => rfl
  | ebuf => rfl

theorem bufferValue_one (m : Memory) (off : Nat) : (bufferValue m 1 off).toNat % 256 = (readByte m off).toNat := by
  have hv : bufferValue m 1 off = (readByte m off).setWidth 32 := if_neg (by decide)
  have := (readByte m off).isLt
  rw [hv, BitVec.toNat_setWidth]
  omega

theorem bufferValue_four (m : Memory) (off : Nat) : (bufferValue m 4 off).toNat = (readByte m off).toNat +
    256 * (readByte m (off + 1)).toNat + 256 ^ 2 * (readByte m (off + 2)).toNat +
    256 ^ 3 * (readByte m (off + 3)).toNat := by
  have hv : bufferValue m 4 off = readWord m off := if_pos rfl
  rw [hv]
  exact toNat_append_four _ _ _ _

/-! ### What the registers read -/

/-- A row of the register map: the address reads the value. -/
def State.readsAt (s : State) (x : Nat × Nat) : Prop :=
  ∃ r w, registerMap.lookup x.1 = some r ∧ s.readReg r = some w ∧ w.toNat = x.2

theorem word_toNat (q : U16) : (word q).toNat = q.toNat := by
  have := q.isLt
  rw [word, BitVec.toNat_setWidth]
  omega

theorem readsAt_wide {s : State} {a : Nat} {x : BitVec 64} {lo hi : HostReg} (hlo : registerMap.lookup a = some lo)
    (hhi : registerMap.lookup (a + 4) = some hi) (hrlo : s.readReg lo = some (halfOf x .lo))
    (hrhi : s.readReg hi = some (halfOf x .hi)) : ∀ y ∈ wideReads a x, s.readsAt y := by
  unfold wideReads
  simp only [List.forall_mem_cons]
  exact ⟨⟨lo, _, hlo, hrlo, halfOf_lo x⟩, ⟨hi, _, hhi, hrhi, halfOf_hi x⟩, nofun⟩

theorem statusWord_toNat (s : State) : s.statusWord.toNat = s.code.toByte.toNat + (if s.configured then 256 else 0) +
    (if s.inCallback then 512 else 0) + 65536 * (s.depth % 256) := by
  have h4 : (BitVec.ofBool s.configured ++ s.code.toByte).toNat =
    (BitVec.ofBool s.configured).toNat * 2 ^ 8 + s.code.toByte.toNat := toNat_append _ _
  have h3 : (BitVec.ofBool s.inCallback ++ (BitVec.ofBool s.configured ++ s.code.toByte)).toNat =
    (BitVec.ofBool s.inCallback).toNat * 2 ^ (1 + 8) + (BitVec.ofBool s.configured ++ s.code.toByte).toNat :=
    toNat_append _ _
  have h2 : (0#6 ++ (BitVec.ofBool s.inCallback ++ (BitVec.ofBool s.configured ++ s.code.toByte))).toNat =
    (0#6).toNat * 2 ^ (1 + (1 + 8)) + (BitVec.ofBool s.inCallback ++ (BitVec.ofBool s.configured ++ s.code.toByte)).toNat :=
    toNat_append _ _
  have h1 : (BitVec.ofNat 8 s.depth ++
      (0#6 ++ (BitVec.ofBool s.inCallback ++ (BitVec.ofBool s.configured ++ s.code.toByte)))).toNat =
    (BitVec.ofNat 8 s.depth).toNat * 2 ^ (6 + (1 + (1 + 8))) +
      (0#6 ++ (BitVec.ofBool s.inCallback ++ (BitVec.ofBool s.configured ++ s.code.toByte))).toNat := toNat_append _ _
  have h0 : s.statusWord.toNat = (0#8).toNat * 2 ^ (8 + (6 + (1 + (1 + 8)))) + (BitVec.ofNat 8 s.depth ++
      (0#6 ++ (BitVec.ofBool s.inCallback ++ (BitVec.ofBool s.configured ++ s.code.toByte)))).toNat := toNat_append _ _
  rw [h0, h1, h2, h3, h4, BitVec.toNat_ofNat]
  cases s.configured <;> cases s.inCallback <;> simp only [BitVec.ofBool, BitVec.toNat_ofNat] <;> simp <;> omega

theorem eventKindWord_toNat (k : Option EventKind) :
    (eventKindWord k).toNat = (match k with | none => 0 | some .tx => 1 | some .deliver => 2) := by
  rcases k with _ | k
  · rfl
  · cases k <;> rfl

/-- The registers of one word, and those of two. -/
theorem readsAt_registerReads (s : State) : ∀ y ∈ s.registerReads, s.readsAt y := by
  unfold State.registerReads
  refine List.forall_mem_append.2 ⟨?_, ?_⟩
  · simp only [List.forall_mem_cons]
    exact ⟨⟨.status, _, rfl, rfl, statusWord_toNat s⟩, ⟨.arg0, _, rfl, rfl, rfl⟩, ⟨.arg1, _, rfl, rfl, rfl⟩,
    ⟨.arg2, _, rfl, rfl, rfl⟩, ⟨.res0, _, rfl, rfl, rfl⟩, ⟨.res1, _, rfl, rfl, rfl⟩, ⟨.res2, _, rfl, rfl, rfl⟩,
    ⟨.res3, _, rfl, rfl, rfl⟩, ⟨.sequence, _, rfl, rfl, word_toNat _⟩, ⟨.ackCount, _, rfl, rfl, rfl⟩,
    ⟨.cfg .maxPacketSize, _, rfl, rfl, rfl⟩, ⟨.cfg .fragmentAbove, _, rfl, rfl, rfl⟩,
    ⟨.cfg .maxFragments, _, rfl, rfl, rfl⟩, ⟨.cfg .fragmentSize, _, rfl, rfl, rfl⟩,
    ⟨.cfg .ackBufferSize, _, rfl, rfl, rfl⟩, ⟨.cfg .sentBufferSize, _, rfl, rfl, rfl⟩,
    ⟨.cfg .receivedBufferSize, _, rfl, rfl, rfl⟩, ⟨.cfg .reassemblyBufferSize, _, rfl, rfl, rfl⟩,
    ⟨.cfg .packetHeaderSize, _, rfl, rfl, rfl⟩, ⟨.cfg .context, _, rfl, rfl, rfl⟩, ⟨.cfg .index, _, rfl, rfl, rfl⟩,
    ⟨.evtKind, _, rfl, rfl, eventKindWord_toNat _⟩, ⟨.evtSeq, _, rfl, rfl, word_toNat _⟩, ⟨.evtLen, _, rfl, rfl, rfl⟩,
    ⟨.evtContext, _, rfl, rfl, rfl⟩, ⟨.evtIndex, _, rfl, rfl, rfl⟩, nofun⟩
  · simp only [List.forall_mem_append, and_assoc]
    exact ⟨readsAt_wide (lo := .numin .lo) (hi := .numin .hi) rfl rfl rfl rfl,
    readsAt_wide (lo := .resn .lo) (hi := .resn .hi) rfl rfl rfl rfl,
    readsAt_wide (lo := .time .lo) (hi := .time .hi) rfl rfl rfl rfl,
    readsAt_wide (lo := .rtt .lo) (hi := .rtt .hi) rfl rfl rfl rfl,
    readsAt_wide (lo := .loss .lo) (hi := .loss .hi) rfl rfl rfl rfl,
    readsAt_wide (lo := .sentKbps .lo) (hi := .sentKbps .hi) rfl rfl rfl rfl,
    readsAt_wide (lo := .recvKbps .lo) (hi := .recvKbps .hi) rfl rfl rfl rfl,
    readsAt_wide (lo := .ackedKbps .lo) (hi := .ackedKbps .hi) rfl rfl rfl rfl,
    readsAt_wide (lo := .counter .packetsSent .lo) (hi := .counter .packetsSent .hi) rfl rfl rfl rfl,
    readsAt_wide (lo := .counter .packetsReceived .lo) (hi := .counter .packetsReceived .hi) rfl rfl rfl rfl,
    readsAt_wide (lo := .counter .packetsAcked .lo) (hi := .counter .packetsAcked .hi) rfl rfl rfl rfl,
    readsAt_wide (lo := .counter .packetsStale .lo) (hi := .counter .packetsStale .hi) rfl rfl rfl rfl,
    readsAt_wide (lo := .counter .packetsInvalid .lo) (hi := .counter .packetsInvalid .hi) rfl rfl rfl rfl,
    readsAt_wide (lo := .counter .packetsTooLargeToSend .lo) (hi := .counter .packetsTooLargeToSend .hi) rfl rfl rfl rfl,
    readsAt_wide (lo := .counter .packetsTooLargeToReceive .lo) (hi := .counter .packetsTooLargeToReceive .hi)
      rfl rfl rfl rfl,
    readsAt_wide (lo := .counter .fragmentsSent .lo) (hi := .counter .fragmentsSent .hi) rfl rfl rfl rfl,
    readsAt_wide (lo := .counter .fragmentsReceived .lo) (hi := .counter .fragmentsReceived .hi) rfl rfl rfl rfl,
    readsAt_wide (lo := .counter .fragmentsInvalid .lo) (hi := .counter .fragmentsInvalid .hi) rfl rfl rfl rfl,
    readsAt_wide (lo := .cfgNum .rttFactor .lo) (hi := .cfgNum .rttFactor .hi) rfl rfl rfl rfl,
    readsAt_wide (lo := .cfgNum .lossFactor .lo) (hi := .cfgNum .lossFactor .hi) rfl rfl rfl rfl,
    readsAt_wide (lo := .cfgNum .bandwidthFactor .lo) (hi := .cfgNum .bandwidthFactor .hi) rfl rfl rfl rfl⟩

/-! ### ACKS -/

theorem reachRegister_ack {p : Params} {i : Nat} (h : i < p.maxAcks) :
    reachRegister p 4 (acksBase + 4 * i) = .ok (.ack i) := by
  have hdiv : (acksBase + 4 * i - acksBase) / 4 = i := by omega
  unfold reachRegister registerAt
  rw [if_neg (by omega), if_neg (by unfold acksBase; omega), if_pos (by omega), hdiv, if_pos h]

theorem inRegisterRegion_acks {i : Nat} (h : i < 16384) : inRegisterRegion (acksBase + 4 * i) = true :=
  decide_eq_true (by unfold acksBase; omega)

theorem hostRead_ack {s : State} {i : Nat} (hp : s.params.wf) (hin : s.insideStep = false) (h : i < s.params.maxAcks) :
    hostRead 4 (acksBase + 4 * i) s = .next (s.answerRead (word (s.ackEntry i))) := by
  obtain ⟨-, -, -, hacks, -⟩ := hp
  unfold hostRead
  rw [hin, inRegisterRegion_acks (h.trans_le hacks), reachRegister_ack h]
  rfl

/-- A read inside a buffer's window. -/
theorem step_read_buffer {s : State} {rest : List HostAccess} {b : HostBuffer} {w off : Nat} (hp : s.params.wf)
    (hin : s.insideStep = false) (hw : w = 1 ∨ (w = 4 ∧ off % 4 = 0)) (hfit : off + w ≤ b.size s.params)
    (hh : s.host = .read w (BitVec.ofNat 32 (b.base + off)) :: rest) :
    step s = .next (State.answerRead { s with host := rest } (bufferValue (s.hostBuffer b) w off)) := by
  obtain ⟨hlo, hhi, -⟩ := base_bounds b
  have hreach := reachBuffer_of_fits hp hw hfit
  have hoff : off < 2 ^ 21 := by
    obtain ⟨-, -, -, -, -, hi, -, ho, -⟩ := hp
    have hsize : b.size s.params ≤ 1048562 + 14 := by
      cases b with
      | ibuf => exact hi.trans (by omega)
      | obuf => exact ho.trans (by omega)
      | ebuf => exact Nat.add_le_add_right (Nat.max_le.2 ⟨hi, ho⟩) 14
    omega
  rw [step_read hh, toNat_address (by unfold ebufBase at hhi; omega)]
  exact hostRead_buffer (s := { s with host := rest }) hin (by omega) hreach

/-- Settles O51: a read, and each part of the address space. -/
theorem readsHaveNoSideEffect : Obligations.ReadsHaveNoSideEffect := by
  constructor
  · intro s t width a rest hh hstep
    rw [step_read hh] at hstep
    obtain ⟨v, rfl⟩ := hostRead_eq_next hstep
    rfl
  · intro s rest hin reads
    refine ⟨fun x hx hh => ?_, fun hp i hi hh => ?_, fun hp => ?_⟩
    · obtain ⟨r, w, hl, hr, hw⟩ := readsAt_registerReads s x hx
      exact ⟨_, step_read_register hin hl hr hh, hw⟩
    · have hacks := hp.2.2.2.1
      rw [step_read hh, toNat_address (by omega)]
      exact ⟨_, hostRead_ack (s := { s with host := rest }) hp hin hi, word_toNat _⟩
    · have hwindow : ∀ b : HostBuffer, ∀ p, p < b.size s.params →
          (reads 1 (b.base + p) fun v => v % 256 = (readByte (s.hostBuffer b) p).toNat) ∧
          (p % 4 = 0 → p + 4 ≤ b.size s.params → reads 4 (b.base + p) fun v => v = (readByte (s.hostBuffer b) p).toNat +
            256 * (readByte (s.hostBuffer b) (p + 1)).toNat + 256 ^ 2 * (readByte (s.hostBuffer b) (p + 2)).toNat +
            256 ^ 3 * (readByte (s.hostBuffer b) (p + 3)).toNat) := fun b p hlt =>
        ⟨fun hh => ⟨_, step_read_buffer hp hin (.inl rfl) hlt hh, bufferValue_one _ _⟩,
          fun h4 hfit hh => ⟨_, step_read_buffer hp hin (.inr ⟨rfl, h4⟩) hfit hh, bufferValue_four _ _⟩⟩
      unfold State.byteWindows
      simp only [List.forall_mem_cons]
      exact ⟨hwindow .ibuf, hwindow .obuf, hwindow .ebuf, nofun⟩

end Sys2Proof.Machine
end

section
/-! PROOF. IBUF writes and the host-interface faults (20_memory.md R60 to R67; 60_exceptions.md R226). -/

namespace Sys2Proof.Machine

/-! ### IBUF -/

theorem bufferStore_one (m : Memory) (off : Nat) (v : U32) :
    bufferStore m 1 off v = writeByte m off (v.extractLsb' 0 8) := if_neg (by decide)

theorem bufferStore_four (m : Memory) (off : Nat) (v : U32) : bufferStore m 4 off v = writeBytes m off (wordBytes v) :=
  if_pos rfl

theorem toNat_byte (v : U32) (k : Nat) : (v.extractLsb' k 8).toNat = v.toNat / 2 ^ k % 256 := by
  rw [BitVec.extractLsb'_toNat, Nat.shiftRight_eq_div_pow]

theorem getD_wordBytes (v : U32) {j : Nat} (hj : j < 4) : ((wordBytes v).getD j 0).toNat = v.toNat / 2 ^ (8 * j) % 256 := by
  have hget : (wordBytes v).getD j 0 = v.extractLsb' (8 * j) 8 := by
    rcases j with _ | _ | _ | _ | j
    · rfl
    · rfl
    · rfl
    · rfl
    · omega
  rw [hget, toNat_byte]

/-- An access inside IBUF. -/
theorem reachBuffer_ibuf {p : Params} {w off : Nat} (hw : w = 1 ∨ (w = 4 ∧ off % 4 = 0)) (h : off + w ≤ p.ibufBytes) :
    reachBuffer p w (ibufBase + off) = .ok (.ibuf, off) := by
  have hlast : ibufBase + off + w - 1 = ibufBase + (off + w - 1) := by omega
  have hbase : ibufBase % 4 = 0 := rfl
  exact reachBuffer_of_mapped (hw.imp_right fun ⟨h4, hoff⟩ => ⟨h4, by omega⟩) (bufferAt_ibuf (by omega))
    (hlast ▸ bufferAt_ibuf (by omega))

theorem le_ibuf_address (off : Nat) : 0x20000 ≤ ibufBase + off := Nat.le_add_right_of_le (by decide)

theorem step_write_ibuf {s : State} {v : U32} {rest : List HostAccess} {w off : Nat} (hin : s.insideStep = false)
    (hw : w = 1 ∨ (w = 4 ∧ off % 4 = 0)) (hfit : off + w ≤ s.params.ibufBytes) (hsize : s.params.ibufBytes ≤ 1048562)
    (hh : s.host = .write w (BitVec.ofNat 32 (0x100000 + off)) v :: rest) :
    step s = .next { s with host := rest, ibuf := bufferStore s.ibuf w off v } := by
  rw [step_write hh, toNat_address (by omega)]
  exact hostWrite_ibuf (s := { s with host := rest }) hin (le_ibuf_address off) (reachBuffer_ibuf hw hfit) v

theorem step_read_ibuf {s : State} {rest : List HostAccess} {off : Nat} (hin : s.insideStep = false)
    (hfit : off < s.params.ibufBytes) (hsize : s.params.ibufBytes ≤ 1048562)
    (hh : s.host = .read 1 (BitVec.ofNat 32 (0x100000 + off)) :: rest) :
    step s = .next (State.answerRead { s with host := rest } (bufferValue s.ibuf 1 off)) := by
  rw [step_read hh, toNat_address (by omega)]
  exact hostRead_buffer (s := { s with host := rest }) (b := .ibuf) (off := off) hin (le_ibuf_address off)
    (reachBuffer_ibuf (.inl rfl) hfit)

/-- Settles O53: bytes of a word, lowest first. -/
theorem storedWordReadsBytewise : Obligations.StoredWordReadsBytewise := by
  constructor
  · intro s p v rest hin hp hsize hh
    have hstep := step_write_ibuf hin (.inl rfl) hp hsize hh
    rw [bufferStore_one] at hstep
    refine ⟨_, hstep, ?_, fun a ha => ?_, rfl⟩
    · refine (congrArg BitVec.toNat ((readByte_writeByte ..).trans (if_pos rfl))).trans ?_
      rw [toNat_byte, pow_zero, Nat.div_one]
    · exact (readByte_writeByte ..).trans (if_neg ha)
  · intro s p j v hin h4 hfit hsize hj hhost
    have hstep := step_write_ibuf (s := { s with host := [.write 4 (BitVec.ofNat 32 (0x100000 + p)) v] }) (rest := [])
      hin (.inr ⟨rfl, h4⟩) hfit hsize rfl
    rw [bufferStore_four] at hstep
    refine ⟨{ s with ibuf := writeBytes s.ibuf p (wordBytes v) }, _, hstep.trans ?_, fun a ha => ?_, rfl,
      step_read_ibuf (off := p + j) (rest := []) hin (show p + j < s.params.ibufBytes by omega) hsize
        (by rw [Nat.add_assoc]), ?_⟩
    · rw [← hhost]
    · refine (readByte_writeBytes ..).trans (if_neg ?_)
      rw [show (wordBytes v).length = 4 from rfl]
      omega
    · refine (bufferValue_one _ _).trans ?_
      rw [readByte_writeBytes, if_pos (by rw [show (wordBytes v).length = 4 from rfl]; omega), Nat.add_sub_cancel_left,
        getD_wordBytes v hj]

/-! ### Faults of the register region -/

theorem step_of_nextAccesses {s : State} {w : Nat} {a : U32} {f : Fault} (h : s.nextAccesses w a)
    (hread : ∀ rest, hostRead w a.toNat { s with host := rest } = .fault f)
    (hwrite : ∀ v rest, hostWrite w a.toNat v { s with host := rest } = .fault f) : step s = .fault f := by
  obtain ⟨v, rest, hh | hh⟩ := h
  · exact (step_read hh).trans (hread rest)
  · exact (step_write hh).trans (hwrite v rest)

/-- An access of the register region that reaches no register. -/
theorem step_of_reachRegister_error {s : State} {w : Nat} {a : U32} {f : Fault} (hin : s.insideStep = false)
    (ha : a.toNat < 0x20000) (hr : reachRegister s.params w a.toNat = .error f) (h : s.nextAccesses w a) :
    step s = .fault f := by
  have hregion : inRegisterRegion a.toNat = true := decide_eq_true ha
  refine step_of_nextAccesses h (fun rest => ?_) fun v rest => ?_
  · unfold hostRead
    rw [show State.insideStep { s with host := rest } = false from hin, hregion, hr]
    rfl
  · unfold hostWrite
    rw [show State.insideStep { s with host := rest } = false from hin, hregion, hr]
    rfl

theorem reachRegister_badWidth {p : Params} {w a : Nat} (h : w ≠ 4) : reachRegister p w a = .error .badWidth := if_pos h

theorem reachRegister_misaligned {p : Params} {a : Nat} (h : a % 4 ≠ 0) : reachRegister p 4 a = .error .misaligned :=
  (if_neg (by omega)).trans (if_pos h)

theorem reachRegister_unmapped {p : Params} {a : Nat} (h4 : a % 4 = 0) (h : registerAt p a = none) :
    reachRegister p 4 a = .error .unmapped := by
  unfold reachRegister
  rw [if_neg (by omega), if_neg (by omega), h]

theorem registerAt_of_unlisted {p : Params} {a : Nat} (hlt : a < 0x10000) (h : a ∉ mappedRegisters) :
    registerAt p a = none := by
  unfold registerAt
  rw [if_neg (show ¬ acksBase ≤ a from Nat.not_le.2 hlt)]
  cases hl : registerMap.lookup a with
  | none => rfl
  | some r => exact absurd (lookup_aligned hl).2.2 h

theorem registerAt_past_acks {p : Params} {a : Nat} (hge : 0x10000 + 4 * p.maxAcks ≤ a) : registerAt p a = none := by
  unfold registerAt acksBase
  rw [if_pos (by omega), if_neg (by omega)]

/-- The registers whose write is a fault (20_memory.md R62, access column). -/
def HostReg.isReadOnly : HostReg → Bool
  | .cmd | .evtDone | .arg0 | .arg1 | .arg2 | .numin _ | .cfg _ | .cfgNum _ _ => false
  | _ => true

theorem writeReg_of_isReadOnly {r : HostReg} (h : r.isReadOnly = true) (v : U32) (s : State) :
    writeReg r v s = .fault .readOnly := by
  cases r with
  | cmd | evtDone | arg0 | arg1 | arg2 | numin | cfg | cfgNum => cases h
  | _ => rfl

theorem lookup_readOnly {a : Nat} (h : a ∈ readOnlyRegisters) :
    ∃ r, registerMap.lookup a = some r ∧ r.isReadOnly = true := by
  have hall : ∀ a ∈ readOnlyRegisters, (registerMap.lookup a).any HostReg.isReadOnly = true := by decide
  have hany := hall a h
  cases hl : registerMap.lookup a with
  | none => rw [hl] at hany; cases hany
  | some r => rw [hl] at hany; exact ⟨r, rfl, hany⟩

/-- A write of a read-only register or of ACKS. -/
theorem step_write_readOnly {s : State} {a v : U32} {rest : List HostAccess} (hin : s.insideStep = false)
    (ha : a.toNat < 0x20000) (h4 : a.toNat % 4 = 0)
    (h : a.toNat ∈ readOnlyRegisters ∨ 0x10000 ≤ a.toNat ∧ a.toNat < 0x10000 + 4 * s.params.maxAcks)
    (hh : s.host = .write 4 a v :: rest) : step s = .fault .readOnly := by
  rw [step_write hh]
  rcases h with h | ⟨hlo, hhi⟩
  · obtain ⟨r, hl, hr⟩ := lookup_readOnly h
    exact (hostWrite_register { s with host := rest } v hl h4 (lookup_aligned hl).2.1 (.inl hin)).trans
      (writeReg_of_isReadOnly hr v _)
  · obtain ⟨i, hi⟩ : ∃ i, a.toNat = acksBase + 4 * i := ⟨(a.toNat - 0x10000) / 4, by unfold acksBase; omega⟩
    have hreach := reachRegister_ack (p := s.params) (i := i) (by unfold acksBase at hi; omega)
    unfold hostWrite
    rw [hi] at ha ⊢
    rw [show State.insideStep { s with host := rest } = false from hin, hreach,
      show inRegisterRegion (acksBase + 4 * i) = true from decide_eq_true ha]
    rfl

/-! ### Faults of the buffer region -/

/-- An access of the buffer region that reaches no buffer. -/
theorem step_of_reachBuffer_error {s : State} {w : Nat} {a : U32} {f : Fault} (hin : s.insideStep = false)
    (ha : 0x20000 ≤ a.toNat) (hr : reachBuffer s.params w a.toNat = .error f) (h : s.nextAccesses w a) :
    step s = .fault f := by
  have hregion := inRegisterRegion_of_le ha
  refine step_of_nextAccesses h (fun rest => ?_) fun v rest => ?_
  · unfold hostRead
    rw [show State.insideStep { s with host := rest } = false from hin, hregion, hr]
    rfl
  · unfold hostWrite
    rw [show State.insideStep { s with host := rest } = false from hin, hregion, hr]
    rfl

theorem reachBuffer_badWidth {p : Params} {w a : Nat} (h1 : w ≠ 1) (h4 : w ≠ 4) :
    reachBuffer p w a = .error .badWidth := if_pos ⟨h1, h4⟩

theorem reachBuffer_misaligned {p : Params} {a : Nat} (h : a % 4 ≠ 0) : reachBuffer p 4 a = .error .misaligned :=
  (if_neg (by omega)).trans (if_pos h)

theorem reachBuffer_unmapped {p : Params} {w a : Nat} (hw : w = 1 ∨ (w = 4 ∧ a % 4 = 0)) (h : bufferAt p a = none) :
    reachBuffer p w a = .error .unmapped := by
  unfold reachBuffer
  rw [if_neg (by omega), if_neg (by rcases hw with rfl | ⟨rfl, h⟩ <;> omega), h]

theorem bufferAt_outside {s : State} {a : Nat} (h : ∀ x ∈ s.byteWindows, a < x.1 ∨ x.1 + x.2.1 ≤ a) :
    bufferAt s.params a = none := by
  unfold State.byteWindows at h
  simp only [List.forall_mem_cons] at h
  obtain ⟨hi, ho, he, -⟩ := h
  unfold bufferAt ibufBase obufBase ebufBase
  rw [if_neg (by omega), if_neg (by omega), if_neg (by omega)]

/-- A write of OBUF or EBUF. -/
theorem step_write_buffer {s : State} {a v : U32} {rest : List HostAccess} {b : HostBuffer} {w off : Nat}
    (hp : s.params.wf) (hin : s.insideStep = false) (hb : b ≠ .ibuf) (hw : w = 1 ∨ (w = 4 ∧ a.toNat % 4 = 0))
    (ha : a.toNat = b.base + off) (hfit : off + w ≤ b.size s.params) (hh : s.host = .write w a v :: rest) :
    step s = .fault .readOnly := by
  obtain ⟨hlo, -, hbase⟩ := base_bounds b
  rw [step_write hh, ha]
  exact hostWrite_readOnly (s := { s with host := rest }) hin (by omega)
    (reachBuffer_of_fits hp (hw.imp_right fun ⟨h4, hal⟩ => ⟨h4, by omega⟩) hfit) hb v

/-! ### The commands' own faults -/

theorem step_write_cmd {s : State} {v : U32} {rest : List HostAccess} (hh : s.host = .write 4 0#32 v :: rest) :
    step s = issue v { s with host := rest } := (step_write hh).trans (hostWrite_cmd _ v)

theorem step_write_evtDone {s : State} {v : U32} {rest : List HostAccess} (hh : s.host = .write 4 0x194#32 v :: rest) :
    step s = writeEvtDone v { s with host := rest } := (step_write hh).trans (hostWrite_evtDone _ v)

theorem mayIssue_of_busy {s : State} (hd : 0 < s.depth) (h : s.inCallback = false ∨ s.params.maxNest ≤ s.depth) :
    s.mayIssue = false := by
  unfold State.mayIssue
  rw [decide_eq_false (by omega), Bool.false_or]
  rcases h with h | h
  · rw [h, Bool.false_and]
  · rw [decide_eq_false (by omega), Bool.and_false]

theorem issue_of_busy {s : State} (hm : s.mayIssue = false) (v : U32) :
    issue v s = if s.inCallback then .fault .nestingTooDeep else .fault .commandWhileRunning :=
  if_neg (by rw [hm]; exact Bool.false_ne_true)

theorem step_read_writeOnly {s : State} {rest : List HostAccess} (hin : s.insideStep = false)
    (h : s.host = .read 4 0#32 :: rest ∨ s.host = .read 4 0x194#32 :: rest) : step s = .fault .writeOnly := by
  rcases h with hh | hh
  · exact (step_read hh).trans (hostRead_register (r := .cmd) _ rfl rfl (by decide) hin)
  · exact (step_read hh).trans (hostRead_register (r := .evtDone) _ rfl rfl (by decide) hin)

/-- Settles O50: clause by clause. -/
theorem hostInterfaceFaults : Obligations.HostInterfaceFaults := by
  intro s v a rest
  refine ⟨fun hh hd hcb hnest => ?_, fun hh hd hcb => ?_, fun hh hcb => ?_, fun hin ha => ?_, fun hin ha => ?_,
    fun hin hp w hw hwin hh => ?_, fun hin h => step_read_writeOnly hin h⟩
  · rw [step_write_cmd hh, issue_of_busy (s := { s with host := rest }) (mayIssue_of_busy hd (.inr hnest))]
    exact if_pos hcb
  · rw [step_write_cmd hh, issue_of_busy (s := { s with host := rest }) (mayIssue_of_busy hd (.inl hcb))]
    exact if_neg (by rw [hcb]; exact Bool.false_ne_true)
  · rw [step_write_evtDone hh]
    exact if_neg (by rw [hcb]; exact Bool.false_ne_true)
  · exact ⟨fun w hw => step_of_reachRegister_error hin ha (reachRegister_badWidth hw),
      fun h4 => step_of_reachRegister_error hin ha (reachRegister_misaligned h4),
      fun h4 hlt hnot => step_of_reachRegister_error hin ha (reachRegister_unmapped h4 (registerAt_of_unlisted hlt hnot)),
      fun h4 hge _ => step_of_reachRegister_error hin ha (reachRegister_unmapped h4 (registerAt_past_acks hge)),
      fun h4 h => step_write_readOnly hin ha h4 h⟩
  · exact ⟨fun w h1 h4 => step_of_reachBuffer_error hin ha (reachBuffer_badWidth h1 h4),
      fun h4 => step_of_reachBuffer_error hin ha (reachBuffer_misaligned h4),
      fun w hw hout => step_of_reachBuffer_error hin ha (reachBuffer_unmapped hw (bufferAt_outside hout))⟩
  · rcases hwin with ⟨hlo, hhi⟩ | ⟨hlo, hhi⟩
    · exact step_write_buffer (b := .obuf) (off := a.toNat - 0x200000) hp hin (by decide) hw
        (Nat.add_sub_cancel' hlo).symm (show _ ≤ s.params.obufBytes by omega) hh
    · exact step_write_buffer (b := .ebuf) (off := a.toNat - 0x300000) hp hin (by decide) hw
        (Nat.add_sub_cancel' hlo).symm (show _ ≤ s.params.ebufBytes by omega) hh

end Sys2Proof.Machine
end

section
/-! PROOF. Who writes IBUF, OBUF, TIME and SEQUENCE (10_state.md R28, R29, R38; 20_memory.md R60). -/

namespace Sys2Proof.Machine

/-- IBUF, OBUF, TIME and SEQUENCE. -/
def State.owned (s : State) : Memory × Memory × NumWord × U16 := (s.ibuf, s.obuf, s.time, s.sequence)

/-! ### The shared operations -/

theorem owned_finish (s : State) (c : ResultCode) : (s.finish c).owned = s.owned := rfl

theorem owned_setBuffer (s : State) (b : BufSel) (B : SeqBuf) : (s.setBuffer b B).owned = s.owned := by
  cases b with
  | sent => rfl
  | recv => rfl
  | frag => rfl

theorem owned_fillSlot (s : State) (b : BufSel) (k : Nat) : (s.fillSlot b k).owned = s.owned := by
  cases b with
  | sent => rfl
  | recv => rfl
  | frag => rfl

theorem owned_reportSlot (s : State) (b : BufSel) (k : Nat) : (s.reportSlot b k).owned = s.owned := by
  cases b with
  | sent => rfl
  | recv => rfl
  | frag => rfl

theorem owned_recordReceive (s : State) (q : U16) (n : Nat) : (s.recordReceive q n).owned = s.owned := by
  rw [recordReceive_eq]
  rfl

theorem owned_ackWalk (s : State) (ack : U16) (bits : U32) (n : Nat) : (s.ackWalk ack bits n).owned = s.owned := by
  rw [ackWalk_eq]
  rfl

theorem owned_endReceive (s : State) (rebuilt : Option U16) (c : ResultCode) :
    (s.endReceive rebuilt c).owned = s.owned := by
  cases rebuilt with
  | none => rfl
  | some q => rfl

theorem owned_restoreEnclosing (s : State) : s.restoreEnclosing.owned = s.owned := by
  rw [State.restoreEnclosing_eq]
  rfl

theorem owned_transmit (s : State) (q : U16) (hdr payload : List Byte) : (s.transmit q hdr payload).owned = s.owned := by
  unfold State.transmit
  split
  · rfl
  · simp only
    split
    · rfl
    · rfl

theorem owned_regularPath (s : State) (b : List Byte) (rebuilt : Option U16) :
    (s.regularPath b rebuilt).owned = s.owned := by
  unfold State.regularPath
  simp only
  split
  · exact owned_endReceive _ _ _
  · exact owned_endReceive _ _ _
  · split
    · exact owned_endReceive _ _ _
    · rfl

theorem owned_checkSize {s : State} {run : State → State} (h : (run s).owned = s.owned) (b : List Byte)
    (rebuilt : Option U16) : (s.checkSize b rebuilt run).owned = s.owned := by
  unfold State.checkSize
  split
  · exact owned_endReceive _ _ _
  · exact h

/-! ### Reassembly -/

theorem owned_fragStore (h : FragmentHeader) (emb : Option RegularHeader) (payload : List Byte) (k : Nat) (s : State) :
    (fragStore h emb payload k s).2.owned = s.owned := by
  unfold fragStore
  split
  · rfl
  · simp only
    split
    · rfl
    · rfl

theorem owned_fragSlot {h : FragmentHeader} {s v : State} {k : Nat} (hs : fragSlot h s = .ok (k, v)) :
    v.owned = s.owned := by
  obtain ⟨-, ⟨-, rfl⟩ | ⟨-, B, -, rfl⟩⟩ := fragSlot_cases hs
  · rfl
  · rfl

theorem owned_fragAccept (b : List Byte) (h : FragmentHeader) (s : State) : (fragAccept b h s).2.owned = s.owned := by
  unfold fragAccept
  split
  · rfl
  split
  · rfl
  split
  · rfl
  · simp only
    split
    · rfl
    split
    · rfl
    split
    · rfl
    · next hs => exact (owned_fragStore _ _ _ _ _).trans (owned_fragSlot hs)

theorem owned_fragCore (b : List Byte) (s : State) : (fragCore b s).2.owned = s.owned := by
  unfold fragCore
  split
  · rfl
  · rfl
  · exact owned_fragAccept _ _ _

theorem owned_of_fragCore {b : List Byte} {s u : State} {o : FragOutcome} (h : fragCore b s = (o, u)) :
    u.owned = s.owned := by
  have := owned_fragCore b s
  rwa [h] at this

theorem owned_fragmentPath (s : State) (b : List Byte) : (s.fragmentPath b).owned = s.owned := by
  cases h : fragCore b s with
  | mk o u =>
    cases o with
    | ended c => rw [fragmentPath_of_ended h]; exact (owned_finish u c).trans (owned_of_fragCore h)
    | complete q pkt =>
      rw [fragmentPath_of_complete h]
      exact (owned_checkSize (owned_regularPath u pkt (some q)) pkt (some q)).trans (owned_of_fragCore h)

/-! ### Suspended commands -/

theorem owned_continueCommand (s : State) (p : Phase) (a : Bool) : (s.continueCommand p a).owned = s.owned := by
  cases p with
  | sendRegular q => exact owned_restoreEnclosing _
  | sendFragments q payload next total =>
    by_cases h : next < total
    · rw [continueCommand_sendFragments_of_lt s h]
      rfl
    · rw [continueCommand_sendFragments_of_not_lt s h]
      exact owned_restoreEnclosing _
  | deliver q ack bits n rebuilt =>
    refine (owned_restoreEnclosing _).trans ?_
    cases a with
    | false => exact owned_endReceive _ _ _
    | true =>
      rw [answered_true]
      exact (owned_endReceive _ _ _).trans ((owned_ackWalk _ _ _ _).trans (owned_recordReceive _ _ _))

/-! ### Commands -/

/-- What ends a command at a gate does not touch, a gated command keeps when it keeps it past its gate. -/
theorem gated_keeps {α : Type} {f : State → α} (hf : ∀ (s : State) c, f (s.finish c) = f s) {s : State}
    {run : State → State} (h : f (run s) = f s) : f (s.gated run) = f s := by
  unfold State.gated
  split
  · exact h
  · exact hf s _

theorem withInput_keeps {α : Type} {f : State → α} (hf : ∀ (s : State) c, f (s.finish c) = f s) {s : State}
    {run : List Byte → State → State} (h : ∀ b, f (run b s) = f s) : f (s.withInput run) = f s := by
  unfold State.withInput
  split
  · exact h _
  · exact hf s _

/-- The commands that may write OBUF, TIME or SEQUENCE. -/
def ownsSome : Instr → Bool
  | .hdrEnc _ | .fhdrEnc _ | .fragRx | .epUpdate | .epCreate | .epReset | .epSend => true
  | _ => false

theorem owned_exec {i : Instr} {s t : State} (hi : ownsSome i = false) (h : exec i s = .next t) : t.owned = s.owned := by
  cases i with
  | hdrEnc | fhdrEnc | fragRx | epUpdate | epCreate | epReset | epSend => cases hi
  | seqGt | seqLt | seqInc => cases h; rfl
  | sbInsert b q =>
    cases h
    split
    · rfl
    · refine gated_keeps owned_finish ?_
      unfold runSbInsert
      split
      · rfl
      · exact (owned_fillSlot _ _ _).trans (owned_setBuffer _ _ _)
  | sbFind b q =>
    cases h
    refine gated_keeps owned_finish ?_
    unfold runSbFind
    split
    · rfl
    · exact owned_reportSlot _ _ _
  | sbRemove b q =>
    cases h
    refine gated_keeps owned_finish ?_
    unfold runSbRemove
    split
    · rfl
    · exact owned_setBuffer _ _ _
  | sbTestInsert | sbGenack | statUpdate | epAckClear =>
    cases h
    exact gated_keeps owned_finish rfl
  | sbReset b =>
    cases h
    exact gated_keeps owned_finish (owned_setBuffer _ _ _)
  | hdrDec =>
    cases h
    refine withInput_keeps owned_finish fun b => ?_
    unfold runHdrDec
    split
    · rfl
    · rfl
    · rfl
  | fhdrDec =>
    cases h
    refine withInput_keeps owned_finish fun b => ?_
    unfold runFhdrDec
    split
    · rfl
    · rfl
    · rfl
  | statSmooth =>
    cases h
    refine gated_keeps owned_finish ?_
    unfold runStatSmooth
    split
    · split
      · rfl
      · rfl
    · rfl
  | rttFold =>
    cases h
    refine gated_keeps owned_finish ?_
    unfold runRttFold
    split
    · rfl
    · rfl
  | epReceive =>
    cases h
    refine gated_keeps owned_finish (withInput_keeps owned_finish fun b => owned_checkSize ?_ b none)
    split
    · exact owned_fragmentPath _ _
    · exact owned_regularPath _ _ _

/-- No command writes IBUF. -/
theorem ibuf_exec {i : Instr} {s t : State} (h : exec i s = .next t) : t.ibuf = s.ibuf := by
  obtain ⟨u, hu, hends⟩ := exec_ends i s
  obtain rfl : u = t := Host.Outcome.next.inj (hu.symm.trans h)
  rcases hends with hu | ⟨v, e, p, hv, -, rfl⟩
  · exact hu.frame.2.2.2.2.2.2.2.2.1
  · exact hv.frame.2.2.2.2.2.2.2.2.1

/-- OBUF is written by HDR_ENC, FHDR_ENC and FRAG_RX. -/
theorem obuf_exec {i : Instr} {s t : State} (h : exec i s = .next t) (ht : t.obuf ≠ s.obuf) :
    (∃ q, i = .hdrEnc q) ∨ (∃ q, i = .fhdrEnc q) ∨ i = .fragRx := by
  cases i with
  | hdrEnc q => exact .inl ⟨q, rfl⟩
  | fhdrEnc q => exact .inr (.inl ⟨q, rfl⟩)
  | fragRx => exact .inr (.inr rfl)
  | epCreate =>
    refine absurd ?_ ht
    cases h
    split
    · rfl
    · split
      · rfl
      · rfl
  | epUpdate =>
    refine absurd ?_ ht
    cases h
    refine gated_keeps (f := State.obuf) (fun _ _ => rfl) ?_
    unfold runEpUpdate
    split
    · rfl
    · rfl
  | epReset =>
    refine absurd ?_ ht
    cases h
    refine gated_keeps (f := State.obuf) (fun _ _ => rfl) ?_
    unfold State.clearStats
    split
    · rfl
    · rfl
  | epSend =>
    refine absurd ?_ ht
    cases h
    refine gated_keeps (f := State.obuf) (fun _ _ => rfl) (withInput_keeps (f := State.obuf) (fun _ _ => rfl) fun b => ?_)
    unfold runEpSend
    split
    · rfl
    · refine (congrArg (·.2.1) (owned_transmit _ _ _ _)).trans ?_
      rw [allocate_eq]
      rfl
  | _ => exact absurd (congrArg (·.2.1) (owned_exec rfl h)) ht

theorem owned_runFragRx (b : List Byte) (s : State) :
    (runFragRx b s).time = s.time ∧ (runFragRx b s).sequence = s.sequence := by
  cases h : fragCore b s with
  | mk o u =>
    have howned := owned_of_fragCore h
    cases o with
    | ended c =>
      rw [runFragRx_of_ended h]
      exact ⟨congrArg (·.2.2.1) howned, congrArg (·.2.2.2) howned⟩
    | complete q pkt =>
      rw [runFragRx_of_complete h]
      exact ⟨congrArg (·.2.2.1) howned, congrArg (·.2.2.2) howned⟩

/-- TIME is written by EP_UPDATE and the resets. -/
theorem time_exec {i : Instr} {s t : State} (h : exec i s = .next t) (ht : t.time ≠ s.time) :
    i = .epUpdate ∨ i = .epCreate ∨ i = .epReset := by
  cases i with
  | epUpdate => exact .inl rfl
  | epCreate => exact .inr (.inl rfl)
  | epReset => exact .inr (.inr rfl)
  | hdrEnc q => cases h; exact absurd rfl ht
  | fhdrEnc q =>
    refine absurd ?_ ht
    cases h
    split
    · rfl
    · rfl
  | fragRx =>
    refine absurd ?_ ht
    cases h
    exact gated_keeps (f := State.time) (fun _ _ => rfl)
      (withInput_keeps (f := State.time) (fun _ _ => rfl) fun b => (owned_runFragRx b s).1)
  | epSend =>
    refine absurd ?_ ht
    cases h
    refine gated_keeps (f := State.time) (fun _ _ => rfl) (withInput_keeps (f := State.time) (fun _ _ => rfl) fun b => ?_)
    unfold runEpSend
    split
    · rfl
    · refine (congrArg (·.2.2.1) (owned_transmit _ _ _ _)).trans ?_
      rw [allocate_eq]
      rfl
  | _ => exact absurd (congrArg (·.2.2.1) (owned_exec rfl h)) ht

/-- SEQUENCE is written by EP_SEND and the resets. -/
theorem sequence_exec {i : Instr} {s t : State} (h : exec i s = .next t) (ht : t.sequence ≠ s.sequence) :
    i = .epSend ∨ i = .epCreate ∨ i = .epReset := by
  cases i with
  | epSend => exact .inl rfl
  | epCreate => exact .inr (.inl rfl)
  | epReset => exact .inr (.inr rfl)
  | hdrEnc q => cases h; exact absurd rfl ht
  | fhdrEnc q =>
    refine absurd ?_ ht
    cases h
    split
    · rfl
    · rfl
  | fragRx =>
    refine absurd ?_ ht
    cases h
    exact gated_keeps (f := State.sequence) (fun _ _ => rfl)
      (withInput_keeps (f := State.sequence) (fun _ _ => rfl) fun b => (owned_runFragRx b s).2)
  | epUpdate =>
    refine absurd ?_ ht
    cases h
    refine gated_keeps (f := State.sequence) (fun _ _ => rfl) ?_
    unfold runEpUpdate
    split
    · rfl
    · rfl
  | _ => exact absurd (congrArg (·.2.2.2) (owned_exec rfl h)) ht

/-! ### One step -/

theorem nextCommand_of_host {s : State} {w : U32} {rest : List HostAccess} {i : Instr}
    (hh : s.host = .write 4 0 w :: rest) (hm : s.mayIssue = true) (hd : decode w = .ok i) : s.nextCommand = some i := by
  unfold State.nextCommand
  rw [hh]
  exact (if_pos hm).trans (by rw [hd]; rfl)

/-- A step that writes none of the four. -/
theorem owned_unchanged {s t : State} (h : t.owned = s.owned) {p q r x : Prop} :
    (t.ibuf ≠ s.ibuf → p) ∧ (t.obuf ≠ s.obuf → q) ∧ (t.time ≠ s.time → r) ∧ (t.sequence ≠ s.sequence → x) := by
  obtain ⟨hi, ho, ht, hs⟩ : t.ibuf = s.ibuf ∧ t.obuf = s.obuf ∧ t.time = s.time ∧ t.sequence = s.sequence := by
    simpa only [State.owned, Prod.mk.injEq] using h
  exact ⟨fun h => absurd hi h, fun h => absurd ho h, fun h => absurd ht h, fun h => absurd hs h⟩

/-- Settles O55: the cases of a step. -/
theorem onlyTheirOwnersWrite : Obligations.OnlyTheirOwnersWrite := by
  intro s t hstep
  rcases step_cases hstep with ⟨-, rfl⟩ | ⟨x, rest, hh, hcase⟩
  · exact owned_unchanged rfl
  cases hcase with
  | read v hx ht => exact owned_unchanged (by rw [ht]; rfl)
  | operand a0 a1 a2 num ht => exact owned_unchanged (by rw [ht]; rfl)
  | config c ht =>
    refine owned_unchanged ?_
    rw [ht]
    unfold State.writeCfg
    split
    · rfl
    · rfl
  | input width off a v hx hlo hhi hfit ht =>
    rw [ht]
    exact ⟨fun _ => ⟨width, a, v, rest, hx ▸ hh, hlo, hhi⟩, fun h => absurd rfl h, fun h => absurd rfl h,
      fun h => absurd rfl h⟩
  | command w hx hm ht =>
    rcases runWord_eq_next ht with ⟨i, hd, hexec⟩ | ⟨-, rfl⟩
    · have hnext : s.nextCommand = some i := nextCommand_of_host (hx ▸ hh) hm hd
      exact ⟨fun h => absurd (ibuf_exec hexec) h, fun h => ⟨i, hnext, obuf_exec hexec h⟩,
        fun h => ⟨i, hnext, time_exec hexec h⟩, fun h => ⟨i, hnext, sequence_exec hexec h⟩⟩
    · exact owned_unchanged rfl
  | answer v hx hc ht =>
    obtain ⟨f, below, -, rfl⟩ := resume_eq_next ht
    exact owned_unchanged (owned_continueCommand _ _ _)

end Sys2Proof.Machine
end

section
/-! PROOF. NUM arithmetic: the exact values of binary64 words, their order, and one rounding (00_scope.md R8, R11). -/

namespace Sys2Proof.Machine

/-! ### Exact values -/

/-- The exact value of a finite word counts 2^-1074. -/
theorem numExact_binary64_iff {a : NumWord} {x : ℚ} :
    numExact .binary64 a = some x ↔ b64Finite a = true ∧ x = b64Value a / 2 ^ 1074 := by
  have hval : (mkRat (b64Value a) (2 ^ 1074) : ℚ) = b64Value a / 2 ^ 1074 := by
    rw [Rat.mkRat_eq_div, Nat.cast_pow, Nat.cast_ofNat]
  cases h : b64Finite a with
  | true =>
    rw [numExact_binary64 h, hval, Option.some_inj]
    exact ⟨fun he => ⟨rfl, he.symm⟩, fun he => he.2.symm⟩
  | false =>
    rw [show numExact .binary64 a = none from if_neg (by rw [h]; exact Bool.false_ne_true)]
    exact ⟨nofun, fun he => nomatch he.1⟩

theorem b64Value_eq (a : NumWord) :
    b64Value a = if b64Sign a then -(b64MagOf (b64Low a) : Int) else (b64MagOf (b64Low a) : Int) := by
  unfold b64Value
  rw [b64Mag_eq]

theorem b64Key_eq (a : NumWord) : b64Key a = if b64Sign a then -(b64Low a : Int) else (b64Low a : Int) := rfl

theorem b64MagOf_zero : b64MagOf 0 = 0 := rfl

theorem b64MagOf_pos {L : Nat} : 0 < b64MagOf L ↔ 0 < L := by
  have h := b64MagOf_lt_iff (L := 0) (L' := L)
  rwa [b64MagOf_zero] at h

theorem b64IsNan_of_finite {a : NumWord} (h : b64Finite a = true) : b64IsNan a = false :=
  numIsNan_of_finite (f := .binary64) ((numFinite_binary64 a).trans h)

theorem b64IsInf_of_finite {a : NumWord} (h : b64Finite a = true) : b64IsInf a = false := by
  unfold b64IsInf
  rw [Bool.and_eq_false_iff]
  exact .inl (decide_eq_false (of_decide_eq_true h))

/-! ### Order -/

/-- The order of the keys is the order of the values. -/
theorem b64Key_lt_iff (a b : NumWord) : b64Key a < b64Key b ↔ b64Value a < b64Value b := by
  rw [b64Value_eq, b64Value_eq, b64Key_eq, b64Key_eq]
  have hlt := b64MagOf_lt_iff (L := b64Low a) (L' := b64Low b)
  have hgt := b64MagOf_lt_iff (L := b64Low b) (L' := b64Low a)
  have ha := b64MagOf_pos (L := b64Low a)
  have hb := b64MagOf_pos (L := b64Low b)
  generalize b64MagOf (b64Low a) = ma at *
  generalize b64MagOf (b64Low b) = mb at *
  cases b64Sign a with
  | false =>
    cases b64Sign b with
    | false => simp only [Bool.false_eq_true, if_false]; omega
    | true => simp only [Bool.false_eq_true, if_false, if_true]; omega
  | true =>
    cases b64Sign b with
    | false => simp only [Bool.false_eq_true, if_false, if_true]; omega
    | true => simp only [if_true]; omega

theorem b64Key_eq_iff (a b : NumWord) : b64Key a = b64Key b ↔ b64Value a = b64Value b := by
  have h1 := b64Key_lt_iff a b
  have h2 := b64Key_lt_iff b a
  omega

theorem pow_unit_pos : (0 : ℚ) < 2 ^ 1074 := pow_pos two_pos _

theorem value_lt_iff (v w : Int) : (v : ℚ) / 2 ^ 1074 < w / 2 ^ 1074 ↔ v < w := by
  rw [div_lt_div_iff_of_pos_right pow_unit_pos, Int.cast_lt]

theorem value_eq_iff (v w : Int) : (v : ℚ) / 2 ^ 1074 = w / 2 ^ 1074 ↔ v = w := by
  rw [div_left_inj' pow_unit_pos.ne', Int.cast_inj]

theorem b64Lt_iff {a b : NumWord} {x y : ℚ} (ha : numExact .binary64 a = some x) (hb : numExact .binary64 b = some y) :
    b64Lt a b = true ↔ x < y := by
  obtain ⟨hfa, rfl⟩ := numExact_binary64_iff.1 ha
  obtain ⟨hfb, rfl⟩ := numExact_binary64_iff.1 hb
  unfold b64Lt
  rw [b64IsNan_of_finite hfa, b64IsNan_of_finite hfb, Bool.not_false, Bool.true_and, Bool.true_and, decide_eq_true_iff,
    b64Key_lt_iff, value_lt_iff]

theorem b64Eq_iff {a b : NumWord} {x y : ℚ} (ha : numExact .binary64 a = some x) (hb : numExact .binary64 b = some y) :
    b64Eq a b = true ↔ x = y := by
  obtain ⟨hfa, rfl⟩ := numExact_binary64_iff.1 ha
  obtain ⟨hfb, rfl⟩ := numExact_binary64_iff.1 hb
  unfold b64Eq
  rw [b64IsNan_of_finite hfa, b64IsNan_of_finite hfb, Bool.not_false, Bool.true_and, Bool.true_and, decide_eq_true_iff,
    b64Key_eq_iff, value_eq_iff]

/-! ### Sign -/

theorem b64Low_eq_mod (a : NumWord) : b64Low a = a.toNat % 2 ^ 63 := by
  unfold b64Low
  rw [BitVec.extractLsb'_toNat, Nat.shiftRight_zero]

theorem b64Low_congr {a b : NumWord} (h : ∀ i, i < 63 → a.getLsbD i = b.getLsbD i) : b64Low a = b64Low b := by
  unfold b64Low
  refine congrArg BitVec.toNat (BitVec.eq_of_getLsbD_eq fun i hi => ?_)
  rw [BitVec.getLsbD_extractLsb', BitVec.getLsbD_extractLsb', Nat.zero_add, h i hi]

theorem b64Low_neg (a : NumWord) : b64Low (b64Neg a) = b64Low a := by
  have hmask : ∀ i, i < 63 → (0x8000000000000000#64).getLsbD i = false := by decide
  refine b64Low_congr fun i hi => ?_
  rw [b64Neg, BitVec.getLsbD_xor, hmask i hi, Bool.xor_false]

theorem b64Sign_neg (a : NumWord) : b64Sign (b64Neg a) = !b64Sign a := by
  unfold b64Sign
  rw [b64Neg, BitVec.getLsbD_xor, show (0x8000000000000000#64).getLsbD 63 = true from rfl, Bool.xor_true]

theorem b64Low_abs (a : NumWord) : b64Low (b64Abs a) = b64Low a := by
  have hmask : ∀ i, i < 63 → (0x7FFFFFFFFFFFFFFF#64).getLsbD i = true := by decide
  refine b64Low_congr fun i hi => ?_
  rw [b64Abs, BitVec.getLsbD_and, hmask i hi, Bool.and_true]

theorem b64Sign_abs (a : NumWord) : b64Sign (b64Abs a) = false := by
  unfold b64Sign
  rw [b64Abs, BitVec.getLsbD_and, show (0x7FFFFFFFFFFFFFFF#64).getLsbD 63 = false from rfl, Bool.and_false]

theorem b64Finite_congr {a b : NumWord} (h : b64Low a = b64Low b) : b64Finite a = b64Finite b := by
  rw [Bool.eq_iff_iff, b64Finite_iff, b64Finite_iff, h]

theorem b64Value_neg (a : NumWord) : b64Value (b64Neg a) = -b64Value a := by
  rw [b64Value_eq, b64Value_eq, b64Low_neg, b64Sign_neg]
  cases b64Sign a with
  | false => rfl
  | true => exact (Int.neg_neg _).symm

theorem b64Value_abs (a : NumWord) : b64Value (b64Abs a) = |b64Value a| := by
  rw [b64Value_eq, b64Value_eq, b64Low_abs, b64Sign_abs]
  cases b64Sign a with
  | false => exact (abs_of_nonneg (Int.natCast_nonneg _)).symm
  | true => exact ((abs_neg _).trans (abs_of_nonneg (Int.natCast_nonneg _))).symm

theorem numExact_neg {a : NumWord} {x : ℚ} (h : numExact .binary64 a = some x) :
    numExact .binary64 (b64Neg a) = some (-x) := by
  obtain ⟨hf, rfl⟩ := numExact_binary64_iff.1 h
  refine numExact_binary64_iff.2 ⟨(b64Finite_congr (b64Low_neg a)).trans hf, ?_⟩
  rw [b64Value_neg, Int.cast_neg, neg_div]

theorem numExact_abs {a : NumWord} {x : ℚ} (h : numExact .binary64 a = some x) :
    numExact .binary64 (b64Abs a) = some |x| := by
  obtain ⟨hf, rfl⟩ := numExact_binary64_iff.1 h
  refine numExact_binary64_iff.2 ⟨(b64Finite_congr (b64Low_abs a)).trans hf, ?_⟩
  rw [b64Value_abs, Int.cast_abs, abs_div, abs_of_pos pow_unit_pos]

/-! ### Comparisons of every format -/

section Compare

variable {f : NumFormat} {a b : NumWord} {x y : ℚ} (ha : numExact f a = some x) (hb : numExact f b = some y)

include ha hb

theorem numLt_iff : numLt f a b = true ↔ x < y := by
  cases f with
  | binary64 => exact b64Lt_iff ha hb
  | other id => rw [numLt, numCompare_other ha hb]; exact decide_eq_true_iff

theorem numEq_iff : numEq f a b = true ↔ x = y := by
  cases f with
  | binary64 => exact b64Eq_iff ha hb
  | other id => rw [numEq, numCompare_other ha hb]; exact decide_eq_true_iff

theorem numAbsLt_iff : numAbsLt f a b = true ↔ |x| < y := by
  cases f with
  | binary64 => exact b64Lt_iff (numExact_abs ha) hb
  | other id => rw [numAbsLt, numCompare_other ha hb]; exact decide_eq_true_iff

theorem numLtAbs_iff : numLtAbs f a b = true ↔ x < |y| := by
  cases f with
  | binary64 => exact b64Lt_iff ha (numExact_abs hb)
  | other id => rw [numLtAbs, numCompare_other ha hb]; exact decide_eq_true_iff

end Compare

/-! ### Rounding a ratio -/

theorem roundEven_mul {p d c : Nat} (hc : 0 < c) : roundEven (p * c) (d * c) = roundEven p d := by
  unfold roundEven
  simp only [Nat.mul_div_mul_right _ _ hc, Nat.mul_mod_mul_right, ← Nat.mul_assoc, Nat.mul_lt_mul_right hc,
    Nat.mul_left_inj hc.ne']

theorem roundLow_mul {p q c : Nat} (hc : 0 < c) : roundLow (p * c) (q * c) = roundLow p q := by
  have hscale : roundScale (p * c) (q * c) = roundScale p q := by
    unfold roundScale
    rw [Nat.mul_div_mul_right _ _ hc]
  unfold roundLow roundSig
  rw [hscale, Nat.mul_right_comm, roundEven_mul hc]

/-- Rounding is a function of the ratio. -/
theorem roundLow_congr {p q p' q' : Nat} (hq : 0 < q) (hq' : 0 < q') (h : p * q' = p' * q) :
    roundLow p q = roundLow p' q' := by
  rw [← roundLow_mul (p := p) (q := q) hq', ← roundLow_mul (p := p') (q := q') hq, h, Nat.mul_comm q q']

theorem roundLow_zero {q : Nat} (hq : 0 < q) : roundLow 0 q = 0 := by
  have hscale : roundScale 0 q = 0 := by
    unfold roundScale
    rw [Nat.zero_div]
    rfl
  unfold roundLow roundSig roundEven
  rw [hscale, Nat.zero_mul, Nat.zero_div, Nat.zero_mod, if_neg (by omega)]

/-- A zero of either sign has the value 0. -/
theorem numExact_pack_zero (s : Bool) : numExact .binary64 (b64Pack s 0) = some 0 := by
  have hlow := b64Low_pack s 0 (by decide)
  refine numExact_binary64_iff.2 ⟨(b64Finite_iff _).2 (by rw [hlow]; decide), ?_⟩
  rw [b64Value_eq, hlow, b64MagOf_zero]
  cases b64Sign (b64Pack s 0) <;> simp

theorem b64Round_zero (s : Bool) {q : Nat} (hq : 0 < q) : b64Round s 0 q = b64Pack s 0 := by
  rw [b64Round_eq, roundLow_zero hq, Nat.zero_min]

end Sys2Proof.Machine
end

section
/-! PROOF. One rounding per operation, and what the rounding of binary64 is (00_scope.md R8, R11). -/

namespace Sys2Proof.Machine

/-! ### The operations of binary64 -/

/-- `r` is `z` rounded once; a zero of either sign has one value. -/
def roundedFrom (f : NumFormat) (r : NumWord) (z : ℚ) : Prop :=
  (z ≠ 0 → r = numRounded f z) ∧ numExact f r = numExact f (numRounded f z)

theorem roundedFrom_numRounded (f : NumFormat) (z : ℚ) : roundedFrom f (numRounded f z) z := ⟨fun _ => rfl, rfl⟩

/-- The magnitude of a rational in units of 2^-1074. -/
theorem abs_mul_unit (q : ℚ) : |q| * 2 ^ 1074 = ((q.num.natAbs * 2 ^ 1074 : Nat) : ℚ) / q.den := by
  have habs : |q| = (q.num.natAbs : ℚ) / q.den := by
    rw [Nat.cast_natAbs, Int.cast_abs, ← Nat.abs_cast q.den, ← abs_div, Rat.num_div_den]
  rw [habs, Nat.cast_mul, Nat.cast_pow, Nat.cast_ofNat, div_mul_eq_mul_div]

/-- A magnitude `p / q` in units of 2^-1074, as the ratio `numRounded` rounds. -/
theorem ratio_eq {p q : Nat} {z : ℚ} (hq : 0 < q) (h : |z| * 2 ^ 1074 = p / q) :
    p * z.den = z.num.natAbs * 2 ^ 1074 * q := by
  rw [abs_mul_unit, div_eq_div_iff (Nat.cast_ne_zero.2 z.den_nz) (Nat.cast_ne_zero.2 hq.ne')] at h
  refine Nat.cast_injective (R := ℚ) ?_
  rw [Nat.cast_mul, Nat.cast_mul (_ * _)]
  exact h.symm

theorem numRounded_zero : numRounded .binary64 0 = b64Pack false 0 := by
  show b64Round (decide ((0 : ℚ) < 0)) ((0 : ℚ).num.natAbs * 2 ^ 1074) (0 : ℚ).den = b64Pack false 0
  rw [Rat.num_zero, Int.natAbs_zero, Nat.zero_mul, decide_eq_false (lt_irrefl 0), b64Round_zero false (Rat.den_pos 0)]

/-- A magnitude rounded once. -/
theorem roundedFrom_b64Round {s : Bool} {p q : Nat} {z : ℚ} (hq : 0 < q) (h : |z| * 2 ^ 1074 = p / q)
    (hs : z ≠ 0 → s = decide (z < 0)) : roundedFrom .binary64 (b64Round s p q) z := by
  by_cases hz : z = 0
  · subst hz
    have hp : p = 0 := by
      rw [abs_zero, zero_mul, eq_comm, div_eq_zero_iff, Nat.cast_eq_zero, Nat.cast_eq_zero] at h
      exact h.resolve_right hq.ne'
    refine ⟨fun h => absurd rfl h, ?_⟩
    rw [hp, b64Round_zero s hq, numRounded_zero, numExact_pack_zero, numExact_pack_zero]
  · have hr : b64Round s p q = numRounded .binary64 z := by
      have hlow := roundLow_congr hq z.den_pos (ratio_eq hq h)
      show b64Round s p q = b64Round (decide (z < 0)) (z.num.natAbs * 2 ^ 1074) z.den
      rw [b64Round_eq, b64Round_eq, hs hz, hlow]
    exact ⟨fun _ => hr, congrArg _ hr⟩

theorem abs_value_mul (v : Int) : |(v : ℚ) / 2 ^ 1074| * 2 ^ 1074 = (v.natAbs : ℚ) := by
  rw [abs_div, abs_of_pos pow_unit_pos, div_mul_cancel₀ _ pow_unit_pos.ne', Nat.cast_natAbs, Int.cast_abs]

section Operations

variable {a b : NumWord} {x y : ℚ} (ha : numExact .binary64 a = some x) (hb : numExact .binary64 b = some y)

include ha hb

theorem roundedFrom_b64Add : roundedFrom .binary64 (b64Add a b) (x + y) := by
  obtain ⟨hfa, rfl⟩ := numExact_binary64_iff.1 ha
  obtain ⟨hfb, rfl⟩ := numExact_binary64_iff.1 hb
  have hsum : (b64Value a : ℚ) / 2 ^ 1074 + b64Value b / 2 ^ 1074 = ((b64Value a + b64Value b : Int) : ℚ) / 2 ^ 1074 := by
    rw [Int.cast_add, add_div]
  unfold b64Add
  rw [b64IsNan_of_finite hfa, b64IsNan_of_finite hfb, b64IsInf_of_finite hfa, b64IsInf_of_finite hfb, hsum]
  simp only [Bool.or_self, Bool.false_eq_true, if_false]
  generalize b64Value a + b64Value b = v
  by_cases hv : v = 0
  · rw [if_pos hv, hv, Int.cast_zero, zero_div]
    refine ⟨fun h => absurd rfl h, ?_⟩
    rw [numRounded_zero, numExact_pack_zero, numExact_pack_zero]
  · rw [if_neg hv]
    refine roundedFrom_b64Round Nat.one_pos ?_ fun _ => ?_
    · rw [abs_value_mul, Nat.cast_one, div_one]
    · rw [decide_eq_decide, div_neg_iff]
      exact ⟨fun h => .inr ⟨Int.cast_lt_zero.2 h, pow_unit_pos⟩,
        fun h => Int.cast_lt_zero.1 (h.resolve_left fun h' => absurd h'.2 pow_unit_pos.not_gt).1⟩

theorem roundedFrom_b64Sub : roundedFrom .binary64 (b64Sub a b) (x - y) := by
  rw [sub_eq_add_neg]
  exact roundedFrom_b64Add ha (numExact_neg hb)

end Operations

/-- The value of a finite word has its sign and its magnitude. -/
theorem value_sign_mag {a : NumWord} {x : ℚ} (h : numExact .binary64 a = some x) :
    |x| * 2 ^ 1074 = b64Mag a ∧ (x ≠ 0 → b64Sign a = decide (x < 0)) := by
  obtain ⟨-, rfl⟩ := numExact_binary64_iff.1 h
  have hnat : (b64Value a).natAbs = b64Mag a := by
    unfold b64Value
    split
    · rw [Int.natAbs_neg, Int.natAbs_natCast]
    · rw [Int.natAbs_natCast]
  refine ⟨by rw [abs_value_mul, hnat], fun hne => ?_⟩
  have hpos : 0 < b64Mag a := by
    rw [← hnat, Int.natAbs_pos]
    rintro h0
    rw [h0, Int.cast_zero, zero_div] at hne
    exact hne rfl
  have hneg : ((b64Value a : ℚ) / 2 ^ 1074 < 0) ↔ b64Value a < 0 := by
    rw [← zero_div (2 ^ 1074 : ℚ), ← Int.cast_zero, value_lt_iff]
  rw [Bool.eq_iff_iff, decide_eq_true_iff, hneg]
  unfold b64Value
  cases b64Sign a with
  | false => simp
  | true => simp only [if_true, true_iff]; omega

/-- The sign of a product or a quotient. -/
theorem sign_xor {s t : Bool} {x y z : ℚ} (hs : x ≠ 0 → s = decide (x < 0)) (ht : y ≠ 0 → t = decide (y < 0))
    (hx : x ≠ 0) (hy : y ≠ 0) (hz : z < 0 ↔ (x < 0 ∧ 0 < y) ∨ (0 < x ∧ y < 0)) : (s != t) = decide (z < 0) := by
  rw [hs hx, ht hy, Bool.eq_iff_iff, decide_eq_true_iff, hz, bne_iff_ne, ne_eq, decide_eq_decide]
  rcases lt_or_gt_of_ne hx with h | h
  · have := h.not_gt
    rcases lt_or_gt_of_ne hy with h' | h'
    · simp [h, h', h'.not_gt, this]
    · simp [h, h', h'.not_gt, this]
  · have := h.not_gt
    rcases lt_or_gt_of_ne hy with h' | h'
    · simp [h, h', h'.not_gt, this]
    · simp [h, h', h'.not_gt, this]

section Operations

variable {a b : NumWord} {x y : ℚ} (ha : numExact .binary64 a = some x) (hb : numExact .binary64 b = some y)

include ha hb

theorem roundedFrom_b64Mul : roundedFrom .binary64 (b64Mul a b) (x * y) := by
  obtain ⟨hma, hsa⟩ := value_sign_mag ha
  obtain ⟨hmb, hsb⟩ := value_sign_mag hb
  have hfa := (numExact_binary64_iff.1 ha).1
  have hfb := (numExact_binary64_iff.1 hb).1
  unfold b64Mul
  simp only [b64IsNan_of_finite hfa, b64IsNan_of_finite hfb, b64IsInf_of_finite hfa, b64IsInf_of_finite hfb,
    Bool.or_self, Bool.false_eq_true, if_false]
  refine roundedFrom_b64Round (pow_pos Nat.two_pos 1074) ?_ fun hne => ?_
  · have hmag : b64Sig a * b64Sig b * 2 ^ (b64Scale a + b64Scale b) = b64Mag a * b64Mag b := by
      unfold b64Mag
      rw [pow_add, Nat.mul_mul_mul_comm]
    rw [hmag, Nat.cast_mul, ← hma, ← hmb, abs_mul, Nat.cast_pow, Nat.cast_ofNat]
    field_simp
  · obtain ⟨hx, hy⟩ := mul_ne_zero_iff.1 hne
    refine sign_xor hsa hsb hx hy ?_
    rw [mul_neg_iff, or_comm]

theorem roundedFrom_b64Div (hy : y ≠ 0) : roundedFrom .binary64 (b64Div a b) (x / y) := by
  obtain ⟨hma, hsa⟩ := value_sign_mag ha
  obtain ⟨hmb, hsb⟩ := value_sign_mag hb
  have hfa := (numExact_binary64_iff.1 ha).1
  have hfb := (numExact_binary64_iff.1 hb).1
  have hpos : 0 < b64Mag b := by
    have h : (0 : ℚ) < b64Mag b := by
      rw [← hmb]
      exact mul_pos (abs_pos.2 hy) pow_unit_pos
    exact Nat.cast_pos.1 h
  unfold b64Div
  simp only [b64IsNan_of_finite hfa, b64IsNan_of_finite hfb, b64IsInf_of_finite hfa, b64IsInf_of_finite hfb,
    Bool.or_self, Bool.false_eq_true, if_false, hpos.ne']
  refine roundedFrom_b64Round hpos ?_ fun hne => ?_
  · have hmul : b64Sig a * 2 ^ b64Scale a * 2 ^ 1074 = b64Mag a * 2 ^ 1074 := rfl
    rw [hmul, show b64Sig b * 2 ^ b64Scale b = b64Mag b from rfl, Nat.cast_mul, ← hma, ← hmb, abs_div, Nat.cast_pow,
      Nat.cast_ofNat]
    have habs : |y| ≠ 0 := abs_ne_zero.2 hy
    field_simp
  · obtain ⟨hx, -⟩ := div_ne_zero_iff.1 hne
    refine sign_xor hsa hsb hx hy ?_
    rw [div_neg_iff, or_comm]

end Operations

/-! ### The operations of every format -/

section Formats

variable {f : NumFormat} {a b : NumWord} {x y : ℚ} (ha : numExact f a = some x) (hb : numExact f b = some y)

include ha hb

theorem roundedFrom_numAdd : roundedFrom f (numAdd f a b) (x + y) := by
  cases f with
  | binary64 => exact roundedFrom_b64Add ha hb
  | other id => rw [numAdd, numOp_other ha hb rfl]; exact roundedFrom_numRounded (.other id) _

theorem roundedFrom_numSub : roundedFrom f (numSub f a b) (x - y) := by
  cases f with
  | binary64 => exact roundedFrom_b64Sub ha hb
  | other id => rw [numSub, numOp_other ha hb rfl]; exact roundedFrom_numRounded (.other id) _

theorem roundedFrom_numMul : roundedFrom f (numMul f a b) (x * y) := by
  cases f with
  | binary64 => exact roundedFrom_b64Mul ha hb
  | other id => rw [numMul, numOp_other ha hb rfl]; exact roundedFrom_numRounded (.other id) _

theorem roundedFrom_numDiv (hy : y ≠ 0) : roundedFrom f (numDiv f a b) (x / y) := by
  cases f with
  | binary64 => exact roundedFrom_b64Div ha hb hy
  | other id => rw [numDiv, numOp_other ha hb (show numOpExact .div x y = some (x / y) from if_neg hy)]; exact roundedFrom_numRounded (.other id) _

end Formats

/-- `toN` is the rounding of the integer. -/
theorem numOfNat_eq (f : NumFormat) (k : Nat) : numOfNat f k = numRounded f k := by
  cases f with
  | binary64 =>
    have hneg : decide ((k : ℚ) < 0) = false := decide_eq_false (Nat.cast_nonneg k).not_gt
    show b64Round false (k * 2 ^ 1074) 1 =
      b64Round (decide ((k : ℚ) < 0)) ((k : ℚ).num.natAbs * 2 ^ 1074) (k : ℚ).den
    rw [hneg, Rat.num_natCast, Rat.den_natCast, Int.natAbs_natCast]
  | other id => rfl

end Sys2Proof.Machine
end

section
/-! PROOF. The rounding of binary64: sign, overflow, the nearest value with ties to even, and the exact integers
(00_scope.md R8, R11). -/

namespace Sys2Proof.Machine

/-- The low 63 bits of the rounded value, before they are cut at infinity. -/
def roundedLow (q : ℚ) : Nat := roundLow (q.num.natAbs * 2 ^ 1074) q.den

theorem numRounded_binary64 (q : ℚ) :
    numRounded .binary64 q = b64Pack (decide (q < 0)) (min (roundedLow q) (2047 * 2 ^ 52)) := rfl

theorem cut_lt (L : Nat) : min L (2047 * 2 ^ 52) < 2 ^ 63 := (Nat.min_le_right _ _).trans_lt (by decide)

theorem numRounded_sign (q : ℚ) : (numRounded .binary64 q).getLsbD 63 = true ↔ q < 0 := by
  have h := b64Sign_pack (decide (q < 0)) _ (cut_lt (roundedLow q))
  rw [numRounded_binary64]
  exact (Bool.eq_iff_iff.1 h).trans decide_eq_true_iff

/-! ### Overflow -/

theorem overflow_bound_mul : (2 ^ 1024 - 2 ^ 970 : ℚ) * 2 ^ 1074 = ((2 ^ 54 - 1 : Nat) : ℚ) * 2 ^ 2044 := by
  have h1 : (2 : ℚ) ^ 1024 = 2 ^ 54 * 2 ^ 970 := by rw [← pow_add]
  have h2 : (2 : ℚ) ^ 2044 = 2 ^ 970 * 2 ^ 1074 := by rw [← pow_add]
  have h3 : ((2 ^ 54 - 1 : Nat) : ℚ) = 2 ^ 54 - 1 := by norm_num
  rw [h1, h2, h3]
  generalize (2 : ℚ) ^ 970 = x
  generalize (2 : ℚ) ^ 1074 = u
  ring

theorem roundedLow_overflows_iff (q : ℚ) : 2047 * 2 ^ 52 ≤ roundedLow q ↔ 2 ^ 1024 - 2 ^ 970 ≤ |q| := by
  have hden : (0 : ℚ) < q.den := Nat.cast_pos.2 q.den_pos
  unfold roundedLow
  rw [round_overflows_iff _ _ q.den_pos, ← mul_le_mul_iff_left₀ pow_unit_pos, abs_mul_unit, overflow_bound_mul,
    le_div_iff₀ hden, ← Nat.cast_le (α := ℚ), Nat.cast_mul ((2 ^ 54 - 1) * 2 ^ 2044), Nat.cast_mul (2 ^ 54 - 1),
    Nat.cast_pow, Nat.cast_ofNat]

theorem numRounded_overflow {q : ℚ} (h : 2 ^ 1024 - 2 ^ 970 ≤ |q|) :
    numRounded .binary64 q = if q < 0 then 0xFFF0000000000000#64 else 0x7FF0000000000000#64 := by
  rw [numRounded_binary64, Nat.min_eq_right ((roundedLow_overflows_iff q).2 h)]
  by_cases hneg : q < 0
  · rw [if_pos hneg, decide_eq_true hneg]
    rfl
  · rw [if_neg hneg, decide_eq_false hneg]
    rfl

/-! ### The nearest value -/

/-- The value of the rounded word, in units of 2^-1074. -/
def roundedValue (q : ℚ) : Int := if q < 0 then -(b64MagOf (roundedLow q) : Int) else (b64MagOf (roundedLow q) : Int)

theorem numExact_numRounded {q : ℚ} (h : |q| < 2 ^ 1024 - 2 ^ 970) :
    numExact .binary64 (numRounded .binary64 q) = some ((roundedValue q : ℚ) / 2 ^ 1074) := by
  have hlow : roundedLow q < 2047 * 2 ^ 52 := Nat.lt_of_not_le fun h' => absurd ((roundedLow_overflows_iff q).1 h') h.not_ge
  have hmin : min (roundedLow q) (2047 * 2 ^ 52) = roundedLow q := Nat.min_eq_left hlow.le
  have hpack := b64Low_pack (decide (q < 0)) _ (cut_lt (roundedLow q))
  have hsign := b64Sign_pack (decide (q < 0)) _ (cut_lt (roundedLow q))
  rw [numRounded_binary64]
  refine numExact_binary64_iff.2 ⟨(b64Finite_iff _).2 (by rw [hpack, hmin]; exact hlow), ?_⟩
  rw [b64Value_eq, hpack, hsign, hmin]
  simp only [decide_eq_true_iff]
  rfl

/-- The exact value itself, in units of 2^-1074 and over its denominator. -/
def exactUnits (q : ℚ) : Int := q.num * 2 ^ 1074

theorem exactUnits_eq (q : ℚ) : exactUnits q =
    if q < 0 then -((q.num.natAbs * 2 ^ 1074 : Nat) : Int) else ((q.num.natAbs * 2 ^ 1074 : Nat) : Int) := by
  unfold exactUnits
  rw [Nat.cast_mul, Nat.cast_pow, Nat.cast_ofNat]
  by_cases h : q < 0
  · rw [if_pos h, Int.ofNat_natAbs_of_nonpos (Rat.num_neg.2 h).le, neg_mul, neg_neg]
  · rw [if_neg h, Int.natAbs_of_nonneg (Rat.num_nonneg.2 (not_lt.1 h))]

/-- The distance from a value to the exact one. -/
theorem abs_value_sub (v : Int) (q : ℚ) :
    |(v : ℚ) / 2 ^ 1074 - q| = (((v * q.den - exactUnits q).natAbs : Nat) : ℚ) / (q.den * 2 ^ 1074) := by
  have hden : (0 : ℚ) < q.den := Nat.cast_pos.2 q.den_pos
  have hdiff : (v : ℚ) / 2 ^ 1074 - q = ((v * q.den - exactUnits q : Int) : ℚ) / (q.den * 2 ^ 1074) := by
    unfold exactUnits
    rw [eq_div_iff (mul_pos hden pow_unit_pos).ne', Int.cast_sub, Int.cast_mul, Int.cast_natCast, Int.cast_mul,
      Int.cast_pow, Int.cast_ofNat, sub_mul, ← Rat.mul_den_eq_num q]
    have hunit := pow_unit_pos.ne'
    generalize (2 : ℚ) ^ 1074 = u at hunit ⊢
    field_simp
  rw [hdiff, abs_div, abs_of_pos (mul_pos hden pow_unit_pos), Nat.cast_natAbs, Int.cast_abs]

/-- The rounded value is the nearest of all finite ones, with an even significand of two equally near. -/
theorem roundedValue_nearest (q : ℚ) (c : NumWord) :
    (roundedValue q * q.den - exactUnits q).natAbs ≤ (b64Value c * q.den - exactUnits q).natAbs ∧
    ((roundedValue q * q.den - exactUnits q).natAbs = (b64Value c * q.den - exactUnits q).natAbs →
      b64Value c ≠ roundedValue q → roundSig (q.num.natAbs * 2 ^ 1074) q.den % 2 = 0) := by
  have hc := b64MagOf_nearest (q.num.natAbs * 2 ^ 1074) q.den q.den_pos (b64Low c)
  have h0 := b64MagOf_nearest (q.num.natAbs * 2 ^ 1074) q.den q.den_pos 0
  have hk0 : b64MagOf (b64Low c) * q.den = 0 → b64MagOf (b64Low c) = 0 := fun h =>
    (Nat.mul_eq_zero.1 h).resolve_right q.den_nz
  rw [exactUnits_eq, b64Value_eq]
  unfold roundedValue roundedLow
  rw [b64MagOf_zero, Nat.zero_mul] at h0
  generalize roundSig (q.num.natAbs * 2 ^ 1074) q.den = sig at *
  generalize b64MagOf (roundLow (q.num.natAbs * 2 ^ 1074) q.den) = m at *
  generalize q.num.natAbs * 2 ^ 1074 = p at *
  generalize b64MagOf (b64Low c) = k at *
  have hm : ((m : Int) * q.den) = ((m * q.den : Nat) : Int) := (Nat.cast_mul _ _).symm
  have hk : ((k : Int) * q.den) = ((k * q.den : Nat) : Int) := (Nat.cast_mul _ _).symm
  by_cases hneg : q < 0
  · rw [if_pos hneg, if_pos hneg, neg_mul, hm]
    cases b64Sign c with
    | false =>
      simp only [Bool.false_eq_true, if_false, hk]
      omega
    | true =>
      simp only [if_true, neg_mul, hk]
      omega
  · rw [if_neg hneg, if_neg hneg, hm]
    cases b64Sign c with
    | false =>
      simp only [Bool.false_eq_true, if_false, hk]
      omega
    | true =>
      simp only [if_true, neg_mul, hk]
      omega

/-- Below the overflow bound the rounded word is finite and nearest, with an even last bit of two equally near. -/
theorem numRounded_nearest {q : ℚ} (h : |q| < 2 ^ 1024 - 2 ^ 970) :
    ∃ v, numExact .binary64 (numRounded .binary64 q) = some v ∧
      ∀ (c : NumWord) (w : ℚ), numExact .binary64 c = some w →
        |v - q| ≤ |w - q| ∧ (|v - q| = |w - q| → w ≠ v → (numRounded .binary64 q).getLsbD 0 = false) := by
  refine ⟨_, numExact_numRounded h, fun c w hw => ?_⟩
  obtain ⟨-, rfl⟩ := numExact_binary64_iff.1 hw
  obtain ⟨hle, htie⟩ := roundedValue_nearest q c
  have hpos : (0 : ℚ) < q.den * 2 ^ 1074 := mul_pos (Nat.cast_pos.2 q.den_pos) pow_unit_pos
  rw [abs_value_sub, abs_value_sub, div_le_div_iff_of_pos_right hpos, Nat.cast_le, div_left_inj' hpos.ne', Nat.cast_inj]
  refine ⟨hle, fun heq hne => ?_⟩
  have hsig := htie heq fun h' => hne (by rw [h'])
  have hlow : roundedLow q < 2047 * 2 ^ 52 := Nat.lt_of_not_le fun h' => absurd ((roundedLow_overflows_iff q).1 h') h.not_ge
  rw [numRounded_binary64, getLsbD_zero_pack, Nat.min_eq_left hlow.le]
  refine decide_eq_false ?_
  unfold roundedLow roundLow
  omega

/-! ### Exact integers -/

/-- Every integer below 2^53 is a magnitude. -/
theorem exists_b64MagOf {k : Nat} (h : k < 2 ^ 53) : ∃ L, b64MagOf L = k * 2 ^ 1074 := by
  by_cases h0 : k = 0
  · exact ⟨0, by rw [h0, Nat.zero_mul]; rfl⟩
  · have hlo := Nat.log2_self_le h0
    have hhi := Nat.lt_log2_self (n := k)
    have he : Nat.log2 k ≤ 52 := Nat.lt_succ_iff.1 ((Nat.log2_lt h0).2 h)
    generalize Nat.log2 k = e at *
    have hn1 : 2 ^ 52 ≤ k * 2 ^ (52 - e) := by
      calc 2 ^ 52 = 2 ^ e * 2 ^ (52 - e) := by rw [← pow_add, Nat.add_sub_cancel' he]
        _ ≤ k * 2 ^ (52 - e) := Nat.mul_le_mul_right _ hlo
    have hn2 : k * 2 ^ (52 - e) ≤ 2 ^ 53 := by
      calc k * 2 ^ (52 - e) ≤ 2 ^ (e + 1) * 2 ^ (52 - e) := Nat.mul_le_mul_right _ hhi.le
        _ = 2 ^ 53 := by rw [← pow_add, show e + 1 + (52 - e) = 53 by omega]
    refine ⟨(1022 + e) * 2 ^ 52 + k * 2 ^ (52 - e), ?_⟩
    rw [b64MagOf_scaled _ _ (.inr hn1) hn2, Nat.mul_assoc, ← pow_add, show 52 - e + (1022 + e) = 1074 by omega]

theorem b64MagOf_roundLow_natCast {k : Nat} (h : k < 2 ^ 53) :
    b64MagOf (roundLow (k * 2 ^ 1074) 1) = k * 2 ^ 1074 := by
  obtain ⟨L, hL⟩ := exists_b64MagOf h
  have hnear := (b64MagOf_nearest (k * 2 ^ 1074) 1 Nat.one_pos L).1
  rw [hL] at hnear
  generalize b64MagOf (roundLow (k * 2 ^ 1074) 1) = m at *
  generalize k * 2 ^ 1074 = p at *
  omega

theorem roundLow_natCast_lt {k : Nat} (h : k < 2 ^ 53) : roundLow (k * 2 ^ 1074) 1 < 2047 * 2 ^ 52 := by
  refine Nat.lt_of_not_le fun h' => ?_
  have hle := (round_overflows_iff (k * 2 ^ 1074) 1 Nat.one_pos).1 h'
  have hsplit : (2 : Nat) ^ 2044 = 2 ^ 970 * 2 ^ 1074 := by rw [← pow_add]
  have hpow : (2 : Nat) ^ 53 ≤ 2 ^ 970 := pow_le_pow_right₀ one_le_two (by decide)
  have hlt : k * 2 ^ 1074 < 2 ^ 970 * 2 ^ 1074 :=
    Nat.mul_lt_mul_of_pos_right (h.trans_le hpow) (pow_pos Nat.two_pos _)
  rw [Nat.mul_one, hsplit] at hle
  have hone : 2 ^ 970 * 2 ^ 1074 ≤ (2 ^ 54 - 1) * (2 ^ 970 * 2 ^ 1074) := Nat.le_mul_of_pos_left _ (by decide)
  exact absurd (hone.trans hle) (Nat.not_le.2 hlt)

/-- `toN` is exact below 2^53. -/
theorem numExact_numOfNat (f : NumFormat) {k : Nat} (h : k < 2 ^ 53) : numExact f (numOfNat f k) = some (k : ℚ) := by
  cases f with
  | binary64 =>
    have hlow := roundLow_natCast_lt h
    have hpack := b64Low_pack false _ (cut_lt (roundLow (k * 2 ^ 1074) 1))
    have hsign := b64Sign_pack false _ (cut_lt (roundLow (k * 2 ^ 1074) 1))
    rw [Nat.min_eq_left hlow.le] at hpack hsign
    have hof : numOfNat .binary64 k = b64Pack false (roundLow (k * 2 ^ 1074) 1) :=
      (b64Round_eq _ _ _).trans (by rw [Nat.min_eq_left hlow.le])
    rw [hof]
    refine numExact_binary64_iff.2 ⟨(b64Finite_iff _).2 (by rwa [hpack]), ?_⟩
    rw [b64Value_eq, hpack, hsign, b64MagOf_roundLow_natCast h]
    simp only [Bool.false_eq_true, if_false]
    rw [Int.cast_natCast, Nat.cast_mul, Nat.cast_pow, Nat.cast_ofNat, mul_div_cancel_right₀ _ pow_unit_pos.ne']
  | other id =>
    rw [show numOfNat (.other id) k = otherRound id k from rfl, otherRound_natCast id h]
    exact otherExact_code id h

/-- Settles O31: comparisons, operations, `toN` and the rounding of binary64. -/
theorem numRoundsOnce : Obligations.NumRoundsOnce := by
  refine ⟨fun f a b x y ha hb => ⟨numLt_iff ha hb, numEq_iff ha hb, numAbsLt_iff ha hb, numLtAbs_iff ha hb,
    roundedFrom_numAdd ha hb, roundedFrom_numSub ha hb, roundedFrom_numMul ha hb, fun hy => roundedFrom_numDiv ha hb hy⟩,
    numOfNat_eq, ?_, fun f k h => numExact_numOfNat f h⟩
  intro q r
  exact ⟨numRounded_sign q, numRounded_overflow, numRounded_nearest⟩

end Sys2Proof.Machine
end

section
/-! PROOF. STAT_UPDATE: the sampled records, the least and the greatest sampled time, the bandwidths, and the loss while
nothing is held (44_smoother.md R183 to R187). -/

namespace Sys2Proof.Machine

/-! ### The sampled times -/

/-- The exact value of a finite word. -/
def exactValue (f : NumFormat) (a : NumWord) : ℚ := (numExact f a).getD 0

theorem numExact_of_finite {f : NumFormat} {a : NumWord} (h : numFinite f a = true) :
    numExact f a = some (exactValue f a) := by
  obtain ⟨x, hx⟩ := Option.isSome_iff_exists.1 h
  rw [exactValue, hx, Option.getD_some]

section Order

variable {f : NumFormat} {a b : NumWord} (ha : numFinite f a = true) (hb : numFinite f b = true)

include ha hb

theorem numLt_iff_value : numLt f a b = true ↔ exactValue f a < exactValue f b :=
  numLt_iff (numExact_of_finite ha) (numExact_of_finite hb)

theorem numLt_eq_false_iff : numLt f a b = false ↔ exactValue f b ≤ exactValue f a := by
  rw [← Bool.not_eq_true, numLt_iff_value ha hb, not_lt]

end Order

/-- `pick` gives one of two finite words, with the lesser key. -/
def picksLeast (f : NumFormat) (pick : NumWord → NumWord → NumWord) (key : NumWord → ℚ) : Prop :=
  ∀ a b, numFinite f a = true → numFinite f b = true →
    (pick a b = a ∨ pick a b = b) ∧ key (pick a b) ≤ key a ∧ key (pick a b) ≤ key b

theorem numMin_picksLeast (f : NumFormat) : picksLeast f (numMin f) (exactValue f) := by
  intro a b ha hb
  unfold numMin
  split
  · next h => exact ⟨.inr rfl, ((numLt_iff_value hb ha).1 h).le, le_rfl⟩
  · next h => exact ⟨.inl rfl, le_rfl, (numLt_eq_false_iff hb ha).1 (Bool.eq_false_iff.2 h)⟩

theorem numMax_picksLeast (f : NumFormat) : picksLeast f (numMax f) (fun a => -exactValue f a) := by
  intro a b ha hb
  unfold numMax
  split
  · next h => exact ⟨.inr rfl, neg_le_neg ((numLt_iff_value ha hb).1 h).le, le_rfl⟩
  · next h => exact ⟨.inl rfl, le_rfl, neg_le_neg ((numLt_eq_false_iff ha hb).1 (Bool.eq_false_iff.2 h))⟩

theorem bwFold_cons_cons (pick : NumWord → NumWord → NumWord) (x y : NumWord × U32) (ys : List (NumWord × U32)) :
    bwFold pick (x :: y :: ys) = bwFold pick ((pick x.1 y.1, y.2) :: ys) := rfl

/-- Merging sampled times by `pick` gives one of them, with the least key. -/
theorem bwFold_least {f : NumFormat} {pick : NumWord → NumWord → NumWord} {key : NumWord → ℚ} (h : picksLeast f pick key)
    (x : NumWord × U32) (xs : List (NumWord × U32)) (hfin : ∀ y ∈ x :: xs, numFinite f y.1 = true) :
    (∃ y ∈ x :: xs, bwFold pick (x :: xs) = y.1) ∧ ∀ y ∈ x :: xs, key (bwFold pick (x :: xs)) ≤ key y.1 := by
  induction xs generalizing x with
  | nil =>
    refine ⟨⟨x, List.mem_singleton_self x, rfl⟩, fun y hy => ?_⟩
    rw [List.mem_singleton.1 hy]
    exact le_rfl
  | cons y ys ih =>
    rw [List.forall_mem_cons, List.forall_mem_cons] at hfin
    obtain ⟨hx, hy, hys⟩ := hfin
    obtain ⟨hsel, hlex, hley⟩ := h x.1 y.1 hx hy
    have hpick : numFinite f (pick x.1 y.1) = true := by
      rcases hsel with hsel | hsel
      · rw [hsel, hx]
      · rw [hsel, hy]
    obtain ⟨⟨z, hz, hfold⟩, hle⟩ := ih (pick x.1 y.1, y.2) (List.forall_mem_cons.2 ⟨hpick, hys⟩)
    obtain ⟨hle0, hleys⟩ := List.forall_mem_cons.1 hle
    rw [bwFold_cons_cons]
    refine ⟨?_, List.forall_mem_cons.2 ⟨hle0.trans hlex, List.forall_mem_cons.2 ⟨hle0.trans hley, hleys⟩⟩⟩
    rcases List.mem_cons.1 hz with rfl | hz
    · rcases hsel with hsel | hsel
      · exact ⟨x, List.mem_cons_self, hfold.trans hsel⟩
      · exact ⟨y, List.mem_cons_of_mem _ List.mem_cons_self, hfold.trans hsel⟩
    · exact ⟨z, List.mem_cons_of_mem _ (List.mem_cons_of_mem _ hz), hfold⟩

section Times

variable {f : NumFormat} {xs : List (NumWord × U32)} (hne : xs ≠ []) (hfin : ∀ x ∈ xs, numFinite f x.1 = true)

include hne hfin

theorem bwFirst_least : (∃ x ∈ xs, bwFirst f xs = x.1) ∧ ∀ x ∈ xs, exactValue f (bwFirst f xs) ≤ exactValue f x.1 := by
  cases xs with
  | nil => exact absurd rfl hne
  | cons x xs => exact bwFold_least (numMin_picksLeast f) x xs hfin

theorem bwLast_greatest : (∃ x ∈ xs, bwLast f xs = x.1) ∧ ∀ x ∈ xs, exactValue f x.1 ≤ exactValue f (bwLast f xs) := by
  cases xs with
  | nil => exact absurd rfl hne
  | cons x xs =>
    obtain ⟨hmem, hle⟩ := bwFold_least (numMax_picksLeast f) x xs hfin
    exact ⟨hmem, fun y hy => neg_le_neg_iff.1 (hle y hy)⟩

theorem bwFirst_finite : numFinite f (bwFirst f xs) = true := by
  obtain ⟨⟨x, hx, h⟩, -⟩ := bwFirst_least hne hfin
  rw [h, hfin x hx]

theorem bwLast_finite : numFinite f (bwLast f xs) = true := by
  obtain ⟨⟨x, hx, h⟩, -⟩ := bwLast_greatest hne hfin
  rw [h, hfin x hx]

/-- The time span is positive exactly when some sampled time is later than the first. -/
theorem bwFirst_lt_bwLast_iff :
    numLt f (bwFirst f xs) (bwLast f xs) = true ↔ ∃ x ∈ xs, numLt f (bwFirst f xs) x.1 = true := by
  have hfirst := bwFirst_finite hne hfin
  obtain ⟨⟨y, hy, hlast⟩, hle⟩ := bwLast_greatest hne hfin
  refine ⟨fun h => ⟨y, hy, hlast ▸ h⟩, ?_⟩
  rintro ⟨x, hx, h⟩
  exact (numLt_iff_value hfirst (bwLast_finite hne hfin)).2
    (((numLt_iff_value hfirst (hfin x hx)).1 h).trans_le (hle x hx))

end Times

/-! ### The bandwidths -/

theorem bwNext_eq {num : NumFormat} {xs : List (NumWord × U32)} (eps f v : NumWord)
    (hfin : ∀ x ∈ xs, numFinite num x.1 = true) :
    bwNext num eps f v xs = if xs.any (fun x => numLt num (bwFirst num xs) x.1) then
        smooth num eps v (numDiv num (numMul num (numDiv num (numOfNat num (xs.map fun x => x.2.toNat).sum)
          (numSub num (bwLast num xs) (bwFirst num xs))) (numOfNat num 8)) (numOfNat num 1000)) f
      else v := by
  have hcond : (xs ≠ [] ∧ numLt num (bwFirst num xs) (bwLast num xs) = true) ↔
      xs.any (fun x => numLt num (bwFirst num xs) x.1) = true := by
    rw [List.any_eq_true]
    constructor
    · rintro ⟨hne, hlt⟩
      exact (bwFirst_lt_bwLast_iff hne hfin).1 hlt
    · rintro ⟨x, hx, hlt⟩
      have hne := List.ne_nil_of_mem hx
      exact ⟨hne, (bwFirst_lt_bwLast_iff hne hfin).2 ⟨x, hx, hlt⟩⟩
  by_cases h : xs.any (fun x => numLt num (bwFirst num xs) x.1) = true
  · rw [if_pos h, bwNext, bwRaw, if_pos (hcond.2 h)]
    rfl
  · rw [if_neg h, bwNext, bwRaw, if_neg (mt hcond.1 h)]

theorem bwNext_nil (num : NumFormat) (eps f v : NumWord) : bwNext num eps f v [] = v := rfl

/-! ### The sampled records -/

theorem filterMap_sbFind (B : SeqBuf) (qs : List U16) :
    qs.filterMap (sbFind B) = (qs.filter fun q => decide (B.tag (B.slot q) = some q)).map B.slot := by
  induction qs with
  | nil => rfl
  | cons q qs ih =>
    by_cases h : B.tag (B.slot q) = some q
    · rw [List.filterMap_cons_some (sbFind_of_tag h), List.filter_cons, if_pos (decide_eq_true h), List.map_cons, ih]
    · rw [List.filterMap_cons_none (sbFind_eq_none.2 h), List.filter_cons, if_neg (by rwa [decide_eq_true_iff]), ih]

/-- With no sampled sequence found, nothing is sampled. -/
theorem sbSampledSlots_eq_nil {B : SeqBuf}
    (h : ∀ i, i < B.n.toNat / 2 → sbFind B (B.oldest + BitVec.ofNat 16 i) = none) : sbSampledSlots B = [] := by
  refine List.filterMap_eq_nil_iff.2 fun q hq => ?_
  obtain ⟨i, hi, rfl⟩ := List.mem_map.1 hq
  exact h i (List.mem_range.1 hi)

/-- What the four updates leave. -/
theorem State.statUpdate_eq (s : State) : s.statUpdate = { s with stats :=
    { rtt := s.stats.rtt
      loss := smooth s.params.num s.params.snapEps s.stats.loss s.rawLoss s.cfg.lossFactor
      sentKbps := bwNext s.params.num s.params.snapEps s.cfg.bandwidthFactor s.stats.sentKbps s.sentPairs
      recvKbps := bwNext s.params.num s.params.snapEps s.cfg.bandwidthFactor s.stats.recvKbps s.recvPairs
      ackedKbps := bwNext s.params.num s.params.snapEps s.cfg.bandwidthFactor s.stats.ackedKbps s.ackedPairs } } := rfl

section FiniteTimes

variable {s : State}

theorem State.sentTime_finite (h : ∀ k, numFinite s.params.num (s.sentRecord k).time = true) :
    ∀ r ∈ s.sampledSent, numFinite s.params.num r.time = true := by
  intro r hr
  obtain ⟨k, -, rfl⟩ := List.mem_map.1 hr
  exact h k

theorem State.sentPairs_finite (h : ∀ k, numFinite s.params.num (s.sentRecord k).time = true) :
    ∀ x ∈ s.sentPairs, numFinite s.params.num x.1 = true := by
  intro x hx
  obtain ⟨r, hr, rfl⟩ := List.mem_map.1 hx
  exact State.sentTime_finite h r hr

theorem State.ackedPairs_finite (h : ∀ k, numFinite s.params.num (s.sentRecord k).time = true) :
    ∀ x ∈ s.ackedPairs, numFinite s.params.num x.1 = true := by
  intro x hx
  obtain ⟨r, hr, rfl⟩ := List.mem_map.1 hx
  exact State.sentTime_finite h r (List.mem_filter.1 hr).1

theorem State.recvPairs_finite (h : ∀ k, numFinite s.params.num (s.recvRecord k).time = true) :
    ∀ x ∈ s.recvPairs, numFinite s.params.num x.1 = true := by
  intro x hx
  obtain ⟨r, hr, rfl⟩ := List.mem_map.1 hx
  obtain ⟨k, -, rfl⟩ := List.mem_map.1 hr
  exact h k

end FiniteTimes

/-- Settles O34: the extreme times, and STAT_UPDATE through the lists it samples. -/
theorem statUpdateRecomputes : Obligations.StatUpdateRecomputes := by
  refine ⟨fun num xs hne hfin => ?_, ?_⟩
  · obtain ⟨hfirst, hleast⟩ := bwFirst_least hne hfin
    obtain ⟨hlast, hgreatest⟩ := bwLast_greatest hne hfin
    exact ⟨hfirst, fun x hx => (numLt_eq_false_iff (hfin x hx) (bwFirst_finite hne hfin)).2 (hleast x hx),
      hlast, fun x hx => (numLt_eq_false_iff (bwLast_finite hne hfin) (hfin x hx)).2 (hgreatest x hx)⟩
  · intro s hc num kbps held sentHeld hsent hrecv
    have hheld : ∀ B, sbSampledSlots B = held B := fun B => filterMap_sbFind B (sbSamples B)
    have hsentHeld : s.sampledSent = sentHeld := congrArg (List.map s.sentRecord) (hheld s.sent)
    have hrecvHeld : s.sampledRecv = (held s.recv).map s.recvRecord := congrArg (List.map s.recvRecord) (hheld s.recv)
    rw [exec_statUpdate_of_configured hc, State.statUpdate_eq, bwNext_eq _ _ _ (State.sentPairs_finite hsent),
      bwNext_eq _ _ _ (State.recvPairs_finite hrecv), bwNext_eq _ _ _ (State.ackedPairs_finite hsent),
      State.rawLoss, List.countP_eq_length_filter, State.sentPairs, State.recvPairs, State.ackedPairs, hsentHeld, hrecvHeld]
    rfl

/-! ### No sampled sequence -/

theorem b64Finite_numOfNat {k : Nat} (h : k < 2 ^ 53) : b64Finite (numOfNat .binary64 k) = true :=
  (numExact_binary64_iff.1 (numExact_numOfNat .binary64 h)).1

theorem b64Sign_numOfNat (k : Nat) : b64Sign (numOfNat .binary64 k) = false := by
  rw [numOfNat_eq, Bool.eq_false_iff]
  exact mt (numRounded_sign k).1 (Nat.cast_nonneg k).not_gt

theorem b64Mag_numOfNat_pos {k : Nat} (hk : 0 < k) (h : k < 2 ^ 53) : 0 < b64Mag (numOfNat .binary64 k) := by
  have hmag := (value_sign_mag (numExact_numOfNat .binary64 h)).1
  have hpos : (0 : ℚ) < |(k : ℚ)| * 2 ^ 1074 := mul_pos (abs_pos.2 (Nat.cast_ne_zero.2 hk.ne')) pow_unit_pos
  rw [hmag] at hpos
  exact Nat.cast_pos.1 hpos

theorem numOfNat_binary64_zero : numOfNat .binary64 0 = 0 :=
  (congrArg (fun p => b64Round false p 1) (Nat.zero_mul _)).trans (b64Round_zero false Nat.one_pos)

theorem b64Round_zero_eq {p q : Nat} (hp : p = 0) (hq : 0 < q) : b64Round false p q = 0 := by
  rw [hp, b64Round_zero false hq]
  rfl

theorem b64Div_zero_numOfNat {k : Nat} (hk : 0 < k) (h : k < 2 ^ 53) : b64Div 0 (numOfNat .binary64 k) = 0 := by
  have hfin := b64Finite_numOfNat h
  have hpos := b64Mag_numOfNat_pos hk h
  have hsign : (b64Sign 0 != b64Sign (numOfNat .binary64 k)) = false := by rw [b64Sign_numOfNat]; rfl
  have hnan : (b64IsNan 0 || b64IsNan (numOfNat .binary64 k)) = false := by rw [b64IsNan_of_finite hfin]; rfl
  have hsig : b64Sig 0 = 0 := rfl
  unfold b64Div
  rw [hnan, hsign, b64IsInf_of_finite hfin, if_neg Bool.false_ne_true, if_neg (show b64IsInf 0 ≠ true by decide),
    if_neg Bool.false_ne_true, if_neg hpos.ne']
  exact b64Round_zero_eq (by rw [hsig, Nat.zero_mul, Nat.zero_mul]) hpos

theorem b64Mul_zero_numOfNat {k : Nat} (h : k < 2 ^ 53) : b64Mul 0 (numOfNat .binary64 k) = 0 := by
  have hfin := b64Finite_numOfNat h
  have hsign : (b64Sign 0 != b64Sign (numOfNat .binary64 k)) = false := by rw [b64Sign_numOfNat]; rfl
  have hnan : (b64IsNan 0 || b64IsNan (numOfNat .binary64 k)) = false := by rw [b64IsNan_of_finite hfin]; rfl
  have hsig : b64Sig 0 = 0 := rfl
  unfold b64Mul
  rw [hnan, hsign, b64IsInf_of_finite hfin, if_neg Bool.false_ne_true, if_neg (show b64IsInf 0 ≠ true by decide),
    if_neg Bool.false_ne_true]
  exact b64Round_zero_eq (by rw [hsig, Nat.zero_mul, Nat.zero_mul]) (pow_pos Nat.two_pos 1074)

/-- In binary64 the raw value of no loss is +0. -/
theorem noLoss_binary64 {k : Nat} (hk : 0 < k) (h : k < 2 ^ 53) :
    numMul .binary64 (numDiv .binary64 (numOfNat .binary64 0) (numOfNat .binary64 k)) (numOfNat .binary64 100) = 0 := by
  rw [numOfNat_binary64_zero]
  exact (congrArg (b64Mul · _) (b64Div_zero_numOfNat hk h)).trans (b64Mul_zero_numOfNat (by decide))

/-- Settles O35: nothing is sampled, so the count of losses is 0 and every bandwidth has no raw value. -/
theorem lossWarmsUpTowardZero : Obligations.LossWarmsUpTowardZero := by
  intro s hc hlo hhi hsent hrecv num raw
  constructor
  · intro hnum
    have hraw : raw = numMul num (numDiv num (numOfNat num 0) (numOfNat num (s.sent.n.toNat / 2))) (numOfNat num 100) := rfl
    rw [hraw, hnum]
    exact noLoss_binary64 (by omega) (by omega)
  · have hsentNil : s.sampledSent = [] := congrArg (List.map s.sentRecord) (sbSampledSlots_eq_nil hsent)
    have hrecvNil : s.sampledRecv = [] := congrArg (List.map s.recvRecord) (sbSampledSlots_eq_nil hrecv)
    rw [exec_statUpdate_of_configured hc, State.statUpdate_eq, State.rawLoss, State.sentPairs, State.recvPairs,
      State.ackedPairs, hsentNil, hrecvNil]
    rfl

end Sys2Proof.Machine
end
